-- ==== Sys2Proof/Word.lean ====
section
/-! DEFINITION. The word types of spec/00_scope.md R9 and R10: a byte (u8), a 16-bit half word (u16, i16) and a
32-bit word (u32, a packed pixel), and a file of four like things indexed 0..3. -/

namespace Sys2Proof

/-- u8 (R10). -/
abbrev Byte := BitVec 8

/-- u16, or i16 read through `toInt` (R10). -/
abbrev Half := BitVec 16

/-- u32, or i32 read through `toInt` (R10); a packed ARGB pixel (R87). -/
abbrev Word := BitVec 32

/-- A register file of four entries, numbered 0..3: COMP, QT and each class of HT (R35, R37, R38). -/
structure Quad (α : Type) where
  q0 : α
  q1 : α
  q2 : α
  q3 : α
deriving DecidableEq, Repr

/-- Entry `i` of a file of four. -/
def Quad.get {α : Type} (q : Quad α) : Fin 4 → α
  | 0 => q.q0
  | 1 => q.q1
  | 2 => q.q2
  | 3 => q.q3

/-- The file with entry `i` replaced. -/
def Quad.set {α : Type} (q : Quad α) : Fin 4 → α → Quad α
  | 0, v => { q with q0 := v }
  | 1, v => { q with q1 := v }
  | 2, v => { q with q2 := v }
  | 3, v => { q with q3 := v }

/-- Every entry changed by `f`. -/
def Quad.map {α β : Type} (f : α → β) (q : Quad α) : Quad β :=
  ⟨f q.q0, f q.q1, f q.q2, f q.q3⟩

/-- The same value in all four entries. -/
def Quad.all {α : Type} (v : α) : Quad α := ⟨v, v, v, v⟩

/-- The entries in order. -/
def Quad.toList {α : Type} (q : Quad α) : List α := [q.q0, q.q1, q.q2, q.q3]

end Sys2Proof
end

