-- ==== Sys2Proof/Syntax.lean ====
section
/-! DEFINITION. The instructions: one constructor per row of spec/opcode_table.json (80 rows), in the table's order:
marker codes, entropy symbols, host commands, operations of the arithmetic engine (R20). The operands of a marker
segment are bytes of the input view, read by the handler through NEED and IN (R286), so a marker's constructor carries
none; an entropy symbol carries the fields of its symbol byte; a host command carries its call's operands (R122). -/

namespace Sys2Proof

/-- An instruction of the core (R20). -/
inductive Instr where
  /-- FF 01, ignored (R331). -/
  | tem
  /-- Marker FF C0 (R293). -/
  | sof0
  /-- Marker FF C1 (R293). -/
  | sof1
  /-- Marker FF C2 (R293). -/
  | sof2
  /-- Marker FF C3 (R292). -/
  | sof3
  /-- Marker FF C5 (R292). -/
  | sof5
  /-- Marker FF C6 (R292). -/
  | sof6
  /-- Marker FF C7 (R292). -/
  | sof7
  /-- Marker FF C9 (R292). -/
  | sof9
  /-- Marker FF CA (R292). -/
  | sof10
  /-- Marker FF CB (R292). -/
  | sof11
  /-- Marker FF CD (R292). -/
  | sof13
  /-- Marker FF CE (R292). -/
  | sof14
  /-- Marker FF CF (R292). -/
  | sof15
  /-- Marker FF C4 (R302). -/
  | dht
  /-- Marker FF C8 (R330). -/
  | jpg
  /-- Marker FF CC (R330). -/
  | dac
  /-- Marker FF D0 (R318). -/
  | rst0
  /-- Marker FF D1 (R318). -/
  | rst1
  /-- Marker FF D2 (R318). -/
  | rst2
  /-- Marker FF D3 (R318). -/
  | rst3
  /-- Marker FF D4 (R318). -/
  | rst4
  /-- Marker FF D5 (R318). -/
  | rst5
  /-- Marker FF D6 (R318). -/
  | rst6
  /-- Marker FF D7 (R318). -/
  | rst7
  /-- Marker FF D8 (R282). -/
  | soi
  /-- Marker FF D9 (R325). -/
  | eoi
  /-- Marker FF DA (R310). -/
  | sos
  /-- Marker FF DB (R300). -/
  | dqt
  /-- Marker FF DC (R330). -/
  | dnl
  /-- Marker FF DD (R305). -/
  | dri
  /-- Marker FF DE (R330). -/
  | dhp
  /-- Marker FF DF (R330). -/
  | exp
  /-- Marker FF E0 (R320). -/
  | app0
  /-- Marker FF E1 (R321). -/
  | app1
  /-- Marker FF E2 (R322). -/
  | app2
  /-- Marker FF E3 (R330). -/
  | app3
  /-- Marker FF E4 (R330). -/
  | app4
  /-- Marker FF E5 (R330). -/
  | app5
  /-- Marker FF E6 (R330). -/
  | app6
  /-- Marker FF E7 (R330). -/
  | app7
  /-- Marker FF E8 (R330). -/
  | app8
  /-- Marker FF E9 (R330). -/
  | app9
  /-- Marker FF EA (R330). -/
  | app10
  /-- Marker FF EB (R330). -/
  | app11
  /-- Marker FF EC (R330). -/
  | app12
  /-- Marker FF ED (R330). -/
  | app13
  /-- Marker FF EE (R323). -/
  | app14
  /-- Marker FF EF (R330). -/
  | app15
  /-- Marker FF F0 (R330). -/
  | jpg0
  /-- Marker FF F1 (R330). -/
  | jpg1
  /-- Marker FF F2 (R330). -/
  | jpg2
  /-- Marker FF F3 (R330). -/
  | jpg3
  /-- Marker FF F4 (R330). -/
  | jpg4
  /-- Marker FF F5 (R330). -/
  | jpg5
  /-- Marker FF F6 (R330). -/
  | jpg6
  /-- Marker FF F7 (R330). -/
  | jpg7
  /-- Marker FF F8 (R330). -/
  | jpg8
  /-- Marker FF F9 (R330). -/
  | jpg9
  /-- Marker FF FA (R330). -/
  | jpg10
  /-- Marker FF FB (R330). -/
  | jpg11
  /-- Marker FF FC (R330). -/
  | jpg12
  /-- Marker FF FD (R330). -/
  | jpg13
  /-- Marker FF FE (R330). -/
  | com
  /-- FF m with m = 00 or 02..BF: not a recognized marker (R102). -/
  | res (m : Byte)
  /-- A DC category symbol t, 0..15 (R115, R200, R202). -/
  | dcDiff (t : BitVec 4)
  /-- The raw correction bit of a DC refinement block (R203). -/
  | dcRefineBit (b : Bool)
  /-- Symbol 0x00 (R116). -/
  | acEob
  /-- Symbol 0xF0 (R116). -/
  | acZrl
  /-- Symbol r<<4, r = 1..14 (R116). -/
  | acEobRun (r : BitVec 4)
  /-- Symbol r<<4 | s, s = 1..15 (R116). -/
  | acRunSize (r s : BitVec 4)
  /-- Host command 0x01 (R141). -/
  | decode (bytes : List Byte) (more : Bool)
  /-- Host command 0x02 (R153). -/
  | flushProgressive
  /-- Host command 0x03 (R154). -/
  | reset
  /-- Host command 0x10 (R393). -/
  | encInit (quality : Int) (width height : Nat)
  /-- Host command 0x11 (R405). -/
  | encScanline (row : List Word)
  /-- Host command 0x12 (R415). -/
  | encFinish
  /-- Host command 0x20 (R233). -/
  | mqInitDec (seg : List Byte)
  /-- Host command 0x21 (R235). -/
  | mqDecode (cx : Nat)
  /-- Host command 0x22 (R238). -/
  | mqResetCtx
deriving DecidableEq, Repr

/-- A call the host makes (R122): "calls, not bit patterns". -/
inductive HostCall where
  | decode (bytes : List Byte) (more : Bool)
  | flushProgressive
  | reset
  | encInit (quality : Int) (width height : Nat)
  | encScanline (row : List Word)
  | encFinish
  | mqInitDec (seg : List Byte)
  | mqDecode (cx : Nat)
  | mqResetCtx
deriving DecidableEq, Repr

end Sys2Proof
end

