-- ==== Sys2Proof/WellFormed.lean ====
section
/-! DEFINITION. Which instructions are well formed: the operand ranges of spec/30_encoding.md R102, R116 and R122. -/

namespace Sys2Proof

/-- The codes m of a pair FF m that is not a recognized marker (R102): 00 and 02..BF. -/
def reservedCode (m : Byte) : Bool := m == 0 || (decide (2 ≤ m.toNat) && decide (m.toNat ≤ 0xBF))

/-- Every operand is in the range the spec's encoding of the instruction gives it. The lengths of byte strings and the
context number are bounded by the 32-bit fields of the model's wire form of a call (log 3). -/
def Instr.wf : Instr → Bool
  | .res m => reservedCode m
  | .acEobRun r => decide (1 ≤ r.toNat) && decide (r.toNat ≤ 14)
  | .acRunSize _ s => decide (1 ≤ s.toNat)
  | .decode bytes _ => decide (bytes.length < 2 ^ 32)
  | .encInit q w h => decide (-2 ^ 31 ≤ q) && decide (q < 2 ^ 31) && decide (w < 2 ^ 16) && decide (h < 2 ^ 16)
  | .encScanline row => decide (row.length < 2 ^ 32)
  | .mqInitDec seg => decide (seg.length < 2 ^ 32)
  | .mqDecode cx => decide (cx < 2 ^ 32)
  | .tem => true
  | .sof0 => true
  | .sof1 => true
  | .sof2 => true
  | .sof3 => true
  | .sof5 => true
  | .sof6 => true
  | .sof7 => true
  | .sof9 => true
  | .sof10 => true
  | .sof11 => true
  | .sof13 => true
  | .sof14 => true
  | .sof15 => true
  | .dht => true
  | .jpg => true
  | .dac => true
  | .rst0 => true
  | .rst1 => true
  | .rst2 => true
  | .rst3 => true
  | .rst4 => true
  | .rst5 => true
  | .rst6 => true
  | .rst7 => true
  | .soi => true
  | .eoi => true
  | .sos => true
  | .dqt => true
  | .dnl => true
  | .dri => true
  | .dhp => true
  | .exp => true
  | .app0 => true
  | .app1 => true
  | .app2 => true
  | .app3 => true
  | .app4 => true
  | .app5 => true
  | .app6 => true
  | .app7 => true
  | .app8 => true
  | .app9 => true
  | .app10 => true
  | .app11 => true
  | .app12 => true
  | .app13 => true
  | .app14 => true
  | .app15 => true
  | .jpg0 => true
  | .jpg1 => true
  | .jpg2 => true
  | .jpg3 => true
  | .jpg4 => true
  | .jpg5 => true
  | .jpg6 => true
  | .jpg7 => true
  | .jpg8 => true
  | .jpg9 => true
  | .jpg10 => true
  | .jpg11 => true
  | .jpg12 => true
  | .jpg13 => true
  | .com => true
  | .dcDiff _ => true
  | .dcRefineBit _ => true
  | .acEob => true
  | .acZrl => true
  | .flushProgressive => true
  | .reset => true
  | .encFinish => true
  | .mqResetCtx => true

end Sys2Proof
end

