-- ==== Sys2Proof/Decode.lean ====
section
/-! DEFINITION. The decoder, total on any bytes and rejecting by name, and the encoder, both written from
spec/30_encoding.md. What a byte string is read as depends on where the core reads it (R124 "Nothing else changes
decoding except FSM state and the scan's mode"): at a marker, at a DC symbol, at an AC symbol, at a raw bit of a DC
refinement scan, or as a host command. -/

namespace Sys2Proof

/-- Where the bytes stand (R20's four kinds; the entropy symbols are three kinds of their own). -/
inductive FetchCtx where
  | marker
  | dcSymbol
  | acSymbol
  | rawBit
  | call
deriving DecidableEq, Repr

/-- Why bytes are no instruction. -/
inductive DecodeError where
  /-- The bytes end before the instruction does. -/
  | needMore
  /-- At a marker: the first byte is not 0xFF, a garbage byte (R284). -/
  | garbage
  /-- At a marker: FF FF, the first 0xFF is a fill byte (R101). -/
  | fill
  /-- A DC size symbol above 15 (R200: HUFF_DC_SIZE). -/
  | dcSize
  /-- A raw bit is 0 or 1. -/
  | notABit
  /-- No host command has this id (R122). -/
  | unknownCommand
  /-- The `more_available` operand is one bit (R122). -/
  | badFlag
deriving DecidableEq, Repr

/-- `BE16` of two bytes (R12, R85): the first byte is the most significant. -/
def be16 (hi lo : Byte) : Half := hi ++ lo

/-- The number four bytes hold, most significant first. -/
def be32 (a b c d : Byte) : Word := a ++ b ++ c ++ d

/-- The four bytes of a word, most significant first. -/
def bytesOf32 (w : Word) : List Byte :=
  [w.extractLsb' 24 8, w.extractLsb' 16 8, w.extractLsb' 8 8, w.extractLsb' 0 8]

/-- The two bytes of a half word, most significant first. -/
def bytesOf16 (w : Half) : List Byte := [w.extractLsb' 8 8, w.extractLsb' 0 8]

/-- Bits 7:4 of a byte: the first-named field of a packed byte (R118). -/
def hiNibble (b : Byte) : BitVec 4 := b.extractLsb' 4 4

/-- Bits 3:0 of a byte: the second-named field of a packed byte (R118). -/
def loNibble (b : Byte) : BitVec 4 := b.extractLsb' 0 4

/-- The marker whose code byte is `m` (R102's table); 0xFF is none: FF FF is fill (R101). -/
def markerOf (m : Byte) : Option Instr :=
  match m.toNat with
  | 0x01 => some .tem
  | 0xC0 => some .sof0
  | 0xC1 => some .sof1
  | 0xC2 => some .sof2
  | 0xC3 => some .sof3
  | 0xC4 => some .dht
  | 0xC5 => some .sof5
  | 0xC6 => some .sof6
  | 0xC7 => some .sof7
  | 0xC8 => some .jpg
  | 0xC9 => some .sof9
  | 0xCA => some .sof10
  | 0xCB => some .sof11
  | 0xCC => some .dac
  | 0xCD => some .sof13
  | 0xCE => some .sof14
  | 0xCF => some .sof15
  | 0xD0 => some .rst0
  | 0xD1 => some .rst1
  | 0xD2 => some .rst2
  | 0xD3 => some .rst3
  | 0xD4 => some .rst4
  | 0xD5 => some .rst5
  | 0xD6 => some .rst6
  | 0xD7 => some .rst7
  | 0xD8 => some .soi
  | 0xD9 => some .eoi
  | 0xDA => some .sos
  | 0xDB => some .dqt
  | 0xDC => some .dnl
  | 0xDD => some .dri
  | 0xDE => some .dhp
  | 0xDF => some .exp
  | 0xE0 => some .app0
  | 0xE1 => some .app1
  | 0xE2 => some .app2
  | 0xE3 => some .app3
  | 0xE4 => some .app4
  | 0xE5 => some .app5
  | 0xE6 => some .app6
  | 0xE7 => some .app7
  | 0xE8 => some .app8
  | 0xE9 => some .app9
  | 0xEA => some .app10
  | 0xEB => some .app11
  | 0xEC => some .app12
  | 0xED => some .app13
  | 0xEE => some .app14
  | 0xEF => some .app15
  | 0xF0 => some .jpg0
  | 0xF1 => some .jpg1
  | 0xF2 => some .jpg2
  | 0xF3 => some .jpg3
  | 0xF4 => some .jpg4
  | 0xF5 => some .jpg5
  | 0xF6 => some .jpg6
  | 0xF7 => some .jpg7
  | 0xF8 => some .jpg8
  | 0xF9 => some .jpg9
  | 0xFA => some .jpg10
  | 0xFB => some .jpg11
  | 0xFC => some .jpg12
  | 0xFD => some .jpg13
  | 0xFE => some .com
  | 0xFF => none
  | _ => some (.res m)

/-- A marker: FF m (R101). -/
def decodeMarker : List Byte → Except DecodeError (Instr × List Byte)
  | [] => .error .needMore
  | b :: rest =>
    if b != 0xFF then .error .garbage
    else match rest with
      | [] => .error .needMore
      | m :: rest' =>
        match markerOf m with
        | some i => .ok (i, rest')
        | none => .error .fill

/-- A DC category symbol (R115): 0..15 is legal. -/
def dcSymbolOf (b : Byte) : Except DecodeError Instr :=
  if hiNibble b == 0 then .ok (.dcDiff (loNibble b)) else .error .dcSize

/-- An AC symbol RRRR << 4 | SSSS (R116). -/
def acSymbolOf (b : Byte) : Instr :=
  if b == 0x00 then .acEob
  else if b == 0xF0 then .acZrl
  else if loNibble b == 0 then .acEobRun (hiNibble b)
  else .acRunSize (hiNibble b) (loNibble b)

/-- Rows of `n` pixels, each four bytes, most significant first. -/
def takeWords : Nat → List Byte → Except DecodeError (List Word × List Byte)
  | 0, bs => .ok ([], bs)
  | n + 1, a :: b :: c :: d :: bs =>
    match takeWords n bs with
    | .ok (ws, rest) => .ok (be32 a b c d :: ws, rest)
    | .error e => .error e
  | _ + 1, _ => .error .needMore

/-- The first `n` bytes and the rest. -/
def takeBytes (n : Nat) (bs : List Byte) : Except DecodeError (List Byte × List Byte) :=
  if bs.length < n then .error .needMore else .ok (bs.take n, bs.drop n)

/-- A host command in the model's wire form (DESIGN CHOICE, log 3: R122 gives a command an id and operands, and no bytes):
its id, then its operands, numbers most significant byte first, a byte string or a row behind its 32-bit length. The
operands stand in R122's order, but for DECODE's: its `more_available` stands before the length and the bytes, which R122
lists first. -/
def decodeCall : List Byte → Except DecodeError (Instr × List Byte)
  | [] => .error .needMore
  | id :: bs =>
    match id.toNat with
    | 0x01 =>
      match bs with
      | more :: a :: b :: c :: d :: rest =>
        if more != 0 && more != 1 then .error .badFlag
        else match takeBytes (be32 a b c d).toNat rest with
          | .ok (v, rest') => .ok (.decode v (more == 1), rest')
          | .error e => .error e
      | _ => .error .needMore
    | 0x02 => .ok (.flushProgressive, bs)
    | 0x03 => .ok (.reset, bs)
    | 0x10 =>
      match bs with
      | a :: b :: c :: d :: w1 :: w0 :: h1 :: h0 :: rest =>
        .ok (.encInit (be32 a b c d).toInt (be16 w1 w0).toNat (be16 h1 h0).toNat, rest)
      | _ => .error .needMore
    | 0x11 =>
      match bs with
      | a :: b :: c :: d :: rest =>
        match takeWords (be32 a b c d).toNat rest with
        | .ok (row, rest') => .ok (.encScanline row, rest')
        | .error e => .error e
      | _ => .error .needMore
    | 0x12 => .ok (.encFinish, bs)
    | 0x20 =>
      match bs with
      | a :: b :: c :: d :: rest =>
        match takeBytes (be32 a b c d).toNat rest with
        | .ok (v, rest') => .ok (.mqInitDec v, rest')
        | .error e => .error e
      | _ => .error .needMore
    | 0x21 =>
      match bs with
      | a :: b :: c :: d :: rest => .ok (.mqDecode (be32 a b c d).toNat, rest)
      | _ => .error .needMore
    | 0x22 => .ok (.mqResetCtx, bs)
    | _ => .error .unknownCommand

/-- The instruction the bytes hold, read where `ctx` says, and the bytes after it. -/
def decode (ctx : FetchCtx) (bs : List Byte) : Except DecodeError (Instr × List Byte) :=
  match ctx, bs with
  | .marker, bs => decodeMarker bs
  | .call, bs => decodeCall bs
  | _, [] => .error .needMore
  | .dcSymbol, b :: rest =>
    match dcSymbolOf b with
    | .ok i => .ok (i, rest)
    | .error e => .error e
  | .acSymbol, b :: rest => .ok (acSymbolOf b, rest)
  | .rawBit, b :: rest =>
    if b == 0 then .ok (.dcRefineBit false, rest)
    else if b == 1 then .ok (.dcRefineBit true, rest)
    else .error .notABit

/-- Where an instruction's encoding stands. -/
def ctxOf : Instr → FetchCtx
  | .tem => .marker
  | .sof0 => .marker
  | .sof1 => .marker
  | .sof2 => .marker
  | .sof3 => .marker
  | .dht => .marker
  | .sof5 => .marker
  | .sof6 => .marker
  | .sof7 => .marker
  | .jpg => .marker
  | .sof9 => .marker
  | .sof10 => .marker
  | .sof11 => .marker
  | .dac => .marker
  | .sof13 => .marker
  | .sof14 => .marker
  | .sof15 => .marker
  | .rst0 => .marker
  | .rst1 => .marker
  | .rst2 => .marker
  | .rst3 => .marker
  | .rst4 => .marker
  | .rst5 => .marker
  | .rst6 => .marker
  | .rst7 => .marker
  | .soi => .marker
  | .eoi => .marker
  | .sos => .marker
  | .dqt => .marker
  | .dnl => .marker
  | .dri => .marker
  | .dhp => .marker
  | .exp => .marker
  | .app0 => .marker
  | .app1 => .marker
  | .app2 => .marker
  | .app3 => .marker
  | .app4 => .marker
  | .app5 => .marker
  | .app6 => .marker
  | .app7 => .marker
  | .app8 => .marker
  | .app9 => .marker
  | .app10 => .marker
  | .app11 => .marker
  | .app12 => .marker
  | .app13 => .marker
  | .app14 => .marker
  | .app15 => .marker
  | .jpg0 => .marker
  | .jpg1 => .marker
  | .jpg2 => .marker
  | .jpg3 => .marker
  | .jpg4 => .marker
  | .jpg5 => .marker
  | .jpg6 => .marker
  | .jpg7 => .marker
  | .jpg8 => .marker
  | .jpg9 => .marker
  | .jpg10 => .marker
  | .jpg11 => .marker
  | .jpg12 => .marker
  | .jpg13 => .marker
  | .com => .marker
  | .res _ => .marker
  | .dcDiff _ => .dcSymbol
  | .dcRefineBit _ => .rawBit
  | .acEob => .acSymbol
  | .acZrl => .acSymbol
  | .acEobRun _ => .acSymbol
  | .acRunSize _ _ => .acSymbol
  | .decode _ _ => .call
  | .flushProgressive => .call
  | .reset => .call
  | .encInit _ _ _ => .call
  | .encScanline _ => .call
  | .encFinish => .call
  | .mqInitDec _ => .call
  | .mqDecode _ => .call
  | .mqResetCtx => .call

/-- The bytes of an instruction: a marker's two (R101), a symbol's one (R115, R116), a raw bit as the byte 0 or 1, a
host command in the wire form (log 3). -/
def encode : Instr → List Byte
  | .tem => [0xFF, 0x01]
  | .sof0 => [0xFF, 0xC0]
  | .sof1 => [0xFF, 0xC1]
  | .sof2 => [0xFF, 0xC2]
  | .sof3 => [0xFF, 0xC3]
  | .dht => [0xFF, 0xC4]
  | .sof5 => [0xFF, 0xC5]
  | .sof6 => [0xFF, 0xC6]
  | .sof7 => [0xFF, 0xC7]
  | .jpg => [0xFF, 0xC8]
  | .sof9 => [0xFF, 0xC9]
  | .sof10 => [0xFF, 0xCA]
  | .sof11 => [0xFF, 0xCB]
  | .dac => [0xFF, 0xCC]
  | .sof13 => [0xFF, 0xCD]
  | .sof14 => [0xFF, 0xCE]
  | .sof15 => [0xFF, 0xCF]
  | .rst0 => [0xFF, 0xD0]
  | .rst1 => [0xFF, 0xD1]
  | .rst2 => [0xFF, 0xD2]
  | .rst3 => [0xFF, 0xD3]
  | .rst4 => [0xFF, 0xD4]
  | .rst5 => [0xFF, 0xD5]
  | .rst6 => [0xFF, 0xD6]
  | .rst7 => [0xFF, 0xD7]
  | .soi => [0xFF, 0xD8]
  | .eoi => [0xFF, 0xD9]
  | .sos => [0xFF, 0xDA]
  | .dqt => [0xFF, 0xDB]
  | .dnl => [0xFF, 0xDC]
  | .dri => [0xFF, 0xDD]
  | .dhp => [0xFF, 0xDE]
  | .exp => [0xFF, 0xDF]
  | .app0 => [0xFF, 0xE0]
  | .app1 => [0xFF, 0xE1]
  | .app2 => [0xFF, 0xE2]
  | .app3 => [0xFF, 0xE3]
  | .app4 => [0xFF, 0xE4]
  | .app5 => [0xFF, 0xE5]
  | .app6 => [0xFF, 0xE6]
  | .app7 => [0xFF, 0xE7]
  | .app8 => [0xFF, 0xE8]
  | .app9 => [0xFF, 0xE9]
  | .app10 => [0xFF, 0xEA]
  | .app11 => [0xFF, 0xEB]
  | .app12 => [0xFF, 0xEC]
  | .app13 => [0xFF, 0xED]
  | .app14 => [0xFF, 0xEE]
  | .app15 => [0xFF, 0xEF]
  | .jpg0 => [0xFF, 0xF0]
  | .jpg1 => [0xFF, 0xF1]
  | .jpg2 => [0xFF, 0xF2]
  | .jpg3 => [0xFF, 0xF3]
  | .jpg4 => [0xFF, 0xF4]
  | .jpg5 => [0xFF, 0xF5]
  | .jpg6 => [0xFF, 0xF6]
  | .jpg7 => [0xFF, 0xF7]
  | .jpg8 => [0xFF, 0xF8]
  | .jpg9 => [0xFF, 0xF9]
  | .jpg10 => [0xFF, 0xFA]
  | .jpg11 => [0xFF, 0xFB]
  | .jpg12 => [0xFF, 0xFC]
  | .jpg13 => [0xFF, 0xFD]
  | .com => [0xFF, 0xFE]
  | .res m => [0xFF, m]
  | .dcDiff t => [(0 : BitVec 4) ++ t]
  | .dcRefineBit b => [if b then 1 else 0]
  | .acEob => [0x00]
  | .acZrl => [0xF0]
  | .acEobRun r => [r ++ (0 : BitVec 4)]
  | .acRunSize r s => [r ++ s]
  | .decode v more => [0x01, if more then 1 else 0] ++ bytesOf32 (BitVec.ofNat 32 v.length) ++ v
  | .flushProgressive => [0x02]
  | .reset => [0x03]
  | .encInit q w h =>
    [0x10] ++ bytesOf32 (BitVec.ofInt 32 q) ++ bytesOf16 (BitVec.ofNat 16 w) ++ bytesOf16 (BitVec.ofNat 16 h)
  | .encScanline row => [0x11] ++ bytesOf32 (BitVec.ofNat 32 row.length) ++ row.flatMap bytesOf32
  | .encFinish => [0x12]
  | .mqInitDec seg => [0x20] ++ bytesOf32 (BitVec.ofNat 32 seg.length) ++ seg
  | .mqDecode cx => [0x21] ++ bytesOf32 (BitVec.ofNat 32 cx)
  | .mqResetCtx => [0x22]

/-- The call as the instruction it is. -/
def HostCall.toInstr : HostCall → Instr
  | .decode v more => .decode v more
  | .flushProgressive => .flushProgressive
  | .reset => .reset
  | .encInit q w h => .encInit q w h
  | .encScanline row => .encScanline row
  | .encFinish => .encFinish
  | .mqInitDec seg => .mqInitDec seg
  | .mqDecode cx => .mqDecode cx
  | .mqResetCtx => .mqResetCtx

/-- The host command an instruction is, if it is one. -/
def callOf : Instr → Option HostCall
  | .decode v more => some (.decode v more)
  | .flushProgressive => some .flushProgressive
  | .reset => some .reset
  | .encInit q w h => some (.encInit q w h)
  | .encScanline row => some (.encScanline row)
  | .encFinish => some .encFinish
  | .mqInitDec seg => some (.mqInitDec seg)
  | .mqDecode cx => some (.mqDecode cx)
  | .mqResetCtx => some .mqResetCtx
  | _ => none

/-- The first bytes of an instruction whose bits are `w` (the table's numbering): a row of 16 bits is one marker word,
stored with FF first (R101); a row of 8 bits is one byte. Sixteen zero bytes follow: the operands of zeros. -/
def tableBytes (nbits w : Nat) : List Byte :=
  (if nbits > 8 then [BitVec.ofNat 8 (w / 256), BitVec.ofNat 8 w] else [BitVec.ofNat 8 w]) ++ List.replicate 16 0

/-- The context a word of the table is read in. The table's one-byte rows overlap (a host command id, a DC symbol and an
AC symbol are the same bits), and only the place tells them apart: a command id is read as a command, then 04..0F as a
DC category, then the rest as an AC symbol; a row of less than a byte is a raw bit (log 4). -/
def tableCtx (nbits w : Nat) : FetchCtx :=
  if nbits > 8 then .marker
  else if nbits < 8 then .rawBit
  else if w == 0x01 || w == 0x02 || w == 0x03 || w == 0x10 || w == 0x11 || w == 0x12 || w == 0x20 || w == 0x21 || w == 0x22
  then .call
  else if 4 ≤ w && w ≤ 0x0F then .dcSymbol
  else .acSymbol

/-- The instruction the decoder reads from a word of the opcode table. -/
def decodeTableWord (nbits w : Nat) : Option Instr :=
  match decode (tableCtx nbits w) (tableBytes nbits w) with
  | .ok (i, _) => some i
  | .error _ => none

end Sys2Proof
end

