-- ==== Sys2Proof/Config.lean ====
section
/-! DEFINITION. The model parameters of spec/00_scope.md R8 and spec/92_eei_decisions.md. The data among them
(ALLOC_LIMIT, ARITH_PRESENT, N_CX, MQ_INIT and which instance each OPEN function is) is a field of State that no step
changes, so a statement over every state is a statement over every value of them. An implementer's own instance of an
OPEN function is one of the opaque functions below: nothing in Lean can evaluate it or prove a value of it. -/

namespace Sys2Proof

/-- Which instance an OPEN function is: the spec's reference instance, or instance `n` of an implementer. -/
inductive Choice where
  | ref
  | impl (n : Nat)
deriving DecidableEq, Repr

/-- An arithmetic context `CX[n]` (R231): the state-table index and the more probable symbol. -/
structure Ctx where
  /-- `I`, 0..46. -/
  i : Nat
  /-- `MPS`, 1 bit. -/
  mps : Bool
deriving DecidableEq, Repr

/-- The parameters of R8. `HOST_PIXEL_ORDER` is outside the core and no rule reads it (R87). -/
structure Config where
  /-- `ALLOC_LIMIT`: the bytes of coefficient-plane storage (D40). -/
  allocLimit : Nat
  /-- `ARITH_PRESENT` (D43). -/
  arithPresent : Bool
  /-- `N_CX` (D43). -/
  nCx : Nat
  /-- `MQ_INIT[0..]` (D43); an entry that is not listed is the default (0, 0). -/
  mqInit : List Ctx
  /-- `IDCT_FN` (D22). -/
  idct : Choice
  /-- `FDCT_FN` (D24). -/
  fdct : Choice
  /-- `UPSAMPLE_MODE` (D25). -/
  upsample : Choice
  /-- `CMYK_FN` (D28). -/
  cmyk : Choice
  /-- `EXIF_FN` (D65); its reference instance is EXIF_NULL (R381). -/
  exif : Choice
deriving DecidableEq, Repr

/-- The parameter values of the state right after reset: the spec's defaults and reference instances where it has them
(R8); DESIGN CHOICE for ALLOC_LIMIT and N_CX, which have none (log 6). -/
def Config.default : Config :=
  { allocLimit := 2 ^ 32, arithPresent := true, nCx := 19, mqInit := []
    idct := .ref, fdct := .ref, upsample := .ref, cmyk := .ref, exif := .ref }

/-- Implementer's IDCT `n`: coefficients and quantization entries in natural order, and the sample's index (R252). -/
opaque Config.idctImpl : Nat → List Half → List Half → Nat → Byte

/-- Implementer's FDCT `n`: samples in natural order, and the coefficient's index (R258). -/
opaque Config.fdctImpl : Nat → List Byte → Nat → Int

/-- Which samples implementer's upsampler `n` reads for the pixel (x, y), positions (px, py) of the component, at least
one: the geometry [Wc, Hc, H, Hmax, V, Vmax], then x and y (R358). -/
opaque Config.upsampleReads : Nat → List Nat → Nat → Nat → (Int × Int) × List (Int × Int)

/-- Implementer's upsampler `n`: the geometry, the samples it reads in `upsampleReads`'s order, x, y (R358). -/
opaque Config.upsampleImpl : Nat → List Nat → List Nat → Nat → Nat → Nat

/-- Implementer's CMYK conversion `n`: c, m, y, k, inverted, and the channel of the result, 0 R, 1 G, 2 B (R366). -/
opaque Config.cmykImpl : Nat → Byte → Byte → Byte → Byte → Bool → Nat → Byte

/-- The directories R381(d) walks. -/
inductive ExifDir where
  | ifd0
  | exif
  | gps
  | interop
deriving DecidableEq, Repr

/-- An entry of a TIFF directory: the directory it stands in, its tag, its type code, its declared count, and its value's
numbers in the order of the "II" or "MM" mark (R381(c)); a RATIONAL is two numbers. -/
structure ExifEntry where
  dir : ExifDir
  tag : Half
  type : Nat
  count : Nat
  values : List Int
deriving DecidableEq, Repr

/-- Whether implementer's EXIF walker `n` fails on the payload (R381(b)). -/
opaque Config.exifFails : Nat → List Byte → Bool

/-- What implementer's EXIF walker `n` delivers of the entries R381(d) gives: the number of each recognized entry, in the
order of delivery, and its value as a string. DESIGN CHOICE (log 26): recognition and rendering (N14) may depend on every
entry's directory, tag, type, declared count and numbers, and on nothing else of the payload. -/
opaque Config.exifPicks : Nat → List ExifEntry → List (Nat × String)

end Sys2Proof
end

