-- ==== Sys2Proof/Machine/State.lean ====
section
/-! DEFINITION. The state of the core: every register of spec/10_state.md, 42_arith_qm.md R231, 46_metadata_boundary.md
R383 and 47_encoder.md R390, the ports of 20_memory.md R83, and the host's side of the interface (40_host_and_cursor.md).
Plain data. Reset is spec/70_reset_and_hazards.md R480; a register it leaves unspecified has the value log 5 names. -/

namespace Sys2Proof.Machine

/-- The marker FSM's states (R31). -/
inductive Fsm where
  | none
  | started
  | frameHeader
  | frame
  | restart
  | findMarker
  | done
  | error
deriving DecidableEq, Repr

/-- The cause codes of CorruptStream, in the order of their numbers 1..37 (R442). -/
inductive Cause where
  | soiMissing
  | soiDuplicate
  | sofUnsupported
  | sofLength
  | sofPrecision
  | sofDimension
  | sofNcomp
  | sofSampling
  | sofQtsel
  | sofDupid
  | dqtLength
  | dqtParam
  | dhtLength
  | dhtParam
  | dhtCounts
  | dhtCodeOverflow
  | sosNoFrame
  | sosLength
  | sosNcomp
  | sosCompsel
  | sosTableUndefined
  | sosProgression
  | sosMcuSize
  | sosSequence
  | driLength
  | segmentLength
  | eoiNoFrame
  | eoiIncomplete
  | huffBadCode
  | huffDcSize
  | huffAcIndex
  | huffAcSymbol
  | ecsMarker
  | rstExpected
  | qtUndefined
  | eof
  | metadata
deriving DecidableEq, Repr

/-- A fatal outcome: class and cause (R33, R440); OutOfMemory has no cause (R443). -/
inductive Err where
  | corrupt (c : Cause)
  | outOfMemory
deriving DecidableEq, Repr

/-- The encoder's refusals (R416). -/
inductive EncErr where
  | busy
  | badDimension
  | notOpen
  | rowLength
  | tooManyRows
deriving DecidableEq, Repr

/-- The outcome of a command (R440). -/
inductive Result where
  | ok
  | okResend (n : Nat)
  | okBit (d : Bool)
  | err (e : Err)
  | unsupported
  | badContext
  | encErr (e : EncErr)
deriving DecidableEq, Repr

/-- The nine host commands (R122), as the record of their outcomes names them. -/
inductive Command where
  | decode
  | flushProgressive
  | reset
  | encInit
  | encScanline
  | encFinish
  | mqInitDec
  | mqDecode
  | mqResetCtx
deriving DecidableEq, Repr

/-- A callback event (R149). -/
inductive Event where
  | sizeKnown (w h : Half)
  | frameStarted (bpp : Nat) (prog : Bool) (palette : Option (List Word))
  | scanline (y : Nat) (px : List Word)
  | exifTag (tag : Half) (s : String)
  | iccProfile (b : List Byte)
  | finished
deriving DecidableEq, Repr

/-- The colour tag (R34, R43). -/
inductive ColourTag where
  | gray
  | ycbcr
  | rgb
  | cmyk
  | ycck
  | unknown
deriving DecidableEq, Repr

/-- The scan modes (R44, R312). -/
inductive ScanMode where
  | seq
  | dcFirst
  | dcRefine
  | acFirst
  | acRefine
deriving DecidableEq, Repr

/-- FRAME (R34). -/
structure Frame where
  valid : Bool
  sof : Fin 3
  progressive : Bool
  p : Byte
  y : Half
  x : Half
  nf : Nat
  cs : ColourTag
  scans : Nat
deriving DecidableEq, Repr

/-- COMP[i] (R35). -/
structure Comp where
  id : Byte
  h : Nat
  v : Nat
  tq : Fin 4
  pred : Half
deriving DecidableEq, Repr

/-- QT[t] (R37): `q` holds the 64 raw entries in natural order; `pq` is the precision bit of the DQT. -/
structure QEntry where
  isDefined : Bool
  pq : Bool
  q : List Half
deriving DecidableEq, Repr

/-- HT[cls][t] (R38), with the arrays BUILD derives (R171). Lists indexed by a length l = 1..16 hold entry l at l - 1. -/
structure HEntry where
  isDefined : Bool
  bits : List Byte
  huffval : List Byte
  huffsize : List Nat
  huffcode : List Nat
  mincode : List Nat
  maxcode : List Int
  valptr : List Nat
  look : List (Nat × Byte)
deriving DecidableEq, Repr

/-- JFIF (R40). -/
structure Jfif where
  present : Bool
  version : Half
  units : Byte
  xdensity : Half
  ydensity : Half
  xthumb : Byte
  ythumb : Byte
deriving DecidableEq, Repr

/-- ADOBE (R41). -/
structure Adobe where
  present : Bool
  transform : Byte
deriving DecidableEq, Repr

/-- SC[j] (R44). -/
structure ScanComp where
  ci : Fin 4
  td : Fin 4
  ta : Fin 4
deriving DecidableEq, Repr

/-- SCAN (R44). -/
structure Scan where
  active : Bool
  ns : Nat
  sc : List ScanComp
  ss : Nat
  se : Nat
  ah : Nat
  al : Nat
  mode : ScanMode
  total : Nat
  mcu : Nat
  rstLeft : Half
  rstNext : Fin 8
  eobrun : Half
deriving DecidableEq, Repr

/-- BB, the bit reader (R45): the next bit is `val[cnt - 1]`. -/
structure BitBuf where
  val : Byte
  cnt : Nat
deriving DecidableEq, Repr

/-- Bytes by address, in the canonical form of `Memory.wf`: addresses strictly rising, no byte that is 0. An address
that is not listed reads 0: planes are allocated with every cell 0 (R47). -/
abbrev Memory := List Host.Cell

/-- The form from address `lo` on. -/
def Memory.wfFrom : Nat → Memory → Bool
  | _, [] => true
  | lo, (a, v) :: m => decide (lo ≤ a) && v != 0 && Memory.wfFrom (a + 1) m

/-- The canonical form. -/
def Memory.wf (m : Memory) : Bool := Memory.wfFrom 0 m

/-- PLANE (R47, R81): whether the planes are allocated, and their bytes, two to a cell (log 8). -/
structure Planes where
  allocated : Bool
  mem : Memory
deriving DecidableEq, Repr

/-- OUT (R48). -/
structure OutReg where
  nextRow : Nat
  mcuRows : Nat
deriving DecidableEq, Repr

/-- FLUSH (R48). -/
structure FlushReg where
  row : Nat
  pending : Bool
deriving DecidableEq, Repr

/-- ICC, the chunk accumulator (R383). -/
structure Icc where
  count : Nat
  next : Nat
  buf : List Byte
deriving DecidableEq, Repr

/-- How far the MCU unit in progress has come: the block of the MCU, and the zig-zag index reached in it, 0 at the
block's start. The model's own register: one step is one symbol of the MCU unit (log 1). -/
structure Progress where
  blk : Nat
  k : Nat
deriving DecidableEq, Repr

/-- The registers of the decoder, all that a unit of DECODE may write (R49). -/
structure Dec where
  fsm : Fsm
  err : Option Err
  cur : Nat
  more : Bool
  frame : Frame
  comp : Quad Comp
  qt : Quad QEntry
  htDc : Quad HEntry
  htAc : Quad HEntry
  ri : Half
  jfif : Jfif
  adobe : Adobe
  scan : Scan
  bb : BitBuf
  planes : Planes
  out : OutReg
  flush : FlushReg
  icc : Icc
  prog : Progress
deriving DecidableEq, Repr

/-- The MQ engine (R231). -/
structure Mq where
  seg : List Byte
  bp : Nat
  c : Word
  a : Half
  ct : Nat
  cx : List Ctx
deriving DecidableEq, Repr

/-- ENC (R390); `pred0`, `pred1`, `pred2` are the predictors of Y, Cb and Cr, i32 registers. `start` and `ended` are the
model's own marks of a run (R489; log 27): how many bytes OUTQ held at the last ENC_INIT that returned Ok, and whether
ENC_FINISH has returned Ok since. -/
structure Enc where
  isOpen : Bool
  w : Nat
  h : Nat
  ql : List Byte
  qc : List Byte
  rows : Nat
  band : List (List Word)
  last : Option (List Word)
  pred0 : Word
  pred1 : Word
  pred2 : Word
  start : Nat
  ended : Bool
deriving DecidableEq, Repr

/-- PK and the output port OUTQ (R390, R391): the bits of the partial byte, how many, and the bytes appended so far. -/
structure Packer where
  acc : Byte
  cnt : Nat
  outq : List Byte
deriving DecidableEq, Repr

/-- The whole machine. -/
structure State where
  /-- The parameters of R8, fixed while the core runs (R482(b)). -/
  cfg : Config
  /-- VIEW of the DECODE in progress (R80); none between commands. -/
  view : Option (List Byte)
  /-- The decoder's registers. -/
  dec : Dec
  /-- SNAP: the decoder's registers at the start of the unit in progress (R49); none at a unit boundary. -/
  snap : Option Dec
  /-- The MQ engine. -/
  mq : Mq
  /-- The encoder. -/
  enc : Enc
  /-- The encoder's bit packer and output port. -/
  pk : Packer
  /-- The delivered event sequence (R83). -/
  events : List Event
  /-- The commands that have returned so far, each with its outcome (R440, R21; log 2). -/
  results : List (Command × Result)
  /-- The commands the host has issued and the core has not begun (log 2). -/
  hostq : List HostCall
  /-- The host's answers to `want_more_data` still to come; when there is none the answer is true (R151; log 11). -/
  answers : List Bool
  /-- Whether the host issues a command from inside a callback (R152; log 12). -/
  reenters : Bool
deriving DecidableEq, Repr

/-- Why the machine stops. None is an outcome of the spec: those are next states, with the outcome in `results`. Each is
SAFE: the spec derives that the place cannot be reached (log 14, log 18). -/
inductive Fault where
  /-- Raised by plane reads and writes outside the bounds of R81 ("such an index is a model error"), and by rendering
  when no planes are allocated. Safe. -/
  | planeIndex
  /-- Raised by the symbol decoder when `VALPTR[l] + code - MINCODE[l]` indexes no symbol (R173(d) excludes it). Safe. -/
  | tableIndex
  /-- Raised by MQ_DECODE when a context's index is outside the ROM's 0..46, or the context file is shorter than N_CX
  (R231 excludes both). Safe. -/
  | romIndex
  /-- Raised by MQ_DECODE when the interval register is 0 and RENORMD would not end (R237 excludes it). Safe. -/
  | renormStuck
  /-- Raised by the encoder when a symbol has no code in its table (R412 excludes it). Safe. -/
  | noCode
  /-- Raised by the encoder when a quantization entry is 0 (R260, R396 exclude it). Safe. -/
  | quantZero
  /-- Raised by emission when the colour tag is UNKNOWN, which no rule renders (R365 "unreachable"). Safe. -/
  | colourUnknown
  /-- Raised by DECODE and FLUSH_PROGRESSIVE when STATE is ERROR and no error is latched (R33 excludes it). Safe. -/
  | errAbsent
  /-- Raised by an instruction's meaning when STATE and the scan's mode select no unit that fetches it (R281, R209): no
  step runs it there. Safe. -/
  | notSelected
deriving DecidableEq, Repr

/-- Why an instruction has no meaning here. -/
inductive Refusal where
  /-- An instruction not modelled yet, by its mnemonic. Raised by exec's refused arms. Safe. -/
  | notModelled (mnemonic : String)
  /-- A command issued from inside a callback, or while a DECODE is in progress (R152, R488 "refused"). Raised by every
  host command's meaning and by the step. Safe. -/
  | reentry
deriving DecidableEq, Repr

/-- How a unit stops without committing. -/
inductive UnitStop where
  /-- NEED failed with MORE = 1 (R143). -/
  | suspend
  /-- A check failed (R13). -/
  | raise (e : Err)
  /-- A place the spec excludes. -/
  | fault (f : Fault)
deriving DecidableEq, Repr

/-- How a unit, or one symbol's part of an MCU unit, ends. -/
inductive UnitDone where
  /-- The unit commits, delivering its events (R14). -/
  | commit (d : Dec) (evs : List Event)
  /-- The MCU unit goes on with its next symbol (log 1). -/
  | cont (d : Dec)
  /-- The unit of DONE with no byte left (R146). -/
  | stop
deriving DecidableEq, Repr

/-- Where a block of an MCU stands (R207): its scan slot's tables, its component, its row and column. -/
structure BlockRef where
  sc : ScanComp
  row : Nat
  col : Nat
deriving DecidableEq, Repr

/-- The bit reader's position: the cursor and the bit buffer (R175). -/
structure Rd where
  cur : Nat
  bb : BitBuf
deriving DecidableEq, Repr

def Frame.reset : Frame :=
  { valid := false, sof := 0, progressive := false, p := 0, y := 0, x := 0, nf := 0, cs := .unknown, scans := 0 }

def Comp.reset : Comp := { id := 0, h := 0, v := 0, tq := 0, pred := 0 }

def QEntry.reset : QEntry := { isDefined := false, pq := false, q := [] }

def HEntry.reset : HEntry :=
  { isDefined := false, bits := [], huffval := [], huffsize := [], huffcode := [], mincode := [], maxcode := [],
    valptr := [], look := [] }

def Scan.reset : Scan :=
  { active := false, ns := 0, sc := [], ss := 0, se := 0, ah := 0, al := 0, mode := .seq, total := 0, mcu := 0,
    rstLeft := 0, rstNext := 0, eobrun := 0 }

/-- The decoder's registers after reset (R52, R480). -/
def Dec.reset : Dec :=
  { fsm := .none, err := none, cur := 0, more := true
    frame := Frame.reset, comp := Quad.all Comp.reset, qt := Quad.all QEntry.reset
    htDc := Quad.all HEntry.reset, htAc := Quad.all HEntry.reset, ri := 0
    jfif := { present := false, version := 0, units := 0, xdensity := 0, ydensity := 0, xthumb := 0, ythumb := 0 }
    adobe := { present := false, transform := 0 }
    scan := Scan.reset, bb := { val := 0, cnt := 0 }, planes := { allocated := false, mem := [] }
    out := { nextRow := 0, mcuRows := 0 }, flush := { row := 0, pending := false }
    icc := { count := 0, next := 0, buf := [] }, prog := { blk := 0, k := 0 } }

/-- `MQ_INIT[n]` for n = 0..N_CX-1 (R231, R238): (0, 0) where the parameter lists none. -/
def initContexts (cfg : Config) : List Ctx :=
  (List.range cfg.nCx).map fun n => cfg.mqInit.getD n { i := 0, mps := false }

/-- The MQ engine after reset (R231). -/
def Mq.reset (cfg : Config) : Mq :=
  { seg := [], bp := 0, c := 0x7FFF8000, a := 0x8000, ct := 1, cx := initContexts cfg }

/-- The encoder after reset (R392). -/
def Enc.reset : Enc :=
  { isOpen := false, w := 0, h := 0, ql := [], qc := [], rows := 0, band := [], last := none, pred0 := 0, pred1 := 0,
    pred2 := 0, start := 0, ended := false }

/-- The packer and OUTQ after reset (R391, R392). -/
def Packer.reset : Packer := { acc := 0, cnt := 0, outq := [] }

/-- A freshly constructed core with parameters `cfg`, to which the host has done nothing yet (R480). -/
def State.fresh (cfg : Config) : State :=
  { cfg := cfg, view := none, dec := Dec.reset, snap := none, mq := Mq.reset cfg, enc := Enc.reset,
    pk := Packer.reset, events := [], results := [], hostq := [], answers := [], reenters := false }

/-- The machine right after reset (R480), with the parameter values of log 6. -/
def State.reset : State := State.fresh Config.default

end Sys2Proof.Machine
end

