-- ==== Sys2Proof/Machine/Ops.lean ====
section
/-! DEFINITION. The named operations over memory and registers: memory in its canonical form, the frame's geometry
(spec/10_state.md R36), plane cells (20_memory.md R81), the byte cursor (00_scope.md R12), how a unit ends (R14,
40_host_and_cursor.md R141 to R143), entering the error state (60_exceptions.md R444) and the host command interface. -/

namespace Sys2Proof.Machine

/-- What one step answers. -/
abbrev Outcome := Host.Outcome State Fault Refusal

/-! ## Numbers -/

/-- `wrap16` (R10): what a write to an i16 register or cell stores. -/
def wrap16 (v : Int) : Half := BitVec.ofInt 16 v

/-- A write to a u32 counter. -/
def wrap32 (n : Nat) : Nat := n % 2 ^ 32

/-- `clamp(v, lo, hi)` (R9). -/
def clampInt (v lo hi : Int) : Int := min (max v lo) hi

/-- CLAMP (R253): saturation to a sample. -/
def clamp8 (v : Int) : Byte := BitVec.ofInt 8 (clampInt v 0 255)

/-- Arithmetic shift right by `n`: floor division by a power of two (R9). -/
def shr (v : Int) (n : Nat) : Int := v / 2 ^ n

/-- `ceil(a / b)` (R9). -/
def ceilDiv (a b : Nat) : Nat := (a + b - 1) / b

/-- `EXTEND(v, s)` (R117). -/
def extend (v s : Nat) : Int :=
  if s = 0 then 0 else if v < 2 ^ (s - 1) then (v : Int) - 2 ^ s + 1 else v

/-! ## Memory -/

/-- The byte at `a`; 0 where none is listed. -/
def Memory.read : Memory → Nat → Byte
  | [], _ => 0
  | (k, v) :: m, a => if a = k then v else if a < k then 0 else Memory.read m a

/-- The memory with the byte at `a` replaced, in the canonical form. -/
def Memory.write : Memory → Nat → Byte → Memory
  | [], a, v => if v = 0 then [] else [(a, v)]
  | (k, w) :: m, a, v =>
    if a < k then (if v = 0 then (k, w) :: m else (a, v) :: (k, w) :: m)
    else if a = k then (if v = 0 then m else (a, v) :: m)
    else (k, w) :: Memory.write m a v

/-- The memory with every byte of `lo ≤ a < hi` set to 0. -/
def Memory.clear (m : Memory) (lo hi : Nat) : Memory :=
  m.filter fun c => decide (c.1 < lo) || decide (hi ≤ c.1)

/-- The 16-bit cell at byte address `a`, the first byte the most significant (log 8). -/
def Memory.readHalf (m : Memory) (a : Nat) : Half := be16 (m.read a) (m.read (a + 1))

/-- The memory with the 16-bit cell at byte address `a` replaced. -/
def Memory.writeHalf (m : Memory) (a : Nat) (v : Half) : Memory :=
  (m.write a (v.extractLsb' 8 8)).write (a + 1) (v.extractLsb' 0 8)

/-! ## Derived frame quantities (R36) -/

/-- The frame's components in SOF order. -/
def Dec.comps (d : Dec) : List Comp := d.comp.toList.take d.frame.nf

/-- Hmax. -/
def Dec.hmax (d : Dec) : Nat := (d.comps.map Comp.h).foldl max 0

/-- Vmax. -/
def Dec.vmax (d : Dec) : Nat := (d.comps.map Comp.v).foldl max 0

/-- MCUX. -/
def Dec.mcux (d : Dec) : Nat := ceilDiv d.frame.x.toNat (8 * d.hmax)

/-- MCUY. -/
def Dec.mcuy (d : Dec) : Nat := ceilDiv d.frame.y.toNat (8 * d.vmax)

/-- Wc of a component. -/
def Dec.wc (d : Dec) (c : Comp) : Nat := ceilDiv (d.frame.x.toNat * c.h) d.hmax

/-- Hc of a component. -/
def Dec.hc (d : Dec) (c : Comp) : Nat := ceilDiv (d.frame.y.toNat * c.v) d.vmax

/-- BW of a component. -/
def Dec.bw (d : Dec) (c : Comp) : Nat := ceilDiv (d.wc c) 8

/-- BH of a component. -/
def Dec.bh (d : Dec) (c : Comp) : Nat := ceilDiv (d.hc c) 8

/-- PBW of a component. -/
def Dec.pbw (d : Dec) (c : Comp) : Nat := d.mcux * c.h

/-- PBH of a component. -/
def Dec.pbh (d : Dec) (c : Comp) : Nat := d.mcuy * c.v

/-- The bytes of a component's plane: 64 cells of 2 bytes per block (R294). -/
def Dec.planeBytes (d : Dec) (c : Comp) : Nat := d.pbw c * d.pbh c * 128

/-- Where the plane of component `i` begins: the planes lie one after the other in SOF order (log 8). -/
def Dec.planeBase (d : Dec) (i : Nat) : Nat := ((d.comps.take i).map d.planeBytes).sum

/-! ## Plane cells (R81) -/

/-- The byte address of `PLANE[i][row][col][n]` (log 8). -/
def Dec.cellAddr (d : Dec) (i : Fin 4) (row col n : Nat) : Nat :=
  d.planeBase i.val + ((row * d.pbw (d.comp.get i) + col) * 64 + n) * 2

/-- The indices of R81: an allocated plane, r < PBH[i], c < PBW[i], n < 64. -/
def Dec.inPlane (d : Dec) (i : Fin 4) (row col n : Nat) : Bool :=
  d.planes.allocated && decide (i.val < d.frame.nf) && decide (row < d.pbh (d.comp.get i)) &&
    decide (col < d.pbw (d.comp.get i)) && decide (n < 64)

/-- `PLANE[i][row][col][n]`; 0 outside the planes (rendering reads through this after `renderable`). -/
def Dec.cell (d : Dec) (i : Fin 4) (row col n : Nat) : Half :=
  if d.inPlane i row col n then d.planes.mem.readHalf (d.cellAddr i row col n) else 0

/-- `PLANE[i][row][col][n]`, faulting outside the planes. -/
def Dec.readCell (d : Dec) (i : Fin 4) (row col n : Nat) : Except UnitStop Half :=
  if d.inPlane i row col n then .ok (d.planes.mem.readHalf (d.cellAddr i row col n)) else .error (.fault .planeIndex)

/-- `PLANE[i][row][col][n] <- v`. -/
def Dec.writeCell (d : Dec) (i : Fin 4) (row col n : Nat) (v : Half) : Except UnitStop Dec :=
  if d.inPlane i row col n then
    .ok { d with planes := { d.planes with mem := d.planes.mem.writeHalf (d.cellAddr i row col n) v } }
  else .error (.fault .planeIndex)

/-- `PLANE[i][row][col][0..63] <- 0` (R200). -/
def Dec.clearBlock (d : Dec) (i : Fin 4) (row col : Nat) : Except UnitStop Dec :=
  if d.inPlane i row col 0 then
    .ok { d with planes :=
      { d.planes with mem := d.planes.mem.clear (d.cellAddr i row col 0) (d.cellAddr i row col 0 + 128) } }
  else .error (.fault .planeIndex)

/-- The planes not allocated. -/
def Planes.free : Planes := { allocated := false, mem := [] }

/-- The planes allocated, every cell 0 (R47). -/
def Planes.zero : Planes := { allocated := true, mem := [] }

/-! ## The byte cursor (R12, R140) -/

/-- `raise CorruptStream(cause)` (R13). -/
def raise {α : Type} (c : Cause) : Except UnitStop α := .error (.raise (.corrupt c))

/-- What a failing NEED does (R12): Suspend while more may come, else CorruptStream(EOF). -/
def needFails {α : Type} (more : Bool) : Except UnitStop α := if more then .error .suspend else raise .eof

/-- `AVAIL()`. -/
def Dec.avail (d : Dec) (v : List Byte) : Nat := v.length - d.cur

/-- `NEED(n)`. -/
def Dec.need (d : Dec) (v : List Byte) (n : Nat) : Except UnitStop Unit :=
  if d.avail v < n then needFails d.more else .ok ()

/-- `IN(i)`. -/
def Dec.inp (d : Dec) (v : List Byte) (i : Nat) : Byte := v.getD (d.cur + i) 0

/-- `BE16(i)`. -/
def Dec.be16 (d : Dec) (v : List Byte) (i : Nat) : Half := Sys2Proof.be16 (d.inp v i) (d.inp v (i + 1))

/-- `IN(i .. i+n-1)`. -/
def Dec.slice (d : Dec) (v : List Byte) (i n : Nat) : List Byte := (v.drop (d.cur + i)).take n

/-- `ADVANCE(n)`. -/
def Dec.advance (d : Dec) (n : Nat) : Dec := { d with cur := d.cur + n }

/-- A check of a handler: raise the cause when it holds. -/
def failIf (bad : Bool) (c : Cause) : Except UnitStop Unit := if bad then raise c else .ok ()

/-- SEGMENT_PREAMBLE(minLx, cause) (R286): the length field, once the whole segment is in the view. -/
def Dec.preamble (d : Dec) (v : List Byte) (minLx : Nat) (c : Cause) : Except UnitStop Nat := do
  d.need v 4
  let lx := (d.be16 v 2).toNat
  failIf (decide (lx < 2)) .segmentLength
  failIf (decide (lx < minLx)) c
  d.need v (2 + lx)
  .ok lx

/-! ## How a unit ends -/

/-- The decoder's registers at the start of the unit in progress (SNAP, R49). -/
def State.unitStart (s : State) : Dec := s.snap.getD s.dec

/-- ENTER_ERROR's register writes (R444). -/
def Dec.enterError (d : Dec) (e : Err) : Dec :=
  { d with
    err := some e
    fsm := .error
    planes := Planes.free
    frame := { d.frame with valid := false }
    scan := { d.scan with active := false }
    flush := { d.flush with pending := false } }

/-- TAKING AN EXCEPTION: a unit of the DECODE in progress raises `e` (R141, R444). Every provisional write of the unit
is discarded, the error is latched, the planes are freed, and the command returns `Err(e)`. There is no return from it
but RESET (R448). -/
def State.takeError (s : State) (e : Err) : State :=
  { s with dec := s.unitStart.enterError e, snap := none, view := none, results := s.results ++ [(.decode, .err e)] }

/-- The end of a DECODE that no unit's raise ended (R141): the resend count `L - CUR` (R142), or CorruptStream(EOF)
when MORE = 0 and the image is not done. -/
def State.returnDecode (s : State) (d : Dec) : State :=
  if !d.more && d.fsm != .done then s.takeError (.corrupt .eof)
  else
    { s with dec := d, snap := none, view := none
             results := s.results ++ [(.decode, .okResend ((s.view.getD []).length - d.cur))] }

/-- What DECODE's loop does with a unit's end (R141): commit, go on with the MCU, stop, Suspend with every register
restored from SNAP (R143), raise (R444). -/
def State.endUnit (s : State) : Except UnitStop UnitDone → Outcome
  | .ok (.commit d evs) => .next { s with dec := d, snap := none, events := s.events ++ evs }
  | .ok (.cont d) => .next { s with dec := d, snap := some s.unitStart }
  | .ok .stop => .next (s.returnDecode s.dec)
  | .error .suspend => .next (s.returnDecode s.unitStart)
  | .error (.raise e) => .next (s.takeError e)
  | .error (.fault f) => .fault f

/-- A unit that commits with no event. -/
def commit (d : Dec) : Except UnitStop UnitDone := .ok (.commit d [])

/-! ## Markers by STATE -/

/-- A marker at `CUR`: in NONE the SOI unit (R282), in STARTED and FRAME the scanner's dispatch (R284, R285), in
FINDMARKER the restart step (R318); each needs the marker's two bytes. In RESTART with MCUs left and no bit
buffered, the bit reader has met a marker (R176; log 23). In no other state does a unit read a marker (log 14). -/
def State.atMarker (s : State) (onNone onScan onFind onEcs : List Byte → Except UnitStop UnitDone) : Outcome :=
  match s.view with
  | none => .fault .notSelected
  | some v =>
    match s.dec.fsm with
    | .none => s.endUnit do s.dec.need v 2; onNone v
    | .started => s.endUnit do s.dec.need v 2; onScan v
    | .frame => s.endUnit do s.dec.need v 2; onScan v
    | .findMarker => s.endUnit do s.dec.need v 2; onFind v
    | .restart =>
      if s.dec.scan.mcu < s.dec.scan.total ∧ s.dec.bb.cnt = 0 then s.endUnit do s.dec.need v 2; onEcs v
      else .fault .notSelected
    | .frameHeader => .fault .notSelected
    | .done => .fault .notSelected
    | .error => .fault .notSelected

/-- A marker that only the scanner handles: SOI_MISSING in NONE (R282), RST_EXPECTED in FINDMARKER (R318), ECS_MARKER
inside an entropy-coded segment (R176). -/
def State.atScan (s : State) (onScan : List Byte → Except UnitStop UnitDone) : Outcome :=
  s.atMarker (fun _ => raise .soiMissing) onScan (fun _ => raise .rstExpected) (fun _ => raise .ecsMarker)

/-! ## Host commands -/

/-- The state in which command `c` has returned `r` (R440). -/
def State.answer (s : State) (c : Command) (r : Result) : State := { s with results := s.results ++ [(c, r)] }

/-- A host command: refused while another is in progress, which only a callback could bring about (R152, R488). -/
def State.atCall (s : State) (o : Outcome) : Outcome := if s.view.isSome then .refused .reentry else o

/-- A step that delivered an event under which the host issues a command is refused (R152, R488; log 12). -/
def settle (s : State) : Outcome → Outcome
  | .next t => if s.reenters && decide (s.events.length < t.events.length) then .refused .reentry else .next t
  | .fault f => .fault f
  | .refused r => .refused r

end Sys2Proof.Machine
end

