-- ==== Sys2Proof/Machine/Huffman.lean ====
section
/-! DEFINITION. The Huffman table build, the bit reader and the symbol decode (spec/41_huffman.md R170 to R186). -/

namespace Sys2Proof.Machine

/-! ## Table build -/

/-- The codes of one length l: `count` of them from `code` on, each below 2^l (R171); none when one does not fit. -/
def codesOfLen (l : Nat) : Nat → Nat → Option (List Nat)
  | 0, _ => some []
  | count + 1, code => if code ≥ 2 ^ l then none else (codesOfLen l count (code + 1)).map (code :: ·)

/-- The arrays BUILD fills, from length `l` on (R171). -/
structure BuildArrays where
  size : List Nat
  code : List Nat
  mincode : List Nat
  maxcode : List Int
  valptr : List Nat
deriving DecidableEq, Repr

/-- BUILD's loop over the lengths (R171): `counts` are the counts of the lengths from `l` on. -/
def buildFrom : List Nat → Nat → Nat → Nat → Option BuildArrays
  | [], _, _, _ => some { size := [], code := [], mincode := [], maxcode := [], valptr := [] }
  | n :: counts, l, code, j =>
    match codesOfLen l n code with
    | none => none
    | some cs =>
      match buildFrom counts (l + 1) ((code + n) * 2) (j + n) with
      | none => none
      | some r =>
        some { size := List.replicate n l ++ r.size
               code := cs ++ r.code
               mincode := code :: r.mincode
               maxcode := (if n > 0 then (code : Int) + n - 1 else -1) :: r.maxcode
               valptr := j :: r.valptr }

/-- `LOOK[b]` (R171): the length and the value of the code of at most 8 bits that begins b, (0, 0) when there is none. -/
def lookEntry (codes : List (Nat × Nat × Byte)) (b : Nat) : Nat × Byte :=
  codes.foldl (fun acc c => if c.1 ≤ 8 ∧ b / 2 ^ (8 - c.1) = c.2.1 then (c.1, c.2.2) else acc) (0, 0)

/-- BUILD(BITS, HUFFVAL) (R170, R171): the table entry with its derived arrays; none is DHT_CODE_OVERFLOW. -/
def build (bits huffval : List Byte) : Option HEntry :=
  match buildFrom (bits.map BitVec.toNat) 1 0 0 with
  | none => none
  | some r =>
    some { isDefined := true, bits := bits, huffval := huffval
           huffsize := r.size, huffcode := r.code
           mincode := r.mincode, maxcode := r.maxcode, valptr := r.valptr
           look := (List.range 256).map (lookEntry (r.size.zip (r.code.zip huffval))) }

/-! ## Bit reader -/

/-- FETCH's scan of fill bytes after an 0xFF (R175): `i` is the offset of the next byte; the answer is how many bytes
the data byte 0xFF takes. -/
def fetchFill (more : Bool) : List Byte → Nat → Except UnitStop Nat
  | [], _ => needFails more
  | m :: rest, i =>
    if m = 0xFF then fetchFill more rest (i + 1)
    else if m = 0x00 then .ok (i + 1)
    else raise .ecsMarker

/-- FETCH() (R175, R113). -/
def fetchByte (v : List Byte) (more : Bool) (r : Rd) : Except UnitStop Rd :=
  match v.drop r.cur with
  | [] => needFails more
  | b :: rest =>
    if b = 0xFF then do
      let n ← fetchFill more rest 1
      .ok { cur := r.cur + n, bb := { val := 0xFF, cnt := 8 } }
    else .ok { cur := r.cur + 1, bb := { val := b, cnt := 8 } }

/-- NEXTBIT() (R175). -/
def nextBit (v : List Byte) (more : Bool) (r : Rd) : Except UnitStop (Bool × Rd) := do
  let r ← if r.bb.cnt = 0 then fetchByte v more r else .ok r
  .ok (r.bb.val.getLsbD (r.bb.cnt - 1), { r with bb := { r.bb with cnt := r.bb.cnt - 1 } })

/-- RECEIVE(s) (R177), `acc` being the bits read so far. -/
def receiveFrom (v : List Byte) (more : Bool) : Nat → Nat → Rd → Except UnitStop (Nat × Rd)
  | 0, acc, r => .ok (acc, r)
  | s + 1, acc, r => do
    let (b, r) ← nextBit v more r
    receiveFrom v more s (acc * 2 + b.toNat) r

/-- RECEIVE(s) (R177). -/
def receive (v : List Byte) (more : Bool) (s : Nat) (r : Rd) : Except UnitStop (Nat × Rd) :=
  receiveFrom v more s 0 r

/-! ## Symbol decode -/

/-- DECODE(T)'s loop (R180): `fuel` more lengths may be tried, `code` holds the bits read so far and `l` - 1 of them
matched nothing. -/
def decodeSymFrom (v : List Byte) (more : Bool) (t : HEntry) : Nat → Nat → Nat → Rd → Except UnitStop (Byte × Rd)
  | 0, _, _, _ => raise .huffBadCode
  | fuel + 1, code, l, r => do
    let (b, r) ← nextBit v more r
    let code := code * 2 + b.toNat
    let maxcode := t.maxcode.getD (l - 1) (-1)
    if maxcode ≥ 0 ∧ (code : Int) ≤ maxcode then
      match t.huffval[t.valptr.getD (l - 1) 0 + code - t.mincode.getD (l - 1) 0]? with
      | some sym => .ok (sym, r)
      | none => .error (.fault .tableIndex)
    else decodeSymFrom v more t fuel code (l + 1) r

/-- DECODE(T) (R180, R181): one symbol, at most 16 bits. -/
def decodeSym (v : List Byte) (more : Bool) (t : HEntry) (r : Rd) : Except UnitStop (Byte × Rd) :=
  decodeSymFrom v more t 16 0 1 r

/-- The bit reader's registers. -/
def Dec.rd (d : Dec) : Rd := { cur := d.cur, bb := d.bb }

/-- The registers with the bit reader's replaced. -/
def Dec.withRd (d : Dec) (r : Rd) : Dec := { d with cur := r.cur, bb := r.bb }

end Sys2Proof.Machine
end

