-- ==== Sys2Proof/Machine/Roms.lean ====
section
/-! DEFINITION. The constant ROMs (spec/20_memory.md R82): the zig-zag order, the encoder's tables, the probability table
of the arithmetic engine. Contents are exact (R16). -/

namespace Sys2Proof.Machine

/-- `ZZ[k]`: the natural index of zig-zag position k (R120). -/
def zzRom : List Nat :=
  [0, 1, 8, 16, 9, 2, 3, 10] ++
  [17, 24, 32, 25, 18, 11, 4, 5] ++
  [12, 19, 26, 33, 40, 48, 41, 34] ++
  [27, 20, 13, 6, 7, 14, 21, 28] ++
  [35, 42, 49, 56, 57, 50, 43, 36] ++
  [29, 22, 15, 23, 30, 37, 44, 51] ++
  [58, 59, 52, 45, 38, 31, 39, 46] ++
  [53, 60, 61, 54, 47, 55, 62, 63]

/-- `IZZ[n]`: the zig-zag position of natural index n (R120). -/
def izzRom : List Nat :=
  [0, 1, 5, 6, 14, 15, 27, 28] ++
  [2, 4, 7, 13, 16, 26, 29, 42] ++
  [3, 8, 12, 17, 25, 30, 41, 43] ++
  [9, 11, 18, 24, 31, 40, 44, 53] ++
  [10, 19, 23, 32, 39, 45, 52, 54] ++
  [20, 22, 33, 38, 46, 51, 55, 60] ++
  [21, 34, 37, 47, 50, 56, 59, 61] ++
  [35, 36, 48, 49, 57, 58, 62, 63]

/-- `ZZ[k]`, for k = 0..63. -/
def zz (k : Nat) : Nat := zzRom.getD k 0

/-- `IZZ[n]`, for n = 0..63. -/
def izz (n : Nat) : Nat := izzRom.getD n 0

/-- BASE_L, the luminance reference table in natural order (R396). -/
def baseL : List Nat :=
  [16, 11, 10, 16, 24, 40, 51, 61] ++
  [12, 12, 14, 19, 26, 58, 60, 55] ++
  [14, 13, 16, 24, 40, 57, 69, 56] ++
  [14, 17, 22, 29, 51, 87, 80, 62] ++
  [18, 22, 37, 56, 68, 109, 103, 77] ++
  [24, 35, 55, 64, 81, 104, 113, 92] ++
  [49, 64, 78, 87, 103, 121, 120, 101] ++
  [72, 92, 95, 98, 112, 100, 103, 99]

/-- BASE_C, the chrominance reference table in natural order (R396). -/
def baseC : List Nat :=
  [17, 18, 24, 47, 99, 99, 99, 99] ++
  [18, 21, 26, 66, 99, 99, 99, 99] ++
  [24, 26, 56, 99, 99, 99, 99, 99] ++
  [47, 66, 99, 99, 99, 99, 99, 99] ++
  [99, 99, 99, 99, 99, 99, 99, 99] ++
  [99, 99, 99, 99, 99, 99, 99, 99] ++
  [99, 99, 99, 99, 99, 99, 99, 99] ++
  [99, 99, 99, 99, 99, 99, 99, 99]

/-- BITS of DC_L (luma DC, R400). -/
def dcLBits : List Byte :=
  [0x00, 0x01, 0x05, 0x01, 0x01, 0x01, 0x01, 0x01, 0x01, 0x00, 0x00, 0x00, 0x00, 0x00, 0x00, 0x00]

/-- HUFFVAL of DC_L (luma DC, R400). -/
def dcLVals : List Byte :=
  [0x00, 0x01, 0x02, 0x03, 0x04, 0x05, 0x06, 0x07, 0x08, 0x09, 0x0A, 0x0B]

/-- BITS of DC_C (chroma DC, R400). -/
def dcCBits : List Byte :=
  [0x00, 0x03, 0x01, 0x01, 0x01, 0x01, 0x01, 0x01, 0x01, 0x01, 0x01, 0x00, 0x00, 0x00, 0x00, 0x00]

/-- HUFFVAL of DC_C (chroma DC, R400). -/
def dcCVals : List Byte :=
  [0x00, 0x01, 0x02, 0x03, 0x04, 0x05, 0x06, 0x07, 0x08, 0x09, 0x0A, 0x0B]

/-- BITS of AC_L (luma AC, R400). -/
def acLBits : List Byte :=
  [0x00, 0x02, 0x01, 0x03, 0x03, 0x02, 0x04, 0x03, 0x05, 0x05, 0x04, 0x04, 0x00, 0x00, 0x01, 0x7D]

/-- HUFFVAL of AC_L (luma AC, R400). -/
def acLVals : List Byte :=
  [0x01, 0x02, 0x03, 0x00, 0x04, 0x11, 0x05, 0x12, 0x21, 0x31, 0x41, 0x06, 0x13, 0x51, 0x61, 0x07] ++
  [0x22, 0x71, 0x14, 0x32, 0x81, 0x91, 0xA1, 0x08, 0x23, 0x42, 0xB1, 0xC1, 0x15, 0x52, 0xD1, 0xF0] ++
  [0x24, 0x33, 0x62, 0x72, 0x82, 0x09, 0x0A, 0x16, 0x17, 0x18, 0x19, 0x1A, 0x25, 0x26, 0x27, 0x28] ++
  [0x29, 0x2A, 0x34, 0x35, 0x36, 0x37, 0x38, 0x39, 0x3A, 0x43, 0x44, 0x45, 0x46, 0x47, 0x48, 0x49] ++
  [0x4A, 0x53, 0x54, 0x55, 0x56, 0x57, 0x58, 0x59, 0x5A, 0x63, 0x64, 0x65, 0x66, 0x67, 0x68, 0x69] ++
  [0x6A, 0x73, 0x74, 0x75, 0x76, 0x77, 0x78, 0x79, 0x7A, 0x83, 0x84, 0x85, 0x86, 0x87, 0x88, 0x89] ++
  [0x8A, 0x92, 0x93, 0x94, 0x95, 0x96, 0x97, 0x98, 0x99, 0x9A, 0xA2, 0xA3, 0xA4, 0xA5, 0xA6, 0xA7] ++
  [0xA8, 0xA9, 0xAA, 0xB2, 0xB3, 0xB4, 0xB5, 0xB6, 0xB7, 0xB8, 0xB9, 0xBA, 0xC2, 0xC3, 0xC4, 0xC5] ++
  [0xC6, 0xC7, 0xC8, 0xC9, 0xCA, 0xD2, 0xD3, 0xD4, 0xD5, 0xD6, 0xD7, 0xD8, 0xD9, 0xDA, 0xE1, 0xE2] ++
  [0xE3, 0xE4, 0xE5, 0xE6, 0xE7, 0xE8, 0xE9, 0xEA, 0xF1, 0xF2, 0xF3, 0xF4, 0xF5, 0xF6, 0xF7, 0xF8] ++
  [0xF9, 0xFA]

/-- BITS of AC_C (chroma AC, R400). -/
def acCBits : List Byte :=
  [0x00, 0x02, 0x01, 0x02, 0x04, 0x04, 0x03, 0x04, 0x07, 0x05, 0x04, 0x04, 0x00, 0x01, 0x02, 0x77]

/-- HUFFVAL of AC_C (chroma AC, R400). -/
def acCVals : List Byte :=
  [0x00, 0x01, 0x02, 0x03, 0x11, 0x04, 0x05, 0x21, 0x31, 0x06, 0x12, 0x41, 0x51, 0x07, 0x61, 0x71] ++
  [0x13, 0x22, 0x32, 0x81, 0x08, 0x14, 0x42, 0x91, 0xA1, 0xB1, 0xC1, 0x09, 0x23, 0x33, 0x52, 0xF0] ++
  [0x15, 0x62, 0x72, 0xD1, 0x0A, 0x16, 0x24, 0x34, 0xE1, 0x25, 0xF1, 0x17, 0x18, 0x19, 0x1A, 0x26] ++
  [0x27, 0x28, 0x29, 0x2A, 0x35, 0x36, 0x37, 0x38, 0x39, 0x3A, 0x43, 0x44, 0x45, 0x46, 0x47, 0x48] ++
  [0x49, 0x4A, 0x53, 0x54, 0x55, 0x56, 0x57, 0x58, 0x59, 0x5A, 0x63, 0x64, 0x65, 0x66, 0x67, 0x68] ++
  [0x69, 0x6A, 0x73, 0x74, 0x75, 0x76, 0x77, 0x78, 0x79, 0x7A, 0x82, 0x83, 0x84, 0x85, 0x86, 0x87] ++
  [0x88, 0x89, 0x8A, 0x92, 0x93, 0x94, 0x95, 0x96, 0x97, 0x98, 0x99, 0x9A, 0xA2, 0xA3, 0xA4, 0xA5] ++
  [0xA6, 0xA7, 0xA8, 0xA9, 0xAA, 0xB2, 0xB3, 0xB4, 0xB5, 0xB6, 0xB7, 0xB8, 0xB9, 0xBA, 0xC2, 0xC3] ++
  [0xC4, 0xC5, 0xC6, 0xC7, 0xC8, 0xC9, 0xCA, 0xD2, 0xD3, 0xD4, 0xD5, 0xD6, 0xD7, 0xD8, 0xD9, 0xDA] ++
  [0xE2, 0xE3, 0xE4, 0xE5, 0xE6, 0xE7, 0xE8, 0xE9, 0xEA, 0xF2, 0xF3, 0xF4, 0xF5, 0xF6, 0xF7, 0xF8] ++
  [0xF9, 0xFA]

/-- A row of the probability-estimation ROM (R232). -/
structure QeRow where
  qe : Nat
  nmps : Nat
  nlps : Nat
  sw : Bool
deriving DecidableEq, Repr

/-- `QE[I]`, I = 0..46 (R232). -/
def qeRom : List QeRow :=
  [⟨0x5601, 1, 1, true⟩, ⟨0x3401, 2, 6, false⟩, ⟨0x1801, 3, 9, false⟩, ⟨0x0AC1, 4, 12, false⟩] ++
  [⟨0x0521, 5, 29, false⟩, ⟨0x0221, 38, 33, false⟩, ⟨0x5601, 7, 6, true⟩, ⟨0x5401, 8, 14, false⟩] ++
  [⟨0x4801, 9, 14, false⟩, ⟨0x3801, 10, 14, false⟩, ⟨0x3001, 11, 17, false⟩, ⟨0x2401, 12, 18, false⟩] ++
  [⟨0x1C01, 13, 20, false⟩, ⟨0x1601, 29, 21, false⟩, ⟨0x5601, 15, 14, true⟩, ⟨0x5401, 16, 14, false⟩] ++
  [⟨0x5101, 17, 15, false⟩, ⟨0x4801, 18, 16, false⟩, ⟨0x3801, 19, 17, false⟩, ⟨0x3401, 20, 18, false⟩] ++
  [⟨0x3001, 21, 19, false⟩, ⟨0x2801, 22, 19, false⟩, ⟨0x2401, 23, 20, false⟩, ⟨0x2201, 24, 21, false⟩] ++
  [⟨0x1C01, 25, 22, false⟩, ⟨0x1801, 26, 23, false⟩, ⟨0x1601, 27, 24, false⟩, ⟨0x1401, 28, 25, false⟩] ++
  [⟨0x1201, 29, 26, false⟩, ⟨0x1101, 30, 27, false⟩, ⟨0x0AC1, 31, 28, false⟩, ⟨0x09C1, 32, 29, false⟩] ++
  [⟨0x08A1, 33, 30, false⟩, ⟨0x0521, 34, 31, false⟩, ⟨0x0441, 35, 32, false⟩, ⟨0x02A1, 36, 33, false⟩] ++
  [⟨0x0221, 37, 34, false⟩, ⟨0x0141, 38, 35, false⟩, ⟨0x0111, 39, 36, false⟩, ⟨0x0085, 40, 37, false⟩] ++
  [⟨0x0049, 41, 38, false⟩, ⟨0x0025, 42, 39, false⟩, ⟨0x0015, 43, 40, false⟩, ⟨0x0009, 44, 41, false⟩] ++
  [⟨0x0005, 45, 42, false⟩, ⟨0x0001, 45, 43, false⟩, ⟨0x5601, 46, 46, false⟩]

/-- `2^24` times the 1-D basis of the gain-8 DCT, rounded: row u, column x is `sqrt(2)·C(u)·cos((2x + 1)·u·pi/16)` with
`C(0) = 1/sqrt(2)` and `C(u) = 1` otherwise, so that `8·F` for the orthonormal DCT `F` of a block is the sum of the samples
times the two bases (R258; DEDUCED, log 20). -/
def dctBasisRom : List (List Int) :=
  [[16777216, 16777216, 16777216, 16777216, 16777216, 16777216, 16777216, 16777216]] ++
  [[23270667, 19727919, 13181774, 4628823, -4628823, -13181774, -19727919, -23270667]] ++
  [[21920489, 9079764, -9079764, -21920489, -21920489, -9079764, 9079764, 21920489]] ++
  [[19727919, -4628823, -23270667, -13181774, 13181774, 23270667, 4628823, -19727919]] ++
  [[16777216, -16777216, -16777216, 16777216, 16777216, -16777216, -16777216, 16777216]] ++
  [[13181774, -23270667, 4628823, 19727919, -19727919, -4628823, 23270667, -13181774]] ++
  [[9079764, -21920489, 21920489, -9079764, -9079764, 21920489, -21920489, 9079764]] ++
  [[4628823, -13181774, 19727919, -23270667, 23270667, -19727919, 13181774, -4628823]]

/-- Entry (u, x) of the basis. -/
def dctBasis (u x : Nat) : Int := (dctBasisRom.getD u []).getD x 0

end Sys2Proof.Machine
end

