-- ==== Sys2Proof/Machine/Transform.lean ====
section
/-! DEFINITION. Dequantization, the inverse and the forward transform, quantization and the zig-zag output order
(spec/43_transform.md). The reference instances are IDCT_REF and FDCT_REF; an implementer's instance is an opaque function
held to the laws of R252 and to the gain of R258 by the definition that calls it (log 7, log 20). -/

namespace Sys2Proof.Machine

/-- `DESCALE(x, s)` (R254). -/
def descale (x : Int) (s : Nat) : Int := shr (x + 2 ^ (s - 1)) s

/-- DEQUANT(blk, Q) (R251): products in natural order. -/
def dequant (blk q : List Half) : List Int :=
  (List.range 64).map fun n => (blk.getD n 0).toInt * ((q.getD n 0).toNat : Int)

/-- IDCT1 (R254): one 1-D pass, its results descaled by `s`. -/
def idct1 (v0 v1 v2 v3 v4 v5 v6 v7 : Int) (s : Nat) : List Int :=
  let z1 := (v2 + v6) * 4433
  let t2 := z1 - v6 * 15137
  let t3 := z1 + v2 * 6270
  let t0 := (v0 + v4) * 8192
  let t1 := (v0 - v4) * 8192
  let e10 := t0 + t3
  let e13 := t0 - t3
  let e11 := t1 + t2
  let e12 := t1 - t2
  let z1 := v7 + v1
  let z2 := v5 + v3
  let z3 := v7 + v3
  let z4 := v5 + v1
  let z5 := (z3 + z4) * 9633
  let a0 := v7 * 2446
  let a1 := v5 * 16819
  let a2 := v3 * 25172
  let a3 := v1 * 12299
  let z1 := -z1 * 7373
  let z2 := -z2 * 20995
  let z3 := -z3 * 16069 + z5
  let z4 := -z4 * 3196 + z5
  let a0 := a0 + z1 + z3
  let a1 := a1 + z2 + z4
  let a2 := a2 + z2 + z3
  let a3 := a3 + z1 + z4
  [descale (e10 + a3) s, descale (e11 + a2) s, descale (e12 + a1) s, descale (e13 + a0) s,
   descale (e13 - a0) s, descale (e12 - a1) s, descale (e11 - a2) s, descale (e10 - a3) s]

/-- A pass over the 8 values of row or column `k` of a table of 8 lists. -/
def idctPass (f : Nat → Int) (s : Nat) : List Int :=
  idct1 (f 0) (f 1) (f 2) (f 3) (f 4) (f 5) (f 6) (f 7) s

/-- IDCT_REF (R254): columns first, then rows; natural order. -/
def idctRef (blk q : List Half) : List Byte :=
  let dq := dequant blk q
  let cols := (List.range 8).map fun x => idctPass (fun y => dq.getD (8 * y + x) 0) 11
  (List.range 8).flatMap fun y =>
    (idctPass (fun x => (cols.getD x []).getD y 0) 18).map fun r => clamp8 (r + 128)

/-- Whether every AC coefficient of a block is 0 (R252(a)). -/
def flatBlock (blk : List Half) : Bool := (List.range 63).all fun n => blk.getD (n + 1) 0 == 0

/-- The sample of a flat block (R252(a)): `clamp(((d·Q[0] + 4) >> 3) + 128, 0, 255)`. -/
def flatSample (blk q : List Half) : Byte :=
  clamp8 (shr ((blk.getD 0 0).toInt * ((q.getD 0 0).toNat : Int) + 4) 3 + 128)

/-- IDCT_FN (R252), 64 samples in natural order. An implementer's instance obeys the flat law, which R252(a) asks of
every instance; the range law is its type (log 7). -/
def idct (c : Choice) (blk q : List Half) : List Byte :=
  match c with
  | .ref => idctRef blk q
  | .impl n =>
    (List.range 64).map fun i => if flatBlock blk then flatSample blk q else Config.idctImpl n blk q i

/-- FDCT1 (R259). -/
def fdct1 (d0 d1 d2 d3 d4 d5 d6 d7 : Int) (first : Bool) : List Int :=
  let s := if first then 11 else 15
  let t0 := d0 + d7
  let t7 := d0 - d7
  let t1 := d1 + d6
  let t6 := d1 - d6
  let t2 := d2 + d5
  let t5 := d2 - d5
  let t3 := d3 + d4
  let t4 := d3 - d4
  let e10 := t0 + t3
  let e13 := t0 - t3
  let e11 := t1 + t2
  let e12 := t1 - t2
  let o0 := if first then (e10 + e11) * 4 else descale (e10 + e11) 2
  let o4 := if first then (e10 - e11) * 4 else descale (e10 - e11) 2
  let z1 := (e12 + e13) * 4433
  let o2 := descale (z1 + e13 * 6270) s
  let o6 := descale (z1 - e12 * 15137) s
  let z1 := t4 + t7
  let z2 := t5 + t6
  let z3 := t4 + t6
  let z4 := t5 + t7
  let z5 := (z3 + z4) * 9633
  let t4 := t4 * 2446
  let t5 := t5 * 16819
  let t6 := t6 * 25172
  let t7 := t7 * 12299
  let z1 := -z1 * 7373
  let z2 := -z2 * 20995
  let z3 := -z3 * 16069 + z5
  let z4 := -z4 * 3196 + z5
  [o0, descale (t7 + z1 + z4) s, o2, descale (t6 + z2 + z3) s, o4, descale (t5 + z2 + z4) s, o6,
   descale (t4 + z1 + z3) s]

/-- A pass over 8 values. -/
def fdctPass (f : Nat → Int) (first : Bool) : List Int :=
  fdct1 (f 0) (f 1) (f 2) (f 3) (f 4) (f 5) (f 6) (f 7) first

/-- FDCT_REF (R259): level shift, rows first, then columns; natural order, gain 8. -/
def fdctRef (smp : List Byte) : List Int :=
  let rows := (List.range 8).map fun y => fdctPass (fun x => ((smp.getD (8 * y + x) 0).toNat : Int) - 128) true
  let cols := (List.range 8).map fun x => fdctPass (fun y => (rows.getD y []).getD x 0) false
  (List.range 64).map fun n => (cols.getD (n % 8) []).getD (n / 8) 0

/-- `2^48` times coefficient (v, u) of `8·F`, F being the orthonormal DCT of the level-shifted samples (R258). -/
def gain8 (smp : List Byte) (v u : Nat) : Int :=
  ((List.range 64).map fun n =>
    (((smp.getD n 0).toNat : Int) - 128) * dctBasis v (n / 8) * dctBasis u (n % 8)).sum

/-- The coefficients that are `8·F` up to rounding (R258): no further from it than 4, half a unit of F (log 20). -/
def gain8Low (smp : List Byte) (v u : Nat) : Int := -shr (4 * 2 ^ 48 - gain8 smp v u) 48

/-- The greatest of them. -/
def gain8High (smp : List Byte) (v u : Nat) : Int := shr (gain8 smp v u + 4 * 2 ^ 48) 48

/-- FDCT_FN (R258), 64 coefficients in natural order. An implementer's coefficient is `8·F` up to rounding (log 20). -/
def fdct (c : Choice) (smp : List Byte) : List Int :=
  match c with
  | .ref => fdctRef smp
  | .impl n =>
    (List.range 64).map fun i =>
      clampInt (Config.fdctImpl n smp i) (gain8Low smp (i / 8) (i % 8)) (gain8High smp (i / 8) (i % 8))

/-- One coefficient of QUANTIZE (R260): nearest, ties away from zero. -/
def quantOne (f : Int) (q : Nat) : Int :=
  let m : Int := ((f.natAbs + 4 * q) / (8 * q) : Nat)
  if f ≥ 0 then m else -m

/-- QUANTIZE(F8, Q) (R260). -/
def quantize (f8 : List Int) (q : List Byte) : List Int :=
  (List.range 64).map fun n => quantOne (f8.getD n 0) (q.getD n 0).toNat

/-- ZIGZAG_OUT(Zq) (R261). -/
def zigzagOut (zq : List Int) : List Int := (List.range 64).map fun k => zq.getD (zz k) 0

/-- FDCT_ZZ_Q(smp, Q) (R262). -/
def fdctZzQ (c : Choice) (smp q : List Byte) : List Int := zigzagOut (quantize (fdct c smp) q)

end Sys2Proof.Machine
end

