-- ==== Sys2Proof/Machine/Encoder.lean ====
section
/-! DEFINITION. The encoder (spec/47_encoder.md): its bit packer (R413, R414), headers (R394, R395), band and block coding
(R405 to R412) and commands (R393, R405, R415, R416). -/

namespace Sys2Proof.Machine

/-! ## Bit packer (R413, R414) -/

/-- One bit of PUT_BITS (R413): a full byte goes to OUTQ, 0xFF with 0x00 stuffed after it. -/
def Packer.putBit (p : Packer) (b : Bool) : Packer :=
  let acc : Byte := p.acc <<< 1 ||| (if b then 1 else 0)
  if p.cnt + 1 = 8 then
    { acc := 0, cnt := 0, outq := p.outq ++ (if acc = 0xFF then [acc, 0x00] else [acc]) }
  else { p with acc := acc, cnt := p.cnt + 1 }

/-- PUT_BITS(v, n) (R413): the n low bits of v, most significant first. -/
def Packer.put (p : Packer) (v : Nat) : Nat → Packer
  | 0 => p
  | n + 1 => (p.putBit (v.testBit n)).put v n

/-- The final pad (R414). -/
def Packer.pad (p : Packer) : Packer := if 0 < p.cnt then p.put (2 ^ (8 - p.cnt) - 1) (8 - p.cnt) else p

/-- Bytes appended to OUTQ past the packer (R395, R415). -/
def Packer.append (p : Packer) (bs : List Byte) : Packer := { p with outq := p.outq ++ bs }

/-! ## Tables -/

/-- DC_L (R400). -/
def dcL : Option HEntry := build dcLBits dcLVals

/-- AC_L (R400). -/
def acL : Option HEntry := build acLBits acLVals

/-- DC_C (R400). -/
def dcC : Option HEntry := build dcCBits dcCVals

/-- AC_C (R400). -/
def acC : Option HEntry := build acCBits acCVals

/-- The code of a symbol and its length (R401). -/
def codeOf (t : Option HEntry) (sym : Byte) : Option (Nat × Nat) :=
  match t with
  | none => none
  | some e =>
    match e.huffval.findIdx? (· == sym) with
    | none => none
    | some j =>
      match e.huffcode[j]?, e.huffsize[j]? with
      | some code, some size => some (code, size)
      | _, _ => none

/-- SCALE_TABLES' scale (R394). -/
def qualityScale (quality : Int) : Nat :=
  let q := (clampInt quality 1 100).toNat
  if q < 50 then 5000 / q else 200 - 2 * q

/-- One table of SCALE_TABLES (R394). -/
def scaleTable (base : List Nat) (scale : Nat) : List Byte :=
  base.map fun b => BitVec.ofNat 8 (min (max ((b * scale + 50) / 100) 1) 255)

/-- The 64 entries of a table in zig-zag order (R395). -/
def zigzagBytes (q : List Byte) : List Byte := (List.range 64).map fun k => q.getD (zz k) 0

/-- EMIT_HEADERS()'s bytes (R395). -/
def headerBytes (ql qc : List Byte) (w h : Nat) : List Byte :=
  [0xFF, 0xD8] ++
  [0xFF, 0xE0, 0x00, 0x10, 0x4A, 0x46, 0x49, 0x46, 0x00, 0x01, 0x01, 0x00, 0x00, 0x01, 0x00, 0x01, 0x00, 0x00] ++
  [0xFF, 0xDB, 0x00, 0x43, 0x00] ++ zigzagBytes ql ++
  [0xFF, 0xDB, 0x00, 0x43, 0x01] ++ zigzagBytes qc ++
  [0xFF, 0xC4, 0x00, 0x1F, 0x00] ++ dcLBits ++ dcLVals ++
  [0xFF, 0xC4, 0x00, 0xB5, 0x10] ++ acLBits ++ acLVals ++
  [0xFF, 0xC4, 0x00, 0x1F, 0x01] ++ dcCBits ++ dcCVals ++
  [0xFF, 0xC4, 0x00, 0xB5, 0x11] ++ acCBits ++ acCVals ++
  [0xFF, 0xC0, 0x00, 0x11, 0x08] ++ bytesOf16 (BitVec.ofNat 16 h) ++ bytesOf16 (BitVec.ofNat 16 w) ++
  [0x03, 0x01, 0x22, 0x00, 0x02, 0x11, 0x01, 0x03, 0x11, 0x01] ++
  [0xFF, 0xDA, 0x00, 0x0C, 0x03, 0x01, 0x00, 0x02, 0x11, 0x03, 0x11, 0x00, 0x3F, 0x00]

/-! ## Pixels (R406 to R408) -/

/-- The red sample of a pixel. -/
def redOf (w : Word) : Int := (w.extractLsb' 16 8).toNat

/-- The green sample of a pixel. -/
def greenOf (w : Word) : Int := (w.extractLsb' 8 8).toNat

/-- The blue sample of a pixel. -/
def blueOf (w : Word) : Int := (w.extractLsb' 0 8).toNat

/-- Y of a pixel (R407). -/
def lumaOf (w : Word) : Int := shr (19595 * redOf w + 38470 * greenOf w + 7471 * blueOf w + 32768) 16

/-- Cb of a pixel (R407). -/
def cbOf (w : Word) : Int :=
  shr (-11059 * redOf w - 21709 * greenOf w + 32768 * blueOf w + 128 * 65536 + 32767) 16

/-- Cr of a pixel (R407). -/
def crOf (w : Word) : Int :=
  shr (32768 * redOf w - 27439 * greenOf w - 5329 * blueOf w + 128 * 65536 + 32767) 16

/-- Pixel (r, x) of the padded band (R406): edge replication. -/
def Enc.pixel (e : Enc) (r x : Nat) : Word :=
  (e.band.getD (min r (e.band.length - 1)) []).getD (min x (e.w - 1)) 0

/-- The Y samples of block (by, bx) of MCU mx (R406). -/
def Enc.lumaBlock (e : Enc) (mx by' bx : Nat) : List Byte :=
  (List.range 64).map fun n =>
    BitVec.ofInt 8 (lumaOf (e.pixel (8 * by' + n / 8) (16 * mx + 8 * bx + n % 8)))

/-- The downsampled chroma block of MCU mx (R408); `f` is Cb or Cr. -/
def Enc.chromaBlock (e : Enc) (f : Word → Int) (mx : Nat) : List Byte :=
  (List.range 64).map fun n =>
    let r := n / 8
    let x := 16 * mx + 2 * (n % 8)
    BitVec.ofInt 8 (shr (f (e.pixel (2 * r) x) + f (e.pixel (2 * r) (x + 1)) + f (e.pixel (2 * r + 1) x) +
      f (e.pixel (2 * r + 1) (x + 1)) + 2) 2)

/-! ## Block coding (R410, R411) -/

/-- NBITS(v): the number of bits of |v| (R411). -/
def nbits (v : Int) : Nat := if v = 0 then 0 else v.natAbs.log2 + 1

/-- MAG(v, s) (R411). -/
def mag (v : Int) (s : Nat) : Nat := (if v ≥ 0 then v else v + 2 ^ s - 1).toNat

/-- PUT_CODE(T, sym) (R411). -/
def putCode (t : Option HEntry) (sym : Nat) (p : Packer) : Except Fault Packer :=
  match codeOf t (BitVec.ofNat 8 sym) with
  | some (code, size) => .ok (p.put code size)
  | none => .error .noCode

/-- A coefficient's category symbol, the run `r` in its upper bits, and its magnitude bits (R410). -/
def putCoef (t : Option HEntry) (r : Nat) (v : Int) (p : Packer) : Except Fault Packer := do
  let p ← putCode t (r * 16 + nbits v) p
  .ok (p.put (mag v (nbits v)) (nbits v))

/-- `n` ZRL escapes (R410). -/
def putZrls (t : Option HEntry) : Nat → Packer → Except Fault Packer
  | 0, p => .ok p
  | n + 1, p => do
    let p ← putCode t 0xF0 p
    putZrls t n p

/-- The AC loop of ENCODE_BLOCK (R410) over the coefficients left, after a run of `r` zeros. -/
def putAcs (t : Option HEntry) : List Int → Nat → Packer → Except Fault Packer
  | [], r, p => if 0 < r then putCode t 0x00 p else .ok p
  | z :: rest, r, p =>
    let v := clampInt z (-1023) 1023
    if v = 0 then putAcs t rest (r + 1) p
    else do
      let p ← putZrls t (r / 16) p
      let p ← putCoef t (r % 16) v p
      putAcs t rest 0 p

/-- `ENC.pred[c]`. -/
def Enc.pred (e : Enc) : Fin 3 → Word
  | 0 => e.pred0
  | 1 => e.pred1
  | 2 => e.pred2

/-- `ENC.pred[c] <- v`. -/
def Enc.setPred (e : Enc) : Fin 3 → Word → Enc
  | 0, v => { e with pred0 := v }
  | 1, v => { e with pred1 := v }
  | 2, v => { e with pred2 := v }

/-- ENCODE_BLOCK(c, zz) (R410). -/
def encodeBlock (c : Fin 3) (zs : List Int) (e : Enc) (p : Packer) : Except Fault (Enc × Packer) := do
  let z0 := zs.getD 0 0
  let diff := z0 - (e.pred c).toInt
  let p ← putCoef (if c = 0 then dcL else dcC) 0 diff p
  let p ← putAcs (if c = 0 then acL else acC) (zs.drop 1) 0 p
  .ok (e.setPred c (BitVec.ofInt 32 z0), p)

/-- A block of samples encoded with component c's table (R406). A table entry 0 does not occur (R396; log 18). -/
def encodeSamples (cfg : Config) (c : Fin 3) (smp : List Byte) (e : Enc) (p : Packer) : Except Fault (Enc × Packer) :=
  let q := if c = 0 then e.ql else e.qc
  if (List.range 64).any fun n => q.getD n 0 == 0 then .error .quantZero
  else encodeBlock c (fdctZzQ cfg.fdct smp q) e p

/-- The six blocks of MCU mx, in order (R406). -/
def Enc.mcuBlocks (e : Enc) (mx : Nat) : List (Fin 3 × List Byte) :=
  [(0, e.lumaBlock mx 0 0), (0, e.lumaBlock mx 0 1), (0, e.lumaBlock mx 1 0), (0, e.lumaBlock mx 1 1),
   (1, e.chromaBlock cbOf mx), (2, e.chromaBlock crOf mx)]

/-- Blocks encoded one after the other. -/
def encodeAll (cfg : Config) : List (Fin 3 × List Byte) → Enc → Packer → Except Fault (Enc × Packer)
  | [], e, p => .ok (e, p)
  | (c, smp) :: rest, e, p => do
    let (e, p) ← encodeSamples cfg c smp e p
    encodeAll cfg rest e p

/-- ENCODE_BAND() (R406). -/
def encodeBand (cfg : Config) (e : Enc) (p : Packer) : Except Fault (Enc × Packer) :=
  encodeAll cfg ((List.range (ceilDiv e.w 16)).flatMap e.mcuBlocks) e p

/-- ADD_ROW(row) (R405). -/
def addRow (cfg : Config) (row : List Word) (e : Enc) (p : Packer) : Except Fault (Enc × Packer) :=
  let e := { e with band := e.band ++ [row], last := some row, rows := e.rows + 1 }
  if e.band.length = 16 ∨ e.rows = e.h then do
    let (e, p) ← encodeBand cfg e p
    .ok ({ e with band := [] }, p)
  else .ok (e, p)

/-- The row ENC_FINISH supplies (R415). -/
def Enc.fill (e : Enc) : List Word := e.last.getD (List.replicate e.w 0xFF000000)

/-- ENC_FINISH's missing rows (R415). -/
def addMissing (cfg : Config) : Nat → Enc → Packer → Except Fault (Enc × Packer)
  | 0, e, p => .ok (e, p)
  | n + 1, e, p => do
    let (e, p) ← addRow cfg e.fill e p
    addMissing cfg n e p

/-! ## Commands -/

/-- A refusal of the encoder's command `c` (R416): nothing changes. -/
def State.encRefuse (s : State) (c : Command) (e : EncErr) : Outcome := .next (s.answer c (.encErr e))

/-- The command `c` of the encoder is done. -/
def State.encDone (s : State) (c : Command) (r : Except Fault (Enc × Packer)) : Outcome :=
  match r with
  | .ok (e, p) => .next { s with enc := e, pk := p, results := s.results ++ [(c, .ok)] }
  | .error f => .fault f

/-- ENC as ENC_INIT writes it (R393); `start` is the length of OUTQ before it, where the run's bytes begin (R489). -/
def encOpened (quality : Int) (w h start : Nat) : Enc :=
  { isOpen := true, w := w, h := h
    ql := scaleTable baseL (qualityScale quality), qc := scaleTable baseC (qualityScale quality)
    rows := 0, band := [], last := none, pred0 := 0, pred1 := 0, pred2 := 0, start := start, ended := false }

/-- ENC_INIT(quality, width, height) (R393, R416). -/
def execEncInit (quality : Int) (width height : Nat) (s : State) : Outcome :=
  s.atCall <|
    if s.enc.isOpen then s.encRefuse .encInit .busy
    else if width < 1 ∨ 65535 < width ∨ height < 1 ∨ 65535 < height then s.encRefuse .encInit .badDimension
    else
      let e := encOpened quality width height s.pk.outq.length
      s.encDone .encInit (.ok (e, { acc := 0, cnt := 0, outq := s.pk.outq ++ headerBytes e.ql e.qc width height }))

/-- ENC_SCANLINE(row) (R405, R416). -/
def execEncScanline (row : List Word) (s : State) : Outcome :=
  s.atCall <|
    if !s.enc.isOpen then s.encRefuse .encScanline .notOpen
    else if row.length ≠ s.enc.w then s.encRefuse .encScanline .rowLength
    else if s.enc.rows = s.enc.h then s.encRefuse .encScanline .tooManyRows
    else s.encDone .encScanline (addRow s.cfg row s.enc s.pk)

/-- ENC_FINISH() (R415, R416); the encoder's run has then ended (R489). -/
def execEncFinish (s : State) : Outcome :=
  s.atCall <|
    if !s.enc.isOpen then s.encRefuse .encFinish .notOpen
    else
      s.encDone .encFinish do
        let (e, p) ← addMissing s.cfg (s.enc.h - s.enc.rows) s.enc s.pk
        .ok ({ e with isOpen := false, ended := true }, p.pad.append [0xFF, 0xD9])

end Sys2Proof.Machine
end

