-- ==== Sys2Proof/Machine/Flags.lean ====
section
/-! DEFINITION. The flags and tags a handler computes: the colour tag (spec/44_frame_fsm.md R296), the legality and the
mode of a scan (R311, R312), the MCU count (R314), the arithmetic-free status flags having no other computation (R42). -/

namespace Sys2Proof.Machine

/-- COLOUR_TAG() for `nf` components (R296). A count outside 1, 3, 4 never passes R293. -/
def colourTag (nf : Nat) (a : Adobe) : ColourTag :=
  if nf = 1 then .gray
  else if nf = 3 then (if a.present && a.transform == 0 then .rgb else .ycbcr)
  else if nf = 4 then (if a.present && a.transform == 2 then .ycck else .cmyk)
  else .unknown

/-- LEGAL(Ns, Ss, Se, Ah, Al) (R311). -/
def legalScan (progressive : Bool) (ns ss se ah al : Nat) : Bool :=
  if progressive then
    (if ss = 0 then decide (se = 0) else decide (ss ≤ se) && decide (se ≤ 63) && decide (ns = 1)) &&
      decide (al ≤ 13) && (decide (ah = 0) || decide (ah = al + 1))
  else decide (ss = 0) && decide (se = 63) && decide (ah = 0) && decide (al = 0)

/-- MODE(Ss, Ah) (R312). -/
def scanMode (progressive : Bool) (ss ah : Nat) : ScanMode :=
  if progressive then
    if ss = 0 then (if ah = 0 then .dcFirst else .dcRefine) else (if ah = 0 then .acFirst else .acRefine)
  else .seq

/-- Whether the mode decodes DC symbols (R310's table check). -/
def ScanMode.usesDc : ScanMode → Bool
  | .seq => true
  | .dcFirst => true
  | .dcRefine => false
  | .acFirst => false
  | .acRefine => false

/-- Whether the mode decodes AC symbols (R310's table check). -/
def ScanMode.usesAc : ScanMode → Bool
  | .seq => true
  | .dcFirst => false
  | .dcRefine => false
  | .acFirst => true
  | .acRefine => true

/-- TOTAL(Ns, SC) (R314, R46). -/
def Dec.scanTotal (d : Dec) (sc : List ScanComp) : Nat :=
  match sc with
  | [one] => d.bw (d.comp.get one.ci) * d.bh (d.comp.get one.ci)
  | _ => d.mcux * d.mcuy

/-- INIT_ENTROPY() (R208): predictors of the frame's components, EOBRUN, bit buffer, restart countdown. -/
def Dec.initEntropy (d : Dec) : Dec :=
  { d with
    comp := { q0 := if 0 < d.frame.nf then { d.comp.q0 with pred := 0 } else d.comp.q0
              q1 := if 1 < d.frame.nf then { d.comp.q1 with pred := 0 } else d.comp.q1
              q2 := if 2 < d.frame.nf then { d.comp.q2 with pred := 0 } else d.comp.q2
              q3 := if 3 < d.frame.nf then { d.comp.q3 with pred := 0 } else d.comp.q3 }
    scan := { d.scan with eobrun := 0, rstLeft := d.ri }
    bb := { d.bb with cnt := 0 } }

end Sys2Proof.Machine
end

