-- ==== Sys2Proof/Machine/Render.lean ====
section
/-! DEFINITION. Rendering (spec/45_render.md): sample planes, upsampling, colour conversion, and when rows are emitted.
A pure function of the planes, the tables, the frame registers and the parameters (R350, R375). -/

namespace Sys2Proof.Machine

/-! ## Sample planes -/

/-- The block PLANE[i][row][col] in natural order. -/
def Dec.block (d : Dec) (i : Fin 4) (row col : Nat) : List Half := (List.range 64).map fun n => d.cell i row col n

/-- The quantization entries a component is rendered with (R351). -/
def Dec.renderQ (d : Dec) (i : Fin 4) : List Half :=
  let e := d.qt.get (d.comp.get i).tq
  if e.isDefined then e.q else List.replicate 64 1

/-- `S_i(px, py)` (R351). -/
def Dec.sample (d : Dec) (cfg : Config) (i : Fin 4) (px py : Nat) : Nat :=
  ((idct cfg.idct (d.block i (py / 8) (px / 8)) (d.renderQ i)).getD (8 * (py % 8) + px % 8) 0).toNat

/-- `E_i(px, py)` (R352): the nearest sample of the component's true size. -/
def Dec.edge (d : Dec) (cfg : Config) (i : Fin 4) (px py : Int) : Nat :=
  let c := d.comp.get i
  d.sample cfg i (min (max px 0) ((d.wc c : Int) - 1)).toNat (min (max py 0) ((d.hc c : Int) - 1)).toNat

/-! ## Upsampling -/

/-- The weighted sum of R354 and R355: `(3·a + b + bias) >> 2`. -/
def blend2 (a b bias : Nat) : Nat := (3 * a + b + bias) / 4

/-- FANCY_REF (R353 to R357): `U_i(x, y)`. -/
def Dec.fancy (d : Dec) (cfg : Config) (i : Fin 4) (x y : Nat) : Nat :=
  let c := d.comp.get i
  let e := d.edge cfg i
  let j : Int := (x / 2 : Nat)
  let r : Int := (y / 2 : Nat)
  if c.h = d.hmax ∧ c.v = d.vmax then e x y
  else if d.hmax = 2 * c.h ∧ d.vmax = c.v then
    (if x % 2 = 0 then blend2 (e j y) (e (j - 1) y) 1 else blend2 (e j y) (e (j + 1) y) 2)
  else if d.hmax = c.h ∧ d.vmax = 2 * c.v then
    (if y % 2 = 0 then blend2 (e x r) (e x (r - 1)) 1 else blend2 (e x r) (e x (r + 1)) 2)
  else if d.hmax = 2 * c.h ∧ d.vmax = 2 * c.v then
    let far : Int := if y % 2 = 0 then r - 1 else r + 1
    let colsum (k : Int) : Nat := 3 * e k r + e k far
    (if x % 2 = 0 then (3 * colsum j + colsum (j - 1) + 8) / 16 else (3 * colsum j + colsum (j + 1) + 7) / 16)
  else e ((x * c.h / d.hmax : Nat) : Int) ((y * c.v / d.vmax : Nat) : Int)

/-- The geometry an implementer's upsampler works with: Wc, Hc, H, Hmax, V, Vmax (R36). -/
def Dec.upsampleGeometry (d : Dec) (i : Fin 4) : List Nat :=
  let c := d.comp.get i
  [d.wc c, d.hc c, c.h, d.hmax, c.v, d.vmax]

/-- The samples implementer's filter `n` reads for the pixel (x, y): all inside Wc × Hc, the edges replicated (R358(d)). -/
def Dec.upsampleReads (d : Dec) (cfg : Config) (n : Nat) (i : Fin 4) (x y : Nat) : List Nat :=
  let ps := Config.upsampleReads n (d.upsampleGeometry i) x y
  (ps.1 :: ps.2).map fun p => d.edge cfg i p.1 p.2

/-- `U_i(x, y)` for the instance of UPSAMPLE_MODE. An implementer's instance obeys R358: a full-resolution component is
not filtered (a); the output lies between the least and the greatest of the samples the filter reads (b), so that a constant
plane stays constant (c); and it is a function of those samples and the position alone (d), (e) (log 7). -/
def Dec.upsample (d : Dec) (cfg : Config) (i : Fin 4) (x y : Nat) : Nat :=
  match cfg.upsample with
  | .ref => d.fancy cfg i x y
  | .impl n =>
    if (d.comp.get i).h = d.hmax ∧ (d.comp.get i).v = d.vmax then d.edge cfg i x y
    else
      let smp := d.upsampleReads cfg n i x y
      max (smp.foldl min 255) (min (Config.upsampleImpl n (d.upsampleGeometry i) smp x y) (smp.foldl max 0))

/-! ## Colour conversion -/

/-- CR_R[c] (R360). -/
def crR (c : Nat) : Int := shr (91881 * ((c : Int) - 128) + 32768) 16

/-- CB_B[c] (R360). -/
def cbB (c : Nat) : Int := shr (116130 * ((c : Int) - 128) + 32768) 16

/-- CR_G[c] (R360). -/
def crG (c : Nat) : Int := -46802 * ((c : Int) - 128)

/-- CB_G[c] (R360). -/
def cbG (c : Nat) : Int := -22554 * ((c : Int) - 128) + 32768

/-- A colour: R, G, B. -/
structure Rgb where
  r : Byte
  g : Byte
  b : Byte
deriving DecidableEq, Repr

/-- YCBCR_TO_RGB(Y, Cb, Cr) (R361). -/
def ycbcrToRgb (y cb cr : Nat) : Rgb :=
  { r := clamp8 (y + crR cr), g := clamp8 (y + shr (cbG cb + crG cr) 16), b := clamp8 (y + cbB cb) }

/-- One channel of CMYK_REF (R366). -/
def cmykRefOne (c k : Nat) (inverted : Bool) : Byte :=
  if inverted then BitVec.ofNat 8 ((c * k + 127) / 255) else BitVec.ofNat 8 (((255 - c) * (255 - k) + 127) / 255)

/-- CMYK_FN(c, m, y, k, inverted) (R366); an implementer's outputs are bytes by their type (log 7). -/
def cmykToRgb (ch : Choice) (c m y k : Byte) (inverted : Bool) : Rgb :=
  match ch with
  | .ref =>
    { r := cmykRefOne c.toNat k.toNat inverted, g := cmykRefOne m.toNat k.toNat inverted,
      b := cmykRefOne y.toNat k.toNat inverted }
  | .impl n =>
    { r := Config.cmykImpl n c m y k inverted 0, g := Config.cmykImpl n c m y k inverted 1,
      b := Config.cmykImpl n c m y k inverted 2 }

/-- PACK(R, G, B) (R364, R87). -/
def pack (c : Rgb) : Word := (0xFF : Byte) ++ c.r ++ c.g ++ c.b

/-- A sample as a byte (every `U_i` is in 0..255: R358(b)). -/
def byteOf (n : Nat) : Byte := BitVec.ofNat 8 n

/-- RENDER_PIXEL(x, y): the colour dispatch of R365. UNKNOWN is not reached: emission checks `renderable` first. -/
def Dec.pixel (d : Dec) (cfg : Config) (x y : Nat) : Word :=
  let u (i : Fin 4) : Nat := d.upsample cfg i x y
  match d.frame.cs with
  | .gray => pack { r := byteOf (u 0), g := byteOf (u 0), b := byteOf (u 0) }
  | .ycbcr => pack (ycbcrToRgb (u 0) (u 1) (u 2))
  | .rgb => pack { r := byteOf (u 0), g := byteOf (u 1), b := byteOf (u 2) }
  | .cmyk => pack (cmykToRgb cfg.cmyk (byteOf (u 0)) (byteOf (u 1)) (byteOf (u 2)) (byteOf (u 3)) d.adobe.present)
  | .ycck =>
    let c := ycbcrToRgb (u 0) (u 1) (u 2)
    pack (cmykToRgb cfg.cmyk c.r c.g c.b (byteOf (u 3)) true)
  | .unknown => 0

/-- RENDER_LINE(y) (R367): X words. -/
def Dec.line (d : Dec) (cfg : Config) (y : Nat) : List Word :=
  (List.range d.frame.x.toNat).map fun x => d.pixel cfg x y

/-! ## When rows are emitted -/

/-- EMIT_LINE for the rows `lo ≤ y < hi`, in increasing order (R371). -/
def Dec.lines (d : Dec) (cfg : Config) (lo hi : Nat) : List Event :=
  (List.range (hi - lo)).map fun n => .scanline (lo + n) (d.line cfg (lo + n))

/-- Rendering reads allocated planes and a colour tag that has a rule (R365; log 18). -/
def Dec.renderable (d : Dec) : Except UnitStop Unit :=
  if !d.planes.allocated then .error (.fault .planeIndex)
  else if d.frame.cs = .unknown then .error (.fault .colourUnknown)
  else .ok ()

/-- The row unit of a sequential frame (R370): L lines. -/
def Dec.unitLines (d : Dec) : Nat := if d.scan.ns > 1 then 8 * d.vmax else 8

/-- The complete row units of a sequential scan (R370). -/
def Dec.unitsDone (d : Dec) : Nat :=
  match d.scan.sc with
  | [one] => d.scan.mcu / d.bw (d.comp.get one.ci)
  | _ => d.scan.mcu / d.mcux

/-- SEQ_OUTPUT() (R370). -/
def Dec.seqOutput (d : Dec) (cfg : Config) : Except UnitStop (Dec × List Event) :=
  let c := d.unitsDone
  if c > d.out.mcuRows then do
    d.renderable
    let target := min ((c - 1) * d.unitLines) d.frame.y.toNat
    .ok ({ d with out := { mcuRows := c, nextRow := max d.out.nextRow target } }, d.lines cfg d.out.nextRow target)
  else .ok (d, [])

/-- SEQ_FINISH() (R370). -/
def Dec.seqFinish (d : Dec) (cfg : Config) : Except UnitStop (Dec × List Event) := do
  d.renderable
  .ok ({ d with out := { d.out with nextRow := max d.out.nextRow d.frame.y.toNat } },
       d.lines cfg d.out.nextRow d.frame.y.toNat)

/-- The lines of MCU row `m` of a progressive flush (R372): L = 8·Vmax. -/
def Dec.mcuRowLines (d : Dec) (cfg : Config) (m : Nat) : List Event :=
  d.lines cfg (m * (8 * d.vmax)) (min ((m + 1) * (8 * d.vmax)) d.frame.y.toNat)

/-- What a flush leaves: the registers, the events, the answers still to come. -/
structure Flushed where
  flush : FlushReg
  events : List Event
  answers : List Bool
deriving DecidableEq, Repr

/-- PROGRESSIVE_FLUSH's loop (R372): `n` MCU rows from `m` on; `ask` says whether `want_more_data` is asked before the
next one. An answer the host does not give is true (R151). -/
def Dec.flushFrom (d : Dec) (cfg : Config) (mayAsk : Bool) : Nat → Nat → Bool → List Bool → Flushed
  | 0, _, _, ans => { flush := { row := 0, pending := false }, events := [], answers := ans }
  | n + 1, m, ask, ans =>
    if ask && !ans.headD true then { flush := { row := m, pending := true }, events := [], answers := ans.tail }
    else
      let r := d.flushFrom cfg mayAsk n (m + 1) mayAsk (if ask then ans.tail else ans)
      { r with events := d.mcuRowLines cfg m ++ r.events }

/-- PROGRESSIVE_FLUSH(start, ask) (R372): the query is made before every MCU row but the first. -/
def Dec.progressiveFlush (d : Dec) (cfg : Config) (start : Nat) (ask : Bool) (ans : List Bool) : Flushed :=
  d.flushFrom cfg ask (d.mcuy - start) start false ans

end Sys2Proof.Machine
end

