-- ==== Sys2Proof/Machine/Entropy.lean ====
section
/-! DEFINITION. The entropy symbols (spec/41_huffman.md R200 to R210): what each does in each scan mode, where its block
stands (R207), and what follows the last symbol of a block and of an MCU (R209, R210). One step of the machine is one
symbol; the MCU is the unit, whose snapshot is kept until it commits (log 1). -/

namespace Sys2Proof.Machine

/-! ## Blocks of an MCU -/

/-- The blocks of one component of an interleaved MCU: rows, then columns (R207). -/
def Dec.mcuCompBlocks (d : Dec) (sc : ScanComp) : List BlockRef :=
  let c := d.comp.get sc.ci
  (List.range c.v).flatMap fun v => (List.range c.h).map fun h =>
    { sc := sc, row := d.scan.mcu / d.mcux * c.v + v, col := d.scan.mcu % d.mcux * c.h + h }

/-- The blocks of MCU `SCAN.mcu`, in order (R207). -/
def Dec.mcuBlocks (d : Dec) : List BlockRef :=
  match d.scan.sc with
  | [one] =>
    let bw := d.bw (d.comp.get one.ci)
    [{ sc := one, row := d.scan.mcu / bw, col := d.scan.mcu % bw }]
  | scs => scs.flatMap d.mcuCompBlocks

/-- Coefficient `blk[n]` of a block. -/
def Dec.readBlk (d : Dec) (b : BlockRef) (n : Nat) : Except UnitStop Half := d.readCell b.sc.ci b.row b.col n

/-- `blk[n] <- v`. -/
def Dec.writeBlk (d : Dec) (b : BlockRef) (n : Nat) (v : Half) : Except UnitStop Dec :=
  d.writeCell b.sc.ci b.row b.col n v

/-- `COMP[i].pred`. -/
def Dec.predOf (d : Dec) (i : Fin 4) : Half := (d.comp.get i).pred

/-- `COMP[i].pred <- v`. -/
def Dec.withPred (d : Dec) (i : Fin 4) (v : Half) : Dec :=
  { d with comp := d.comp.set i { d.comp.get i with pred := v } }

/-- `SCAN.EOBRUN <- v`. -/
def Dec.withEobrun (d : Dec) (v : Half) : Dec := { d with scan := { d.scan with eobrun := v } }

/-- The last zig-zag index of a block's band: 63 in a sequential scan (R201), SCAN.Se otherwise (R204). -/
def Dec.lastK (d : Dec) : Nat := if d.scan.mode = .seq then 63 else d.scan.se

/-! ## The end of a block and of an MCU -/

/-- The MCU counters (R209). -/
def Dec.countMcu (d : Dec) : Dec :=
  { d with
    scan := { d.scan with mcu := d.scan.mcu + 1
                          rstLeft := if d.ri = 0 then d.scan.rstLeft else d.scan.rstLeft - 1 }
    prog := { blk := 0, k := 0 } }

/-- AFTER_MCU's change of STATE (R210). -/
def Dec.afterMcu (d : Dec) : Dec :=
  if d.scan.mcu = d.scan.total then d
  else if d.ri ≠ 0 ∧ d.scan.rstLeft = 0 then { d with fsm := .findMarker }
  else d

/-- The end of the MCU unit (R209, R210): the counters, the rows it emits or the flush it cancels, and the commit. -/
def Dec.mcuDone (d : Dec) (cfg : Config) : Except UnitStop UnitDone :=
  let d := d.countMcu
  if d.scan.mode = .seq then do
    let (d, evs) ← d.seqOutput cfg
    .ok (.commit d.afterMcu evs)
  else
    let d := { d with flush := { row := 0, pending := false } }
    .ok (.commit d.afterMcu [])

/-- The end of a block: the MCU's next block, or the end of the MCU. -/
def Dec.blockDone (d : Dec) (cfg : Config) : Except UnitStop UnitDone :=
  if d.prog.blk + 1 < d.mcuBlocks.length then .ok (.cont { d with prog := { blk := d.prog.blk + 1, k := 0 } })
  else d.mcuDone cfg

/-- The loop condition `while k <= Se` after a symbol (R201, R204, R205): on with index k, or the block is done. -/
def Dec.nextK (d : Dec) (cfg : Config) (k : Nat) : Except UnitStop UnitDone :=
  if k ≤ d.lastK then .ok (.cont { d with prog := { d.prog with k := k } }) else d.blockDone cfg

/-! ## DC symbols -/

/-- DC part of SEQ_BLOCK after its symbol t (R200). -/
def Dec.seqDc (d : Dec) (v : List Byte) (b : BlockRef) (t : Nat) : Except UnitStop UnitDone := do
  let (x, r) ← receive v d.more t d.rd
  let pred := wrap16 ((d.predOf b.sc.ci).toInt + extend x t)
  let d ← ((d.withRd r).withPred b.sc.ci pred).clearBlock b.sc.ci b.row b.col
  let d ← d.writeBlk b 0 pred
  .ok (.cont { d with prog := { d.prog with k := 1 } })

/-- DC_FIRST_BLOCK after its symbol t (R202). -/
def Dec.firstDc (d : Dec) (cfg : Config) (v : List Byte) (b : BlockRef) (t : Nat) : Except UnitStop UnitDone := do
  let (x, r) ← receive v d.more t d.rd
  let pred := wrap16 ((d.predOf b.sc.ci).toInt + extend x t)
  let d ← ((d.withRd r).withPred b.sc.ci pred).writeBlk b 0 (wrap16 (pred.toInt * 2 ^ d.scan.al))
  d.blockDone cfg

/-- DC_REFINE_BLOCK with its bit (R203): OR on the 16-bit pattern. -/
def Dec.refineDc (d : Dec) (cfg : Config) (b : BlockRef) (bit : Bool) : Except UnitStop UnitDone := do
  let c ← d.readBlk b 0
  let d ← if bit then d.writeBlk b 0 (c ||| wrap16 (2 ^ d.scan.al)) else .ok d
  d.blockDone cfg

/-! ## AC symbols of SEQ and AC_FIRST -/

/-- The factor of a coefficient: 1 in a sequential scan (R201), 2^Al in AC_FIRST (R204). -/
def Dec.acScale (d : Dec) : Int := if d.scan.mode = .seq then 1 else 2 ^ d.scan.al

/-- A run of r zeros and one coefficient of category s (R201, R204). -/
def Dec.acCoef (d : Dec) (cfg : Config) (v : List Byte) (b : BlockRef) (r s : Nat) : Except UnitStop UnitDone := do
  let k := d.prog.k + r
  failIf (decide (d.lastK < k)) .huffAcIndex
  let (x, rd) ← receive v d.more s d.rd
  let d ← (d.withRd rd).writeBlk b (zz k) (wrap16 (extend x s * d.acScale))
  d.nextK cfg (k + 1)

/-- ZRL (R201, R204). -/
def Dec.acZrl (d : Dec) (cfg : Config) : Except UnitStop UnitDone := do
  let k := d.prog.k + 16
  failIf (decide (d.lastK + 1 < k)) .huffAcIndex
  d.nextK cfg k

/-- EOBn in AC_FIRST (R204): `EOBRUN <- 2^r + RECEIVE(r) - 1`. -/
def Dec.firstEob (d : Dec) (cfg : Config) (v : List Byte) (r : Nat) : Except UnitStop UnitDone := do
  let (x, rd) ← receive v d.more r d.rd
  ((d.withRd rd).withEobrun (BitVec.ofNat 16 (2 ^ r + x - 1))).blockDone cfg

/-! ## AC refinement -/

/-- CORRECT(blk, n, p1, m1) (R205), the cell's value being `c`. -/
def Dec.correct (d : Dec) (v : List Byte) (b : BlockRef) (n : Nat) (c : Half) : Except UnitStop Dec := do
  let (bit, r) ← nextBit v d.more d.rd
  let d := d.withRd r
  let p1 : Half := wrap16 (2 ^ d.scan.al)
  if bit && c &&& p1 == 0 then
    d.writeBlk b n (wrap16 (c.toInt + if c.toInt ≥ 0 then 2 ^ d.scan.al else -2 ^ d.scan.al))
  else .ok d

/-- R205's inner loop: `fuel` indices are left in the band from `k` on, `r` zero-history cells are still to pass. The
answer is the index of the target cell. -/
def Dec.refineSkip (v : List Byte) (b : BlockRef) : Nat → Nat → Nat → Dec → Except UnitStop (Nat × Dec)
  | 0, _, _, _ => raise .huffAcIndex
  | fuel + 1, k, r, d => do
    let c ← d.readBlk b (zz k)
    if c != 0 then do
      let d ← d.correct v b (zz k) c
      Dec.refineSkip v b fuel (k + 1) r d
    else if r = 0 then .ok (k, d)
    else Dec.refineSkip v b fuel (k + 1) (r - 1) d

/-- The correction bits of the rest of the band (R205): `fuel` indices from `k` on. -/
def Dec.refineRest (v : List Byte) (b : BlockRef) : Nat → Nat → Dec → Except UnitStop Dec
  | 0, _, d => .ok d
  | fuel + 1, k, d => do
    let c ← d.readBlk b (zz k)
    let d ← if c != 0 then d.correct v b (zz k) c else .ok d
    Dec.refineRest v b fuel (k + 1) d

/-- A run of r and one new coefficient, or a ZRL when `coef` is false (R205). -/
def Dec.refineRun (d : Dec) (cfg : Config) (v : List Byte) (b : BlockRef) (r : Nat) (coef : Bool) :
    Except UnitStop UnitDone := do
  let (bit, rd) ← if coef then nextBit v d.more d.rd else .ok (false, d.rd)
  let k0 := d.prog.k
  let (k, d) ← Dec.refineSkip v b (d.scan.se + 1 - k0) k0 r (d.withRd rd)
  let d ← if coef then d.writeBlk b (zz k) (wrap16 (if bit then 2 ^ d.scan.al else -2 ^ d.scan.al)) else .ok d
  d.nextK cfg (k + 1)

/-- The rest of a block inside an EOB run, from index `k` on, which the run then counts (R205). -/
def Dec.refineEobBlock (d : Dec) (cfg : Config) (v : List Byte) (b : BlockRef) (k : Nat) : Except UnitStop UnitDone := do
  let d ← Dec.refineRest v b (d.scan.se + 1 - k) k d
  (d.withEobrun (d.scan.eobrun - 1)).blockDone cfg

/-- EOBn in AC_REFINE (R205): `EOBRUN <- 2^r + RECEIVE(r)`, this block included. -/
def Dec.refineEob (d : Dec) (cfg : Config) (v : List Byte) (b : BlockRef) (r : Nat) : Except UnitStop UnitDone := do
  let (x, rd) ← receive v d.more r d.rd
  ((d.withRd rd).withEobrun (BitVec.ofNat 16 (2 ^ r + x))).refineEobBlock cfg v b d.prog.k

/-! ## The meanings -/

/-- The block whose symbol comes next: a DECODE is in progress, STATE is RESTART and the scan has MCUs left (R209). -/
def State.currentBlock (s : State) : Option (List Byte × BlockRef) :=
  match s.view with
  | none => none
  | some v =>
    if s.dec.fsm = .restart ∧ s.dec.scan.mcu < s.dec.scan.total then
      (s.dec.mcuBlocks[s.dec.prog.blk]?).map fun b => (v, b)
    else none

/-- A symbol of the current block; in no other place does a unit read one (log 14). -/
def State.atSymbol (s : State) (f : List Byte → BlockRef → Outcome) : Outcome :=
  match s.currentBlock with
  | some (v, b) => f v b
  | none => .fault .notSelected

/-- DC_DIFF (R200, R202). -/
def execDcDiff (t : BitVec 4) (s : State) : Outcome :=
  s.atSymbol fun v b =>
    match s.dec.scan.mode with
    | .seq => s.endUnit (s.dec.seqDc v b t.toNat)
    | .dcFirst => s.endUnit (s.dec.firstDc s.cfg v b t.toNat)
    | .dcRefine => .fault .notSelected
    | .acFirst => .fault .notSelected
    | .acRefine => .fault .notSelected

/-- DC_REFINE_BIT (R203). -/
def execDcRefineBit (bit : Bool) (s : State) : Outcome :=
  s.atSymbol fun _ b =>
    match s.dec.scan.mode with
    | .seq => .fault .notSelected
    | .dcFirst => .fault .notSelected
    | .dcRefine => s.endUnit (s.dec.refineDc s.cfg b bit)
    | .acFirst => .fault .notSelected
    | .acRefine => .fault .notSelected

/-- AC_EOB (R201, R204, R205). -/
def execAcEob (s : State) : Outcome :=
  s.atSymbol fun v b =>
    match s.dec.scan.mode with
    | .seq => s.endUnit (s.dec.blockDone s.cfg)
    | .dcFirst => .fault .notSelected
    | .dcRefine => .fault .notSelected
    | .acFirst => s.endUnit (s.dec.firstEob s.cfg v 0)
    | .acRefine => s.endUnit (s.dec.refineEob s.cfg v b 0)

/-- AC_ZRL (R201, R204, R205). -/
def execAcZrl (s : State) : Outcome :=
  s.atSymbol fun v b =>
    match s.dec.scan.mode with
    | .seq => s.endUnit (s.dec.acZrl s.cfg)
    | .dcFirst => .fault .notSelected
    | .dcRefine => .fault .notSelected
    | .acFirst => s.endUnit (s.dec.acZrl s.cfg)
    | .acRefine => s.endUnit (s.dec.refineRun s.cfg v b 15 false)

/-- AC_EOBRUN (R201: not legal in a sequential scan; R204, R205). -/
def execAcEobRun (r : BitVec 4) (s : State) : Outcome :=
  s.atSymbol fun v b =>
    match s.dec.scan.mode with
    | .seq => s.endUnit (raise .huffAcSymbol)
    | .dcFirst => .fault .notSelected
    | .dcRefine => .fault .notSelected
    | .acFirst => s.endUnit (s.dec.firstEob s.cfg v r.toNat)
    | .acRefine => s.endUnit (s.dec.refineEob s.cfg v b r.toNat)

/-- AC_RUN_SIZE (R201, R204; R205: only category 1 is legal). -/
def execAcRunSize (r sz : BitVec 4) (s : State) : Outcome :=
  s.atSymbol fun v b =>
    match s.dec.scan.mode with
    | .seq => s.endUnit (s.dec.acCoef s.cfg v b r.toNat sz.toNat)
    | .dcFirst => .fault .notSelected
    | .dcRefine => .fault .notSelected
    | .acFirst => s.endUnit (s.dec.acCoef s.cfg v b r.toNat sz.toNat)
    | .acRefine =>
      s.endUnit (if sz = 1 then s.dec.refineRun s.cfg v b r.toNat true else raise .huffAcSymbol)

/-! ## Blocks that read no symbol -/

/-- A block that begins inside an EOB run: AC_FIRST reads nothing (R204), AC_REFINE reads the band's correction bits
(R205). -/
def Dec.runBlock (d : Dec) (cfg : Config) (v : List Byte) (b : BlockRef) : Except UnitStop UnitDone :=
  if d.scan.mode = .acRefine then d.refineEobBlock cfg v b d.scan.ss
  else (d.withEobrun (d.scan.eobrun - 1)).blockDone cfg

end Sys2Proof.Machine
end

