-- ==== Sys2Proof/Machine/Operands.lean ====
section
/-! DEFINITION. The operand forms of the marker segments (spec/30_encoding.md R105 to R112): their fields, read from the
input view and checked in the order the handler's rule gives (44_frame_fsm.md R293, R294, R300, R302, R310, R335). -/

namespace Sys2Proof.Machine

/-- The fixed 10 bytes of a frame header (R105). -/
structure SofFields where
  y : Half
  x : Half
  nf : Nat
deriving DecidableEq, Repr

/-- The fixed header with R293's checks, in its order. -/
def Dec.readSof (d : Dec) (v : List Byte) : Except UnitStop SofFields := do
  d.need v 4
  let lf := (d.be16 v 2).toNat
  failIf (decide (lf < 8)) .sofLength
  d.need v 10
  let nf := (d.inp v 9).toNat
  failIf (d.inp v 4 != 8) .sofPrecision
  failIf (d.be16 v 5 == 0 || d.be16 v 7 == 0) .sofDimension
  failIf (!(nf == 1 || nf == 3 || nf == 4)) .sofNcomp
  failIf (lf != 8 + 3 * nf) .sofLength
  .ok { y := d.be16 v 5, x := d.be16 v 7, nf := nf }

/-- A 4-bit selector as a table number 0..3, when it is one. -/
def selector (n : BitVec 4) : Option (Fin 4) :=
  if h : n.toNat < 4 then some ⟨n.toNat, h⟩ else none

/-- One entry of the component list, at offset `3 * i`, after the entries `before` (R294). -/
def Dec.readComp (d : Dec) (v : List Byte) (i : Nat) (before : List Comp) : Except UnitStop Comp := do
  let c := d.inp v (3 * i)
  let h := (hiNibble (d.inp v (3 * i + 1))).toNat
  let vv := (loNibble (d.inp v (3 * i + 1))).toNat
  failIf (before.any fun b => b.id == c) .sofDupid
  failIf (!(decide (1 ≤ h ∧ h ≤ 4) && decide (1 ≤ vv ∧ vv ≤ 4))) .sofSampling
  match selector (loNibble (d.inp v (3 * i + 2))), hiNibble (d.inp v (3 * i + 2)) == 0 with
  | some tq, true => .ok { id := c, h := h, v := vv, tq := tq, pred := 0 }
  | _, _ => raise .sofQtsel

/-- The component list: `n` entries from entry `i` on, after the entries `before` (R294). -/
def Dec.readComps (d : Dec) (v : List Byte) : Nat → Nat → List Comp → Except UnitStop (List Comp)
  | 0, _, before => .ok before
  | n + 1, i, before => do
    let c ← d.readComp v i before
    d.readComps v n (i + 1) (before ++ [c])

/-- COMP with its first entries replaced by `cs` (R294). -/
def compsFrom (old : Quad Comp) (cs : List Comp) : Quad Comp :=
  { q0 := cs.getD 0 old.q0, q1 := cs.getD 1 old.q1, q2 := cs.getD 2 old.q2, q3 := cs.getD 3 old.q3 }

/-- One definition of a DQT segment (R107): its table, its precision bit and its entries in natural order. -/
structure QDef where
  tq : Fin 4
  pq : Bool
  q : List Half
deriving DecidableEq, Repr

/-- The 64 entries of a definition, in zig-zag order: bytes, or 16-bit big-endian (R107). -/
def dqtEntries (wide : Bool) (bs : List Byte) : List Half :=
  (List.range 64).map fun k =>
    if wide then be16 (bs.getD (2 * k) 0) (bs.getD (2 * k + 1) 0) else (bs.getD k 0).setWidth 16

/-- Entries in zig-zag order laid out in natural order: `Q[ZZ[k]] = q_k` (R119, R300). -/
def toNatural (zs : List Half) : List Half := (List.range 64).map fun n => zs.getD (izz n) 0

/-- The definitions of a DQT payload, with R300's checks; `fuel` bounds their number. -/
def parseDqt : Nat → List Byte → Except UnitStop (List QDef)
  | _, [] => .ok []
  | 0, _ => raise .dqtLength
  | fuel + 1, b :: rest =>
    let size := if hiNibble b == 1 then 128 else 64
    match selector (loNibble b), decide ((hiNibble b).toNat ≤ 1) with
    | some tq, true => do
      failIf (decide (rest.length < size)) .dqtLength
      let more ← parseDqt fuel (rest.drop size)
      .ok ({ tq := tq, pq := hiNibble b == 1, q := toNatural (dqtEntries (hiNibble b == 1) rest) } :: more)
    | _, _ => raise .dqtParam

/-- One definition of a DHT segment (R106), built: its class, its table and its entry. -/
structure HDef where
  isAc : Bool
  th : Fin 4
  entry : HEntry
deriving DecidableEq, Repr

/-- The sum of the counts of a definition. -/
def countSum (bits : List Byte) : Nat := (bits.map BitVec.toNat).sum

/-- The definitions of a DHT payload, with R302's checks and BUILD; `fuel` bounds their number. -/
def parseDht : Nat → List Byte → Except UnitStop (List HDef)
  | _, [] => .ok []
  | 0, _ => raise .dhtLength
  | fuel + 1, b :: rest =>
    match selector (loNibble b), decide ((hiNibble b).toNat ≤ 1) with
    | some th, true => do
      failIf (decide (rest.length < 16)) .dhtLength
      let bits := rest.take 16
      failIf (decide (256 < countSum bits)) .dhtCounts
      failIf (decide (rest.length < 16 + countSum bits)) .dhtLength
      match build bits ((rest.drop 16).take (countSum bits)) with
      | none => raise .dhtCodeOverflow
      | some entry => do
        let more ← parseDht fuel (rest.drop (16 + countSum bits))
        .ok ({ isAc := hiNibble b == 1, th := th, entry := entry } :: more)
    | _, _ => raise .dhtParam

/-- The definitions of one segment written in order: a table defined twice keeps the later one (R300). -/
def Dec.storeQt (d : Dec) (q : QDef) : Dec :=
  { d with qt := d.qt.set q.tq { isDefined := true, pq := q.pq, q := q.q } }

/-- One Huffman table written (R302). -/
def Dec.storeHt (d : Dec) (h : HDef) : Dec :=
  if h.isAc then { d with htAc := d.htAc.set h.th h.entry } else { d with htDc := d.htDc.set h.th h.entry }

/-- The component a scan's selector names: the first of the frame's with that id (R310). -/
def Dec.findComp (d : Dec) (cs : Byte) : Option (Fin 4) :=
  [(0 : Fin 4), 1, 2, 3].find? fun i => decide (i.val < d.frame.nf) && (d.comp.get i).id == cs

/-- The component selectors of an SOS: `n` entries from entry `j` on, after the entries `before` (R310). -/
def Dec.readSelectors (d : Dec) (v : List Byte) :
    Nat → Nat → List ScanComp → Except UnitStop (List ScanComp)
  | 0, _, before => .ok before
  | n + 1, j, before =>
    match d.findComp (d.inp v (5 + 2 * j)) with
    | none => raise .sosCompsel
    | some ci => do
      failIf (before.any fun b => b.ci == ci) .sosCompsel
      match selector (hiNibble (d.inp v (6 + 2 * j))), selector (loNibble (d.inp v (6 + 2 * j))) with
      | some td, some ta => d.readSelectors v n (j + 1) (before ++ [{ ci := ci, td := td, ta := ta }])
      | _, _ => raise .sosTableUndefined

/-- The blocks of an interleaved scan's MCU: Σ H·V (R310). -/
def Dec.mcuSize (d : Dec) (sc : List ScanComp) : Nat :=
  (sc.map fun c => (d.comp.get c.ci).h * (d.comp.get c.ci).v).sum

/-- R310's table checks for the slots of a scan, in order. -/
def Dec.checkTables (d : Dec) (mode : ScanMode) : List ScanComp → Except UnitStop Unit
  | [] => .ok ()
  | c :: rest => do
    failIf (mode.usesDc && !(d.htDc.get c.td).isDefined) .sosTableUndefined
    failIf (mode.usesAc && !(d.htAc.get c.ta).isDefined) .sosTableUndefined
    failIf (!(d.qt.get (d.comp.get c.ci).tq).isDefined) .qtUndefined
    d.checkTables mode rest

/-- "JFIF\0" (R110). -/
def idJfif : List Byte := [0x4A, 0x46, 0x49, 0x46, 0x00]

/-- "Exif\0\0" (R112). -/
def idExif : List Byte := [0x45, 0x78, 0x69, 0x66, 0x00, 0x00]

/-- "ICC_PROFILE\0" (R112). -/
def idIcc : List Byte := [0x49, 0x43, 0x43, 0x5F, 0x50, 0x52, 0x4F, 0x46, 0x49, 0x4C, 0x45, 0x00]

/-- "Adobe" (R111). -/
def idAdobe : List Byte := [0x41, 0x64, 0x6F, 0x62, 0x65]

end Sys2Proof.Machine
end

