-- ==== Sys2Proof/Machine/Frame.lean ====
section
/-! DEFINITION. The frame's markers (spec/44_frame_fsm.md): SOI (R282, R283), the SOF markers (R292 to R295), EOI (R325),
RSTn (R318, R331), TEM (R331) and the codes that are no marker (R284); and the units that read no marker: the byte skip
(R284, R318), SOF_BODY (R294) and TRAILING (40_host_and_cursor.md R146). -/

namespace Sys2Proof.Machine

/-! ## Skipping -/

/-- Skip one byte: a garbage byte, a fill byte, or the FF of a pair that is no marker (R284, R318). -/
def Dec.skipByte (d : Dec) : Except UnitStop UnitDone := commit (d.advance 1)

/-- IGNORE_STANDALONE (R331). -/
def Dec.ignoreStandalone (d : Dec) : Except UnitStop UnitDone := commit (d.advance 2)

/-- TRAILING, the unit of DONE (R146): every byte is consumed; with none left the unit stops. -/
def Dec.trailing (d : Dec) (v : List Byte) : Except UnitStop UnitDone :=
  if d.avail v = 0 then .ok .stop else commit (d.advance (d.avail v))

/-- A pair FF m that is no recognized marker (R102): in a scan for a marker the FF is skipped (R284, R318). Where the bit
reader meets it, FF 00 is the data byte FF (R113, R175) and any other m is ECS_MARKER (R176; log 23). -/
def execRes (m : Byte) (s : State) : Outcome :=
  s.atMarker (fun _ => raise .soiMissing) (fun _ => s.dec.skipByte) (fun _ => s.dec.skipByte)
    (fun _ =>
      if m = 0 then .ok (.cont { s.dec.advance 2 with bb := { val := 0xFF, cnt := 8 } }) else raise .ecsMarker)

/-- TEM (R331). -/
def execTem (s : State) : Outcome := s.atScan fun _ => s.dec.ignoreStandalone

/-! ## Start of image -/

/-- SOI: the SOI unit in NONE (R282), a second SOI in STARTED and FRAME (R283). -/
def execSoi (s : State) : Outcome :=
  s.atMarker (fun _ => commit { s.dec.advance 2 with fsm := .started }) (fun _ => raise .soiDuplicate)
    (fun _ => raise .rstExpected) (fun _ => raise .ecsMarker)

/-! ## Frame header -/

/-- ABORT_FRAME (R295). -/
def Dec.abortFrame (d : Dec) : Dec :=
  { d with
    planes := Planes.free
    frame := { d.frame with valid := false }
    scan := { d.scan with active := false } }

/-- The registers SOF_HEADER writes (R293). -/
def Dec.withHeader (d : Dec) (sof : Fin 3) (f : SofFields) : Dec :=
  { d with
    cur := d.cur + 10
    fsm := .frameHeader
    frame := { valid := d.frame.valid, sof := sof, progressive := sof == 2, p := 8, y := f.y, x := f.x, nf := f.nf
               cs := colourTag f.nf d.adobe, scans := 0 }
    out := { nextRow := 0, mcuRows := 0 }
    flush := { row := 0, pending := false } }

/-- The events SOF_HEADER delivers (R293, R149). -/
def sofEvents (sof : Fin 3) (f : SofFields) : List Event :=
  [.sizeKnown f.x f.y, .frameStarted (8 * f.nf) (sof == 2) none]

/-- SOF_HEADER (R293), in FRAME after ABORT_FRAME (R285, R295). -/
def Dec.sofHeader (d : Dec) (sof : Fin 3) (v : List Byte) : Except UnitStop UnitDone := do
  let d := if d.fsm = .frame then d.abortFrame else d
  let f ← d.readSof v
  .ok (.commit (d.withHeader sof f) (sofEvents sof f))

/-- SOF0 (R293). -/
def execSof0 (s : State) : Outcome := s.atScan fun v => s.dec.sofHeader 0 v

/-- SOF1 (R293). -/
def execSof1 (s : State) : Outcome := s.atScan fun v => s.dec.sofHeader 1 v

/-- SOF2 (R293). -/
def execSof2 (s : State) : Outcome := s.atScan fun v => s.dec.sofHeader 2 v

/-- SOF3 (R292). -/
def execSof3 (s : State) : Outcome := s.atScan fun _ => raise .sofUnsupported

/-- SOF5 (R292). -/
def execSof5 (s : State) : Outcome := s.atScan fun _ => raise .sofUnsupported

/-- SOF6 (R292). -/
def execSof6 (s : State) : Outcome := s.atScan fun _ => raise .sofUnsupported

/-- SOF7 (R292). -/
def execSof7 (s : State) : Outcome := s.atScan fun _ => raise .sofUnsupported

/-- SOF9 (R292). -/
def execSof9 (s : State) : Outcome := s.atScan fun _ => raise .sofUnsupported

/-- SOF10 (R292). -/
def execSof10 (s : State) : Outcome := s.atScan fun _ => raise .sofUnsupported

/-- SOF11 (R292). -/
def execSof11 (s : State) : Outcome := s.atScan fun _ => raise .sofUnsupported

/-- SOF13 (R292). -/
def execSof13 (s : State) : Outcome := s.atScan fun _ => raise .sofUnsupported

/-- SOF14 (R292). -/
def execSof14 (s : State) : Outcome := s.atScan fun _ => raise .sofUnsupported

/-- SOF15 (R292). -/
def execSof15 (s : State) : Outcome := s.atScan fun _ => raise .sofUnsupported

/-- The bytes the planes of the frame need (R294). -/
def Dec.planesNeed (d : Dec) : Nat := (d.comps.map d.planeBytes).sum

/-- SOF_BODY (R294), the unit of FRAMEHEADER. -/
def Dec.sofBody (d : Dec) (cfg : Config) (v : List Byte) : Except UnitStop UnitDone := do
  d.need v (3 * d.frame.nf)
  let cs ← d.readComps v d.frame.nf 0 []
  let d := { d with comp := compsFrom d.comp cs }
  if cfg.allocLimit < d.planesNeed then .error (.raise .outOfMemory)
  else
    commit { d with
      planes := Planes.zero
      cur := d.cur + 3 * d.frame.nf
      frame := { d.frame with valid := true }
      fsm := .frame }

/-! ## Restart markers -/

/-- The restart of RST_STEP (R318). -/
def Dec.restart (d : Dec) : Except UnitStop UnitDone :=
  let d := (d.advance 2).initEntropy
  commit { d with scan := { d.scan with rstNext := d.scan.rstNext + 1 }, fsm := .restart }

/-- An RSTn marker: ignored by the scanner (R331), the restart in FINDMARKER whatever its number is (R318). -/
def State.atRst (s : State) : Outcome :=
  s.atMarker (fun _ => raise .soiMissing) (fun _ => s.dec.ignoreStandalone) (fun _ => s.dec.restart)
    (fun _ => raise .ecsMarker)

/-- RST0 (R318, R331). -/
def execRst0 (s : State) : Outcome := s.atRst

/-- RST1 (R318, R331). -/
def execRst1 (s : State) : Outcome := s.atRst

/-- RST2 (R318, R331). -/
def execRst2 (s : State) : Outcome := s.atRst

/-- RST3 (R318, R331). -/
def execRst3 (s : State) : Outcome := s.atRst

/-- RST4 (R318, R331). -/
def execRst4 (s : State) : Outcome := s.atRst

/-- RST5 (R318, R331). -/
def execRst5 (s : State) : Outcome := s.atRst

/-- RST6 (R318, R331). -/
def execRst6 (s : State) : Outcome := s.atRst

/-- RST7 (R318, R331). -/
def execRst7 (s : State) : Outcome := s.atRst

/-! ## End of image -/

/-- The final flush of a progressive frame, and what it leaves in FLUSH (R325, R373). -/
def Dec.eoiFlush (d : Dec) (cfg : Config) : Except UnitStop (FlushReg × List Event) :=
  if d.frame.progressive then do
    d.renderable
    let f := d.progressiveFlush cfg 0 false []
    .ok (f.flush, f.events)
  else .ok (d.flush, [])

/-- EOI in FRAME (R325). -/
def Dec.eoi (d : Dec) (cfg : Config) : Except UnitStop UnitDone := do
  failIf (decide (d.frame.scans = 0)) .eoiIncomplete
  let (fl, evs) ← d.eoiFlush cfg
  .ok (.commit { d with
    flush := fl
    planes := Planes.free
    frame := { d.frame with valid := false }
    cur := d.cur + 2
    fsm := .done } (evs ++ [.finished]))

/-- EOI (R285, R325). -/
def execEoi (s : State) : Outcome :=
  s.atScan fun _ => if s.dec.fsm = .frame then s.dec.eoi s.cfg else raise .eoiNoFrame

end Sys2Proof.Machine
end

