-- ==== Sys2Proof/Machine/Scans.lean ====
section
/-! DEFINITION. The start and the end of a scan (spec/44_frame_fsm.md): SOS (R310 to R314) and SCAN_END (R316). -/

namespace Sys2Proof.Machine

/-- SCAN as SOS writes it (R310), before INIT_ENTROPY. -/
def Dec.newScan (d : Dec) (sc : List ScanComp) (ss se ah al : Nat) : Scan :=
  { active := true, ns := sc.length, sc := sc, ss := ss, se := se, ah := ah, al := al
    mode := scanMode d.frame.progressive ss ah, total := d.scanTotal sc, mcu := 0
    rstLeft := d.scan.rstLeft, rstNext := 0, eobrun := d.scan.eobrun }

/-- What SOS commits (R310). -/
def Dec.startScan (d : Dec) (sc : List ScanComp) (ss se ah al : Nat) : Dec :=
  let d := { d with scan := d.newScan sc ss se ah al }.initEntropy
  { d with out := { d.out with mcuRows := 0 }, prog := { blk := 0, k := 0 }, fsm := .restart }

/-- SOS in FRAME, with R310's checks in its order. -/
def Dec.sos (d : Dec) (v : List Byte) : Except UnitStop UnitDone := do
  let ls ← d.preamble v 8 .sosLength
  let ns := (d.inp v 4).toNat
  failIf (decide (ns < 1) || decide (4 < ns) || decide (d.frame.nf < ns)) .sosNcomp
  failIf (ls != 6 + 2 * ns) .sosLength
  let sc ← d.readSelectors v ns 0 []
  let ss := (d.inp v (5 + 2 * ns)).toNat
  let se := (d.inp v (6 + 2 * ns)).toNat
  let ah := (hiNibble (d.inp v (7 + 2 * ns))).toNat
  let al := (loNibble (d.inp v (7 + 2 * ns))).toNat
  failIf (!legalScan d.frame.progressive ns ss se ah al) .sosProgression
  failIf (!d.frame.progressive && (decide (0 < d.frame.scans) || ns != d.frame.nf)) .sosSequence
  failIf (decide (1 < ns) && decide (10 < d.mcuSize sc)) .sosMcuSize
  d.checkTables (scanMode d.frame.progressive ss ah) sc
  commit ((d.startScan sc ss se ah al).advance (2 + ls))

/-- SOS (R285, R310). -/
def execSos (s : State) : Outcome :=
  s.atScan fun v => if s.dec.fsm = .frame then s.dec.sos v else raise .sosNoFrame

/-- SCAN_END (R316), the unit of RESTART when every MCU of the scan is done. -/
def Dec.scanEnd (d : Dec) (cfg : Config) : Except UnitStop UnitDone := do
  let (d, evs) ← if d.scan.mode = .seq then d.seqFinish cfg else .ok (d, [])
  .ok (.commit { d with
    bb := { d.bb with cnt := 0 }
    scan := { d.scan with active := false }
    frame := { d.frame with scans := wrap32 (d.frame.scans + 1) }
    fsm := .frame } evs)

end Sys2Proof.Machine
end

