-- ==== Sys2Proof/Machine/Exif.lean ====
section
/-! DEFINITION. The laws of the EXIF boundary (spec/46_metadata_boundary.md R380, R381): which entries of a payload an
instance of EXIF_FN may deliver. The layout of a TIFF directory, the codes of its types and the tags that lead to the Exif,
GPS and Interop sub-IFDs are TIFF's and EXIF's (PRESUMED, log 26): the spec names them and does not print them. -/

namespace Sys2Proof.Machine

/-! ## Fields, in the order of the mark (R381(a), R381(c)) -/

/-- The payload has the mark "II" or "MM"; with another mark every instance fails (R381(c)). -/
def exifMarked (p : List Byte) : Bool := p.take 2 = [0x49, 0x49] || p.take 2 = [0x4D, 0x4D]

/-- Whether the mark is "MM", most significant byte first. -/
def exifBig (p : List Byte) : Bool := p.take 2 = [0x4D, 0x4D]

/-- The field of `n` bytes at offset `o`, in the order of the mark; none where it does not lie inside the payload. -/
def exifField (p : List Byte) (n o : Nat) : Option Nat :=
  if o + n ≤ p.length then
    let bs := (p.drop o).take n
    some (((if exifBig p then bs else bs.reverse).foldl fun acc b => acc * 256 + b.toNat) 0)
  else none

/-! ## The value of an entry (R381(d)) -/

/-- The numbers a value of this type and count is made of: the bytes of each, how many, and whether they are signed. None
for a type other than BYTE, ASCII, SHORT, LONG, RATIONAL, SLONG and SRATIONAL, which produces no value. -/
def exifUnits (type count : Nat) : Option (Nat × Nat × Bool) :=
  match type with
  | 1 => some (1, count, false)
  | 2 => some (1, count, false)
  | 3 => some (2, count, false)
  | 4 => some (4, count, false)
  | 5 => some (4, 2 * count, false)
  | 9 => some (4, count, true)
  | 10 => some (4, 2 * count, true)
  | _ => none

/-- A number of `n` bytes, read as two's complement when it is signed. -/
def exifSigned (signed : Bool) (n x : Nat) : Int :=
  if signed && decide (2 ^ (8 * n - 1) ≤ x) then (x : Int) - 2 ^ (8 * n) else x

/-- The `m` numbers of `n` bytes from offset `o` on: those that lie inside the payload (R381(a), R381(b)). -/
def exifNumbers (p : List Byte) (signed : Bool) (n m o : Nat) : List Int :=
  (List.range (min m p.length)).filterMap fun j => (exifField p n (o + n * j)).map (exifSigned signed n)

/-- The entry of 12 bytes at offset `o` of the directory `dir`: tag, type, count, and the value, or its offset when it is longer than 4 bytes. None
where the entry does not lie inside the payload or its type produces no value. -/
def exifEntry (p : List Byte) (dir : ExifDir) (o : Nat) : Option ExifEntry := do
  let tag ← exifField p 2 o
  let type ← exifField p 2 (o + 2)
  let count ← exifField p 4 (o + 4)
  let field ← exifField p 4 (o + 8)
  let (n, m, signed) ← exifUnits type count
  some { dir := dir, tag := BitVec.ofNat 16 tag, type := type, count := count
         values := exifNumbers p signed n m (if n * m ≤ 4 then o + 8 else field) }

/-- The entries of the directory `d.1` at offset `d.2` that produce a value. -/
def exifIfd (p : List Byte) (d : ExifDir × Nat) : List ExifEntry :=
  (List.range ((exifField p 2 d.2).getD 0)).filterMap fun j => exifEntry p d.1 (d.2 + 2 + 12 * j)

/-! ## The walk (R381(d), R381(e)) -/

/-- The sub-IFD an entry leads to by its tag, whatever its type is (DESIGN CHOICE, log 26): its value is then that
directory's offset. -/
def exifSubIfd (e : ExifEntry) : Option ExifDir :=
  if e.tag = 0x8769 then some .exif
  else if e.tag = 0x8825 then some .gps
  else if e.tag = 0xA005 then some .interop
  else none

/-- The sub-IFDs these entries lead to, with their offsets. DESIGN CHOICE (log 26): an entry of any of the seven types leads
there, its first number being the offset, a negative number the offset 0; an entry with no number leads nowhere. -/
def exifSubIfds (es : List ExifEntry) : List (ExifDir × Nat) :=
  es.filterMap fun e => (exifSubIfd e).bind fun dir => e.values.head?.map fun o => (dir, o.toNat)

/-- The entries of the directories still `todo`, each directory once: a chain that points back at itself ends. -/
def exifWalk (p : List Byte) : Nat → List (ExifDir × Nat) → List (ExifDir × Nat) → List ExifEntry
  | 0, _, _ => []
  | _, [], _ => []
  | fuel + 1, d :: todo, seen =>
    if d ∈ seen then exifWalk p fuel todo seen
    else exifIfd p d ++ exifWalk p fuel (exifSubIfds (exifIfd p d) ++ todo) (d :: seen)

/-- The entries of IFD0 and of the Exif, GPS and Interop sub-IFDs chained to it. Only a directory that begins inside the
payload has entries, at most one for each byte of it, and each is walked once under each of its four names, so the walk
ends within this bound. -/
def exifEntries (p : List Byte) : List ExifEntry :=
  match exifField p 4 4 with
  | none => []
  | some o => exifWalk p (4 * (p.length + 1) * (p.length + 1)) [(.ifd0, o)] []

/-! ## The parameter -/

/-- EXIF_EXTRACT (R381). Every instance fails on a payload without an II or MM mark (R381(c)). On the others EXIF_NULL gives
the empty list; an implementer's instance fails or delivers tags of entries the walk reaches, each with a string made of
what the entries hold (R381(a) to R381(e)). -/
def exifExtract (c : Choice) (p : List Byte) : Option (List (Half × String)) :=
  if exifMarked p then
    match c with
    | .ref => some []
    | .impl n =>
      if Config.exifFails n p then none
      else some ((Config.exifPicks n (exifEntries p)).filterMap fun k =>
        (exifEntries p)[k.1]?.map fun e => (e.tag, k.2))
  else none

end Sys2Proof.Machine
end

