-- ==== Sys2Proof/Machine/Segments.lean ====
section
/-! DEFINITION. The application segments (spec/44_frame_fsm.md R320 to R323) with the metadata boundary (46_metadata_boundary.md
R381, R383), and the segments that are skipped (44_frame_fsm.md R330). -/

namespace Sys2Proof.Machine

/-! ## Skipped segments -/

/-- SKIP_SEGMENT (R330): the whole segment must be in the view; its payload is not looked at. -/
def Dec.skipSegment (d : Dec) (v : List Byte) : Except UnitStop UnitDone := do
  let lx ← d.preamble v 2 .segmentLength
  commit (d.advance (2 + lx))

/-- JPG (R330). -/
def execJpg (s : State) : Outcome := s.atScan fun v => s.dec.skipSegment v

/-- DAC (R330). -/
def execDac (s : State) : Outcome := s.atScan fun v => s.dec.skipSegment v

/-- DNL (R330). -/
def execDnl (s : State) : Outcome := s.atScan fun v => s.dec.skipSegment v

/-- DHP (R330). -/
def execDhp (s : State) : Outcome := s.atScan fun v => s.dec.skipSegment v

/-- EXP (R330). -/
def execExp (s : State) : Outcome := s.atScan fun v => s.dec.skipSegment v

/-- APP3 (R330). -/
def execApp3 (s : State) : Outcome := s.atScan fun v => s.dec.skipSegment v

/-- APP4 (R330). -/
def execApp4 (s : State) : Outcome := s.atScan fun v => s.dec.skipSegment v

/-- APP5 (R330). -/
def execApp5 (s : State) : Outcome := s.atScan fun v => s.dec.skipSegment v

/-- APP6 (R330). -/
def execApp6 (s : State) : Outcome := s.atScan fun v => s.dec.skipSegment v

/-- APP7 (R330). -/
def execApp7 (s : State) : Outcome := s.atScan fun v => s.dec.skipSegment v

/-- APP8 (R330). -/
def execApp8 (s : State) : Outcome := s.atScan fun v => s.dec.skipSegment v

/-- APP9 (R330). -/
def execApp9 (s : State) : Outcome := s.atScan fun v => s.dec.skipSegment v

/-- APP10 (R330). -/
def execApp10 (s : State) : Outcome := s.atScan fun v => s.dec.skipSegment v

/-- APP11 (R330). -/
def execApp11 (s : State) : Outcome := s.atScan fun v => s.dec.skipSegment v

/-- APP12 (R330). -/
def execApp12 (s : State) : Outcome := s.atScan fun v => s.dec.skipSegment v

/-- APP13 (R330). -/
def execApp13 (s : State) : Outcome := s.atScan fun v => s.dec.skipSegment v

/-- APP15 (R330). -/
def execApp15 (s : State) : Outcome := s.atScan fun v => s.dec.skipSegment v

/-- JPG0 (R330). -/
def execJpg0 (s : State) : Outcome := s.atScan fun v => s.dec.skipSegment v

/-- JPG1 (R330). -/
def execJpg1 (s : State) : Outcome := s.atScan fun v => s.dec.skipSegment v

/-- JPG2 (R330). -/
def execJpg2 (s : State) : Outcome := s.atScan fun v => s.dec.skipSegment v

/-- JPG3 (R330). -/
def execJpg3 (s : State) : Outcome := s.atScan fun v => s.dec.skipSegment v

/-- JPG4 (R330). -/
def execJpg4 (s : State) : Outcome := s.atScan fun v => s.dec.skipSegment v

/-- JPG5 (R330). -/
def execJpg5 (s : State) : Outcome := s.atScan fun v => s.dec.skipSegment v

/-- JPG6 (R330). -/
def execJpg6 (s : State) : Outcome := s.atScan fun v => s.dec.skipSegment v

/-- JPG7 (R330). -/
def execJpg7 (s : State) : Outcome := s.atScan fun v => s.dec.skipSegment v

/-- JPG8 (R330). -/
def execJpg8 (s : State) : Outcome := s.atScan fun v => s.dec.skipSegment v

/-- JPG9 (R330). -/
def execJpg9 (s : State) : Outcome := s.atScan fun v => s.dec.skipSegment v

/-- JPG10 (R330). -/
def execJpg10 (s : State) : Outcome := s.atScan fun v => s.dec.skipSegment v

/-- JPG11 (R330). -/
def execJpg11 (s : State) : Outcome := s.atScan fun v => s.dec.skipSegment v

/-- JPG12 (R330). -/
def execJpg12 (s : State) : Outcome := s.atScan fun v => s.dec.skipSegment v

/-- JPG13 (R330). -/
def execJpg13 (s : State) : Outcome := s.atScan fun v => s.dec.skipSegment v

/-- COM (R330). -/
def execCom (s : State) : Outcome := s.atScan fun v => s.dec.skipSegment v

/-! ## Application segments -/

/-- JFIF as APP0 records it (R320). -/
def Dec.readJfif (d : Dec) (v : List Byte) : Jfif :=
  { present := true, version := d.be16 v 9, units := d.inp v 11, xdensity := d.be16 v 12, ydensity := d.be16 v 14
    xthumb := d.inp v 16, ythumb := d.inp v 17 }

/-- APP0 (R320). -/
def Dec.app0 (d : Dec) (v : List Byte) : Except UnitStop UnitDone := do
  let lx ← d.preamble v 2 .segmentLength
  let d := if 16 ≤ lx ∧ d.slice v 4 5 = idJfif then { d with jfif := d.readJfif v } else d
  commit (d.advance (2 + lx))

/-- APP1 (R321). -/
def Dec.app1 (d : Dec) (cfg : Config) (v : List Byte) : Except UnitStop UnitDone := do
  let lx ← d.preamble v 2 .segmentLength
  if 8 ≤ lx ∧ d.slice v 4 6 = idExif then
    match exifExtract cfg.exif (d.slice v 10 (lx - 8)) with
    | none => raise .metadata
    | some tags => .ok (.commit (d.advance (2 + lx)) (tags.map fun t => .exifTag t.1 t.2))
  else commit (d.advance (2 + lx))

/-- ICC_CLEAR (R383). -/
def Icc.clear : Icc := { count := 0, next := 0, buf := [] }

/-- ICC with one more chunk stored (R383); none where the chunk is discarded. -/
def Icc.add (c : Icc) (seq cnt : Nat) (data : List Byte) : Option Icc :=
  if seq = 0 ∨ cnt = 0 ∨ cnt < seq then none
  else if seq = 1 then some { count := cnt, next := 2, buf := data }
  else if c.count ≠ 0 ∧ cnt = c.count ∧ seq = c.next then
    some { c with next := c.next + 1, buf := c.buf ++ data }
  else none

/-- ICC_CHUNK (R383): the accumulator after the chunk and the events delivered. -/
def Icc.chunk (c : Icc) (seq cnt : Nat) (data : List Byte) : Icc × List Event :=
  match c.add seq cnt data with
  | none => (Icc.clear, [])
  | some c => if c.count < c.next then (Icc.clear, [.iccProfile c.buf]) else (c, [])

/-- APP2 (R322). -/
def Dec.app2 (d : Dec) (v : List Byte) : Except UnitStop UnitDone := do
  let lx ← d.preamble v 2 .segmentLength
  if 16 ≤ lx ∧ d.slice v 4 12 = idIcc then
    let r := d.icc.chunk (d.inp v 16).toNat (d.inp v 17).toNat (d.slice v 18 (lx - 16))
    .ok (.commit { d.advance (2 + lx) with icc := r.1 } r.2)
  else commit (d.advance (2 + lx))

/-- APP14 (R323). -/
def Dec.app14 (d : Dec) (v : List Byte) : Except UnitStop UnitDone := do
  let lx ← d.preamble v 2 .segmentLength
  let d := if 14 ≤ lx ∧ d.slice v 4 5 = idAdobe then { d with adobe := { present := true, transform := d.inp v 15 } } else d
  commit (d.advance (2 + lx))

/-- APP0 (R320). -/
def execApp0 (s : State) : Outcome := s.atScan fun v => s.dec.app0 v

/-- APP1 (R321). -/
def execApp1 (s : State) : Outcome := s.atScan fun v => s.dec.app1 s.cfg v

/-- APP2 (R322). -/
def execApp2 (s : State) : Outcome := s.atScan fun v => s.dec.app2 v

/-- APP14 (R323). -/
def execApp14 (s : State) : Outcome := s.atScan fun v => s.dec.app14 v

end Sys2Proof.Machine
end

