-- ==== Sys2Proof/Machine/Tables.lean ====
section
/-! DEFINITION. The table and interval segments (spec/44_frame_fsm.md): DQT (R300), DHT (R302), DRI (R305). -/

namespace Sys2Proof.Machine

/-- DQT (R300): every definition is checked before any table is written. -/
def Dec.dqt (d : Dec) (v : List Byte) : Except UnitStop UnitDone := do
  let lx ← d.preamble v 3 .dqtLength
  let defs ← parseDqt (lx - 2) (d.slice v 4 (lx - 2))
  commit ((defs.foldl Dec.storeQt d).advance (2 + lx))

/-- DHT (R302). -/
def Dec.dht (d : Dec) (v : List Byte) : Except UnitStop UnitDone := do
  let lx ← d.preamble v 3 .dhtLength
  let defs ← parseDht (lx - 2) (d.slice v 4 (lx - 2))
  commit ((defs.foldl Dec.storeHt d).advance (2 + lx))

/-- DRI (R305). -/
def Dec.dri (d : Dec) (v : List Byte) : Except UnitStop UnitDone := do
  let lx ← d.preamble v 2 .segmentLength
  failIf (lx != 4) .driLength
  commit { d.advance (2 + lx) with ri := d.be16 v 4 }

/-- DQT (R300). -/
def execDqt (s : State) : Outcome := s.atScan fun v => s.dec.dqt v

/-- DHT (R302). -/
def execDht (s : State) : Outcome := s.atScan fun v => s.dec.dht v

/-- DRI (R305). -/
def execDri (s : State) : Outcome := s.atScan fun v => s.dec.dri v

end Sys2Proof.Machine
end

