-- ==== Sys2Proof/Machine/Fetch.lean ====
section
/-! DEFINITION. Fetching: which unit STATE selects (spec/44_frame_fsm.md R281), and the instruction at its place: the
marker at `CUR` (R282, R284, R318), or the next symbol of the current block (41_huffman.md R182, R200 to R205, R209); and
how the host's words are placed to be fetched (log 16). -/

namespace Sys2Proof.Machine

/-- What a step of a DECODE in progress does. -/
inductive Fetched where
  /-- Run this instruction in this state: the bits of a symbol are read, and the unit's snapshot is kept. -/
  | run (i : Instr) (s : State)
  /-- A unit, or a part of the MCU unit, that fetches no instruction. -/
  | ends (r : Except UnitStop UnitDone)

/-- The bytes from `CUR` on. -/
def Dec.rest (d : Dec) (v : List Byte) : List Byte := v.drop d.cur

/-- The SOI unit's fetch (R282): two bytes, and anything but a marker is SOI_MISSING (SOI's own arm decides the rest). -/
def State.fetchSoi (s : State) (v : List Byte) : Fetched :=
  match s.dec.need v 2 with
  | .error e => .ends (.error e)
  | .ok () =>
    match decode .marker (s.dec.rest v) with
    | .ok (i, _) => .run i s
    | .error _ => .ends (raise .soiMissing)

/-- The fetch of SCAN_STEP and RST_STEP (R284, R318): a byte that is not FF, and the first FF of FF FF, are skipped. -/
def State.fetchMarker (s : State) (v : List Byte) : Fetched :=
  match decode .marker (s.dec.rest v) with
  | .ok (i, _) => .run i s
  | .error .needMore => .ends (needFails s.dec.more)
  | .error _ => .ends s.dec.skipByte

/-- A symbol fetched: the bit reader moved, the block's index set to `k`, the unit's snapshot kept (log 1). -/
def State.symbolState (s : State) (r : Rd) (k : Nat) : State :=
  { s with dec := { s.dec.withRd r with prog := { s.dec.prog with k := k } }, snap := some s.unitStart }

/-- A DC symbol (R182, R200, R202): above 15 it is HUFF_DC_SIZE. -/
def State.fetchDc (s : State) (v : List Byte) (b : BlockRef) : Fetched :=
  match decodeSym v s.dec.more (s.dec.htDc.get b.sc.td) s.dec.rd with
  | .error e => .ends (.error e)
  | .ok (sym, r) =>
    match decode .dcSymbol [sym] with
    | .ok (i, _) => .run i (s.symbolState r 0)
    | .error _ => .ends (raise .huffDcSize)

/-- A raw bit (R203). -/
def State.fetchBit (s : State) (v : List Byte) : Fetched :=
  match nextBit v s.dec.more s.dec.rd with
  | .error e => .ends (.error e)
  | .ok (bit, r) => .run (.dcRefineBit bit) (s.symbolState r 0)

/-- An AC symbol (R182) at index `k`, or the block's end when `k` is past its band (R201, R204, R205). -/
def State.fetchAc (s : State) (v : List Byte) (b : BlockRef) (k : Nat) : Fetched :=
  if s.dec.lastK < k then .ends (s.dec.blockDone s.cfg)
  else
    match decodeSym v s.dec.more (s.dec.htAc.get b.sc.ta) s.dec.rd with
    | .error e => .ends (.error e)
    | .ok (sym, r) => .run (acSymbolOf sym) (s.symbolState r k)

/-- A block of an AC scan: at its start it may lie inside an EOB run; else its first index is Ss (R204, R205). -/
def State.fetchBand (s : State) (v : List Byte) (b : BlockRef) : Fetched :=
  if s.dec.prog.k = 0 then
    if 0 < s.dec.scan.eobrun.toNat then .ends (s.dec.runBlock s.cfg v b) else s.fetchAc v b s.dec.scan.ss
  else s.fetchAc v b s.dec.prog.k

/-- The MCU unit's next symbol (R209), by the scan's mode. -/
def State.fetchSymbol (s : State) (v : List Byte) : Fetched :=
  match s.dec.mcuBlocks[s.dec.prog.blk]? with
  | none => .ends (s.dec.mcuDone s.cfg)
  | some b =>
    match s.dec.scan.mode with
    | .seq => if s.dec.prog.k = 0 then s.fetchDc v b else s.fetchAc v b s.dec.prog.k
    | .dcFirst => s.fetchDc v b
    | .dcRefine => s.fetchBit v
    | .acFirst => s.fetchBand v b
    | .acRefine => s.fetchBand v b

/-- UNIT() (R281). -/
def State.fetch (s : State) (v : List Byte) : Fetched :=
  match s.dec.fsm with
  | .none => s.fetchSoi v
  | .started => s.fetchMarker v
  | .frame => s.fetchMarker v
  | .findMarker => s.fetchMarker v
  | .frameHeader => .ends (s.dec.sofBody s.cfg v)
  | .restart => if s.dec.scan.mcu < s.dec.scan.total then s.fetchSymbol v else .ends (s.dec.scanEnd s.cfg)
  | .done => .ends (s.dec.trailing v)
  | .error => .ends (.error (.fault .notSelected))

/-! ## Placing a word to be fetched (log 16) -/

/-- A DECODE in progress on the bytes of a marker word, in the state whose unit fetches it: the SOI unit for SOI, the
scanner for the others. -/
def State.placeMarker (s : State) (i : Instr) (bytes : List Byte) : State :=
  { s with
    view := some bytes
    snap := none
    dec := { s.dec with
      cur := 0, more := true
      fsm := if i = .soi then .none else if s.dec.frame.valid then .frame else .started } }

/-- The Huffman table whose one code, the bit 0, is a symbol. -/
def oneCode (sym : Byte) : HEntry := (build (1 :: List.replicate 15 0) [sym]).getD HEntry.reset

/-- The scan mode whose unit fetches a symbol: an EOB run in an AC-first scan, a raw bit in a DC-refine scan, a DC symbol
and any other AC symbol in a sequential scan. -/
def symbolMode (i : Instr) : ScanMode :=
  match i with
  | .acEobRun _ => .acFirst
  | .dcRefineBit _ => .dcRefine
  | _ => .seq

/-- A DECODE in progress inside a scan of one 8x8 grey block whose next symbol is `i`: the tables have the one code 0, for
the symbol `sym`, and the view is bytes of zeros; for a raw bit its first bit is that bit. -/
def State.placeSymbol (s : State) (i : Instr) (sym : Byte) : State :=
  { s with
    view := some ((if i = .dcRefineBit true then 0x80 else 0) :: List.replicate 15 0)
    snap := none
    dec := { s.dec with
      cur := 0, more := true, fsm := .restart
      frame := { s.dec.frame with
        valid := true, progressive := symbolMode i != .seq, p := 8, y := 8, x := 8, nf := 1, cs := .gray }
      comp := { s.dec.comp with q0 := { id := 1, h := 1, v := 1, tq := 0, pred := 0 } }
      htDc := { s.dec.htDc with q0 := oneCode sym }
      htAc := { s.dec.htAc with q0 := oneCode sym }
      planes := Planes.zero
      bb := { val := 0, cnt := 0 }
      scan := { s.dec.scan with
        active := true, ns := 1, sc := [{ ci := 0, td := 0, ta := 0 }]
        ss := if symbolMode i = .acFirst then 1 else 0, se := if symbolMode i = .dcRefine then 0 else 63
        ah := if symbolMode i = .dcRefine then 1 else 0, al := 0
        mode := symbolMode i, total := 1, mcu := 0, eobrun := 0 }
      prog := { blk := 0, k := if ctxOf i = .acSymbol then 1 else 0 } } }

/-- The host about to issue a command. -/
def State.placeCall (s : State) (c : HostCall) : State := { s with view := none, snap := none, hostq := c :: s.hostq }

/-- The state with a word of the opcode table placed to be fetched next. -/
def State.placeWord (s : State) (nbits w : Nat) : State :=
  match decodeTableWord nbits w with
  | none => s.placeMarker .tem (tableBytes nbits w)
  | some i =>
    match callOf i with
    | some c => s.placeCall c
    | none =>
      if ctxOf i = .marker then s.placeMarker i (tableBytes nbits w) else s.placeSymbol i (BitVec.ofNat 8 w)

end Sys2Proof.Machine
end

