-- ==== Sys2Proof/Machine/Host.lean ====
section
/-! DEFINITION. The decoder's host commands (spec/40_host_and_cursor.md): DECODE (R141, R146, R147), FLUSH_PROGRESSIVE
(R153), RESET (R154; 70_reset_and_hazards.md R480, R481). DECODE's loop over units is the machine's step; what the command
itself does is to take the view, and its end is `State.returnDecode` and `State.takeError` (Ops.lean). -/

namespace Sys2Proof.Machine

/-- What DECODE and FLUSH_PROGRESSIVE, the command `c`, return in ERROR: the latched error, and nothing changes (R147,
R153). -/
def State.latched (s : State) (c : Command) : Outcome :=
  match s.dec.err with
  | some e => .next (s.answer c (.err e))
  | none => .fault .errAbsent

/-- DECODE(view, more) (R141): the latched error in ERROR, else the cursor at the view's start. -/
def execDecode (bytes : List Byte) (more : Bool) (s : State) : Outcome :=
  s.atCall <|
    if s.dec.fsm = .error then s.latched .decode
    else .next { s with view := some bytes, snap := none, dec := { s.dec with cur := 0, more := more } }

/-- Whether FLUSH_PROGRESSIVE has a frame to flush (R153). -/
def Dec.flushable (d : Dec) : Bool :=
  d.frame.valid && d.frame.progressive && (d.fsm == .frame || d.fsm == .restart || d.fsm == .findMarker)

/-- FLUSH_PROGRESSIVE's flush (R153, R372). -/
def State.flushNow (s : State) : Outcome :=
  match s.dec.renderable with
  | .error (.fault f) => .fault f
  | .error _ => .fault .planeIndex
  | .ok () =>
    let start := if s.dec.flush.pending then s.dec.flush.row else 0
    let f := s.dec.progressiveFlush s.cfg start true s.answers
    .next { s with
      dec := { s.dec with flush := f.flush }
      events := s.events ++ f.events
      answers := f.answers
      results := s.results ++ [(.flushProgressive, .ok)] }

/-- FLUSH_PROGRESSIVE (R153). -/
def execFlushProgressive (s : State) : Outcome :=
  s.atCall <|
    if s.dec.fsm = .error then s.latched .flushProgressive
    else if s.dec.flushable then s.flushNow
    else .next (s.answer .flushProgressive .ok)

/-- RESET (R154, R480, R481): every register at its reset value, the parameters kept (R482(b)), a new observation of
events and OUTQ begun. What the host has still to send, and what its commands returned, is the host's (log 25). -/
def execReset (s : State) : Outcome :=
  s.atCall <|
    .next { State.fresh s.cfg with
      results := s.results ++ [(.reset, .ok)], hostq := s.hostq, answers := s.answers, reenters := s.reenters }

end Sys2Proof.Machine
end

