-- ==== Sys2Proof/Machine/Mq.lean ====
section
/-! DEFINITION. The arithmetic engine (spec/42_arith_qm.md R230 to R238). -/

namespace Sys2Proof.Machine

/-- `BYTE(p)`: 0xFF past the segment's end (R231). -/
def Mq.byte (m : Mq) (p : Nat) : Byte := m.seg.getD p 0xFF

/-- BYTEIN() (R234). -/
def Mq.byteIn (m : Mq) : Mq :=
  if m.byte m.bp = 0xFF then
    if 0x8F < (m.byte (m.bp + 1)).toNat then { m with c := m.c + 0xFF00, ct := 8 }
    else { m with bp := m.bp + 1, c := m.c + (m.byte (m.bp + 1)).setWidth 32 <<< 9, ct := 7 }
  else { m with bp := m.bp + 1, c := m.c + (m.byte (m.bp + 1)).setWidth 32 <<< 8, ct := 8 }

/-- MQ_INITDEC's register writes (R233). -/
def Mq.initDec (m : Mq) (seg : List Byte) : Mq :=
  let m := { m with seg := seg, bp := 0, c := (seg.getD 0 0xFF).setWidth 32 <<< 16 }
  let m := m.byteIn
  { m with c := m.c <<< 7, ct := m.ct - 7, a := 0x8000 }

/-- One turn of RENORMD's loop (R237). -/
def Mq.shift (m : Mq) : Mq :=
  let m := if m.ct = 0 then m.byteIn else m
  { m with a := m.a <<< 1, c := m.c <<< 1, ct := m.ct - 1 }

/-- RENORMD() (R237), of at most `fuel` turns; none when it has not ended. -/
def Mq.renormFrom : Nat → Mq → Option Mq
  | 0, _ => none
  | fuel + 1, m =>
    let m := m.shift
    if m.a.getLsbD 15 then some m else Mq.renormFrom fuel m

/-- RENORMD() (R237): a non-zero 16-bit interval is renormalised within 16 turns. -/
def Mq.renorm (m : Mq) : Option Mq := Mq.renormFrom 16 m

/-- The context after an LPS is decoded as such: MPS switched where SW says so, NLPS next (R236). -/
def ctxLps (c : Ctx) (q : QeRow) : Ctx := { i := q.nlps, mps := if q.sw then !c.mps else c.mps }

/-- The context after an MPS is decoded as such (R236). -/
def ctxMps (c : Ctx) (q : QeRow) : Ctx := { c with i := q.nmps }

/-- `CX[cx] <- c`. -/
def Mq.setCx (m : Mq) (cx : Nat) (c : Ctx) : Mq := { m with cx := m.cx.set cx c }

/-- LPS_EXCHANGE(cx) (R236): the decision and the registers. -/
def Mq.lpsExchange (m : Mq) (cx : Nat) (c : Ctx) (q : QeRow) : Bool × Mq :=
  if m.a.toNat < q.qe then (c.mps, { m.setCx cx (ctxMps c q) with a := BitVec.ofNat 16 q.qe })
  else (!c.mps, { m.setCx cx (ctxLps c q) with a := BitVec.ofNat 16 q.qe })

/-- MPS_EXCHANGE(cx) (R236). -/
def Mq.mpsExchange (m : Mq) (cx : Nat) (c : Ctx) (q : QeRow) : Bool × Mq :=
  if m.a.toNat < q.qe then (!c.mps, m.setCx cx (ctxLps c q)) else (c.mps, m.setCx cx (ctxMps c q))

/-- A decision followed by RENORMD; none when it does not end. -/
def renormed (r : Bool × Mq) : Option (Bool × Mq) := r.2.renorm.map fun m => (r.1, m)

/-- MQ_DECODE's decision (R235) for the context `c` and its ROM row `q`. -/
def Mq.decision (m : Mq) (cx : Nat) (c : Ctx) (q : QeRow) : Option (Bool × Mq) :=
  let m := { m with a := m.a - BitVec.ofNat 16 q.qe }
  if m.c.toNat / 2 ^ 16 < q.qe then renormed (m.lpsExchange cx c q)
  else
    let m := { m with c := m.c - BitVec.ofNat 32 q.qe <<< 16 }
    if m.a.getLsbD 15 then some (c.mps, m) else renormed (m.mpsExchange cx c q)

/-- The command `c` of the engine: refused where the engine is not present (R230). -/
def State.atMq (s : State) (c : Command) (o : Outcome) : Outcome :=
  s.atCall (if s.cfg.arithPresent then o else .next (s.answer c .unsupported))

/-- MQ_INITDEC(seg) (R233). -/
def execMqInitDec (seg : List Byte) (s : State) : Outcome :=
  s.atMq .mqInitDec (.next { s with mq := s.mq.initDec seg, results := s.results ++ [(.mqInitDec, .ok)] })

/-- MQ_DECODE(cx) (R235): a context number of no context is refused. -/
def execMqDecode (cx : Nat) (s : State) : Outcome :=
  s.atMq .mqDecode <|
    if cx < s.cfg.nCx then
      match s.mq.cx[cx]? with
      | none => .fault .romIndex
      | some c =>
        match qeRom[c.i]? with
        | none => .fault .romIndex
        | some q =>
          match s.mq.decision cx c q with
          | none => .fault .renormStuck
          | some (d, m) => .next { s with mq := m, results := s.results ++ [(.mqDecode, .okBit d)] }
    else .next (s.answer .mqDecode .badContext)

/-- MQ_RESETCTX (R238). -/
def execMqResetCtx (s : State) : Outcome :=
  s.atMq .mqResetCtx
    (.next { s with mq := { s.mq with cx := initContexts s.cfg }, results := s.results ++ [(.mqResetCtx, .ok)] })

end Sys2Proof.Machine
end

