-- ==== Sys2Proof/Machine/Step.lean ====
section
/-! DEFINITION. One step of the machine. While a DECODE is in progress it is one unit, or one symbol of the MCU unit
(spec/40_host_and_cursor.md R141, 44_frame_fsm.md R281; log 1). Between commands it is the next command the host has
issued; with none the core does nothing (60_exceptions.md R460; log 2). -/

namespace Sys2Proof.Machine

/-- A step of a DECODE in progress on the view `v`. -/
def State.unitStep (s : State) (v : List Byte) : Outcome :=
  match s.fetch v with
  | .run i t => exec i t
  | .ends r => s.endUnit r

/-- A step between commands. -/
def State.callStep (s : State) : Outcome :=
  match s.hostq with
  | [] => .next s
  | c :: q => exec c.toInstr { s with hostq := q }

/-- One step: of the DECODE in progress, or the next command. -/
def step (s : State) : Host.Outcome State Fault Refusal :=
  settle s (match s.view with
    | some v => s.unitStep v
    | none => s.callStep)

/-- The state with a word of the opcode table placed where the next step fetches it (log 16). -/
def State.withFetchWord (s : State) (nbits w : Nat) : State := s.placeWord nbits w

end Sys2Proof.Machine
end

