-- ==== Sys2Proof/Safety.lean ====
section
/-! DEFINITION. What counts as a sound state and as the end of a run, and the names the statements are written in. Each
invariant is a fact the spec gives about every state between steps; none of them is used by the machine itself. -/

namespace Sys2Proof.Machine

/-! ## Groups of instructions -/

/-- The SOF markers the core refuses (R292). -/
def unsupportedMarkers : List Instr :=
  [.sof3, .sof5, .sof6, .sof7, .sof9, .sof10, .sof11, .sof13, .sof14, .sof15]

/-- The markers of SKIP_SEGMENT (R330). -/
def skipMarkers : List Instr :=
  [.jpg, .dac, .dnl, .dhp, .exp] ++
  [.app3, .app4, .app5, .app6, .app7, .app8, .app9, .app10, .app11, .app12, .app13, .app15] ++
  [.jpg0, .jpg1, .jpg2, .jpg3, .jpg4, .jpg5, .jpg6, .jpg7, .jpg8, .jpg9, .jpg10, .jpg11, .jpg12, .jpg13] ++ [.com]

/-- RST0 to RST7. -/
def rstMarkers : List Instr := [.rst0, .rst1, .rst2, .rst3, .rst4, .rst5, .rst6, .rst7]

/-- The markers of IGNORE_STANDALONE (R331). -/
def standaloneMarkers : List Instr := .tem :: rstMarkers

/-- The SOF markers the core decodes, with what each writes to FRAME.sof (R293). -/
def frameMarkers : List (Instr × Fin 3) := [(.sof0, 0), (.sof1, 1), (.sof2, 2)]

/-- The segment markers whose handler begins with SEGMENT_PREAMBLE (R286): the least length and the cause below it. -/
def segmentMarkers : List (Instr × Nat × Cause) :=
  (skipMarkers ++ [Instr.app0, .app1, .app2, .app14, .dri]).map (fun i : Instr => (i, 2, Cause.segmentLength)) ++
    [(.dqt, 3, .dqtLength), (.dht, 3, .dhtLength), (.sos, 8, .sosLength)]

/-- A recognized marker: not a pair FF m of R102's RES row. -/
def isRecognized (i : Instr) : Bool :=
  match i with
  | .res _ => false
  | _ => ctxOf i == .marker

/-- An entropy symbol. -/
def isSymbol (i : Instr) : Bool := ctxOf i == .dcSymbol || ctxOf i == .acSymbol || ctxOf i == .rawBit

/-- A command of the MQ engine. -/
def isMq (i : Instr) : Bool :=
  match i with
  | .mqInitDec _ => true
  | .mqDecode _ => true
  | .mqResetCtx => true
  | _ => false

/-- A command of the encoder. -/
def isEnc (i : Instr) : Bool :=
  match i with
  | .encInit _ _ _ => true
  | .encScanline _ => true
  | .encFinish => true
  | _ => false

/-! ## Places -/

/-- A DECODE is in progress on the view `v`, scanning for a marker (R284). -/
def State.scanning (s : State) (v : List Byte) : Prop := s.view = some v ∧ (s.dec.fsm = .started ∨ s.dec.fsm = .frame)

/-- A DECODE is in progress on the view `v` in the state `f`. -/
def State.inState (s : State) (v : List Byte) (f : Fsm) : Prop := s.view = some v ∧ s.dec.fsm = f

/-- The state after a unit that lacks bytes, at the start of a unit: Suspend with the resend count (R142, R143), or
CorruptStream(EOF) with MORE = 0. -/
def State.starved (s : State) (v : List Byte) : State :=
  if s.dec.more then
    { s with view := none, snap := none, results := s.results ++ [(.decode, .okResend (v.length - s.dec.cur))] }
  else s.takeError (.corrupt .eof)

/-- The segment at `CUR` has the length field `lx` and is whole in the view (R286). -/
def Dec.segment (d : Dec) (v : List Byte) (lx : Nat) : Prop :=
  (d.be16 v 2).toNat = lx ∧ 2 ≤ lx ∧ 2 + lx ≤ d.avail v

/-- What an SOS names (R310): the slots `sc`, one for each of its Ns selectors, each of another component of the frame. -/
def Dec.selects (d : Dec) (v : List Byte) (sc : List ScanComp) : Prop :=
  (d.inp v 4).toNat = sc.length ∧ 1 ≤ sc.length ∧ sc.length ≤ 4 ∧ sc.length ≤ d.frame.nf ∧
  (∀ j c, sc[j]? = some c →
    c.ci.val < d.frame.nf ∧ (d.comp.get c.ci).id = d.inp v (5 + 2 * j) ∧
    (∀ i : Fin 4, i < c.ci → (d.comp.get i).id ≠ d.inp v (5 + 2 * j)) ∧
    (hiNibble (d.inp v (6 + 2 * j))).toNat = c.td.val ∧ (loNibble (d.inp v (6 + 2 * j))).toNat = c.ta.val) ∧
  (sc.map ScanComp.ci).Nodup

/-- The parameters of an SOS with `n` selectors (R108, R310). -/
def Dec.scanParams (d : Dec) (v : List Byte) (n ss se ah al : Nat) : Prop :=
  ss = (d.inp v (5 + 2 * n)).toNat ∧ se = (d.inp v (6 + 2 * n)).toNat ∧
  ah = (hiNibble (d.inp v (7 + 2 * n))).toNat ∧ al = (loNibble (d.inp v (7 + 2 * n))).toNat

/-- LEGAL(Ns, Ss, Se, Ah, Al) in R311's words. -/
def lawfulScan (progressive : Bool) (ns ss se ah al : Nat) : Prop :=
  if progressive then
    (ss = 0 ∧ se = 0 ∨ 1 ≤ ss ∧ ss ≤ se ∧ se ≤ 63 ∧ ns = 1) ∧ al ≤ 13 ∧ (ah = 0 ∨ ah = al + 1)
  else ss = 0 ∧ se = 63 ∧ ah = 0 ∧ al = 0

/-- MODE(Ss, Ah) in R312's table. -/
def modeOf (progressive : Bool) (ss ah : Nat) : ScanMode :=
  match progressive, decide (ss = 0), decide (ah = 0) with
  | false, _, _ => .seq
  | true, true, true => .dcFirst
  | true, true, false => .dcRefine
  | true, false, true => .acFirst
  | true, false, false => .acRefine

/-- A slot's Huffman tables that the mode uses are defined (R310). -/
def Dec.codesDefined (d : Dec) (mode : ScanMode) (c : ScanComp) : Prop :=
  (mode = .seq ∨ mode = .dcFirst → (d.htDc.get c.td).isDefined = true) ∧
  (mode = .seq ∨ mode = .acFirst ∨ mode = .acRefine → (d.htAc.get c.ta).isDefined = true)

/-- A slot's quantization table is defined (R310). -/
def Dec.stepsDefined (d : Dec) (c : ScanComp) : Prop := (d.qt.get (d.comp.get c.ci).tq).isDefined = true

/-- The planes can be rendered: they are allocated and the colour tag has a rule (R365). -/
def Dec.canRender (d : Dec) : Prop := d.planes.allocated = true ∧ d.frame.cs ≠ .unknown

/-- The next state when a block is done and the registers are `d` (R209, R210): the MCU's next block; or the MCU's end.
There the MCU is counted and, with a restart interval, the countdown goes down by 1; STATE becomes FINDMARKER when the
countdown reaches 0 with MCUs left. A progressive scan cancels a pending flush (R374). A sequential scan emits rows (R370):
when the complete row units `c` are more than OUT.mcu_rows, the rows from OUT.next_row up to the end of unit `c - 1`. -/
def State.blockEnd (s : State) (d : Dec) (t : State) : Prop :=
  if d.prog.blk + 1 < d.mcuBlocks.length then
    t = { s with dec := { d with prog := { blk := d.prog.blk + 1, k := 0 } }, snap := some s.unitStart }
  else
    let left : Half := if d.ri = 0 then d.scan.rstLeft else d.scan.rstLeft - 1
    let e : Dec := { d with
      prog := { blk := 0, k := 0 }
      scan := { d.scan with mcu := d.scan.mcu + 1, rstLeft := left }
      fsm := if d.scan.mcu + 1 ≠ d.scan.total ∧ d.ri ≠ 0 ∧ left = 0 then .findMarker else d.fsm }
    let c : Nat :=
      match d.scan.sc with
      | [one] => (d.scan.mcu + 1) / d.bw (d.comp.get one.ci)
      | _ => (d.scan.mcu + 1) / d.mcux
    let target : Nat := min ((c - 1) * if 1 < d.scan.ns then 8 * d.vmax else 8) d.frame.y.toNat
    if d.scan.mode ≠ .seq then t = { s with dec := { e with flush := { row := 0, pending := false } }, snap := none }
    else if d.out.mcuRows < c then
      t = { s with
        dec := { e with out := { mcuRows := c, nextRow := max d.out.nextRow target } }
        snap := none
        events := s.events ++ d.lines s.cfg d.out.nextRow target }
    else t = { s with dec := e, snap := none }

/-- The next state when the block's index becomes `k` and the registers are `d` (R201, R204, R205): on with the block
inside its band, else the block is done. -/
def State.indexEnd (s : State) (d : Dec) (k : Nat) (t : State) : Prop :=
  if k ≤ d.lastK then t = { s with dec := { d with prog := { d.prog with k := k } }, snap := some s.unitStart }
  else s.blockEnd d t

/-- The registers with the bit reader at `r` and the cell `PLANE[i][row][col][n]` replaced. -/
def Dec.withCell (d : Dec) (r : Rd) (i : Fin 4) (row col n : Nat) (x : Half) : Dec :=
  { d.withRd r with planes := { d.planes with mem := d.planes.mem.writeHalf (d.cellAddr i row col n) x } }

/-! ## Bits -/

/-- `n` bits of an entropy-coded segment, in the order they are read. -/
def readBits (v : List Byte) (more : Bool) : Nat → Rd → Except UnitStop (List Bool × Rd)
  | 0, r => .ok ([], r)
  | n + 1, r =>
    match nextBit v more r with
    | .error e => .error e
    | .ok (b, r) =>
      match readBits v more n r with
      | .error e => .error e
      | .ok (bs, r) => .ok (b :: bs, r)

/-- The unsigned number whose bits these are, most significant first. -/
def bitsValue (bs : List Bool) : Nat := bs.foldl (fun acc b => 2 * acc + b.toNat) 0

/-- The `n` low bits of `x`, most significant first. -/
def lowBits (x n : Nat) : List Bool := (List.range n).map fun j => x.testBit (n - 1 - j)

/-! ## Huffman codes (R171, R173) -/

/-- The codes of these counts fit: a code of length l takes 2^(16 - l) of the 2^16 places of 16 bits. -/
abbrev codesFit (bits : List Byte) : Prop :=
  ((List.range 16).map fun l => (bits.getD l 0).toNat * 2 ^ (15 - l)).sum ≤ 2 ^ 16

/-- A defined table holds the canonical codes of its counts and values. The codes, in the order of their values and so of
their lengths, take the places of 16 bits from 0 on without a gap; the other arrays are looked up in R171's way. -/
structure HEntry.Canonical (e : HEntry) : Prop where
  isDefined : e.isDefined = true
  counts : e.bits.length = 16
  values : e.huffval.length = (e.bits.map BitVec.toNat).sum
  fit : codesFit e.bits
  /-- BITS[l] symbols of each length l. -/
  sizes : e.huffsize = (List.range 16).flatMap fun l => List.replicate (e.bits.getD l 0).toNat (l + 1)
  /-- One code for each symbol. -/
  oneEach : e.huffcode.length = e.huffsize.length
  /-- The first place of symbol j's code is the number of places the symbols before it take. -/
  codes : ∀ j, j < e.huffsize.length →
    e.huffcode.getD j 0 * 2 ^ (16 - e.huffsize.getD j 0) = ((e.huffsize.take j).map fun l => 2 ^ (16 - l)).sum
  /-- The first code of length l + 1, or where one would stand. -/
  mincodes : e.mincode =
    (List.range 16).map fun l => ((List.range l).map fun i => (e.bits.getD i 0).toNat * 2 ^ (l - i)).sum
  /-- The last code of length l + 1, or -1. -/
  maxcodes : e.maxcode =
    (List.range 16).map fun l =>
      if e.bits.getD l 0 = 0 then -1 else (e.mincode.getD l 0 : Int) + (e.bits.getD l 0).toNat - 1
  /-- The symbols of the lengths up to l. -/
  valptrs : e.valptr = (List.range 16).map fun l => ((e.bits.take l).map BitVec.toNat).sum
  /-- The symbol of at most 8 bits whose code begins the byte b. -/
  lookahead : e.look =
    (List.range 256).map fun b =>
      match (List.range e.huffsize.length).find? fun j =>
        decide (e.huffsize.getD j 0 ≤ 8) && b / 2 ^ (8 - e.huffsize.getD j 0) == e.huffcode.getD j 0 with
      | some j => (e.huffsize.getD j 0, e.huffval.getD j 0)
      | none => (0, 0)

/-! ## The cosines of the DCT (R254, R258) -/

/-- `2^24 · sqrt(2) · cos(k·pi/16)` to nearest, for every `k`. -/
def sqrt2Cos (k : Nat) : Int :=
  let first : List Int := [23726566, 23270667, 21920489, 19727919, 16777216, 13181774, 9079764, 4628823, 0]
  let m := if k % 32 ≤ 16 then k % 32 else 32 - k % 32
  if m ≤ 8 then first.getD m 0 else -first.getD (16 - m) 0

/-- `2^24` times the frequency `u` at the sample `x`: `sqrt(2)·C(u)·cos((2x + 1)·u·pi/16)`, where `C(0)` is `1/sqrt(2)` and
every other `C(u)` is 1. -/
def dctAt (u x : Nat) : Int := if u = 0 then 2 ^ 24 else sqrt2Cos ((2 * x + 1) * u)

/-! ## Correction bits (R205) -/

/-- The indices of the band `k .. k + n - 1` whose cell is zero (`zero` true) or non-zero, in increasing order. -/
def Dec.band (d : Dec) (b : BlockRef) (zero : Bool) (k n : Nat) : List Nat :=
  ((List.range n).map (k + ·)).filter fun j => (d.cell b.sc.ci b.row b.col (zz j) == 0) == zero

/-- The value of a non-zero cell `c` after its correction bit: 1 moves it by 2^Al away from zero where its bit Al is 0. -/
def correctedCell (al : Nat) (bit : Bool) (c : Half) : Half :=
  if bit && c &&& wrap16 (2 ^ al) == 0 then wrap16 (c.toInt + if 0 ≤ c.toInt then 2 ^ al else -2 ^ al) else c

/-- `d'` is `d` after the correction bits `bs` of the indices `ks`, one for each in order, the bit reader then at `r`:
nothing changes but the bit reader and those cells. -/
def Dec.Corrected (d : Dec) (b : BlockRef) (ks : List Nat) (bs : List Bool) (r : Rd) (d' : Dec) : Prop :=
  d' = { d.withRd r with planes := { d.planes with mem := d'.planes.mem } } ∧
  (∀ (j k : Nat) (bit : Bool), ks[j]? = some k → bs[j]? = some bit →
    d'.cell b.sc.ci b.row b.col (zz k) = correctedCell d.scan.al bit (d.cell b.sc.ci b.row b.col (zz k))) ∧
  (∀ m, m < 64 → (∀ k ∈ ks, zz k ≠ m) → d'.cell b.sc.ci b.row b.col m = d.cell b.sc.ci b.row b.col m) ∧
  (∀ a, a < d.cellAddr b.sc.ci b.row b.col 0 ∨ d.cellAddr b.sc.ci b.row b.col 0 + 128 ≤ a →
    d'.planes.mem.read a = d.planes.mem.read a)

/-! ## RENORMD (R234, R237) -/

/-- One turn of RENORMD's loop, from `m` to `m'`: where CT is 0 a byte comes in first (R234), of 7 bits after an FF, or the
bits 1 where the byte after an FF is above 8F; then A and C are doubled and CT goes down by 1. -/
def MqTurn (m m' : Mq) : Prop :=
  m'.seg = m.seg ∧ m'.cx = m.cx ∧ m'.a = BitVec.ofNat 16 (2 * m.a.toNat) ∧
  ∀ b0 b1 : Byte, b0 = m.seg.getD m.bp 0xFF → b1 = m.seg.getD (m.bp + 1) 0xFF →
    if 0 < m.ct then m'.c = BitVec.ofNat 32 (2 * m.c.toNat) ∧ m'.ct = m.ct - 1 ∧ m'.bp = m.bp
    else if b0 = 0xFF ∧ 0x8F < b1.toNat then
      m'.c = BitVec.ofNat 32 (2 * (m.c.toNat + 0xFF00)) ∧ m'.ct = 7 ∧ m'.bp = m.bp
    else if b0 = 0xFF then
      m'.c = BitVec.ofNat 32 (2 * (m.c.toNat + b1.toNat * 2 ^ 9)) ∧ m'.ct = 6 ∧ m'.bp = m.bp + 1
    else m'.c = BitVec.ofNat 32 (2 * (m.c.toNat + b1.toNat * 2 ^ 8)) ∧ m'.ct = 7 ∧ m'.bp = m.bp + 1

/-- RENORMD from `m` ends in `m'`: one turn or more, until bit 15 of A is set. -/
inductive MqRenormed : Mq → Mq → Prop where
  /-- The turn that sets bit 15. -/
  | last (m m' : Mq) : MqTurn m m' → 0x8000 ≤ m'.a.toNat → MqRenormed m m'
  /-- A turn after which bit 15 is clear. -/
  | more (m n m' : Mq) : MqTurn m n → n.a.toNat < 0x8000 → MqRenormed n m' → MqRenormed m m'

/-! ## The bits of an encoded band (R406, R410, R411) -/

/-- The bits of a symbol's code (R401). -/
def codeBits (t : Option HEntry) (sym : Nat) : List Bool :=
  match codeOf t (BitVec.ofNat 8 sym) with
  | some (code, size) => lowBits code size
  | none => []

/-- The bits of a coefficient `x` after a run of `r` < 16 zeros: the code of its symbol, then its magnitude bits. -/
def coefBits (t : Option HEntry) (r : Nat) (x : Int) : List Bool :=
  codeBits t (r * 16 + nbits x) ++ lowBits (mag x (nbits x)) (nbits x)

/-- The bits of the AC coefficients of a block: for each non-zero one its run since the one before, 16 zeros at a time as
ZRL, then the coefficient; then EOB, unless coefficient 63 is non-zero. -/
def acBits (t : Option HEntry) (zs : List Int) : List Bool :=
  let ks := ((List.range 64).drop 1).filter fun k => zs.getD k 0 != 0
  ((ks.zip (0 :: ks)).flatMap fun p =>
    (List.replicate ((p.1 - p.2 - 1) / 16) (codeBits t 0xF0)).flatten ++
      coefBits t ((p.1 - p.2 - 1) % 16) (clampInt (zs.getD p.1 0) (-1023) 1023)) ++
  if ks.getLastD 0 = 63 then [] else codeBits t 0x00

/-- The quantized coefficients of a band's blocks, each with its component, in the order they are encoded. -/
def Enc.bandBlocks (e : Enc) (cfg : Config) : List (Fin 3 × List Int) :=
  ((List.range (ceilDiv e.w 16)).flatMap e.mcuBlocks).map fun b =>
    (b.1, fdctZzQ cfg.fdct b.2 (if b.1 = 0 then e.ql else e.qc))

/-- The DC coefficient component `c` is predicted from after the blocks `bs`: its last one's, else the predictor's. -/
def Enc.dcAfter (e : Enc) (bs : List (Fin 3 × List Int)) (c : Fin 3) : Int :=
  ((bs.filter fun b => b.1 == c).map fun b => b.2.getD 0 0).getLastD (e.pred c).toInt

/-- The bits of a band: of each block the DC difference, then the AC coefficients. -/
def Enc.bandBits (e : Enc) (cfg : Config) : List Bool :=
  (List.range (e.bandBlocks cfg).length).flatMap fun j =>
    let b := (e.bandBlocks cfg).getD j (0, [])
    coefBits (if b.1 = 0 then dcL else dcC) 0 (b.2.getD 0 0 - e.dcAfter ((e.bandBlocks cfg).take j) b.1) ++
      acBits (if b.1 = 0 then acL else acC) b.2

/-! ## Bytes of table segments (R106, R107) -/

/-- The bytes of one definition of a DQT segment. -/
def QDef.bytes (q : QDef) : List Byte :=
  ((if q.pq then (1 : BitVec 4) else 0) ++ BitVec.ofNat 4 q.tq.val) ::
    (List.range 64).flatMap fun k =>
      if q.pq then bytesOf16 (q.q.getD (zz k) 0) else [(q.q.getD (zz k) 0).extractLsb' 0 8]

/-- A definition the layout can carry: 64 entries, each of 8 bits unless Pq = 1. -/
def QDef.wf (q : QDef) : Prop := q.q.length = 64 ∧ (q.pq = false → ∀ e ∈ q.q, e.toNat < 256)

/-- The bytes of one definition of a DHT segment. -/
def HDef.bytes (h : HDef) : List Byte :=
  ((if h.isAc then (1 : BitVec 4) else 0) ++ BitVec.ofNat 4 h.th.val) :: h.entry.bits ++ h.entry.huffval

/-- A definition the layout can carry, whose codes fit and whose entry holds their canonical codes (R171, R172). -/
def HDef.wf (h : HDef) : Prop := (h.entry.bits.map BitVec.toNat).sum ≤ 256 ∧ h.entry.Canonical

/-! ## Invariants -/

/-- The planes' bytes keep their canonical form, now and in the snapshot. -/
def State.MemInv (s : State) : Prop := s.dec.planes.mem.wf = true ∧ s.unitStart.planes.mem.wf = true

/-- The cursor stands in the view (R32, R140). -/
def State.CursorInv (s : State) : Prop :=
  ∀ v, s.view = some v → s.dec.cur ≤ v.length ∧ s.unitStart.cur ≤ v.length

/-- What STATE says about FRAME.valid, the planes, SCAN.active and ERR (R33, R34, R44, R47, R280, R444). -/
def Dec.PhaseInv (d : Dec) : Prop :=
  d.planes.allocated = d.frame.valid ∧
  (d.frame.valid = true ↔ d.fsm = .frame ∨ d.fsm = .restart ∨ d.fsm = .findMarker) ∧
  (d.scan.active = true ↔ d.fsm = .restart ∨ d.fsm = .findMarker) ∧
  (d.err ≠ none ↔ d.fsm = .error)

/-- A unit is in progress only while a DECODE is, and only an MCU unit is left in progress by a step (R209; log 1). -/
def State.PhaseInv (s : State) : Prop :=
  s.dec.PhaseInv ∧ s.unitStart.PhaseInv ∧
  (s.snap ≠ none → s.view ≠ none ∧ s.dec.fsm = .restart ∧ s.unitStart.fsm = .restart) ∧
  (s.dec.fsm = .error → s.view = none)

/-- The MQ engine between commands (R231, R239). -/
def State.MqInv (s : State) : Prop :=
  0x8000 ≤ s.mq.a.toNat ∧ s.mq.ct ≤ 8 ∧ s.mq.bp ≤ s.mq.seg.length ∧ s.mq.cx.length = s.cfg.nCx ∧
  (∀ c ∈ s.mq.cx, c.i ≤ 46) ∧ (∀ c ∈ s.cfg.mqInit, c.i ≤ 46)

/-- A predictor of the encoder: a quantized DC coefficient. R412's range -1024..1016 is FDCT_REF's; another instance's
rounding (R258; log 20) can add 1 at each end. -/
def predOk (p : Word) : Prop := -1025 ≤ p.toInt ∧ p.toInt ≤ 1017

/-- The encoder between commands (R390, R396, R412), and the mark of its run inside OUTQ (log 27). -/
def State.EncInv (s : State) : Prop :=
  (s.enc.isOpen = true →
    1 ≤ s.enc.w ∧ 1 ≤ s.enc.h ∧ s.enc.ql.length = 64 ∧ s.enc.qc.length = 64 ∧
    (∀ q ∈ s.enc.ql, q ≠ 0) ∧ (∀ q ∈ s.enc.qc, q ≠ 0) ∧ s.enc.rows ≤ s.enc.h ∧ s.enc.band.length < 16) ∧
  predOk s.enc.pred0 ∧ predOk s.enc.pred1 ∧ predOk s.enc.pred2 ∧ s.pk.cnt < 8 ∧
  s.enc.start ≤ s.pk.outq.length

/-- After Finished the image is done and no event follows it (R150(b), R150(c)). -/
def State.FinishedInv (s : State) : Prop :=
  Event.finished ∈ s.events →
    s.dec.fsm = .done ∧ s.snap = none ∧ ∃ es, s.events = es ++ [.finished] ∧ Event.finished ∉ es

/-! ## The end of a run (R489) -/

/-- The list from the last element on that meets `p`; all of it when none does. -/
def fromLast {α : Type} (p : α → Bool) : List α → List α
  | [] => []
  | a :: l => if l.any p then fromLast p l else a :: l

/-- The outcomes of the commands that meet `p`, in order. -/
def outcomesOf (p : Command → Bool) (l : List (Command × Result)) : List Result :=
  (l.filter fun r => p r.1).map Prod.snd

/-- A decode run has ended: no DECODE is in progress, and STATE is DONE or ERROR. -/
def State.ended (s : State) : Bool := s.view.isNone && (s.dec.fsm == .done || s.dec.fsm == .error)

/-- The outcome of every DECODE of the decode run in progress, which begins at RESET (R21, R480; log 28). -/
def State.decodeOutcomes (s : State) : List Result :=
  outcomesOf (· == .decode) (fromLast (fun r => r.1 == .reset) s.results)

/-- What a decode run shows (R21, R489): the events delivered, in order, and the outcome of every DECODE, of which the last
is the final result. -/
def State.observation (s : State) : List Event × List Result := (s.events, s.decodeOutcomes)

/-- An encoder run has ended: ENC_FINISH has returned Ok since ENC_INIT. (An MQ run has no end.) -/
def State.encEnded (s : State) : Bool := s.enc.ended

/-- The bytes an encoder run shows: those of OUTQ from ENC_INIT on. -/
def State.encOutput (s : State) : List Byte := s.pk.outq.drop s.enc.start

/-- The outcome of every encoder command of the encoder run in progress, from the ENC_INIT that opened it on (log 28). -/
def State.encOutcomes (s : State) : List Result :=
  outcomesOf (fun c => c == .encInit || c == .encScanline || c == .encFinish)
    (fromLast (fun r => r == (.encInit, .ok) || r.1 == .reset) s.results)

/-- What an encoder run shows (R21, R489): its output bytes and its command outcomes. -/
def State.encObservation (s : State) : List Byte × List Result := (s.encOutput, s.encOutcomes)

end Sys2Proof.Machine
end

