-- ==== Sys2Proof/Certificates/Slice0/Obligations.lean ====
section
/-! DEFINITION. The statements for the provers. Each docstring names the rules of spec/ the statement formalises. -/

section

open Sys2Proof Sys2Proof.Machine

/-! ## Encoding -/

/-- R101, R115, R116, R122 (the wire form of a command is log 3's): decoding what `encode` makes of a well-formed
instruction gives it back, with every operand, and leaves the bytes after it. -/
def Obligations.EncodeThenDecode : Prop :=
  ∀ (i : Instr) (rest : List Byte), i.wf = true → decode (ctxOf i) (encode i ++ rest) = .ok (i, rest)

/-- R101, R102, R115, R116: what is decoded at a marker, at a symbol or at a raw bit is well formed, belongs there, and its
encoding is the bytes it was read from. -/
def Obligations.DecodeThenEncode : Prop :=
  ∀ (c : FetchCtx) (bs rest : List Byte) (i : Instr), c ≠ .call → decode c bs = .ok (i, rest) →
    i.wf = true ∧ ctxOf i = c ∧ encode i ++ rest = bs

/-- R101, R102, R115, R116, R122, R200: words written out from the spec's tables decode to what they stand for, and what
is no instruction is refused by name. -/
def Obligations.WordsDecodeOrAreRefused : Prop :=
  (decodeTableWord 16 0xFFC0 = some .sof0 ∧ decodeTableWord 16 0xFFDA = some .sos ∧
    decodeTableWord 16 0xFF42 = some (.res 0x42) ∧ decodeTableWord 8 0x05 = some (.dcDiff 5) ∧
    decodeTableWord 8 0x31 = some (.acRunSize 3 1) ∧ decodeTableWord 8 0x22 = some .mqResetCtx) ∧
  (∀ (b : Byte) (rest : List Byte), b ≠ 0xFF → decode .marker (b :: rest) = .error .garbage) ∧
  (∀ rest : List Byte, decode .marker (0xFF :: 0xFF :: rest) = .error .fill) ∧
  (∀ (b : Byte) (rest : List Byte), 16 ≤ b.toNat → decode .dcSymbol (b :: rest) = .error .dcSize) ∧
  (∀ (b : Byte) (rest : List Byte), b ∉ ([0x01, 0x02, 0x03, 0x10, 0x11, 0x12, 0x20, 0x21, 0x22] : List Byte) →
    decode .call (b :: rest) = .error .unknownCommand)

/-! ## The step -/

/-- R141, R281, R282, R284, R318, R209: a step runs the decoded instruction. At a marker it is `exec` of what the bytes at
`CUR` decode to; at a command, `exec` of the command taken from the queue; at a symbol, `exec` of the symbol the table
decodes, the bit reader moved and the unit's snapshot kept (log 1). `settle` is the refusal of re-entry (log 12). -/
def Obligations.StepRunsDecodedInstruction : Prop :=
  (∀ (s : State) (v rest : List Byte) (i : Instr), s.view = some v →
    (s.dec.fsm = .none ∨ s.dec.fsm = .started ∨ s.dec.fsm = .frame ∨ s.dec.fsm = .findMarker) →
    decode .marker (v.drop s.dec.cur) = .ok (i, rest) → step s = settle s (exec i s)) ∧
  (∀ (s : State) (c : HostCall) (q : List HostCall), s.view = none → s.hostq = c :: q →
    step s = settle s (exec c.toInstr { s with hostq := q })) ∧
  (∀ (s : State) (v : List Byte) (b : BlockRef) (sym : Byte) (r : Rd), s.currentBlock = some (v, b) →
    (s.dec.scan.mode = .seq ∧ s.dec.prog.k = 0 ∨ s.dec.scan.mode = .dcFirst) →
    decodeSym v s.dec.more (s.dec.htDc.get b.sc.td) s.dec.rd = .ok (sym, r) → sym.toNat ≤ 15 →
    step s = settle s (exec (.dcDiff (loNibble sym)) (s.symbolState r 0))) ∧
  (∀ (s : State) (v : List Byte) (b : BlockRef) (bit : Bool) (r : Rd), s.currentBlock = some (v, b) →
    s.dec.scan.mode = .dcRefine → nextBit v s.dec.more s.dec.rd = .ok (bit, r) →
    step s = settle s (exec (.dcRefineBit bit) (s.symbolState r 0))) ∧
  (∀ (s : State) (v : List Byte) (b : BlockRef) (k : Nat) (sym : Byte) (r : Rd), s.currentBlock = some (v, b) →
    (s.dec.scan.mode = .seq ∧ s.dec.prog.k = k ∧ k ≠ 0 ∨
      (s.dec.scan.mode = .acFirst ∨ s.dec.scan.mode = .acRefine) ∧
        (s.dec.prog.k = 0 ∧ s.dec.scan.eobrun = 0 ∧ k = s.dec.scan.ss ∨ s.dec.prog.k = k ∧ k ≠ 0)) →
    k ≤ s.dec.lastK → decodeSym v s.dec.more (s.dec.htAc.get b.sc.ta) s.dec.rd = .ok (sym, r) →
    step s = settle s (exec (acSymbolOf sym) (s.symbolState r k)))

/-- R284, R318 (scanning and FINDMARKER): a byte that is not FF, the first FF of FF FF, and the FF of a pair that is no
recognized marker are each skipped, and nothing else changes. -/
def Obligations.OneByteSkipped : Prop :=
  (∀ (s : State) (v rest : List Byte) (b : Byte), s.view = some v →
    (s.dec.fsm = .started ∨ s.dec.fsm = .frame ∨ s.dec.fsm = .findMarker) →
    (v.drop s.dec.cur = b :: rest ∧ b ≠ 0xFF ∨ v.drop s.dec.cur = 0xFF :: 0xFF :: rest) →
    step s = .next { s with dec := { s.dec with cur := s.dec.cur + 1 }, snap := none }) ∧
  (∀ (s : State) (v : List Byte) (m : Byte), s.view = some v →
    (s.dec.fsm = .started ∨ s.dec.fsm = .frame ∨ s.dec.fsm = .findMarker) → 2 ≤ s.dec.avail v →
    exec (.res m) s = .next { s with dec := { s.dec with cur := s.dec.cur + 1 }, snap := none })

/-- R143, R142, R444, R445: a step that ends the DECODE either raises, and then it is ENTER_ERROR from the unit's start, or
leaves every register as it was at the unit's start and returns `L - CUR`; in both no event is delivered. -/
def Obligations.EndedDecodeLeavesNoTrace : Prop :=
  ∀ (s t : State) (v : List Byte), s.PhaseInv → s.view = some v → step s = .next t → t.view = none →
    (∃ e, t = s.takeError e) ∨
      t = { s with dec := s.unitStart, snap := none, view := none
                   results := s.results ++ [(.decode, .okResend (v.length - s.unitStart.cur))] }

/-- R145's core (R144 "a unit reads only bytes from CUR on", R445): a step that does not end the DECODE does the same when
more bytes follow in the view. DONE is left out: TRAILING consumes every byte there is (R146). -/
def Obligations.MoreBytesChangeNothing : Prop :=
  ∀ (s t : State) (v w : List Byte), s.view = some v → s.dec.fsm ≠ .done → step s = .next t → t.view = some v →
    step { s with view := some (v ++ w) } = .next { t with view := some (v ++ w) }

/-! ## Reset and host commands -/

/-- R480, R154, R481: RESET answers Ok and puts every register at the value the spec gives. The registers the spec leaves
unspecified are not named here. What a run shows (R21) begins anew (log 28). -/
def Obligations.ResetState : Prop :=
  ∀ s : State, s.view = none →
    ∃ t, exec .reset s = .next t ∧ t.results = s.results ++ [(.reset, .ok)] ∧ t.observation = ([], []) ∧
      t.encObservation = ([], []) ∧
      t.dec.fsm = .none ∧ t.dec.err = none ∧ t.dec.cur = 0 ∧ t.dec.more = true ∧ t.dec.frame.valid = false ∧
      (∀ j, (t.dec.qt.get j).isDefined = false ∧ (t.dec.htDc.get j).isDefined = false ∧
        (t.dec.htAc.get j).isDefined = false) ∧
      t.dec.ri = 0 ∧ t.dec.jfif.present = false ∧ t.dec.adobe.present = false ∧ t.dec.scan.active = false ∧
      t.dec.bb.cnt = 0 ∧ t.dec.planes.allocated = false ∧ t.dec.out.nextRow = 0 ∧ t.dec.out.mcuRows = 0 ∧
      t.dec.flush.row = 0 ∧ t.dec.flush.pending = false ∧
      t.dec.icc.count = 0 ∧ t.dec.icc.next = 0 ∧ t.dec.icc.buf = [] ∧
      t.mq.seg = [] ∧ t.mq.bp = 0 ∧ t.mq.c = 0x7FFF8000 ∧ t.mq.a = 0x8000 ∧ t.mq.ct = 1 ∧
      t.mq.cx.length = s.cfg.nCx ∧ (∀ n, n < s.cfg.nCx → t.mq.cx[n]? = some (s.cfg.mqInit.getD n ⟨0, false⟩)) ∧
      t.enc.isOpen = false ∧ t.enc.rows = 0 ∧ t.enc.band = [] ∧ t.enc.last = none ∧
      t.enc.pred0 = 0 ∧ t.enc.pred1 = 0 ∧ t.enc.pred2 = 0 ∧ t.pk.acc = 0 ∧ t.pk.cnt = 0 ∧ t.pk.outq = [] ∧
      t.events = [] ∧ t.cfg = s.cfg

/-- The invariants hold of the machine right after reset (its parameter values are log 6's). -/
def Obligations.InvariantsAtReset : Prop :=
  State.reset.MemInv ∧ State.reset.CursorInv ∧ State.reset.PhaseInv ∧ State.reset.MqInv ∧ State.reset.EncInv ∧
    State.reset.FinishedInv

/-- R141, R147, R153: in ERROR, DECODE and FLUSH_PROGRESSIVE return the latched error and change nothing; elsewhere DECODE
puts the cursor at the start of its view; with no frame to flush, FLUSH_PROGRESSIVE returns Ok and changes nothing. That
DECODE's `exec` only begins the loop over the units, which the steps after it run, is the model's choice (log 1). -/
def Obligations.DecodeBeginsOrReturnsError : Prop :=
  (∀ (s : State) (v : List Byte) (more : Bool) (e : Err), s.view = none → s.dec.fsm = .error → s.dec.err = some e →
    exec (.decode v more) s = .next { s with results := s.results ++ [(.decode, .err e)] } ∧
      exec .flushProgressive s = .next { s with results := s.results ++ [(.flushProgressive, .err e)] }) ∧
  (∀ (s : State) (v : List Byte) (more : Bool), s.view = none → s.dec.fsm ≠ .error →
    exec (.decode v more) s =
      .next { s with view := some v, snap := none, dec := { s.dec with cur := 0, more := more } }) ∧
  (∀ s : State, s.view = none → s.dec.fsm ≠ .error → s.dec.flushable = false →
    exec .flushProgressive s = .next { s with results := s.results ++ [(.flushProgressive, .ok)] })

/-- R153, R372, R151: FLUSH_PROGRESSIVE with a frame to flush emits MCU rows from the pending row, or from row 0. MCU row m
is the lines from m * 8 * Vmax to min((m + 1) * 8 * Vmax, Y). Before every row but the first it takes one answer, true where the host gives none (log 11). When the answers it takes are all
true it emits every row left, and the answers after them stay, all of them when only one row is left. When `n` true ones
come before a false one that it takes, it emits `n + 1` rows, the next row is pending, and the answers after the false one
stay. -/
def Obligations.FlushEmitsRows : Prop :=
  ∀ (s : State) (start left : Nat), s.view = none → s.dec.fsm ≠ .error → s.dec.flushable = true → s.dec.canRender →
    start = (if s.dec.flush.pending then s.dec.flush.row else 0) → left = s.dec.mcuy - start →
    ((∀ a ∈ s.answers.take (left - 1), a = true) →
      exec .flushProgressive s =
        .next { s with
          dec := { s.dec with flush := { row := 0, pending := false } }
          events := s.events ++ (List.range left).flatMap fun m => s.dec.lines s.cfg ((start + m) * (8 * s.dec.vmax))
            (min ((start + m + 1) * (8 * s.dec.vmax)) s.dec.frame.y.toNat)
          answers := s.answers.drop (left - 1)
          results := s.results ++ [(.flushProgressive, .ok)] }) ∧
    (∀ n rest, s.answers = List.replicate n true ++ false :: rest → n + 1 < left →
      exec .flushProgressive s =
        .next { s with
          dec := { s.dec with flush := { row := start + n + 1, pending := true } }
          events := s.events ++ (List.range (n + 1)).flatMap fun m => s.dec.lines s.cfg ((start + m) * (8 * s.dec.vmax))
            (min ((start + m + 1) * (8 * s.dec.vmax)) s.dec.frame.y.toNat)
          answers := rest
          results := s.results ++ [(.flushProgressive, .ok)] })

/-- R146: the unit of DONE. With bytes left in the view it consumes them all and nothing else changes; with none the
DECODE returns Ok(0), whatever `more` is, and nothing else changes. -/
def Obligations.DoneConsumesEverything : Prop :=
  ∀ (s : State) (v : List Byte), s.inState v .done →
    (s.dec.cur < v.length → step s = .next { s with dec := { s.dec with cur := v.length }, snap := none }) ∧
    (v.length ≤ s.dec.cur → step s = .next { s with view := none, snap := none, results := s.results ++ [(.decode, .okResend 0)] })

/-- R152, R488 (log 12): a command while another is in progress is refused, and a step that would deliver an event under
which the host re-enters does not answer a next state. -/
def Obligations.ReentryRefused : Prop :=
  (∀ (i : Instr) (c : HostCall) (s : State), callOf i = some c → s.view ≠ none → exec i s = .refused .reentry) ∧
  (∀ s t : State, s.reenters = true → step s = .next t → t.events.length ≤ s.events.length)

/-! ## Markers -/

/-- R286: the preamble of every segment: without the length field, or without the whole segment, the unit suspends, or
raises EOF when no byte may follow; a length below 2 raises SEGMENT_LENGTH, one below the handler's least its own cause. -/
def Obligations.SegmentPreamble : Prop :=
  ∀ (i : Instr) (least : Nat) (c : Cause) (s : State) (v : List Byte) (lx : Nat), (i, least, c) ∈ segmentMarkers →
    s.scanning v → (i = .sos → s.dec.fsm = .frame) → s.snap = none → 2 ≤ s.dec.avail v → lx = (s.dec.be16 v 2).toNat →
    (s.dec.avail v < 4 → exec i s = .next (s.starved v)) ∧
    (4 ≤ s.dec.avail v → lx < 2 → exec i s = .next (s.takeError (.corrupt .segmentLength))) ∧
    (4 ≤ s.dec.avail v → 2 ≤ lx → lx < least → exec i s = .next (s.takeError (.corrupt c))) ∧
    (4 ≤ s.dec.avail v → 2 ≤ lx → least ≤ lx → s.dec.avail v < 2 + lx → exec i s = .next (s.starved v))

/-- R330: a skipped segment moves the cursor past it, whatever its payload is, and changes nothing else; until the whole
segment is in the view, nothing is skipped. -/
def Obligations.SegmentSkipped : Prop :=
  ∀ (i : Instr) (s : State) (v : List Byte) (lx : Nat), i ∈ skipMarkers → s.scanning v →
    (s.dec.segment v lx →
      exec i s = .next { s with dec := { s.dec with cur := s.dec.cur + (2 + lx) }, snap := none }) ∧
    (s.snap = none → 4 ≤ s.dec.avail v → lx = (s.dec.be16 v 2).toNat → lx < 2 →
      exec i s = .next (s.takeError (.corrupt .segmentLength))) ∧
    (s.snap = none → 2 ≤ s.dec.avail v → s.dec.avail v < 4 ∨ 2 ≤ lx ∧ lx = (s.dec.be16 v 2).toNat ∧ s.dec.avail v < 2 + lx →
      exec i s = .next (s.starved v))

/-- R331: TEM, and RSTn outside FINDMARKER, advance the cursor by two and change nothing else. -/
def Obligations.StandaloneIgnored : Prop :=
  ∀ (i : Instr) (s : State) (v : List Byte), i ∈ standaloneMarkers → s.scanning v → 2 ≤ s.dec.avail v →
    exec i s = .next { s with dec := { s.dec with cur := s.dec.cur + 2 }, snap := none }

/-- R292: an SOF marker of a variant the core lacks raises SOF_UNSUPPORTED. -/
def Obligations.UnsupportedFrameRaises : Prop :=
  ∀ (i : Instr) (s : State) (v : List Byte), i ∈ unsupportedMarkers → s.scanning v → 2 ≤ s.dec.avail v →
    exec i s = .next (s.takeError (.corrupt .sofUnsupported))

/-- R282: the SOI unit: the first two bytes are FF D8, or SOI_MISSING is raised; with fewer than two bytes it suspends, or
raises EOF. No fill byte and no garbage is accepted before SOI. -/
def Obligations.StartOfImage : Prop :=
  ∀ (s : State) (v : List Byte), s.inState v .none → s.snap = none →
    (∀ rest, v.drop s.dec.cur = 0xFF :: 0xD8 :: rest →
      step s = .next { s with dec := { s.dec with cur := s.dec.cur + 2, fsm := .started }, snap := none } ∧
      exec .soi s = .next { s with dec := { s.dec with cur := s.dec.cur + 2, fsm := .started }, snap := none }) ∧
    (∀ a b rest, v.drop s.dec.cur = a :: b :: rest → ¬(a = 0xFF ∧ b = 0xD8) →
      step s = .next (s.takeError (.corrupt .soiMissing))) ∧
    (s.dec.avail v < 2 → step s = .next (s.starved v))

/-- R282, R283, R285, R310, R325: the markers that are fatal where they stand. -/
def Obligations.MisplacedMarkersRaise : Prop :=
  ∀ (s : State) (v : List Byte), s.view = some v → 2 ≤ s.dec.avail v →
    (s.dec.fsm = .none → ∀ i, ctxOf i = .marker → i ≠ .soi → exec i s = .next (s.takeError (.corrupt .soiMissing))) ∧
    (s.dec.fsm = .started ∨ s.dec.fsm = .frame → exec .soi s = .next (s.takeError (.corrupt .soiDuplicate))) ∧
    (s.dec.fsm = .started → exec .sos s = .next (s.takeError (.corrupt .sosNoFrame))) ∧
    (s.dec.fsm = .started → exec .eoi s = .next (s.takeError (.corrupt .eoiNoFrame))) ∧
    (s.dec.fsm = .frame → s.dec.frame.scans = 0 → exec .eoi s = .next (s.takeError (.corrupt .eoiIncomplete)))

/-- R293, R295, R296: a fixed frame header that passes its checks; in FRAME the current frame is aborted first. One that
fails a check raises the cause of the first it fails, in R293's order; without its bytes the unit suspends, or raises EOF.
An abort is then rolled back with the unit: ENTER_ERROR and the suspension begin at the unit's start. -/
def Obligations.FrameHeaderAcceptedOrRaises : Prop :=
  (∀ (i : Instr) (k : Fin 3) (s : State) (v : List Byte), (i, k) ∈ frameMarkers → s.scanning v → 10 ≤ s.dec.avail v →
    s.dec.inp v 4 = 8 → s.dec.be16 v 5 ≠ 0 → s.dec.be16 v 7 ≠ 0 →
    ((s.dec.inp v 9).toNat = 1 ∨ (s.dec.inp v 9).toNat = 3 ∨ (s.dec.inp v 9).toNat = 4) →
    (s.dec.be16 v 2).toNat = 8 + 3 * (s.dec.inp v 9).toNat →
    exec i s =
      .next { s with
        snap := none
        events := s.events ++ [.sizeKnown (s.dec.be16 v 7) (s.dec.be16 v 5),
          .frameStarted (8 * (s.dec.inp v 9).toNat) (k == 2) none]
        dec := { s.dec with
          cur := s.dec.cur + 10
          fsm := .frameHeader
          planes := if s.dec.fsm = .frame then Planes.free else s.dec.planes
          scan := { s.dec.scan with active := if s.dec.fsm = .frame then false else s.dec.scan.active }
          frame := { valid := if s.dec.fsm = .frame then false else s.dec.frame.valid
                     sof := k, progressive := k == 2, p := 8, y := s.dec.be16 v 5, x := s.dec.be16 v 7
                     nf := (s.dec.inp v 9).toNat, scans := 0
                     cs :=
                      if (s.dec.inp v 9).toNat = 1 then .gray
                      else if (s.dec.inp v 9).toNat = 3 then
                        (if s.dec.adobe.present = true ∧ s.dec.adobe.transform = 0 then .rgb else .ycbcr)
                      else if s.dec.adobe.present = true ∧ s.dec.adobe.transform = 2 then .ycck else .cmyk }
          out := { nextRow := 0, mcuRows := 0 }
          flush := { row := 0, pending := false } } }) ∧
  (∀ (i : Instr) (k : Fin 3) (s : State) (v : List Byte) (lf nf : Nat), (i, k) ∈ frameMarkers → s.scanning v →
    lf = (s.dec.be16 v 2).toNat → nf = (s.dec.inp v 9).toNat →
    (s.snap = none → 2 ≤ s.dec.avail v → s.dec.avail v < 4 → exec i s = .next (s.starved v)) ∧
    (4 ≤ s.dec.avail v → lf < 8 → exec i s = .next (s.takeError (.corrupt .sofLength))) ∧
    (s.snap = none → 4 ≤ s.dec.avail v → 8 ≤ lf → s.dec.avail v < 10 → exec i s = .next (s.starved v)) ∧
    (10 ≤ s.dec.avail v → 8 ≤ lf →
      (s.dec.inp v 4 ≠ 8 → exec i s = .next (s.takeError (.corrupt .sofPrecision))) ∧
      (s.dec.inp v 4 = 8 → (s.dec.be16 v 5 = 0 ∨ s.dec.be16 v 7 = 0) →
        exec i s = .next (s.takeError (.corrupt .sofDimension))) ∧
      (s.dec.inp v 4 = 8 → s.dec.be16 v 5 ≠ 0 → s.dec.be16 v 7 ≠ 0 →
        (nf ≠ 1 → nf ≠ 3 → nf ≠ 4 → exec i s = .next (s.takeError (.corrupt .sofNcomp))) ∧
        ((nf = 1 ∨ nf = 3 ∨ nf = 4) → lf ≠ 8 + 3 * nf → exec i s = .next (s.takeError (.corrupt .sofLength))))))

/-- R294, R47, R443: a component list that passes its checks is stored, and the planes are allocated with every cell 0, or
OutOfMemory is raised when they need more than ALLOC_LIMIT. With fewer than 3 Nf bytes the unit suspends, or raises EOF. The
first entry that fails a check raises its cause: SOF_DUPID for an id of an entry before it, else SOF_SAMPLING for a factor
outside 1..4, else SOF_QTSEL for a table number above 3. -/
def Obligations.ComponentListAcceptedOrRaises : Prop :=
  (∀ (s : State) (v : List Byte) (cs : List Comp), s.inState v .frameHeader → s.dec.frame.nf ≤ 4 →
    cs.length = s.dec.frame.nf → 3 * s.dec.frame.nf ≤ s.dec.avail v →
    (∀ j c, cs[j]? = some c →
      c.id = s.dec.inp v (3 * j) ∧ c.h = (hiNibble (s.dec.inp v (3 * j + 1))).toNat ∧
      c.v = (loNibble (s.dec.inp v (3 * j + 1))).toNat ∧ (1 ≤ c.h ∧ c.h ≤ 4) ∧ (1 ≤ c.v ∧ c.v ≤ 4) ∧
      (s.dec.inp v (3 * j + 2)).toNat = c.tq.val ∧ c.pred = 0) →
    (cs.map Comp.id).Nodup →
    ∃ comp : Quad Comp, (∀ i : Fin 4, comp.get i = cs.getD i.val (s.dec.comp.get i)) ∧
      ∀ d : Dec, d = { s.dec with comp := comp } →
      step s =
        if s.cfg.allocLimit < (cs.map fun c => d.pbw c * d.pbh c * 128).sum then .next (s.takeError .outOfMemory)
        else
          .next { s with
            snap := none
            dec := { d with
              planes := { allocated := true, mem := [] }
              cur := s.dec.cur + 3 * s.dec.frame.nf
              frame := { s.dec.frame with valid := true }
              fsm := .frame } }) ∧
  (∀ (s : State) (v : List Byte), s.inState v .frameHeader → s.snap = none → s.dec.avail v < 3 * s.dec.frame.nf →
    step s = .next (s.starved v)) ∧
  (∀ (s : State) (v : List Byte) (j : Nat) (id h w tq : Nat → Nat), s.inState v .frameHeader →
    3 * s.dec.frame.nf ≤ s.dec.avail v → j < s.dec.frame.nf →
    (∀ i, id i = (s.dec.inp v (3 * i)).toNat ∧ h i = (hiNibble (s.dec.inp v (3 * i + 1))).toNat ∧
      w i = (loNibble (s.dec.inp v (3 * i + 1))).toNat ∧ tq i = (s.dec.inp v (3 * i + 2)).toNat) →
    (∀ i, i < j → (∀ n, n < i → id n ≠ id i) ∧ (1 ≤ h i ∧ h i ≤ 4) ∧ (1 ≤ w i ∧ w i ≤ 4) ∧ tq i ≤ 3) →
    ((∃ n, n < j ∧ id n = id j) → step s = .next (s.takeError (.corrupt .sofDupid))) ∧
    ((∀ n, n < j → id n ≠ id j) →
      (h j < 1 ∨ 4 < h j ∨ w j < 1 ∨ 4 < w j → step s = .next (s.takeError (.corrupt .sofSampling))) ∧
      (1 ≤ h j ∧ h j ≤ 4 → 1 ≤ w j ∧ w j ≤ 4 → 3 < tq j → step s = .next (s.takeError (.corrupt .sofQtsel)))))

/-- R300, R107, R119: the definitions of a DQT segment are stored in order, each in natural order. A definition that fails a
check, after well-formed ones, raises its cause, and none of the segment's tables is stored: DQT_PARAM for a precision above
1 or a table number above 3, else DQT_LENGTH where the segment ends inside it. -/
def Obligations.QuantizationTablesStoredOrRaise : Prop :=
  (∀ (s : State) (v rest : List Byte) (qs : List QDef) (n : Nat), s.scanning v → qs ≠ [] → (∀ q ∈ qs, q.wf) →
    n = (qs.flatMap QDef.bytes).length → n + 2 < 2 ^ 16 →
    v.drop s.dec.cur = [0xFF, 0xDB] ++ bytesOf16 (BitVec.ofNat 16 (n + 2)) ++ qs.flatMap QDef.bytes ++ rest →
    exec .dqt s =
      .next { s with
        snap := none
        dec := { s.dec with
          cur := s.dec.cur + (n + 4)
          qt := qs.foldl (fun t q => t.set q.tq { isDefined := true, pq := q.pq, q := q.q }) s.dec.qt } }) ∧
  (∀ (s : State) (v tail rest : List Byte) (qs : List QDef) (b : Byte) (pq tq n : Nat), s.scanning v → (∀ q ∈ qs, q.wf) →
    pq = (hiNibble b).toNat → tq = (loNibble b).toNat →
    n = (qs.flatMap QDef.bytes).length + (1 + tail.length) → n + 2 < 2 ^ 16 →
    v.drop s.dec.cur =
      [0xFF, 0xDB] ++ bytesOf16 (BitVec.ofNat 16 (n + 2)) ++ qs.flatMap QDef.bytes ++ (b :: tail) ++ rest →
    (1 < pq ∨ 3 < tq → exec .dqt s = .next (s.takeError (.corrupt .dqtParam))) ∧
    (pq ≤ 1 → tq ≤ 3 → tail.length < 64 * (pq + 1) → exec .dqt s = .next (s.takeError (.corrupt .dqtLength))))

/-- R302, R106, R170, R171: the definitions of a DHT segment, each of at most 256 codes that fit 16 bits, are stored in order,
each with its canonical codes and the arrays derived from them. A definition that fails a check, after well-formed ones, raises its cause, and none of the segment's tables is stored: DHT_PARAM for a
class above 1 or a table number above 3, else DHT_LENGTH where the segment ends inside its 16 counts, DHT_COUNTS for more
than 256 codes, DHT_LENGTH where it ends inside its values, and DHT_CODE_OVERFLOW where the counts' codes do not fit 16
bits: then BITS[l] codes of length l for each l take more than the 2^16 places of 16 bits (R171). -/
def Obligations.HuffmanTablesStoredOrRaise : Prop :=
  (∀ (s : State) (v rest : List Byte) (hs : List HDef) (n : Nat), s.scanning v → hs ≠ [] → (∀ h ∈ hs, h.wf) →
    n = (hs.flatMap HDef.bytes).length → n + 2 < 2 ^ 16 →
    v.drop s.dec.cur = [0xFF, 0xC4] ++ bytesOf16 (BitVec.ofNat 16 (n + 2)) ++ hs.flatMap HDef.bytes ++ rest →
    exec .dht s =
      .next { s with
        snap := none
        dec := { s.dec with
          cur := s.dec.cur + (n + 4)
          htDc := hs.foldl (fun t h => if h.isAc then t else t.set h.th h.entry) s.dec.htDc
          htAc := hs.foldl (fun t h => if h.isAc then t.set h.th h.entry else t) s.dec.htAc } }) ∧
  (∀ (s : State) (v tail rest : List Byte) (hs : List HDef) (b : Byte) (tc th n sum : Nat), s.scanning v →
    (∀ h ∈ hs, h.wf) → tc = (hiNibble b).toNat → th = (loNibble b).toNat →
    n = (hs.flatMap HDef.bytes).length + (1 + tail.length) → n + 2 < 2 ^ 16 →
    v.drop s.dec.cur =
      [0xFF, 0xC4] ++ bytesOf16 (BitVec.ofNat 16 (n + 2)) ++ hs.flatMap HDef.bytes ++ (b :: tail) ++ rest →
    sum = ((tail.take 16).map BitVec.toNat).sum →
    (1 < tc ∨ 3 < th → exec .dht s = .next (s.takeError (.corrupt .dhtParam))) ∧
    (tc ≤ 1 → th ≤ 3 →
      (tail.length < 16 → exec .dht s = .next (s.takeError (.corrupt .dhtLength))) ∧
      (16 ≤ tail.length → 256 < sum → exec .dht s = .next (s.takeError (.corrupt .dhtCounts))) ∧
      (16 ≤ tail.length → sum ≤ 256 → tail.length < 16 + sum → exec .dht s = .next (s.takeError (.corrupt .dhtLength))) ∧
      (sum ≤ 256 → 16 + sum ≤ tail.length →
        2 ^ 16 < ((List.range 16).map fun l => (tail.getD l 0).toNat * 2 ^ (15 - l)).sum →
        exec .dht s = .next (s.takeError (.corrupt .dhtCodeOverflow)))))

/-- R305: DRI sets the restart interval; a length other than 4 raises DRI_LENGTH. -/
def Obligations.RestartIntervalSet : Prop :=
  ∀ (s : State) (v : List Byte) (lx : Nat), s.scanning v → s.dec.segment v lx →
    exec .dri s =
      if lx = 4 then
        .next { s with dec := { s.dec with cur := s.dec.cur + 6, ri := s.dec.be16 v 4 }, snap := none }
      else .next (s.takeError (.corrupt .driLength))

/-- R310, R311, R312, R313, R314, R208: an SOS in FRAME that passes its checks starts the scan; of COMP only the predictors
of the frame's components change, to 0. One that fails a check raises the cause of the first it fails, in R310's order:
SOS_NCOMP, SOS_LENGTH, for the first selector that fails SOS_COMPSEL or SOS_TABLE_UNDEFINED, SOS_PROGRESSION, SOS_SEQUENCE,
SOS_MCU_SIZE, and for the first slot that fails SOS_TABLE_UNDEFINED or QT_UNDEFINED. -/
def Obligations.ScanStartsOrRaises : Prop :=
  (∀ (s : State) (v : List Byte) (sc : List ScanComp) (ss se ah al : Nat) (mode : ScanMode), s.inState v .frame →
    s.dec.segment v (6 + 2 * sc.length) → s.dec.selects v sc → s.dec.scanParams v sc.length ss se ah al →
    mode = modeOf s.dec.frame.progressive ss ah →
    (lawfulScan s.dec.frame.progressive sc.length ss se ah al →
      (s.dec.frame.progressive = false → s.dec.frame.scans = 0 ∧ sc.length = s.dec.frame.nf) →
      (1 < sc.length → (sc.map fun c => (s.dec.comp.get c.ci).h * (s.dec.comp.get c.ci).v).sum ≤ 10) →
      (∀ c ∈ sc, s.dec.codesDefined mode c ∧ s.dec.stepsDefined c) →
      ∃ comp, (∀ i : Fin 4, comp.get i =
          if i.val < s.dec.frame.nf then { s.dec.comp.get i with pred := 0 } else s.dec.comp.get i) ∧
      exec .sos s =
        .next { s with
          snap := none
          dec := { s.dec with
            cur := s.dec.cur + (8 + 2 * sc.length)
            fsm := .restart
            comp := comp
            bb := { s.dec.bb with cnt := 0 }
            out := { s.dec.out with mcuRows := 0 }
            prog := { blk := 0, k := 0 }
            scan := { active := true, ns := sc.length, sc := sc, ss := ss, se := se, ah := ah, al := al
                      mode := mode, mcu := 0, rstLeft := s.dec.ri, rstNext := 0, eobrun := 0
                      total :=
                        match sc with
                        | [one] => s.dec.bw (s.dec.comp.get one.ci) * s.dec.bh (s.dec.comp.get one.ci)
                        | _ => s.dec.mcux * s.dec.mcuy } } }) ∧
    (¬lawfulScan s.dec.frame.progressive sc.length ss se ah al →
      exec .sos s = .next (s.takeError (.corrupt .sosProgression))) ∧
    (lawfulScan s.dec.frame.progressive sc.length ss se ah al →
      (s.dec.frame.progressive = false → 0 < s.dec.frame.scans ∨ sc.length ≠ s.dec.frame.nf →
        exec .sos s = .next (s.takeError (.corrupt .sosSequence))) ∧
      ((s.dec.frame.progressive = false → s.dec.frame.scans = 0 ∧ sc.length = s.dec.frame.nf) →
        (1 < sc.length → 10 < (sc.map fun c => (s.dec.comp.get c.ci).h * (s.dec.comp.get c.ci).v).sum →
          exec .sos s = .next (s.takeError (.corrupt .sosMcuSize))) ∧
        ((1 < sc.length → (sc.map fun c => (s.dec.comp.get c.ci).h * (s.dec.comp.get c.ci).v).sum ≤ 10) →
          ∀ (j : Nat) (c : ScanComp), sc[j]? = some c →
            (∀ c' ∈ sc.take j, s.dec.codesDefined mode c' ∧ s.dec.stepsDefined c') →
            (¬s.dec.codesDefined mode c → exec .sos s = .next (s.takeError (.corrupt .sosTableUndefined))) ∧
            (s.dec.codesDefined mode c → ¬s.dec.stepsDefined c →
              exec .sos s = .next (s.takeError (.corrupt .qtUndefined))))))) ∧
  (∀ (s : State) (v : List Byte) (lx ns : Nat), s.inState v .frame → s.dec.segment v lx → 8 ≤ lx →
    ns = (s.dec.inp v 4).toNat →
    (ns < 1 ∨ 4 < ns ∨ s.dec.frame.nf < ns → exec .sos s = .next (s.takeError (.corrupt .sosNcomp))) ∧
    (1 ≤ ns → ns ≤ 4 → ns ≤ s.dec.frame.nf →
      (lx ≠ 6 + 2 * ns → exec .sos s = .next (s.takeError (.corrupt .sosLength))) ∧
      (lx = 6 + 2 * ns → ∀ (j : Nat) (cs td ta : Nat → Nat), j < ns →
        (∀ i, cs i = (s.dec.inp v (5 + 2 * i)).toNat ∧ td i = (hiNibble (s.dec.inp v (6 + 2 * i))).toNat ∧
          ta i = (loNibble (s.dec.inp v (6 + 2 * i))).toNat) →
        (∀ i, i < j → (∃ c : Fin 4, c.val < s.dec.frame.nf ∧ (s.dec.comp.get c).id.toNat = cs i) ∧
          (∀ n, n < i → cs n ≠ cs i) ∧ td i ≤ 3 ∧ ta i ≤ 3) →
        ((∀ c : Fin 4, c.val < s.dec.frame.nf → (s.dec.comp.get c).id.toNat ≠ cs j) ∨ (∃ n, n < j ∧ cs n = cs j) →
          exec .sos s = .next (s.takeError (.corrupt .sosCompsel))) ∧
        ((∃ c : Fin 4, c.val < s.dec.frame.nf ∧ (s.dec.comp.get c).id.toNat = cs j) → (∀ n, n < j → cs n ≠ cs j) →
          3 < td j ∨ 3 < ta j → exec .sos s = .next (s.takeError (.corrupt .sosTableUndefined))))))

/-- R316, R370: when every MCU of a scan is done, the scan ends: a sequential one emits the rows left, the padding bits are
dropped, and the scan is counted. That the count wraps modulo 2^32, as a u32 does, is the model's inference (log 9): R316
only adds 1. -/
def Obligations.ScanEnds : Prop :=
  ∀ (s : State) (v : List Byte), s.inState v .restart → s.dec.scan.mcu = s.dec.scan.total → s.reenters = false →
    (s.dec.scan.mode = .seq → s.dec.canRender) →
    step s =
      .next { s with
        snap := none
        events := s.events ++
          (if s.dec.scan.mode = .seq then s.dec.lines s.cfg s.dec.out.nextRow s.dec.frame.y.toNat else [])
        dec := { s.dec with
          bb := { s.dec.bb with cnt := 0 }
          out := { s.dec.out with
            nextRow := if s.dec.scan.mode = .seq then max s.dec.out.nextRow s.dec.frame.y.toNat else s.dec.out.nextRow }
          scan := { s.dec.scan with active := false }
          frame := { s.dec.frame with scans := (s.dec.frame.scans + 1) % 2 ^ 32 }
          fsm := .frame } }

/-- R318, R208: a marker in FINDMARKER. RST0 to RST7 restart the entropy decoding, whatever number the marker carries: of
COMP only the predictors of the frame's components change, to 0. Any other recognized marker raises RST_EXPECTED. -/
def Obligations.RestartStep : Prop :=
  (∀ (i : Instr) (s : State) (v : List Byte), i ∈ rstMarkers → s.inState v .findMarker → 2 ≤ s.dec.avail v →
    ∃ comp, (∀ j : Fin 4, comp.get j =
        if j.val < s.dec.frame.nf then { s.dec.comp.get j with pred := 0 } else s.dec.comp.get j) ∧
    exec i s =
      .next { s with
        snap := none
        dec := { s.dec with
          cur := s.dec.cur + 2
          fsm := .restart
          comp := comp
          bb := { s.dec.bb with cnt := 0 }
          scan := { s.dec.scan with
            eobrun := 0, rstLeft := s.dec.ri, rstNext := s.dec.scan.rstNext + 1 } } }) ∧
  (∀ (i : Instr) (s : State) (v : List Byte), isRecognized i = true → i ∉ rstMarkers → s.inState v .findMarker →
    2 ≤ s.dec.avail v → exec i s = .next (s.takeError (.corrupt .rstExpected)))

/-- R320, R323, R110, R111: a JFIF APP0 and an Adobe APP14 are recorded; another APP0 or APP14 is skipped. -/
def Obligations.JfifAndAdobeRecorded : Prop :=
  ∀ (s : State) (v : List Byte) (lx : Nat), s.scanning v → s.dec.segment v lx →
    exec .app0 s =
      .next { s with
        snap := none
        dec := { s.dec with
          cur := s.dec.cur + (2 + lx)
          jfif := if 16 ≤ lx ∧ s.dec.slice v 4 5 = idJfif then
              { present := true, version := s.dec.be16 v 9, units := s.dec.inp v 11, xdensity := s.dec.be16 v 12
                ydensity := s.dec.be16 v 14, xthumb := s.dec.inp v 16, ythumb := s.dec.inp v 17 }
            else s.dec.jfif } } ∧
    exec .app14 s =
      .next { s with
        snap := none
        dec := { s.dec with
          cur := s.dec.cur + (2 + lx)
          adobe := if 14 ≤ lx ∧ s.dec.slice v 4 5 = idAdobe then { present := true, transform := s.dec.inp v 15 }
            else s.dec.adobe } }

/-- R321, R381: an EXIF APP1 delivers the tags its payload gives, in order, or raises METADATA; another APP1 is skipped. A
payload without an II or MM mark fails. -/
def Obligations.ExifDelivered : Prop :=
  ∀ (s : State) (v : List Byte) (lx : Nat), s.scanning v → s.dec.segment v lx →
    exec .app1 s =
      (if 8 ≤ lx ∧ s.dec.slice v 4 6 = idExif then
        match exifExtract s.cfg.exif (s.dec.slice v 10 (lx - 8)) with
        | none => .next (s.takeError (.corrupt .metadata))
        | some tags =>
          .next { s with
            snap := none
            events := s.events ++ tags.map fun t => .exifTag t.1 t.2
            dec := { s.dec with cur := s.dec.cur + (2 + lx) } }
      else .next { s with snap := none, dec := { s.dec with cur := s.dec.cur + (2 + lx) } }) ∧
    (∀ p : List Byte, p.take 2 ≠ [0x49, 0x49] → p.take 2 ≠ [0x4D, 0x4D] → exifExtract s.cfg.exif p = none)

/-- R322, R383: an ICC APP2 adds its chunk to the accumulator; the chunk that completes the profile delivers it and clears
the accumulator; an inconsistent chunk clears it and delivers nothing. Another APP2 is skipped. That the last of
255 chunks completes the profile, with ICC.next 256 for a moment, is the model's inference (log 10). -/
def Obligations.IccChunkAdded : Prop :=
  ∀ (s : State) (v : List Byte) (lx : Nat), s.scanning v → s.dec.segment v lx →
    (¬(16 ≤ lx ∧ s.dec.slice v 4 12 = idIcc) →
      exec .app2 s = .next { s with snap := none, dec := { s.dec with cur := s.dec.cur + (2 + lx) } }) ∧
    (∀ seq cnt : Nat, ∀ data : List Byte, 16 ≤ lx → s.dec.slice v 4 12 = idIcc → seq = (s.dec.inp v 16).toNat →
      cnt = (s.dec.inp v 17).toNat → data = s.dec.slice v 18 (lx - 16) →
      (seq = 0 ∨ cnt = 0 ∨ cnt < seq ∨
          seq ≠ 1 ∧ ¬(s.dec.icc.count ≠ 0 ∧ cnt = s.dec.icc.count ∧ seq = s.dec.icc.next) →
        exec .app2 s =
          .next { s with
            snap := none
            dec := { s.dec with cur := s.dec.cur + (2 + lx), icc := { count := 0, next := 0, buf := [] } } }) ∧
      (seq = 1 → 1 < cnt →
        exec .app2 s =
          .next { s with
            snap := none
            dec := { s.dec with cur := s.dec.cur + (2 + lx), icc := { count := cnt, next := 2, buf := data } } }) ∧
      (seq = 1 → cnt = 1 →
        exec .app2 s =
          .next { s with
            snap := none, events := s.events ++ [.iccProfile data]
            dec := { s.dec with cur := s.dec.cur + (2 + lx), icc := { count := 0, next := 0, buf := [] } } }) ∧
      (1 < seq → seq < cnt → cnt = s.dec.icc.count → seq = s.dec.icc.next →
        exec .app2 s =
          .next { s with
            snap := none
            dec := { s.dec with
              cur := s.dec.cur + (2 + lx)
              icc := { count := cnt, next := seq + 1, buf := s.dec.icc.buf ++ data } } }) ∧
      (1 < seq → seq = cnt → cnt = s.dec.icc.count → seq = s.dec.icc.next →
        exec .app2 s =
          .next { s with
            snap := none, events := s.events ++ [.iccProfile (s.dec.icc.buf ++ data)]
            dec := { s.dec with cur := s.dec.cur + (2 + lx), icc := { count := 0, next := 0, buf := [] } } }))

/-- R325, R373: EOI after at least one scan ends the image: a progressive frame emits every row 0..Y-1 in increasing order
first; then Finished is delivered and the planes are freed. -/
def Obligations.EndOfImage : Prop :=
  ∀ (s : State) (v : List Byte), s.inState v .frame → 2 ≤ s.dec.avail v → s.dec.frame.scans ≠ 0 →
    (s.dec.frame.progressive = true → s.dec.canRender ∧ 0 < s.dec.vmax) →
    exec .eoi s =
      .next { s with
        snap := none
        events := s.events ++
          (if s.dec.frame.progressive then s.dec.lines s.cfg 0 s.dec.frame.y.toNat else []) ++ [.finished]
        dec := { s.dec with
          cur := s.dec.cur + 2
          fsm := .done
          planes := { allocated := false, mem := [] }
          flush := if s.dec.frame.progressive then { row := 0, pending := false } else s.dec.flush
          frame := { s.dec.frame with valid := false } } }

/-- R444, R441: a unit that raises: the error is latched, the planes are freed, the frame, the scan and a pending flush are
dropped, every other register is as at the unit's start, no event is delivered and the command returns the error. -/
def Obligations.ErrorEntry : Prop :=
  ∀ (s : State) (e : Err),
    ∃ t, s.endUnit (.error (.raise e)) = .next t ∧
      t.dec.err = some e ∧ t.dec.fsm = .error ∧ t.dec.planes = { allocated := false, mem := [] } ∧
      t.dec.frame = { s.unitStart.frame with valid := false } ∧ t.dec.scan = { s.unitStart.scan with active := false } ∧
      t.dec.flush = { s.unitStart.flush with pending := false } ∧
      t.dec.comp = s.unitStart.comp ∧ t.dec.qt = s.unitStart.qt ∧ t.dec.htDc = s.unitStart.htDc ∧
      t.dec.htAc = s.unitStart.htAc ∧ t.dec.ri = s.unitStart.ri ∧ t.dec.jfif = s.unitStart.jfif ∧
      t.dec.adobe = s.unitStart.adobe ∧ t.dec.icc = s.unitStart.icc ∧ t.dec.out = s.unitStart.out ∧
      t.dec.bb = s.unitStart.bb ∧ t.dec.cur = s.unitStart.cur ∧ t.dec.more = s.unitStart.more ∧ t.dec.prog = s.unitStart.prog ∧
      t.view = none ∧ t.snap = none ∧ t.results = s.results ++ [(.decode, .err e)] ∧ t.events = s.events ∧
      t.observation = (s.observation.1, s.observation.2 ++ [.err e]) ∧
      t.mq = s.mq ∧ t.enc = s.enc ∧ t.pk = s.pk ∧ t.cfg = s.cfg

/-- The frame of every marker (R37 to R41, R230, R383, R390: each table and flag is written only by its own marker): what
a marker leaves unchanged whenever it answers a next state, at a unit's start. The planes are unchanged, byte for byte,
or freed. -/
def Obligations.MarkerFrame : Prop :=
  ∀ (i : Instr) (s t : State), ctxOf i = .marker → s.snap = none → exec i s = .next t →
    (i ≠ .dqt → t.dec.qt = s.dec.qt) ∧
    (i ≠ .dht → t.dec.htDc = s.dec.htDc ∧ t.dec.htAc = s.dec.htAc) ∧
    (i ≠ .dri → t.dec.ri = s.dec.ri) ∧ (i ≠ .app0 → t.dec.jfif = s.dec.jfif) ∧
    (i ≠ .app14 → t.dec.adobe = s.dec.adobe) ∧ (i ≠ .app2 → t.dec.icc = s.dec.icc) ∧
    (i ≠ .sos → i ∉ rstMarkers → t.dec.comp = s.dec.comp) ∧
    (t.dec.planes.allocated = true → ∀ a, t.dec.planes.mem.read a = s.dec.planes.mem.read a) ∧
    (t.dec.planes.allocated = true → s.dec.planes.allocated = true) ∧
    t.dec.more = s.dec.more ∧ t.mq = s.mq ∧ t.enc = s.enc ∧ t.pk = s.pk ∧ t.cfg = s.cfg ∧ t.hostq = s.hostq ∧
    t.answers = s.answers ∧ t.reenters = s.reenters

/-! ## Entropy symbols -/

/-- R200: a DC symbol in a sequential scan. The block is cleared and takes the new predictor as its DC; bytes outside the
block read as before. -/
def Obligations.SequentialDc : Prop :=
  ∀ (t : BitVec 4) (s : State) (v : List Byte) (b : BlockRef) (x : Nat) (r : Rd) (p : Half),
    s.dec.planes.mem.wf = true → s.currentBlock = some (v, b) → s.dec.scan.mode = .seq →
    s.dec.inPlane b.sc.ci b.row b.col 0 = true → receive v s.dec.more t.toNat s.dec.rd = .ok (x, r) →
    p = wrap16 ((s.dec.comp.get b.sc.ci).pred.toInt + extend x t.toNat) →
    ∃ mem, exec (.dcDiff t) s =
        .next { s with
          snap := some s.unitStart
          dec := { s.dec with
            cur := r.cur, bb := r.bb
            comp := s.dec.comp.set b.sc.ci { s.dec.comp.get b.sc.ci with pred := p }
            planes := { s.dec.planes with mem := mem }
            prog := { s.dec.prog with k := 1 } } } ∧
      mem.readHalf (s.dec.cellAddr b.sc.ci b.row b.col 0) = p ∧
      (∀ n, 0 < n → n < 64 → mem.readHalf (s.dec.cellAddr b.sc.ci b.row b.col n) = 0) ∧
      (∀ a, a < s.dec.cellAddr b.sc.ci b.row b.col 0 ∨ s.dec.cellAddr b.sc.ci b.row b.col 0 + 128 ≤ a →
        mem.read a = s.dec.planes.mem.read a)

/-- R202, R203, and R209, R210, R374 through `State.blockEnd`: the DC symbols of a progressive scan. In a DC-first scan DC_DIFF writes the predictor and cell 0 of
the block, scaled by 2^Al; in a DC refinement scan the bit 1 sets bit Al of cell 0 and the bit 0 leaves it. -/
def Obligations.ProgressiveDc : Prop :=
  (∀ (t : BitVec 4) (s : State) (v : List Byte) (b : BlockRef) (x : Nat) (r : Rd) (p : Half),
    s.currentBlock = some (v, b) → s.dec.scan.mode = .dcFirst → s.dec.inPlane b.sc.ci b.row b.col 0 = true →
    receive v s.dec.more t.toNat s.dec.rd = .ok (x, r) →
    p = wrap16 ((s.dec.comp.get b.sc.ci).pred.toInt + extend x t.toNat) →
    ∃ u, exec (.dcDiff t) s = .next u ∧
      s.blockEnd
        { s.dec.withCell r b.sc.ci b.row b.col 0 (wrap16 (p.toInt * 2 ^ s.dec.scan.al)) with
          comp := s.dec.comp.set b.sc.ci { s.dec.comp.get b.sc.ci with pred := p } } u) ∧
  (∀ (bit : Bool) (s : State) (v : List Byte) (b : BlockRef) (c : Half),
    s.currentBlock = some (v, b) → s.dec.scan.mode = .dcRefine → s.dec.inPlane b.sc.ci b.row b.col 0 = true →
    c = s.dec.planes.mem.readHalf (s.dec.cellAddr b.sc.ci b.row b.col 0) →
    ∃ u, exec (.dcRefineBit bit) s = .next u ∧
      s.blockEnd
        (if bit then s.dec.withCell s.dec.rd b.sc.ci b.row b.col 0 (c ||| wrap16 (2 ^ s.dec.scan.al)) else s.dec) u)

/-- R201, R204, and R209, R210, R370, R374 through `State.blockEnd`: a run and a coefficient, in a sequential or an AC-first scan: inside the band the one cell ZZ[k + r] is
written; past it HUFF_AC_INDEX is raised. -/
def Obligations.RunAndCoefficient : Prop :=
  ∀ (r sz : BitVec 4) (s : State) (v : List Byte) (b : BlockRef) (k : Nat),
    s.currentBlock = some (v, b) → (s.dec.scan.mode = .seq ∧ s.dec.canRender ∨ s.dec.scan.mode = .acFirst) →
    s.dec.inPlane b.sc.ci b.row b.col 0 = true → k = s.dec.prog.k + r.toNat →
    (s.dec.lastK < k → exec (.acRunSize r sz) s = .next (s.takeError (.corrupt .huffAcIndex))) ∧
    (∀ x rd, k ≤ s.dec.lastK → receive v s.dec.more sz.toNat s.dec.rd = .ok (x, rd) →
      ∃ u, exec (.acRunSize r sz) s = .next u ∧
        s.indexEnd
          (s.dec.withCell rd b.sc.ci b.row b.col (zz k)
            (wrap16 (extend x sz.toNat * if s.dec.scan.mode = .seq then 1 else 2 ^ s.dec.scan.al))) (k + 1) u)

/-- R201, R204, and R209, R210, R370, R374 through `State.blockEnd`: EOB, ZRL and EOBn in a sequential or an AC-first scan. EOB ends the block and leaves EOBRUN 0; ZRL moves the
index by 16, and past the band raises HUFF_AC_INDEX; neither reads a bit nor writes a cell. EOBn in an AC-first scan sets
EOBRUN to 2^r + RECEIVE(r) - 1 and ends the block; in a sequential scan it raises HUFF_AC_SYMBOL. A block that begins inside
an EOB run of an AC-first scan reads nothing: the step takes 1 from EOBRUN and ends the block. -/
def Obligations.EndOfBlockAndRuns : Prop :=
  (∀ (s : State) (v : List Byte) (b : BlockRef),
    s.currentBlock = some (v, b) → (s.dec.scan.mode = .seq ∧ s.dec.canRender ∨ s.dec.scan.mode = .acFirst) →
    (∃ u, exec .acEob s = .next u ∧
      s.blockEnd
        (if s.dec.scan.mode = .seq then s.dec else { s.dec with scan := { s.dec.scan with eobrun := 0 } }) u) ∧
    (s.dec.prog.k + 16 ≤ s.dec.lastK + 1 →
      ∃ u, exec .acZrl s = .next u ∧ s.indexEnd s.dec (s.dec.prog.k + 16) u) ∧
    (s.dec.lastK + 1 < s.dec.prog.k + 16 → exec .acZrl s = .next (s.takeError (.corrupt .huffAcIndex)))) ∧
  (∀ (r : BitVec 4) (s : State) (v : List Byte) (b : BlockRef), s.currentBlock = some (v, b) →
    (s.dec.scan.mode = .seq → exec (.acEobRun r) s = .next (s.takeError (.corrupt .huffAcSymbol))) ∧
    (∀ x rd, s.dec.scan.mode = .acFirst → receive v s.dec.more r.toNat s.dec.rd = .ok (x, rd) →
      ∃ u, exec (.acEobRun r) s = .next u ∧
        s.blockEnd
          { s.dec.withRd rd with
            scan := { s.dec.scan with eobrun := BitVec.ofNat 16 (2 ^ r.toNat + x - 1) } } u)) ∧
  (∀ (s : State) (v : List Byte) (b : BlockRef), s.currentBlock = some (v, b) → s.dec.scan.mode = .acFirst →
    s.dec.prog.k = 0 → 0 < s.dec.scan.eobrun.toNat →
    ∃ u, step s = .next u ∧
      s.blockEnd { s.dec with scan := { s.dec.scan with eobrun := s.dec.scan.eobrun - 1 } } u)

/-- R205, and R209, R210, R374 through `State.blockEnd`: the symbols of a refinement scan. EOB and EOBn set EOBRUN to 2^r + RECEIVE(r), read the correction bits of the
rest of the band, and the run counts this block. A run of zero-history cells finds its target cell: ZRL leaves it 0, a
category-1 symbol writes +2^Al or -2^Al there by the bit that follows it; any other category raises HUFF_AC_SYMBOL. With too
few zero cells left in the band for the run to reach a target, HUFF_AC_INDEX is raised once the correction bits before the
band's end are read. A block that begins inside an EOB run reads the correction bits of its band from Ss on, and the step
takes 1 from EOBRUN and ends the block; where the bits are not all there the step suspends or raises as
the bit reader does. What `refineRest` and `refineSkip` do is CorrectionBits' own statement. -/
def Obligations.RefinementSymbols : Prop :=
  (∀ (r : BitVec 4) (s : State) (v : List Byte) (b : BlockRef) (x : Nat) (rd : Rd) (d : Dec),
    s.currentBlock = some (v, b) → s.dec.scan.mode = .acRefine →
    receive v s.dec.more r.toNat s.dec.rd = .ok (x, rd) →
    Dec.refineRest v b (s.dec.scan.se + 1 - s.dec.prog.k) s.dec.prog.k (s.dec.withRd rd) = .ok d →
    ∃ u, (if r = 0 then exec .acEob s else exec (.acEobRun r) s) = .next u ∧
      s.blockEnd
        { d with scan := { s.dec.scan with eobrun := BitVec.ofNat 16 (2 ^ r.toNat + x) - 1 } } u) ∧
  (∀ (s : State) (v : List Byte) (b : BlockRef), s.currentBlock = some (v, b) → s.dec.scan.mode = .acRefine →
    (∀ r sz : BitVec 4, sz ≠ 1 → exec (.acRunSize r sz) s = .next (s.takeError (.corrupt .huffAcSymbol))) ∧
    (∀ k d, Dec.refineSkip v b (s.dec.scan.se + 1 - s.dec.prog.k) s.dec.prog.k 15 s.dec = .ok (k, d) →
      ∃ u, exec .acZrl s = .next u ∧ s.indexEnd d (k + 1) u) ∧
    (∀ (r : BitVec 4) (bit : Bool) (rd : Rd) (k : Nat) (d : Dec), nextBit v s.dec.more s.dec.rd = .ok (bit, rd) →
      Dec.refineSkip v b (s.dec.scan.se + 1 - s.dec.prog.k) s.dec.prog.k r.toNat (s.dec.withRd rd) = .ok (k, d) →
      ∃ u, exec (.acRunSize r 1) s = .next u ∧
        s.indexEnd
          (d.withCell d.rd b.sc.ci b.row b.col (zz k) (wrap16 (if bit then 2 ^ s.dec.scan.al else -2 ^ s.dec.scan.al)))
          (k + 1) u)) ∧
  (∀ (s : State) (v : List Byte) (b : BlockRef) (left : Nat), s.currentBlock = some (v, b) →
    s.dec.scan.mode = .acRefine → s.dec.planes.mem.wf = true → s.dec.scan.se < 64 →
    s.dec.inPlane b.sc.ci b.row b.col 0 = true → left = s.dec.scan.se + 1 - s.dec.prog.k →
    (∀ bs r, (s.dec.band b true s.dec.prog.k left).length ≤ 15 →
      readBits v s.dec.more (s.dec.band b false s.dec.prog.k left).length s.dec.rd = .ok (bs, r) →
      exec .acZrl s = .next (s.takeError (.corrupt .huffAcIndex))) ∧
    (∀ (run : BitVec 4) (bit : Bool) (rd : Rd) (bs : List Bool) (r : Rd),
      (s.dec.band b true s.dec.prog.k left).length ≤ run.toNat → nextBit v s.dec.more s.dec.rd = .ok (bit, rd) →
      readBits v s.dec.more (s.dec.band b false s.dec.prog.k left).length rd = .ok (bs, r) →
      exec (.acRunSize run 1) s = .next (s.takeError (.corrupt .huffAcIndex)))) ∧
  (∀ (s : State) (v : List Byte) (b : BlockRef), s.currentBlock = some (v, b) → s.dec.scan.mode = .acRefine →
    s.dec.prog.k = 0 → 0 < s.dec.scan.eobrun.toNat →
    (∀ d, Dec.refineRest v b (s.dec.scan.se + 1 - s.dec.scan.ss) s.dec.scan.ss s.dec = .ok d →
      ∃ u, step s = .next u ∧
        s.blockEnd { d with scan := { s.dec.scan with eobrun := s.dec.scan.eobrun - 1 } } u) ∧
    (s.snap = none → Dec.refineRest v b (s.dec.scan.se + 1 - s.dec.scan.ss) s.dec.scan.ss s.dec = .error .suspend →
      step s = .next (s.starved v)) ∧
    (∀ e, Dec.refineRest v b (s.dec.scan.se + 1 - s.dec.scan.ss) s.dec.scan.ss s.dec = .error (.raise e) →
      step s = .next (s.takeError e)))

/-- R205, CORRECT and the loops around it. Over the rest of a band one bit is read for each non-zero cell, in increasing
index; a bit 1 on a cell whose bit Al is 0 moves it by 2^Al away from zero, and nothing else changes; where the bits end,
the pass ends as the bit reader does. A run of `r` finds as its target the zero cell after exactly `r` zero cells, reading
the correction bits of the non-zero cells before it; with at most `r` zero cells left in the band it raises HUFF_AC_INDEX.
Whatever the state, a pass leaves every zero cell 0 and every byte outside the block as it was, and changes a non-zero cell
only by 2^Al away from zero, and only where bit Al of the cell was 0. -/
def Obligations.CorrectionBits : Prop :=
  (∀ (v : List Byte) (b : BlockRef) (n k : Nat) (d : Dec), d.planes.mem.wf = true → k + n ≤ 64 →
    d.inPlane b.sc.ci b.row b.col 0 = true →
    (∀ bs r, readBits v d.more (d.band b false k n).length d.rd = .ok (bs, r) →
      ∃ d', Dec.refineRest v b n k d = .ok d' ∧ d.Corrected b (d.band b false k n) bs r d') ∧
    (∀ e, readBits v d.more (d.band b false k n).length d.rd = .error e → Dec.refineRest v b n k d = .error e) ∧
    (∀ run t bs r, k ≤ t → t < k + n → d.cell b.sc.ci b.row b.col (zz t) = 0 →
      (d.band b true k (t - k)).length = run →
      readBits v d.more (d.band b false k (t - k)).length d.rd = .ok (bs, r) →
      ∃ d', Dec.refineSkip v b n k run d = .ok (t, d') ∧ d.Corrected b (d.band b false k (t - k)) bs r d') ∧
    (∀ run bs r, (d.band b true k n).length ≤ run →
      readBits v d.more (d.band b false k n).length d.rd = .ok (bs, r) →
      Dec.refineSkip v b n k run d = raise .huffAcIndex)) ∧
  (∀ (v : List Byte) (b : BlockRef) (n k : Nat) (d d' : Dec), d.planes.mem.wf = true → k + n ≤ 64 →
    Dec.refineRest v b n k d = .ok d' →
    (∀ a, a < d.cellAddr b.sc.ci b.row b.col 0 ∨ d.cellAddr b.sc.ci b.row b.col 0 + 128 ≤ a →
      d'.planes.mem.read a = d.planes.mem.read a) ∧
    (∀ m, m < 64 →
      d'.cell b.sc.ci b.row b.col m = d.cell b.sc.ci b.row b.col m ∨
      (d.cell b.sc.ci b.row b.col m ≠ 0 ∧ d.cell b.sc.ci b.row b.col m &&& wrap16 (2 ^ d.scan.al) = 0 ∧
        d'.cell b.sc.ci b.row b.col m =
          wrap16 ((d.cell b.sc.ci b.row b.col m).toInt +
            if 0 ≤ (d.cell b.sc.ci b.row b.col m).toInt then 2 ^ d.scan.al else -2 ^ d.scan.al))))

/-- The frame of every entropy symbol (R200 to R210), when it answers a next state in which the DECODE goes on: bytes of the
planes outside the symbol's block read as before; of the components only the predictor of a DC symbol's component may
change; of SCAN only the MCU counter, the restart countdown and EOBRUN. -/
def Obligations.SymbolFrame : Prop :=
  ∀ (i : Instr) (s t : State) (v : List Byte) (b : BlockRef), isSymbol i = true → s.dec.planes.mem.wf = true →
    s.currentBlock = some (v, b) → exec i s = .next t → t.view ≠ none →
    (∀ a, a < s.dec.cellAddr b.sc.ci b.row b.col 0 ∨ s.dec.cellAddr b.sc.ci b.row b.col 0 + 128 ≤ a →
      t.dec.planes.mem.read a = s.dec.planes.mem.read a) ∧
    t.dec.planes.allocated = s.dec.planes.allocated ∧
    (∀ j, t.dec.comp.get j = { s.dec.comp.get j with pred := (t.dec.comp.get j).pred }) ∧
    (∀ j, (j ≠ b.sc.ci ∨ ctxOf i ≠ .dcSymbol) → (t.dec.comp.get j).pred = (s.dec.comp.get j).pred) ∧
    t.dec.scan = { s.dec.scan with
      mcu := t.dec.scan.mcu, rstLeft := t.dec.scan.rstLeft, eobrun := t.dec.scan.eobrun } ∧
    t.dec.err = s.dec.err ∧ t.dec.more = s.dec.more ∧ t.dec.frame = s.dec.frame ∧ t.dec.qt = s.dec.qt ∧
    t.dec.htDc = s.dec.htDc ∧ t.dec.htAc = s.dec.htAc ∧ t.dec.ri = s.dec.ri ∧ t.dec.jfif = s.dec.jfif ∧
    t.dec.adobe = s.dec.adobe ∧ t.dec.icc = s.dec.icc ∧
    t.cfg = s.cfg ∧ t.view = s.view ∧ t.mq = s.mq ∧ t.enc = s.enc ∧ t.pk = s.pk ∧ t.results = s.results ∧
    t.hostq = s.hostq ∧ t.answers = s.answers ∧ t.reenters = s.reenters

/-- R171, R172, R173, R174, R401, R180. BUILD accepts 16 counts whose codes fit, an all-ones code among them, and gives the
canonical codes; it refuses every other counts. Of a table of canonical codes, reading the bits of symbol j's code with the
symbol decoder gives that symbol and takes exactly those bits: encoder and decoder agree on every code. -/
def Obligations.CodesDecodeToTheirSymbols : Prop :=
  (∀ bits vals : List Byte, bits.length = 16 → vals.length = (bits.map BitVec.toNat).sum →
    (codesFit bits → ∃ e, build bits vals = some e ∧ e.bits = bits ∧ e.huffval = vals ∧ e.Canonical) ∧
    (¬codesFit bits → build bits vals = none)) ∧
  (∀ (e : HEntry) (j code size : Nat) (sym : Byte) (v : List Byte) (more : Bool) (r r' : Rd), e.Canonical →
    e.huffcode[j]? = some code → e.huffsize[j]? = some size → e.huffval[j]? = some sym →
    receive v more size r = .ok (code, r') → decodeSym v more e r = .ok (sym, r'))

/-- R175, R176, R177 (R113): NEXTBIT takes the bits of a byte most significant first, fetching a byte only when none is
left: a byte that is not FF as it stands; FF 00, with any FF bytes before it as fill, as the data byte FF; FF and any other
code, the same fill before it, is ECS_MARKER; where the view ends first it suspends, or raises EOF. RECEIVE(s) is the first
s bits as a number, most significant first. -/
def Obligations.BitsAreRead : Prop :=
  (∀ (v : List Byte) (more : Bool) (cur n : Nat) (x : Byte),
    nextBit v more { cur := cur, bb := { val := x, cnt := n + 1 } } =
      .ok (x.getLsbD n, { cur := cur, bb := { val := x, cnt := n } })) ∧
  (∀ (v rest : List Byte) (more : Bool) (cur n : Nat) (old x : Byte),
    (v.drop cur = x :: rest → x ≠ 0xFF →
      nextBit v more { cur := cur, bb := { val := old, cnt := 0 } } =
        .ok (x.msb, { cur := cur + 1, bb := { val := x, cnt := 7 } })) ∧
    (v.drop cur = List.replicate (n + 1) 0xFF ++ 0x00 :: rest →
      nextBit v more { cur := cur, bb := { val := old, cnt := 0 } } =
        .ok (true, { cur := cur + (n + 2), bb := { val := 0xFF, cnt := 7 } })) ∧
    (v.drop cur = List.replicate (n + 1) 0xFF ++ x :: rest → x ≠ 0xFF → x ≠ 0x00 →
      nextBit v more { cur := cur, bb := { val := old, cnt := 0 } } = .error (.raise (.corrupt .ecsMarker))) ∧
    (v.drop cur = List.replicate n 0xFF →
      nextBit v more { cur := cur, bb := { val := old, cnt := 0 } } =
        .error (if more then .suspend else .raise (.corrupt .eof)))) ∧
  (∀ (v : List Byte) (more : Bool) (s : Nat) (r : Rd),
    (∀ bs r', readBits v more s r = .ok (bs, r') → receive v more s r = .ok (bitsValue bs, r')) ∧
    (∀ e, readBits v more s r = .error e → receive v more s r = .error e))

/-- R180, R181, R200, R202: a table of canonical codes, none of which begins the next 16 bits, gives HUFF_BAD_CODE; a step
that meets one raises it, at a DC symbol and at an AC symbol; and a DC symbol above 15 raises HUFF_DC_SIZE. -/
def Obligations.SymbolsRejected : Prop :=
  (∀ (bs : List Bool) (e : HEntry) (v : List Byte) (more : Bool) (r r' : Rd), e.Canonical →
    readBits v more 16 r = .ok (bs, r') →
    (∀ j code size : Nat, e.huffcode[j]? = some code → e.huffsize[j]? = some size → bitsValue (bs.take size) ≠ code) →
    decodeSym v more e r = .error (.raise (.corrupt .huffBadCode))) ∧
  (∀ (s : State) (v : List Byte) (b : BlockRef), s.currentBlock = some (v, b) →
    (s.dec.scan.mode = .seq ∧ s.dec.prog.k = 0 ∨ s.dec.scan.mode = .dcFirst) →
    (∀ sym r, decodeSym v s.dec.more (s.dec.htDc.get b.sc.td) s.dec.rd = .ok (sym, r) → 16 ≤ sym.toNat →
      step s = .next (s.takeError (.corrupt .huffDcSize))) ∧
    (decodeSym v s.dec.more (s.dec.htDc.get b.sc.td) s.dec.rd = .error (.raise (.corrupt .huffBadCode)) →
      step s = .next (s.takeError (.corrupt .huffBadCode)))) ∧
  (∀ (s : State) (v : List Byte) (b : BlockRef), s.currentBlock = some (v, b) →
    (s.dec.scan.mode = .seq ∧ s.dec.prog.k ≠ 0 ∨
      (s.dec.scan.mode = .acFirst ∨ s.dec.scan.mode = .acRefine) ∧
        (s.dec.prog.k = 0 ∧ s.dec.scan.eobrun = 0 ∧ s.dec.scan.ss ≤ s.dec.lastK ∨ s.dec.prog.k ≠ 0)) →
    s.dec.prog.k ≤ s.dec.lastK →
    decodeSym v s.dec.more (s.dec.htAc.get b.sc.ta) s.dec.rd = .error (.raise (.corrupt .huffBadCode)) →
    step s = .next (s.takeError (.corrupt .huffBadCode)))

/-! ## Transform -/

/-- R252(a), R255, R254, R258, R259, R261, R262. Every instance of IDCT_FN gives a flat block for a block whose AC
coefficients are all 0. IDCT_REF gives eight equal rows where only the coefficients 0..7 are not 0, and eight equal columns
where only the multiples of 8 are not. Sample (y, x) of IDCT_REF is the clamped 128 + r for an r no further from the inverse
DCT of the products than 1 and 2^-15 of the sum of their sizes (`dctAt` twice is 2^51 times the orthonormal basis).
Coefficient (v, u) of every instance of FDCT_FN is no further than 4 from 8 F, F being the DCT of the level-shifted samples,
and of FDCT_REF no further than 3. FDCT_ZZ_Q quantizes the coefficients and sends them in zig-zag order. -/
def Obligations.TransformsFollowTheDct : Prop :=
  (∀ (c : Choice) (blk q : List Half), (∀ n, 0 < n → n < 64 → blk.getD n 0 = 0) →
    idct c blk q =
      List.replicate 64 (clamp8 (((blk.getD 0 0).toInt * (q.getD 0 0).toNat + 4) / 8 + 128))) ∧
  (∀ (blk q : List Half) (y x : Nat), y < 8 → x < 8 →
    ((∀ n, 8 ≤ n → n < 64 → blk.getD n 0 = 0) → (idct .ref blk q)[8 * y + x]? = (idct .ref blk q)[x]?) ∧
    ((∀ n, n < 64 → n % 8 ≠ 0 → blk.getD n 0 = 0) → (idct .ref blk q)[8 * y + x]? = (idct .ref blk q)[8 * y]?)) ∧
  (∀ (blk q : List Half) (y x : Nat) (p : Nat → Int), y < 8 → x < 8 →
    (∀ n, p n = (blk.getD n 0).toInt * (q.getD n 0).toNat) →
    ∃ r : Int, (idct .ref blk q)[8 * y + x]? = some (BitVec.ofInt 8 (max 0 (min (r + 128) 255))) ∧
      (2 ^ 51 * r - ((List.range 64).map fun n => p n * dctAt (n / 8) y * dctAt (n % 8) x).sum).natAbs ≤
        2 ^ 51 + 2 ^ 36 * ((List.range 64).map fun n => (p n).natAbs).sum) ∧
  (∀ (c : Choice) (smp : List Byte) (v u : Nat) (f : Int), v < 8 → u < 8 →
    f = ((List.range 64).map fun n => ((smp.getD n 0).toNat - 128) * dctAt v (n / 8) * dctAt u (n % 8)).sum →
    ∃ g, (fdct c smp)[8 * v + u]? = some g ∧ (2 ^ 48 * g - f).natAbs ≤ 4 * 2 ^ 48 ∧
      (c = .ref → (2 ^ 48 * g - f).natAbs ≤ 3 * 2 ^ 48)) ∧
  (∀ (c : Choice) (smp q : List Byte) (k : Nat), k < 64 →
    (fdctZzQ c smp q)[k]? = some (quantOne ((fdct c smp).getD (zz k) 0) (q.getD (zz k) 0).toNat))

/-- R350 to R357, R360 to R367, R371, R358: what a rendered line shows. A line has X pixels, each with alpha FF and
the colour its tag gives. A YCbCr pixel is Y plus 1.402 Cr', Y minus 0.34414 Cb' minus 0.71414 Cr' and Y plus 1.772 Cb'
(Cr' = Cr - 128, Cb' = Cb - 128, the factors in 1/65536), each to the nearest integer and clamped. With
CMYK_REF each channel is its sample times K over 255 to nearest under an Adobe marker, else of what they lack of 255. A
full-resolution component shows at (x, y) its own sample: the IDCT of the block there with the component's table. With FANCY_REF a
component of half the width, or of half the height, is blended 3 to 1, and of half of both 9 to 3 to 3 to 1, with the
neighbours' samples, the edges replicated; at any other ratio the nearest sample is taken. Every instance of UPSAMPLE_MODE
keeps a constant plane constant. -/
def Obligations.PixelsRendered : Prop :=
  (∀ (d : Dec) (cfg : Config) (lo hi x y : Nat), lo ≤ y → y < hi → x < d.frame.x.toNat →
    ∃ (px : List Word) (c : Rgb), (d.lines cfg lo hi)[y - lo]? = some (.scanline y px) ∧ px.length = d.frame.x.toNat ∧
      (d.frame.cs ≠ .unknown → px[x]? = some ((0xFF : Byte) ++ c.r ++ c.g ++ c.b)) ∧
      ∀ u : Fin 4 → Byte, (∀ i, u i = BitVec.ofNat 8 (d.upsample cfg i x y)) →
        (d.frame.cs = .gray → c = ⟨u 0, u 0, u 0⟩) ∧
        (d.frame.cs = .rgb → c = ⟨u 0, u 1, u 2⟩) ∧
        (d.frame.cs = .ycbcr → c = ycbcrToRgb (d.upsample cfg 0 x y) (d.upsample cfg 1 x y) (d.upsample cfg 2 x y)) ∧
        (d.frame.cs = .cmyk → c = cmykToRgb cfg.cmyk (u 0) (u 1) (u 2) (u 3) d.adobe.present) ∧
        (d.frame.cs = .ycck →
          ∃ k, k = ycbcrToRgb (d.upsample cfg 0 x y) (d.upsample cfg 1 x y) (d.upsample cfg 2 x y) ∧
            c = cmykToRgb cfg.cmyk k.r k.g k.b (u 3) true)) ∧
  (∀ y cb cr : Nat, y < 256 → cb < 256 → cr < 256 → ∃ r g b : Int,
    ycbcrToRgb y cb cr = ⟨clamp8 r, clamp8 g, clamp8 b⟩ ∧
    (65536 * (r - y) - 91881 * ((cr : Int) - 128)).natAbs ≤ 32768 ∧
    (65536 * (g - y) + 22554 * ((cb : Int) - 128) + 46802 * ((cr : Int) - 128)).natAbs ≤ 32768 ∧
    (65536 * (b - y) - 116130 * ((cb : Int) - 128)).natAbs ≤ 32768) ∧
  (∀ c m y k : Byte,
    cmykToRgb .ref c m y k true =
      ⟨BitVec.ofNat 8 ((c.toNat * k.toNat + 127) / 255), BitVec.ofNat 8 ((m.toNat * k.toNat + 127) / 255),
        BitVec.ofNat 8 ((y.toNat * k.toNat + 127) / 255)⟩ ∧
    cmykToRgb .ref c m y k false =
      ⟨BitVec.ofNat 8 (((255 - c.toNat) * (255 - k.toNat) + 127) / 255),
        BitVec.ofNat 8 (((255 - m.toNat) * (255 - k.toNat) + 127) / 255),
        BitVec.ofNat 8 (((255 - y.toNat) * (255 - k.toNat) + 127) / 255)⟩) ∧
  (∀ (d : Dec) (cfg : Config) (i : Fin 4) (c : Comp) (q : List Half) (x y : Nat) (e : Int → Int → Nat),
    c = d.comp.get i → 1 ≤ d.wc c → 1 ≤ d.hc c →
    q = (if (d.qt.get c.tq).isDefined then (d.qt.get c.tq).q else List.replicate 64 1) →
    (∀ px py : Nat, px < d.wc c → py < d.hc c →
      e px py = ((idct cfg.idct ((List.range 64).map fun n => d.cell i (py / 8) (px / 8) n) q).getD
        (py % 8 * 8 + px % 8) 0).toNat) →
    (∀ px py : Int, e px py = e (max 0 (min px (d.wc c - 1))) (max 0 (min py (d.hc c - 1)))) →
    (c.h = d.hmax → c.v = d.vmax → d.upsample cfg i x y = e x y) ∧
    (cfg.upsample = .ref → d.hmax = 2 * c.h → d.vmax = c.v → 1 ≤ c.h → ∀ j : Int, j = (x / 2 : Nat) →
      d.upsample cfg i x y = if x % 2 = 0 then (3 * e j y + e (j - 1) y + 1) / 4 else (3 * e j y + e (j + 1) y + 2) / 4) ∧
    (cfg.upsample = .ref → d.hmax = c.h → d.vmax = 2 * c.v → 1 ≤ c.v → ∀ r : Int, r = (y / 2 : Nat) →
      d.upsample cfg i x y = if y % 2 = 0 then (3 * e x r + e x (r - 1) + 1) / 4 else (3 * e x r + e x (r + 1) + 2) / 4) ∧
    (cfg.upsample = .ref → d.hmax = 2 * c.h → d.vmax = 2 * c.v → 1 ≤ c.h → 1 ≤ c.v →
      ∀ j r near far : Int, j = (x / 2 : Nat) → r = (y / 2 : Nat) →
      far = (if y % 2 = 0 then r - 1 else r + 1) → near = (if x % 2 = 0 then j - 1 else j + 1) →
      d.upsample cfg i x y =
        (9 * e j r + 3 * e j far + 3 * e near r + e near far + if x % 2 = 0 then 8 else 7) / 16) ∧
    (cfg.upsample = .ref → ¬((d.hmax = c.h ∨ d.hmax = 2 * c.h) ∧ (d.vmax = c.v ∨ d.vmax = 2 * c.v)) →
      d.upsample cfg i x y = e ((x * c.h / d.hmax : Nat) : Int) ((y * c.v / d.vmax : Nat) : Int)) ∧
    (∀ k : Nat, (∀ px py : Int, e px py = k) → d.upsample cfg i x y = k))

/-- R260: quantization is to nearest, ties away from zero, for each of the 64 coefficients. -/
def Obligations.QuantizeNearest : Prop :=
  (∀ (f8 : List Int) (q : List Byte) (n : Nat), n < 64 →
    (quantize f8 q)[n]? = some (quantOne (f8.getD n 0) (q.getD n 0).toNat)) ∧
  (∀ (f : Int) (q : Nat), 1 ≤ q →
    (0 ≤ f → 8 * q * quantOne f q ≤ f + 4 * q ∧ f + 4 * q < 8 * q * (quantOne f q + 1)) ∧
    quantOne (-f) q = -quantOne f q)

/-! ## The MQ engine -/

/-- R233, R234, R238: MQ_INITDEC takes the segment and starts the code register; MQ_RESETCTX puts every context at its
MQ_INIT value. Neither touches the other's registers. -/
def Obligations.MqInitAndReset : Prop :=
  ∀ (s : State) (seg : List Byte) (b0 b1 : Byte), s.view = none → s.cfg.arithPresent = true →
    b0 = seg.getD 0 0xFF → b1 = seg.getD 1 0xFF →
    exec (.mqInitDec seg) s =
      .next { s with
        results := s.results ++ [(.mqInitDec, .ok)]
        mq := { seg := seg, a := 0x8000, cx := s.mq.cx
                bp := if b0 = 0xFF ∧ 0x8F < b1.toNat then 0 else 1
                ct := if b0 = 0xFF ∧ b1.toNat ≤ 0x8F then 0 else 1
                c := BitVec.ofNat 32
                  ((b0.toNat * 2 ^ 16 +
                    (if b0 = 0xFF then (if 0x8F < b1.toNat then 0xFF00 else b1.toNat * 2 ^ 9) else b1.toNat * 2 ^ 8)) *
                    2 ^ 7) } } ∧
    exec .mqResetCtx s =
      .next { s with
        results := s.results ++ [(.mqResetCtx, .ok)]
        mq := { s.mq with cx := (List.range s.cfg.nCx).map fun n => s.cfg.mqInit.getD n { i := 0, mps := false } } }

/-- R234, R235, R236, R237, R239(b): MQ_DECODE of a context answers a decision, by the interval's comparison with Qe and the
conditional exchange. Where bit 15 of A stays set, only A and C change. On the other paths the exchange sets A to Qe (LPS)
or leaves A - Qe (MPS, C less Qe then), the context decoded takes its ROM row's next state, and RENORMD follows: A and C are
doubled and CT goes down until bit 15 of A is set, a byte coming in where CT is 0. -/
def Obligations.MqDecodes : Prop :=
  ∀ (s : State) (cx : Nat) (c : Ctx) (q : QeRow) (a1 : Half) (c1 : Word) (asMps asLps : List Ctx), s.view = none →
    s.cfg.arithPresent = true → s.MqInv → s.mq.cx[cx]? = some c → qeRom[c.i]? = some q →
    a1 = s.mq.a - BitVec.ofNat 16 q.qe → c1 = s.mq.c - BitVec.ofNat 32 (q.qe * 2 ^ 16) →
    asMps = s.mq.cx.set cx { c with i := q.nmps } → asLps = s.mq.cx.set cx { i := q.nlps, mps := c.mps ^^ q.sw } →
    ∃ d m, exec (.mqDecode cx) s = .next { s with mq := m, results := s.results ++ [(.mqDecode, .okBit d)] } ∧
      m.seg = s.mq.seg ∧ 0x8000 ≤ m.a.toNat ∧ m.ct ≤ 8 ∧
      (if s.mq.c.toNat / 2 ^ 16 < q.qe then
        (if a1.toNat < q.qe then d = c.mps ∧ MqRenormed { s.mq with a := BitVec.ofNat 16 q.qe, cx := asMps } m
         else d = !c.mps ∧ MqRenormed { s.mq with a := BitVec.ofNat 16 q.qe, cx := asLps } m)
      else if 0x8000 ≤ a1.toNat then d = c.mps ∧ m = { s.mq with a := a1, c := c1 }
      else if a1.toNat < q.qe then d = !c.mps ∧ MqRenormed { s.mq with a := a1, c := c1, cx := asLps } m
      else d = c.mps ∧ MqRenormed { s.mq with a := a1, c := c1, cx := asMps } m)

/-! ## The encoder -/

/-- R393, R394, R395: ENC_INIT with a legal size opens the encoder: tables scaled by the quality, 623 header bytes appended,
every other register of the encoder cleared. The header is R395's segments in order: SOI, the JFIF APP0, the two tables in
zig-zag order, the four Huffman tables of R400, SOF0 with the height and the width, and SOS. The bytes of the run (R489)
begin with the header (the marks of the run are the model's, log 27). -/
def Obligations.EncoderOpens : Prop :=
  ∀ (s : State) (quality : Int) (w h q scale : Nat) (ql qc zl zc hdr : List Byte), s.view = none → s.enc.isOpen = false →
    1 ≤ w → w ≤ 65535 → 1 ≤ h → h ≤ 65535 → (q : Int) = max 1 (min quality 100) →
    scale = (if q < 50 then 5000 / q else 200 - 2 * q) →
    ql = baseL.map (fun b => BitVec.ofNat 8 (min (max ((b * scale + 50) / 100) 1) 255)) →
    qc = baseC.map (fun b => BitVec.ofNat 8 (min (max ((b * scale + 50) / 100) 1) 255)) →
    zl.length = 64 → zc.length = 64 → (∀ k, k < 64 → zl[k]? = ql[zz k]? ∧ zc[k]? = qc[zz k]?) →
    hdr = [0xFF, 0xD8,
        0xFF, 0xE0, 0x00, 0x10, 0x4A, 0x46, 0x49, 0x46, 0x00, 0x01, 0x01, 0x00, 0x00, 0x01, 0x00, 0x01, 0x00, 0x00] ++
      ([0xFF, 0xDB, 0x00, 0x43, 0x00] ++ zl) ++ ([0xFF, 0xDB, 0x00, 0x43, 0x01] ++ zc) ++
      ([0xFF, 0xC4, 0x00, 0x1F, 0x00] ++ dcLBits ++ dcLVals) ++ ([0xFF, 0xC4, 0x00, 0xB5, 0x10] ++ acLBits ++ acLVals) ++
      ([0xFF, 0xC4, 0x00, 0x1F, 0x01] ++ dcCBits ++ dcCVals) ++ ([0xFF, 0xC4, 0x00, 0xB5, 0x11] ++ acCBits ++ acCVals) ++
      [0xFF, 0xC0, 0x00, 0x11, 0x08, BitVec.ofNat 8 (h / 256), BitVec.ofNat 8 h, BitVec.ofNat 8 (w / 256), BitVec.ofNat 8 w,
        0x03, 0x01, 0x22, 0x00, 0x02, 0x11, 0x01, 0x03, 0x11, 0x01] ++
      [0xFF, 0xDA, 0x00, 0x0C, 0x03, 0x01, 0x00, 0x02, 0x11, 0x03, 0x11, 0x00, 0x3F, 0x00] →
    ∃ t, exec (.encInit quality w h) s = .next t ∧
      t = { s with
        results := s.results ++ [(.encInit, .ok)]
        pk := { acc := 0, cnt := 0, outq := s.pk.outq ++ hdr }
        enc := { isOpen := true, w := w, h := h, ql := ql, qc := qc
                 rows := 0, band := [], last := none, pred0 := 0, pred1 := 0, pred2 := 0
                 start := s.pk.outq.length, ended := false } } ∧
      hdr.length = 623 ∧ t.encObservation = (hdr, [.ok])

/-- R405, R406, R408, R410, R415, R414. A row that does not fill the band and is not the image's last is buffered, and no
byte is appended. A row that fills the band or is the last appends the bits of the band's blocks, MCU by MCU, each the code
of its DC difference and of its AC runs; the blocks are of the padded band's samples, edges replicated and chroma averaged
over four pixels. ENC_FINISH with rows missing acts as if the last row, or a black one, had been sent first; after the last
row it pads the partial byte with 1 bits, appends FF D9 and closes the encoder, whose run has then ended (R489). How
`Packer.putBit` gathers bits into bytes (R413) is EncoderBits' own statement. -/
def Obligations.EncoderRowsAndFinish : Prop :=
  (∀ (s : State) (row : List Word), s.view = none → s.enc.isOpen = true → row.length = s.enc.w →
    s.enc.rows ≠ s.enc.h → s.enc.band.length + 1 ≠ 16 → s.enc.rows + 1 ≠ s.enc.h →
    exec (.encScanline row) s =
      .next { s with
        results := s.results ++ [(.encScanline, .ok)]
        enc := { s.enc with band := s.enc.band ++ [row], last := some row, rows := s.enc.rows + 1 } }) ∧
  (∀ (s : State) (row : List Word) (e : Enc), s.view = none → s.enc.isOpen = true → row.length = s.enc.w →
    s.enc.rows ≠ s.enc.h → (s.enc.band.length + 1 = 16 ∨ s.enc.rows + 1 = s.enc.h) → s.EncInv →
    e = { s.enc with band := s.enc.band ++ [row] } →
    exec (.encScanline row) s =
      .next { s with
        results := s.results ++ [(.encScanline, .ok)]
        pk := (e.bandBits s.cfg).foldl Packer.putBit s.pk
        enc := { s.enc with
          band := [], last := some row, rows := s.enc.rows + 1
          pred0 := BitVec.ofInt 32 (e.dcAfter (e.bandBlocks s.cfg) 0)
          pred1 := BitVec.ofInt 32 (e.dcAfter (e.bandBlocks s.cfg) 1)
          pred2 := BitVec.ofInt 32 (e.dcAfter (e.bandBlocks s.cfg) 2) } }) ∧
  (∀ (e : Enc) (mx : Nat) (px : Nat → Nat → Word),
    (∀ r x, px r x = (e.band.getD (min r (e.band.length - 1)) []).getD (min x (e.w - 1)) 0) →
    ∃ y00 y01 y10 y11 cb cr,
      e.mcuBlocks mx = [(0, y00), (0, y01), (0, y10), (0, y11), (1, cb), (2, cr)] ∧
      ∀ r c, r < 8 → c < 8 →
        y00[8 * r + c]? = some (BitVec.ofInt 8 (lumaOf (px r (16 * mx + c)))) ∧
        y01[8 * r + c]? = some (BitVec.ofInt 8 (lumaOf (px r (16 * mx + 8 + c)))) ∧
        y10[8 * r + c]? = some (BitVec.ofInt 8 (lumaOf (px (8 + r) (16 * mx + c)))) ∧
        y11[8 * r + c]? = some (BitVec.ofInt 8 (lumaOf (px (8 + r) (16 * mx + 8 + c)))) ∧
        ∀ x, x = 16 * mx + 2 * c →
          cb[8 * r + c]? = some (BitVec.ofInt 8 ((cbOf (px (2 * r) x) + cbOf (px (2 * r) (x + 1)) +
            cbOf (px (2 * r + 1) x) + cbOf (px (2 * r + 1) (x + 1)) + 2) / 4)) ∧
          cr[8 * r + c]? = some (BitVec.ofInt 8 ((crOf (px (2 * r) x) + crOf (px (2 * r) (x + 1)) +
            crOf (px (2 * r + 1) x) + crOf (px (2 * r + 1) (x + 1)) + 2) / 4))) ∧
  (∀ (s u : State) (row : List Word), s.view = none → s.enc.isOpen = true → s.enc.rows < s.enc.h →
    row = s.enc.last.getD (List.replicate s.enc.w 0xFF000000) → row.length = s.enc.w →
    exec (.encScanline row) s = .next u → exec .encFinish s = exec .encFinish { u with results := s.results }) ∧
  (∀ s : State, s.view = none → s.enc.isOpen = true → s.enc.rows = s.enc.h →
    ∃ p, exec .encFinish s =
        .next { s with
          results := s.results ++ [(.encFinish, .ok)], enc := { s.enc with isOpen := false, ended := true }, pk := p } ∧
      (s.pk.cnt = 0 → p = { s.pk with outq := s.pk.outq ++ [0xFF, 0xD9] }) ∧
      (0 < s.pk.cnt → s.pk.cnt < 8 → ∀ (last : Byte),
        last = BitVec.ofNat 8 (s.pk.acc.toNat * 2 ^ (8 - s.pk.cnt) + (2 ^ (8 - s.pk.cnt) - 1)) →
        p = { acc := 0, cnt := 0
              outq := s.pk.outq ++ (if last = 0xFF then [0xFF, 0x00] else [last]) ++ [0xFF, 0xD9] }))

/-- R230, R235, R416, R449: the refusals, each of which changes nothing but the record of results. -/
def Obligations.RefusalsChangeNothing : Prop :=
  ∀ s : State, s.view = none →
    (s.cfg.arithPresent = false →
      (∀ v, exec (.mqInitDec v) s = .next { s with results := s.results ++ [(.mqInitDec, .unsupported)] }) ∧
      (∀ n, exec (.mqDecode n) s = .next { s with results := s.results ++ [(.mqDecode, .unsupported)] }) ∧
      exec .mqResetCtx s = .next { s with results := s.results ++ [(.mqResetCtx, .unsupported)] }) ∧
    (s.cfg.arithPresent = true →
      ∀ n, s.cfg.nCx ≤ n → exec (.mqDecode n) s = .next { s with results := s.results ++ [(.mqDecode, .badContext)] }) ∧
    (s.enc.isOpen = true →
      (∀ q w h, exec (.encInit q w h) s = .next { s with results := s.results ++ [(.encInit, .encErr .busy)] }) ∧
      (∀ row, row.length ≠ s.enc.w →
        exec (.encScanline row) s = .next { s with results := s.results ++ [(.encScanline, .encErr .rowLength)] }) ∧
      (∀ row, row.length = s.enc.w → s.enc.rows = s.enc.h →
        exec (.encScanline row) s = .next { s with results := s.results ++ [(.encScanline, .encErr .tooManyRows)] })) ∧
    (s.enc.isOpen = false →
      (∀ q w h, (w < 1 ∨ 65535 < w ∨ h < 1 ∨ 65535 < h) →
        exec (.encInit q w h) s = .next { s with results := s.results ++ [(.encInit, .encErr .badDimension)] }) ∧
      (∀ row, exec (.encScanline row) s = .next { s with results := s.results ++ [(.encScanline, .encErr .notOpen)] }) ∧
      exec .encFinish s = .next { s with results := s.results ++ [(.encFinish, .encErr .notOpen)] })

/-- R413, R411, R117. PUT_BITS(v, n) packs the n low bits of v one after the other, most significant first. Bits that do
not fill the partial byte stay in it, below those before them; 8 bits gathered are appended as one byte, most significant
first, with 00 after an FF, and the partial byte is then empty. EXTEND of the magnitude bits gives the value back. -/
def Obligations.EncoderBits : Prop :=
  (∀ (p : Packer) (v n : Nat), p.put v n = (lowBits v n).foldl Packer.putBit p) ∧
  (∀ (p : Packer) (bs : List Bool), p.cnt + bs.length < 8 →
    bs.foldl Packer.putBit p =
      { p with acc := BitVec.ofNat 8 (p.acc.toNat * 2 ^ bs.length + bitsValue bs), cnt := p.cnt + bs.length }) ∧
  (∀ (p : Packer) (bs : List Bool) (x : Byte), p.cnt < 8 → p.cnt + bs.length = 8 →
    x = BitVec.ofNat 8 (p.acc.toNat * 2 ^ bs.length + bitsValue bs) →
    bs.foldl Packer.putBit p =
      { acc := 0, cnt := 0, outq := p.outq ++ if x = 0xFF then [0xFF, 0x00] else [x] }) ∧
  (∀ (v : Int) (s : Nat), nbits v = s → mag v s < 2 ^ s ∧ extend (mag v s) s = v)

/-- R407: the encoder's colour conversion of a pixel of samples R, G and B (bits 23..16, 15..8 and 7..0): the three sums of
65536ths, rounded down after adding 32768 or 32767; it needs no clamp. -/
def Obligations.EncoderColour : Prop :=
  ∀ (w : Word) (r g b : Int), r = (w.toNat / 2 ^ 16 % 256 : Nat) → g = (w.toNat / 2 ^ 8 % 256 : Nat) →
    b = (w.toNat % 256 : Nat) →
    lumaOf w = (19595 * r + 38470 * g + 7471 * b + 32768) / 65536 ∧
    cbOf w = (-11059 * r - 21709 * g + 32768 * b + 128 * 65536 + 32767) / 65536 ∧
    crOf w = (32768 * r - 27439 * g - 5329 * b + 128 * 65536 + 32767) / 65536 ∧
    0 ≤ lumaOf w ∧ lumaOf w ≤ 255 ∧ 0 ≤ cbOf w ∧ cbOf w ≤ 255 ∧ 0 ≤ crOf w ∧ crOf w ≤ 255

/-! ## Invariants every step keeps, and what no instruction touches -/

/-- The planes' bytes stay in their canonical form (log 8). -/
def Obligations.MemoryStaysCanonical : Prop := ∀ s t : State, s.MemInv → step s = .next t → t.MemInv

/-- R12, R32, R140: the cursor never passes the view's end. -/
def Obligations.CursorStaysInView : Prop := ∀ s t : State, s.CursorInv → step s = .next t → t.CursorInv

/-- R33, R34, R44, R47, R280: STATE goes with FRAME.valid, the planes, SCAN.active and ERR, whatever the host sends. -/
def Obligations.PhaseIsKept : Prop := ∀ s t : State, s.PhaseInv → step s = .next t → t.PhaseInv

/-- R231, R239(b): the MQ engine's registers keep their ranges. -/
def Obligations.MqRangesAreKept : Prop := ∀ s t : State, s.MqInv → step s = .next t → t.MqInv

/-- R390, R396, R412, R258: in a sound encoder state every encoder command answers a next state, so that no coefficient
lacks a code and no table entry is 0, and the state after it is sound. For FDCT_REF R412 derives it; for another instance
it rests on the rounding the model allows an FDCT (log 20), and that the predictors do not wrap is log 19's. -/
def Obligations.EncoderNeverStops : Prop :=
  ∀ (i : Instr) (s : State), isEnc i = true → s.view = none → s.EncInv → ∃ t, exec i s = .next t ∧ t.EncInv

/-- R150(b), R150(c): Finished is the last event until RESET, and is never delivered by a run that ends in ERROR. -/
def Obligations.FinishedIsLast : Prop := ∀ s t : State, s.FinishedInv → step s = .next t → t.FinishedInv

/-- R230, R390, R444, R482(b): the decoder, the MQ engine and the encoder share no state, and no instruction changes the
parameters. -/
def Obligations.UnitsShareNoState : Prop :=
  ∀ (i : Instr) (s t : State), exec i s = .next t →
    t.cfg = s.cfg ∧
    (isMq i = true → t.dec = s.dec ∧ t.enc = s.enc ∧ t.pk = s.pk ∧ t.events = s.events) ∧
    (isEnc i = true → t.dec = s.dec ∧ t.mq = s.mq ∧ t.events = s.events) ∧
    (isMq i = false → isEnc i = false → i ≠ .reset → t.mq = s.mq ∧ t.enc = s.enc ∧ t.pk = s.pk)

end
end

