-- ==== Sys2Proof/Laws/Memory.lean ====
section
/-! SUPPORT. What each memory operation does: a read after a write, the canonical form kept, equal reads of canonical
memories mean equal memories. -/

namespace Sys2Proof.Machine

theorem Memory.wfFrom_cons {lo k : Nat} {w : Byte} {m : Memory} :
    Memory.wfFrom lo ((k, w) :: m) = true ↔ lo ≤ k ∧ w ≠ 0 ∧ Memory.wfFrom (k + 1) m = true := by
  simp [Memory.wfFrom, and_assoc]

theorem Memory.wfFrom_mono {lo lo' : Nat} {m : Memory} (h : Memory.wfFrom lo m = true) (hl : lo' ≤ lo) :
    Memory.wfFrom lo' m = true := by
  cases m with
  | nil => rfl
  | cons c m =>
    obtain ⟨k, w⟩ := c
    rw [Memory.wfFrom_cons] at h ⊢
    exact ⟨by omega, h.2⟩

/-- Below the first listed address everything reads 0. -/
theorem Memory.read_below {lo a : Nat} {m : Memory} (h : Memory.wfFrom lo m = true) (ha : a < lo) : m.read a = 0 := by
  cases m with
  | nil => rfl
  | cons c m =>
    obtain ⟨k, w⟩ := c
    rw [Memory.wfFrom_cons] at h
    simp only [Memory.read]
    rw [if_neg (by omega), if_pos (by omega)]

/-- A write that begins at or above `lo` keeps the form from `lo` on. -/
theorem Memory.write_wfFrom {m : Memory} {lo a : Nat} {v : Byte} (h : Memory.wfFrom lo m = true) (ha : lo ≤ a) :
    Memory.wfFrom lo (m.write a v) = true := by
  induction m generalizing lo with
  | nil =>
    simp only [Memory.write]
    split
    · rfl
    · exact Memory.wfFrom_cons.2 ⟨ha, ‹_›, rfl⟩
  | cons c m ih =>
    obtain ⟨k, w⟩ := c
    rw [Memory.wfFrom_cons] at h
    obtain ⟨h1, h2, h3⟩ := h
    simp only [Memory.write]
    split
    · split
      · exact Memory.wfFrom_cons.2 ⟨h1, h2, h3⟩
      · exact Memory.wfFrom_cons.2 ⟨ha, ‹_›, Memory.wfFrom_cons.2 ⟨by omega, h2, h3⟩⟩
    · split
      · split
        · exact Memory.wfFrom_mono h3 (by omega)
        · exact Memory.wfFrom_cons.2 ⟨ha, ‹_›, by subst a; exact h3⟩
      · exact Memory.wfFrom_cons.2 ⟨h1, h2, ih h3 (by omega)⟩

/-- A write keeps the canonical form. -/
theorem Memory.write_wf {m : Memory} {a : Nat} {v : Byte} (h : m.wf = true) : (m.write a v).wf = true :=
  Memory.write_wfFrom h (Nat.zero_le a)

/-- What a read gives after a write, from address `lo` on. -/
theorem Memory.read_write_from {m : Memory} {lo : Nat} (a b : Nat) (v : Byte) (h : Memory.wfFrom lo m = true) :
    (m.write a v).read b = if b = a then v else m.read b := by
  induction m generalizing lo with
  | nil =>
    by_cases hv : v = 0
    · simp [Memory.write, Memory.read, hv]
    · simp only [Memory.write, hv, if_false, Memory.read]
      split_ifs <;> rfl
  | cons c m ih =>
    obtain ⟨k, w⟩ := c
    obtain ⟨h1, h2, h3⟩ := Memory.wfFrom_cons.1 h
    have ih := ih h3
    have hb := fun hlt : b < k + 1 => Memory.read_below h3 hlt
    rcases Nat.lt_trichotomy a k with hak | hak | hak
    · by_cases hv : v = 0
      · subst hv
        simp only [Memory.write, hak, if_true, Memory.read]
        split_ifs <;> first | rfl | omega
      · simp only [Memory.write, hak, hv, if_true, if_false, Memory.read]
        split_ifs <;> first | rfl | omega
    · subst hak
      by_cases hv : v = 0
      · subst hv
        simp only [Memory.write, Nat.lt_irrefl, if_true, if_false, Memory.read]
        split_ifs <;> first | rfl | exact hb (by omega)
      · simp only [Memory.write, Nat.lt_irrefl, hv, if_true, if_false, Memory.read]
        split_ifs <;> rfl
    · rw [Memory.write, if_neg (by omega), if_neg (by omega)]
      simp only [Memory.read, ih]
      split_ifs <;> first | rfl | omega

/-- What a read gives after a write. -/
theorem Memory.read_write {m : Memory} (a b : Nat) (v : Byte) (h : m.wf = true) :
    (m.write a v).read b = if b = a then v else m.read b := Memory.read_write_from a b v h

/-- A write of a 16-bit cell keeps the canonical form. -/
theorem Memory.writeHalf_wf {m : Memory} {a : Nat} {v : Half} (h : m.wf = true) : (m.writeHalf a v).wf = true :=
  Memory.write_wf (Memory.write_wf h)

/-- What a byte read gives after a write of a 16-bit cell. -/
theorem Memory.read_writeHalf {m : Memory} (a b : Nat) (v : Half) (h : m.wf = true) :
    (m.writeHalf a v).read b =
      if b = a + 1 then v.extractLsb' 0 8 else if b = a then v.extractLsb' 8 8 else m.read b := by
  rw [Memory.writeHalf, Memory.read_write _ _ _ (Memory.write_wf h), Memory.read_write _ _ _ h]

theorem be16_extract (v : Half) : be16 (v.extractLsb' 8 8) (v.extractLsb' 0 8) = v := by
  unfold be16
  ext i hi
  simp only [BitVec.getElem_append, BitVec.getElem_extractLsb']
  split
  · simp [BitVec.getLsbD_eq_getElem hi]
  · rename_i h
    rw [show 8 + (i - 8) = i by omega]
    simp [BitVec.getLsbD_eq_getElem hi]

/-- A cell read after it is written gives the value written. -/
theorem Memory.readHalf_writeHalf {m : Memory} (a : Nat) (v : Half) (h : m.wf = true) :
    (m.writeHalf a v).readHalf a = v := by
  rw [Memory.readHalf, Memory.read_writeHalf _ _ _ h, Memory.read_writeHalf _ _ _ h]
  simp [be16_extract]

/-- A cell that lies apart from the one written reads as before. -/
theorem Memory.readHalf_writeHalf_other {m : Memory} {a b : Nat} {v : Half} (h : m.wf = true)
    (hab : b + 1 < a ∨ a + 1 < b) : (m.writeHalf a v).readHalf b = m.readHalf b := by
  simp only [Memory.readHalf, Memory.read_writeHalf _ _ _ h]
  rw [if_neg (by omega), if_neg (by omega), if_neg (by omega), if_neg (by omega)]

/-- Clearing keeps the form. -/
theorem Memory.clear_wfFrom {m : Memory} {lo : Nat} (x y : Nat) (h : Memory.wfFrom lo m = true) :
    Memory.wfFrom lo (m.clear x y) = true := by
  induction m generalizing lo with
  | nil => rfl
  | cons c m ih =>
    obtain ⟨k, w⟩ := c
    obtain ⟨h1, h2, h3⟩ := Memory.wfFrom_cons.1 h
    have ih := ih h3
    simp only [Memory.clear, List.filter_cons] at ih ⊢
    split
    · exact Memory.wfFrom_cons.2 ⟨h1, h2, ih⟩
    · exact Memory.wfFrom_mono ih (by omega)

/-- Clearing keeps the canonical form. -/
theorem Memory.clear_wf {m : Memory} (x y : Nat) (h : m.wf = true) : (m.clear x y).wf = true :=
  Memory.clear_wfFrom x y h

theorem Memory.read_clear_from {m : Memory} {lo : Nat} (x y a : Nat) (h : Memory.wfFrom lo m = true) :
    (m.clear x y).read a = if x ≤ a ∧ a < y then 0 else m.read a := by
  induction m generalizing lo with
  | nil => simp [Memory.clear, Memory.read]
  | cons c m ih =>
    obtain ⟨k, w⟩ := c
    obtain ⟨h1, h2, h3⟩ := Memory.wfFrom_cons.1 h
    have ih := ih h3
    have hb := fun hlt : a < k + 1 => Memory.read_below h3 hlt
    simp only [Memory.clear, List.filter_cons] at ih ⊢
    by_cases hk : x ≤ k ∧ k < y
    · rw [if_neg (by simp; omega), ih]
      split
      · rfl
      · simp only [Memory.read]
        rw [if_neg (by omega)]
        split
        · exact hb (by omega)
        · rfl
    · rw [if_pos (by simp; omega)]
      simp only [Memory.read, ih]
      split
      · rw [if_neg (by omega)]
      · split
        · simp
        · rfl

/-- What a read gives after a range is cleared. -/
theorem Memory.read_clear {m : Memory} (x y a : Nat) (h : m.wf = true) :
    (m.clear x y).read a = if x ≤ a ∧ a < y then 0 else m.read a := Memory.read_clear_from x y a h

theorem Memory.ext_from {m m' : Memory} {lo : Nat} (h : Memory.wfFrom lo m = true) (h' : Memory.wfFrom lo m' = true)
    (e : ∀ a, m.read a = m'.read a) : m = m' := by
  induction m generalizing m' lo with
  | nil =>
    cases m' with
    | nil => rfl
    | cons c m' =>
      obtain ⟨k, w⟩ := c
      obtain ⟨-, hw, -⟩ := Memory.wfFrom_cons.1 h'
      have := e k
      simp [Memory.read] at this
      exact absurd this.symm hw
  | cons c m ih =>
    obtain ⟨k, w⟩ := c
    obtain ⟨h1, hw, h3⟩ := Memory.wfFrom_cons.1 h
    cases m' with
    | nil =>
      have := e k
      simp [Memory.read] at this
      exact absurd this hw
    | cons c' m' =>
      obtain ⟨k', w'⟩ := c'
      obtain ⟨h1', hw', h3'⟩ := Memory.wfFrom_cons.1 h'
      have hk : k = k' := by
        by_contra hne
        rcases Nat.lt_or_gt_of_ne hne with hlt | hlt
        · have := e k
          simp only [Memory.read, if_true] at this
          rw [if_neg (by omega), if_pos (by omega)] at this
          exact hw this
        · have := e k'
          simp only [Memory.read, if_true] at this
          rw [if_neg (by omega), if_pos (by omega)] at this
          exact hw' this.symm
      subst hk
      have hww : w = w' := by simpa [Memory.read] using e k
      subst hww
      congr 1
      refine ih h3 h3' fun a => ?_
      by_cases ha : a < k + 1
      · rw [Memory.read_below h3 ha, Memory.read_below h3' ha]
      · have := e a
        simp only [Memory.read] at this
        rwa [if_neg (by omega), if_neg (by omega), if_neg (by omega), if_neg (by omega)] at this

/-- Canonical memories that read the same everywhere are the same data. -/
theorem Memory.ext {m m' : Memory} (h : m.wf = true) (h' : m'.wf = true) (e : ∀ a, m.read a = m'.read a) : m = m' :=
  Memory.ext_from h h' e

theorem Planes.free_wf : Planes.free.mem.wf = true := rfl

theorem Planes.zero_wf : Planes.zero.mem.wf = true := rfl

theorem State.reset_mem_wf : State.reset.dec.planes.mem.wf = true := rfl

end Sys2Proof.Machine
end

