-- ==== Sys2Proof/Laws/State.lean ====
section
/-! SUPPORT. One lemma per field per update of the state's records, each true by definition. -/

namespace Sys2Proof.Machine

/-! ### Dec.advance -/

@[simp] theorem Dec.advance_fsm (d : Dec) (n : Nat) : (d.advance n).fsm = d.fsm := rfl
@[simp] theorem Dec.advance_err (d : Dec) (n : Nat) : (d.advance n).err = d.err := rfl
@[simp] theorem Dec.advance_cur (d : Dec) (n : Nat) : (d.advance n).cur = d.cur + n := rfl
@[simp] theorem Dec.advance_more (d : Dec) (n : Nat) : (d.advance n).more = d.more := rfl
@[simp] theorem Dec.advance_frame (d : Dec) (n : Nat) : (d.advance n).frame = d.frame := rfl
@[simp] theorem Dec.advance_comp (d : Dec) (n : Nat) : (d.advance n).comp = d.comp := rfl
@[simp] theorem Dec.advance_qt (d : Dec) (n : Nat) : (d.advance n).qt = d.qt := rfl
@[simp] theorem Dec.advance_htDc (d : Dec) (n : Nat) : (d.advance n).htDc = d.htDc := rfl
@[simp] theorem Dec.advance_htAc (d : Dec) (n : Nat) : (d.advance n).htAc = d.htAc := rfl
@[simp] theorem Dec.advance_ri (d : Dec) (n : Nat) : (d.advance n).ri = d.ri := rfl
@[simp] theorem Dec.advance_jfif (d : Dec) (n : Nat) : (d.advance n).jfif = d.jfif := rfl
@[simp] theorem Dec.advance_adobe (d : Dec) (n : Nat) : (d.advance n).adobe = d.adobe := rfl
@[simp] theorem Dec.advance_scan (d : Dec) (n : Nat) : (d.advance n).scan = d.scan := rfl
@[simp] theorem Dec.advance_bb (d : Dec) (n : Nat) : (d.advance n).bb = d.bb := rfl
@[simp] theorem Dec.advance_planes (d : Dec) (n : Nat) : (d.advance n).planes = d.planes := rfl
@[simp] theorem Dec.advance_out (d : Dec) (n : Nat) : (d.advance n).out = d.out := rfl
@[simp] theorem Dec.advance_flush (d : Dec) (n : Nat) : (d.advance n).flush = d.flush := rfl
@[simp] theorem Dec.advance_icc (d : Dec) (n : Nat) : (d.advance n).icc = d.icc := rfl
@[simp] theorem Dec.advance_prog (d : Dec) (n : Nat) : (d.advance n).prog = d.prog := rfl

/-! ### Dec.withRd -/

@[simp] theorem Dec.withRd_fsm (d : Dec) (r : Rd) : (d.withRd r).fsm = d.fsm := rfl
@[simp] theorem Dec.withRd_err (d : Dec) (r : Rd) : (d.withRd r).err = d.err := rfl
@[simp] theorem Dec.withRd_cur (d : Dec) (r : Rd) : (d.withRd r).cur = r.cur := rfl
@[simp] theorem Dec.withRd_more (d : Dec) (r : Rd) : (d.withRd r).more = d.more := rfl
@[simp] theorem Dec.withRd_frame (d : Dec) (r : Rd) : (d.withRd r).frame = d.frame := rfl
@[simp] theorem Dec.withRd_comp (d : Dec) (r : Rd) : (d.withRd r).comp = d.comp := rfl
@[simp] theorem Dec.withRd_qt (d : Dec) (r : Rd) : (d.withRd r).qt = d.qt := rfl
@[simp] theorem Dec.withRd_htDc (d : Dec) (r : Rd) : (d.withRd r).htDc = d.htDc := rfl
@[simp] theorem Dec.withRd_htAc (d : Dec) (r : Rd) : (d.withRd r).htAc = d.htAc := rfl
@[simp] theorem Dec.withRd_ri (d : Dec) (r : Rd) : (d.withRd r).ri = d.ri := rfl
@[simp] theorem Dec.withRd_jfif (d : Dec) (r : Rd) : (d.withRd r).jfif = d.jfif := rfl
@[simp] theorem Dec.withRd_adobe (d : Dec) (r : Rd) : (d.withRd r).adobe = d.adobe := rfl
@[simp] theorem Dec.withRd_scan (d : Dec) (r : Rd) : (d.withRd r).scan = d.scan := rfl
@[simp] theorem Dec.withRd_bb (d : Dec) (r : Rd) : (d.withRd r).bb = r.bb := rfl
@[simp] theorem Dec.withRd_planes (d : Dec) (r : Rd) : (d.withRd r).planes = d.planes := rfl
@[simp] theorem Dec.withRd_out (d : Dec) (r : Rd) : (d.withRd r).out = d.out := rfl
@[simp] theorem Dec.withRd_flush (d : Dec) (r : Rd) : (d.withRd r).flush = d.flush := rfl
@[simp] theorem Dec.withRd_icc (d : Dec) (r : Rd) : (d.withRd r).icc = d.icc := rfl
@[simp] theorem Dec.withRd_prog (d : Dec) (r : Rd) : (d.withRd r).prog = d.prog := rfl

/-! ### Dec.withPred -/

@[simp] theorem Dec.withPred_fsm (d : Dec) (i : Fin 4) (v : Half) : (d.withPred i v).fsm = d.fsm := rfl
@[simp] theorem Dec.withPred_err (d : Dec) (i : Fin 4) (v : Half) : (d.withPred i v).err = d.err := rfl
@[simp] theorem Dec.withPred_cur (d : Dec) (i : Fin 4) (v : Half) : (d.withPred i v).cur = d.cur := rfl
@[simp] theorem Dec.withPred_more (d : Dec) (i : Fin 4) (v : Half) : (d.withPred i v).more = d.more := rfl
@[simp] theorem Dec.withPred_frame (d : Dec) (i : Fin 4) (v : Half) : (d.withPred i v).frame = d.frame := rfl
@[simp] theorem Dec.withPred_comp (d : Dec) (i : Fin 4) (v : Half) : (d.withPred i v).comp = d.comp.set i { d.comp.get i with pred := v } := rfl
@[simp] theorem Dec.withPred_qt (d : Dec) (i : Fin 4) (v : Half) : (d.withPred i v).qt = d.qt := rfl
@[simp] theorem Dec.withPred_htDc (d : Dec) (i : Fin 4) (v : Half) : (d.withPred i v).htDc = d.htDc := rfl
@[simp] theorem Dec.withPred_htAc (d : Dec) (i : Fin 4) (v : Half) : (d.withPred i v).htAc = d.htAc := rfl
@[simp] theorem Dec.withPred_ri (d : Dec) (i : Fin 4) (v : Half) : (d.withPred i v).ri = d.ri := rfl
@[simp] theorem Dec.withPred_jfif (d : Dec) (i : Fin 4) (v : Half) : (d.withPred i v).jfif = d.jfif := rfl
@[simp] theorem Dec.withPred_adobe (d : Dec) (i : Fin 4) (v : Half) : (d.withPred i v).adobe = d.adobe := rfl
@[simp] theorem Dec.withPred_scan (d : Dec) (i : Fin 4) (v : Half) : (d.withPred i v).scan = d.scan := rfl
@[simp] theorem Dec.withPred_bb (d : Dec) (i : Fin 4) (v : Half) : (d.withPred i v).bb = d.bb := rfl
@[simp] theorem Dec.withPred_planes (d : Dec) (i : Fin 4) (v : Half) : (d.withPred i v).planes = d.planes := rfl
@[simp] theorem Dec.withPred_out (d : Dec) (i : Fin 4) (v : Half) : (d.withPred i v).out = d.out := rfl
@[simp] theorem Dec.withPred_flush (d : Dec) (i : Fin 4) (v : Half) : (d.withPred i v).flush = d.flush := rfl
@[simp] theorem Dec.withPred_icc (d : Dec) (i : Fin 4) (v : Half) : (d.withPred i v).icc = d.icc := rfl
@[simp] theorem Dec.withPred_prog (d : Dec) (i : Fin 4) (v : Half) : (d.withPred i v).prog = d.prog := rfl

/-! ### Dec.withEobrun -/

@[simp] theorem Dec.withEobrun_fsm (d : Dec) (v : Half) : (d.withEobrun v).fsm = d.fsm := rfl
@[simp] theorem Dec.withEobrun_err (d : Dec) (v : Half) : (d.withEobrun v).err = d.err := rfl
@[simp] theorem Dec.withEobrun_cur (d : Dec) (v : Half) : (d.withEobrun v).cur = d.cur := rfl
@[simp] theorem Dec.withEobrun_more (d : Dec) (v : Half) : (d.withEobrun v).more = d.more := rfl
@[simp] theorem Dec.withEobrun_frame (d : Dec) (v : Half) : (d.withEobrun v).frame = d.frame := rfl
@[simp] theorem Dec.withEobrun_comp (d : Dec) (v : Half) : (d.withEobrun v).comp = d.comp := rfl
@[simp] theorem Dec.withEobrun_qt (d : Dec) (v : Half) : (d.withEobrun v).qt = d.qt := rfl
@[simp] theorem Dec.withEobrun_htDc (d : Dec) (v : Half) : (d.withEobrun v).htDc = d.htDc := rfl
@[simp] theorem Dec.withEobrun_htAc (d : Dec) (v : Half) : (d.withEobrun v).htAc = d.htAc := rfl
@[simp] theorem Dec.withEobrun_ri (d : Dec) (v : Half) : (d.withEobrun v).ri = d.ri := rfl
@[simp] theorem Dec.withEobrun_jfif (d : Dec) (v : Half) : (d.withEobrun v).jfif = d.jfif := rfl
@[simp] theorem Dec.withEobrun_adobe (d : Dec) (v : Half) : (d.withEobrun v).adobe = d.adobe := rfl
@[simp] theorem Dec.withEobrun_scan (d : Dec) (v : Half) : (d.withEobrun v).scan = { d.scan with eobrun := v } := rfl
@[simp] theorem Dec.withEobrun_bb (d : Dec) (v : Half) : (d.withEobrun v).bb = d.bb := rfl
@[simp] theorem Dec.withEobrun_planes (d : Dec) (v : Half) : (d.withEobrun v).planes = d.planes := rfl
@[simp] theorem Dec.withEobrun_out (d : Dec) (v : Half) : (d.withEobrun v).out = d.out := rfl
@[simp] theorem Dec.withEobrun_flush (d : Dec) (v : Half) : (d.withEobrun v).flush = d.flush := rfl
@[simp] theorem Dec.withEobrun_icc (d : Dec) (v : Half) : (d.withEobrun v).icc = d.icc := rfl
@[simp] theorem Dec.withEobrun_prog (d : Dec) (v : Half) : (d.withEobrun v).prog = d.prog := rfl

/-! ### Dec.enterError -/

@[simp] theorem Dec.enterError_fsm (d : Dec) (e : Err) : (d.enterError e).fsm = .error := rfl
@[simp] theorem Dec.enterError_err (d : Dec) (e : Err) : (d.enterError e).err = some e := rfl
@[simp] theorem Dec.enterError_cur (d : Dec) (e : Err) : (d.enterError e).cur = d.cur := rfl
@[simp] theorem Dec.enterError_more (d : Dec) (e : Err) : (d.enterError e).more = d.more := rfl
@[simp] theorem Dec.enterError_frame (d : Dec) (e : Err) : (d.enterError e).frame = { d.frame with valid := false } := rfl
@[simp] theorem Dec.enterError_comp (d : Dec) (e : Err) : (d.enterError e).comp = d.comp := rfl
@[simp] theorem Dec.enterError_qt (d : Dec) (e : Err) : (d.enterError e).qt = d.qt := rfl
@[simp] theorem Dec.enterError_htDc (d : Dec) (e : Err) : (d.enterError e).htDc = d.htDc := rfl
@[simp] theorem Dec.enterError_htAc (d : Dec) (e : Err) : (d.enterError e).htAc = d.htAc := rfl
@[simp] theorem Dec.enterError_ri (d : Dec) (e : Err) : (d.enterError e).ri = d.ri := rfl
@[simp] theorem Dec.enterError_jfif (d : Dec) (e : Err) : (d.enterError e).jfif = d.jfif := rfl
@[simp] theorem Dec.enterError_adobe (d : Dec) (e : Err) : (d.enterError e).adobe = d.adobe := rfl
@[simp] theorem Dec.enterError_scan (d : Dec) (e : Err) : (d.enterError e).scan = { d.scan with active := false } := rfl
@[simp] theorem Dec.enterError_bb (d : Dec) (e : Err) : (d.enterError e).bb = d.bb := rfl
@[simp] theorem Dec.enterError_planes (d : Dec) (e : Err) : (d.enterError e).planes = Planes.free := rfl
@[simp] theorem Dec.enterError_out (d : Dec) (e : Err) : (d.enterError e).out = d.out := rfl
@[simp] theorem Dec.enterError_flush (d : Dec) (e : Err) : (d.enterError e).flush = { d.flush with pending := false } := rfl
@[simp] theorem Dec.enterError_icc (d : Dec) (e : Err) : (d.enterError e).icc = d.icc := rfl
@[simp] theorem Dec.enterError_prog (d : Dec) (e : Err) : (d.enterError e).prog = d.prog := rfl

/-! ### Dec.abortFrame -/

@[simp] theorem Dec.abortFrame_fsm (d : Dec) : (d.abortFrame).fsm = d.fsm := rfl
@[simp] theorem Dec.abortFrame_err (d : Dec) : (d.abortFrame).err = d.err := rfl
@[simp] theorem Dec.abortFrame_cur (d : Dec) : (d.abortFrame).cur = d.cur := rfl
@[simp] theorem Dec.abortFrame_more (d : Dec) : (d.abortFrame).more = d.more := rfl
@[simp] theorem Dec.abortFrame_frame (d : Dec) : (d.abortFrame).frame = { d.frame with valid := false } := rfl
@[simp] theorem Dec.abortFrame_comp (d : Dec) : (d.abortFrame).comp = d.comp := rfl
@[simp] theorem Dec.abortFrame_qt (d : Dec) : (d.abortFrame).qt = d.qt := rfl
@[simp] theorem Dec.abortFrame_htDc (d : Dec) : (d.abortFrame).htDc = d.htDc := rfl
@[simp] theorem Dec.abortFrame_htAc (d : Dec) : (d.abortFrame).htAc = d.htAc := rfl
@[simp] theorem Dec.abortFrame_ri (d : Dec) : (d.abortFrame).ri = d.ri := rfl
@[simp] theorem Dec.abortFrame_jfif (d : Dec) : (d.abortFrame).jfif = d.jfif := rfl
@[simp] theorem Dec.abortFrame_adobe (d : Dec) : (d.abortFrame).adobe = d.adobe := rfl
@[simp] theorem Dec.abortFrame_scan (d : Dec) : (d.abortFrame).scan = { d.scan with active := false } := rfl
@[simp] theorem Dec.abortFrame_bb (d : Dec) : (d.abortFrame).bb = d.bb := rfl
@[simp] theorem Dec.abortFrame_planes (d : Dec) : (d.abortFrame).planes = Planes.free := rfl
@[simp] theorem Dec.abortFrame_out (d : Dec) : (d.abortFrame).out = d.out := rfl
@[simp] theorem Dec.abortFrame_flush (d : Dec) : (d.abortFrame).flush = d.flush := rfl
@[simp] theorem Dec.abortFrame_icc (d : Dec) : (d.abortFrame).icc = d.icc := rfl
@[simp] theorem Dec.abortFrame_prog (d : Dec) : (d.abortFrame).prog = d.prog := rfl

/-! ### Dec.withHeader -/

@[simp] theorem Dec.withHeader_fsm (d : Dec) (k : Fin 3) (f : SofFields) : (d.withHeader k f).fsm = .frameHeader := rfl
@[simp] theorem Dec.withHeader_err (d : Dec) (k : Fin 3) (f : SofFields) : (d.withHeader k f).err = d.err := rfl
@[simp] theorem Dec.withHeader_cur (d : Dec) (k : Fin 3) (f : SofFields) : (d.withHeader k f).cur = d.cur + 10 := rfl
@[simp] theorem Dec.withHeader_more (d : Dec) (k : Fin 3) (f : SofFields) : (d.withHeader k f).more = d.more := rfl
@[simp] theorem Dec.withHeader_frame (d : Dec) (k : Fin 3) (f : SofFields) : (d.withHeader k f).frame = 
    { valid := d.frame.valid, sof := k, progressive := k == 2, p := 8, y := f.y, x := f.x, nf := f.nf
      cs := colourTag f.nf d.adobe, scans := 0 } := rfl
@[simp] theorem Dec.withHeader_comp (d : Dec) (k : Fin 3) (f : SofFields) : (d.withHeader k f).comp = d.comp := rfl
@[simp] theorem Dec.withHeader_qt (d : Dec) (k : Fin 3) (f : SofFields) : (d.withHeader k f).qt = d.qt := rfl
@[simp] theorem Dec.withHeader_htDc (d : Dec) (k : Fin 3) (f : SofFields) : (d.withHeader k f).htDc = d.htDc := rfl
@[simp] theorem Dec.withHeader_htAc (d : Dec) (k : Fin 3) (f : SofFields) : (d.withHeader k f).htAc = d.htAc := rfl
@[simp] theorem Dec.withHeader_ri (d : Dec) (k : Fin 3) (f : SofFields) : (d.withHeader k f).ri = d.ri := rfl
@[simp] theorem Dec.withHeader_jfif (d : Dec) (k : Fin 3) (f : SofFields) : (d.withHeader k f).jfif = d.jfif := rfl
@[simp] theorem Dec.withHeader_adobe (d : Dec) (k : Fin 3) (f : SofFields) : (d.withHeader k f).adobe = d.adobe := rfl
@[simp] theorem Dec.withHeader_scan (d : Dec) (k : Fin 3) (f : SofFields) : (d.withHeader k f).scan = d.scan := rfl
@[simp] theorem Dec.withHeader_bb (d : Dec) (k : Fin 3) (f : SofFields) : (d.withHeader k f).bb = d.bb := rfl
@[simp] theorem Dec.withHeader_planes (d : Dec) (k : Fin 3) (f : SofFields) : (d.withHeader k f).planes = d.planes := rfl
@[simp] theorem Dec.withHeader_out (d : Dec) (k : Fin 3) (f : SofFields) : (d.withHeader k f).out = { nextRow := 0, mcuRows := 0 } := rfl
@[simp] theorem Dec.withHeader_flush (d : Dec) (k : Fin 3) (f : SofFields) : (d.withHeader k f).flush = { row := 0, pending := false } := rfl
@[simp] theorem Dec.withHeader_icc (d : Dec) (k : Fin 3) (f : SofFields) : (d.withHeader k f).icc = d.icc := rfl
@[simp] theorem Dec.withHeader_prog (d : Dec) (k : Fin 3) (f : SofFields) : (d.withHeader k f).prog = d.prog := rfl

/-! ### Dec.initEntropy -/

@[simp] theorem Dec.initEntropy_fsm (d : Dec) : (d.initEntropy).fsm = d.fsm := rfl
@[simp] theorem Dec.initEntropy_err (d : Dec) : (d.initEntropy).err = d.err := rfl
@[simp] theorem Dec.initEntropy_cur (d : Dec) : (d.initEntropy).cur = d.cur := rfl
@[simp] theorem Dec.initEntropy_more (d : Dec) : (d.initEntropy).more = d.more := rfl
@[simp] theorem Dec.initEntropy_frame (d : Dec) : (d.initEntropy).frame = d.frame := rfl
@[simp] theorem Dec.initEntropy_qt (d : Dec) : (d.initEntropy).qt = d.qt := rfl
@[simp] theorem Dec.initEntropy_htDc (d : Dec) : (d.initEntropy).htDc = d.htDc := rfl
@[simp] theorem Dec.initEntropy_htAc (d : Dec) : (d.initEntropy).htAc = d.htAc := rfl
@[simp] theorem Dec.initEntropy_ri (d : Dec) : (d.initEntropy).ri = d.ri := rfl
@[simp] theorem Dec.initEntropy_jfif (d : Dec) : (d.initEntropy).jfif = d.jfif := rfl
@[simp] theorem Dec.initEntropy_adobe (d : Dec) : (d.initEntropy).adobe = d.adobe := rfl
@[simp] theorem Dec.initEntropy_scan (d : Dec) : (d.initEntropy).scan = { d.scan with eobrun := 0, rstLeft := d.ri } := rfl
@[simp] theorem Dec.initEntropy_bb (d : Dec) : (d.initEntropy).bb = { d.bb with cnt := 0 } := rfl
@[simp] theorem Dec.initEntropy_planes (d : Dec) : (d.initEntropy).planes = d.planes := rfl
@[simp] theorem Dec.initEntropy_out (d : Dec) : (d.initEntropy).out = d.out := rfl
@[simp] theorem Dec.initEntropy_flush (d : Dec) : (d.initEntropy).flush = d.flush := rfl
@[simp] theorem Dec.initEntropy_icc (d : Dec) : (d.initEntropy).icc = d.icc := rfl
@[simp] theorem Dec.initEntropy_prog (d : Dec) : (d.initEntropy).prog = d.prog := rfl

/-! ### Dec.countMcu -/

@[simp] theorem Dec.countMcu_fsm (d : Dec) : (d.countMcu).fsm = d.fsm := rfl
@[simp] theorem Dec.countMcu_err (d : Dec) : (d.countMcu).err = d.err := rfl
@[simp] theorem Dec.countMcu_cur (d : Dec) : (d.countMcu).cur = d.cur := rfl
@[simp] theorem Dec.countMcu_more (d : Dec) : (d.countMcu).more = d.more := rfl
@[simp] theorem Dec.countMcu_frame (d : Dec) : (d.countMcu).frame = d.frame := rfl
@[simp] theorem Dec.countMcu_comp (d : Dec) : (d.countMcu).comp = d.comp := rfl
@[simp] theorem Dec.countMcu_qt (d : Dec) : (d.countMcu).qt = d.qt := rfl
@[simp] theorem Dec.countMcu_htDc (d : Dec) : (d.countMcu).htDc = d.htDc := rfl
@[simp] theorem Dec.countMcu_htAc (d : Dec) : (d.countMcu).htAc = d.htAc := rfl
@[simp] theorem Dec.countMcu_ri (d : Dec) : (d.countMcu).ri = d.ri := rfl
@[simp] theorem Dec.countMcu_jfif (d : Dec) : (d.countMcu).jfif = d.jfif := rfl
@[simp] theorem Dec.countMcu_adobe (d : Dec) : (d.countMcu).adobe = d.adobe := rfl
@[simp] theorem Dec.countMcu_scan (d : Dec) : (d.countMcu).scan = 
    { d.scan with mcu := d.scan.mcu + 1, rstLeft := if d.ri = 0 then d.scan.rstLeft else d.scan.rstLeft - 1 } := rfl
@[simp] theorem Dec.countMcu_bb (d : Dec) : (d.countMcu).bb = d.bb := rfl
@[simp] theorem Dec.countMcu_planes (d : Dec) : (d.countMcu).planes = d.planes := rfl
@[simp] theorem Dec.countMcu_out (d : Dec) : (d.countMcu).out = d.out := rfl
@[simp] theorem Dec.countMcu_flush (d : Dec) : (d.countMcu).flush = d.flush := rfl
@[simp] theorem Dec.countMcu_icc (d : Dec) : (d.countMcu).icc = d.icc := rfl
@[simp] theorem Dec.countMcu_prog (d : Dec) : (d.countMcu).prog = { blk := 0, k := 0 } := rfl

/-! ### Dec.storeQt -/

@[simp] theorem Dec.storeQt_fsm (d : Dec) (q : QDef) : (d.storeQt q).fsm = d.fsm := rfl
@[simp] theorem Dec.storeQt_err (d : Dec) (q : QDef) : (d.storeQt q).err = d.err := rfl
@[simp] theorem Dec.storeQt_cur (d : Dec) (q : QDef) : (d.storeQt q).cur = d.cur := rfl
@[simp] theorem Dec.storeQt_more (d : Dec) (q : QDef) : (d.storeQt q).more = d.more := rfl
@[simp] theorem Dec.storeQt_frame (d : Dec) (q : QDef) : (d.storeQt q).frame = d.frame := rfl
@[simp] theorem Dec.storeQt_comp (d : Dec) (q : QDef) : (d.storeQt q).comp = d.comp := rfl
@[simp] theorem Dec.storeQt_qt (d : Dec) (q : QDef) : (d.storeQt q).qt = d.qt.set q.tq { isDefined := true, pq := q.pq, q := q.q } := rfl
@[simp] theorem Dec.storeQt_htDc (d : Dec) (q : QDef) : (d.storeQt q).htDc = d.htDc := rfl
@[simp] theorem Dec.storeQt_htAc (d : Dec) (q : QDef) : (d.storeQt q).htAc = d.htAc := rfl
@[simp] theorem Dec.storeQt_ri (d : Dec) (q : QDef) : (d.storeQt q).ri = d.ri := rfl
@[simp] theorem Dec.storeQt_jfif (d : Dec) (q : QDef) : (d.storeQt q).jfif = d.jfif := rfl
@[simp] theorem Dec.storeQt_adobe (d : Dec) (q : QDef) : (d.storeQt q).adobe = d.adobe := rfl
@[simp] theorem Dec.storeQt_scan (d : Dec) (q : QDef) : (d.storeQt q).scan = d.scan := rfl
@[simp] theorem Dec.storeQt_bb (d : Dec) (q : QDef) : (d.storeQt q).bb = d.bb := rfl
@[simp] theorem Dec.storeQt_planes (d : Dec) (q : QDef) : (d.storeQt q).planes = d.planes := rfl
@[simp] theorem Dec.storeQt_out (d : Dec) (q : QDef) : (d.storeQt q).out = d.out := rfl
@[simp] theorem Dec.storeQt_flush (d : Dec) (q : QDef) : (d.storeQt q).flush = d.flush := rfl
@[simp] theorem Dec.storeQt_icc (d : Dec) (q : QDef) : (d.storeQt q).icc = d.icc := rfl
@[simp] theorem Dec.storeQt_prog (d : Dec) (q : QDef) : (d.storeQt q).prog = d.prog := rfl

/-! ### Dec.storeHt and Dec.afterMcu -/

@[simp] theorem Dec.storeHt_fsm (d : Dec) (h : HDef) : (d.storeHt h).fsm = d.fsm := by unfold Dec.storeHt; split <;> rfl
@[simp] theorem Dec.storeHt_err (d : Dec) (h : HDef) : (d.storeHt h).err = d.err := by unfold Dec.storeHt; split <;> rfl
@[simp] theorem Dec.storeHt_cur (d : Dec) (h : HDef) : (d.storeHt h).cur = d.cur := by unfold Dec.storeHt; split <;> rfl
@[simp] theorem Dec.storeHt_more (d : Dec) (h : HDef) : (d.storeHt h).more = d.more := by unfold Dec.storeHt; split <;> rfl
@[simp] theorem Dec.storeHt_frame (d : Dec) (h : HDef) : (d.storeHt h).frame = d.frame := by unfold Dec.storeHt; split <;> rfl
@[simp] theorem Dec.storeHt_comp (d : Dec) (h : HDef) : (d.storeHt h).comp = d.comp := by unfold Dec.storeHt; split <;> rfl
@[simp] theorem Dec.storeHt_qt (d : Dec) (h : HDef) : (d.storeHt h).qt = d.qt := by unfold Dec.storeHt; split <;> rfl
@[simp] theorem Dec.storeHt_ri (d : Dec) (h : HDef) : (d.storeHt h).ri = d.ri := by unfold Dec.storeHt; split <;> rfl
@[simp] theorem Dec.storeHt_jfif (d : Dec) (h : HDef) : (d.storeHt h).jfif = d.jfif := by unfold Dec.storeHt; split <;> rfl
@[simp] theorem Dec.storeHt_adobe (d : Dec) (h : HDef) : (d.storeHt h).adobe = d.adobe := by unfold Dec.storeHt; split <;> rfl
@[simp] theorem Dec.storeHt_scan (d : Dec) (h : HDef) : (d.storeHt h).scan = d.scan := by unfold Dec.storeHt; split <;> rfl
@[simp] theorem Dec.storeHt_bb (d : Dec) (h : HDef) : (d.storeHt h).bb = d.bb := by unfold Dec.storeHt; split <;> rfl
@[simp] theorem Dec.storeHt_planes (d : Dec) (h : HDef) : (d.storeHt h).planes = d.planes := by unfold Dec.storeHt; split <;> rfl
@[simp] theorem Dec.storeHt_out (d : Dec) (h : HDef) : (d.storeHt h).out = d.out := by unfold Dec.storeHt; split <;> rfl
@[simp] theorem Dec.storeHt_flush (d : Dec) (h : HDef) : (d.storeHt h).flush = d.flush := by unfold Dec.storeHt; split <;> rfl
@[simp] theorem Dec.storeHt_icc (d : Dec) (h : HDef) : (d.storeHt h).icc = d.icc := by unfold Dec.storeHt; split <;> rfl
@[simp] theorem Dec.storeHt_prog (d : Dec) (h : HDef) : (d.storeHt h).prog = d.prog := by unfold Dec.storeHt; split <;> rfl
@[simp] theorem Dec.storeHt_htDc (d : Dec) (h : HDef) :
    (d.storeHt h).htDc = if h.isAc then d.htDc else d.htDc.set h.th h.entry := by unfold Dec.storeHt; split <;> rfl
@[simp] theorem Dec.storeHt_htAc (d : Dec) (h : HDef) :
    (d.storeHt h).htAc = if h.isAc then d.htAc.set h.th h.entry else d.htAc := by unfold Dec.storeHt; split <;> rfl
@[simp] theorem Dec.afterMcu_err (d : Dec) : d.afterMcu.err = d.err := by
  unfold Dec.afterMcu; split <;> [rfl; (split <;> rfl)]
@[simp] theorem Dec.afterMcu_cur (d : Dec) : d.afterMcu.cur = d.cur := by
  unfold Dec.afterMcu; split <;> [rfl; (split <;> rfl)]
@[simp] theorem Dec.afterMcu_more (d : Dec) : d.afterMcu.more = d.more := by
  unfold Dec.afterMcu; split <;> [rfl; (split <;> rfl)]
@[simp] theorem Dec.afterMcu_frame (d : Dec) : d.afterMcu.frame = d.frame := by
  unfold Dec.afterMcu; split <;> [rfl; (split <;> rfl)]
@[simp] theorem Dec.afterMcu_comp (d : Dec) : d.afterMcu.comp = d.comp := by
  unfold Dec.afterMcu; split <;> [rfl; (split <;> rfl)]
@[simp] theorem Dec.afterMcu_qt (d : Dec) : d.afterMcu.qt = d.qt := by
  unfold Dec.afterMcu; split <;> [rfl; (split <;> rfl)]
@[simp] theorem Dec.afterMcu_htDc (d : Dec) : d.afterMcu.htDc = d.htDc := by
  unfold Dec.afterMcu; split <;> [rfl; (split <;> rfl)]
@[simp] theorem Dec.afterMcu_htAc (d : Dec) : d.afterMcu.htAc = d.htAc := by
  unfold Dec.afterMcu; split <;> [rfl; (split <;> rfl)]
@[simp] theorem Dec.afterMcu_ri (d : Dec) : d.afterMcu.ri = d.ri := by
  unfold Dec.afterMcu; split <;> [rfl; (split <;> rfl)]
@[simp] theorem Dec.afterMcu_jfif (d : Dec) : d.afterMcu.jfif = d.jfif := by
  unfold Dec.afterMcu; split <;> [rfl; (split <;> rfl)]
@[simp] theorem Dec.afterMcu_adobe (d : Dec) : d.afterMcu.adobe = d.adobe := by
  unfold Dec.afterMcu; split <;> [rfl; (split <;> rfl)]
@[simp] theorem Dec.afterMcu_scan (d : Dec) : d.afterMcu.scan = d.scan := by
  unfold Dec.afterMcu; split <;> [rfl; (split <;> rfl)]
@[simp] theorem Dec.afterMcu_bb (d : Dec) : d.afterMcu.bb = d.bb := by
  unfold Dec.afterMcu; split <;> [rfl; (split <;> rfl)]
@[simp] theorem Dec.afterMcu_planes (d : Dec) : d.afterMcu.planes = d.planes := by
  unfold Dec.afterMcu; split <;> [rfl; (split <;> rfl)]
@[simp] theorem Dec.afterMcu_out (d : Dec) : d.afterMcu.out = d.out := by
  unfold Dec.afterMcu; split <;> [rfl; (split <;> rfl)]
@[simp] theorem Dec.afterMcu_flush (d : Dec) : d.afterMcu.flush = d.flush := by
  unfold Dec.afterMcu; split <;> [rfl; (split <;> rfl)]
@[simp] theorem Dec.afterMcu_icc (d : Dec) : d.afterMcu.icc = d.icc := by
  unfold Dec.afterMcu; split <;> [rfl; (split <;> rfl)]
@[simp] theorem Dec.afterMcu_prog (d : Dec) : d.afterMcu.prog = d.prog := by
  unfold Dec.afterMcu; split <;> [rfl; (split <;> rfl)]

/-! ### State.answer -/

@[simp] theorem State.answer_cfg (s : State) (c : Command) (r : Result) : (s.answer c r).cfg = s.cfg := rfl
@[simp] theorem State.answer_view (s : State) (c : Command) (r : Result) : (s.answer c r).view = s.view := rfl
@[simp] theorem State.answer_dec (s : State) (c : Command) (r : Result) : (s.answer c r).dec = s.dec := rfl
@[simp] theorem State.answer_snap (s : State) (c : Command) (r : Result) : (s.answer c r).snap = s.snap := rfl
@[simp] theorem State.answer_mq (s : State) (c : Command) (r : Result) : (s.answer c r).mq = s.mq := rfl
@[simp] theorem State.answer_enc (s : State) (c : Command) (r : Result) : (s.answer c r).enc = s.enc := rfl
@[simp] theorem State.answer_pk (s : State) (c : Command) (r : Result) : (s.answer c r).pk = s.pk := rfl
@[simp] theorem State.answer_events (s : State) (c : Command) (r : Result) : (s.answer c r).events = s.events := rfl
@[simp] theorem State.answer_results (s : State) (c : Command) (r : Result) : (s.answer c r).results = s.results ++ [(c, r)] := rfl
@[simp] theorem State.answer_hostq (s : State) (c : Command) (r : Result) : (s.answer c r).hostq = s.hostq := rfl
@[simp] theorem State.answer_answers (s : State) (c : Command) (r : Result) : (s.answer c r).answers = s.answers := rfl
@[simp] theorem State.answer_reenters (s : State) (c : Command) (r : Result) : (s.answer c r).reenters = s.reenters := rfl

/-! ### State.takeError -/

@[simp] theorem State.takeError_cfg (s : State) (e : Err) : (s.takeError e).cfg = s.cfg := rfl
@[simp] theorem State.takeError_view (s : State) (e : Err) : (s.takeError e).view = none := rfl
@[simp] theorem State.takeError_dec (s : State) (e : Err) : (s.takeError e).dec = s.unitStart.enterError e := rfl
@[simp] theorem State.takeError_snap (s : State) (e : Err) : (s.takeError e).snap = none := rfl
@[simp] theorem State.takeError_mq (s : State) (e : Err) : (s.takeError e).mq = s.mq := rfl
@[simp] theorem State.takeError_enc (s : State) (e : Err) : (s.takeError e).enc = s.enc := rfl
@[simp] theorem State.takeError_pk (s : State) (e : Err) : (s.takeError e).pk = s.pk := rfl
@[simp] theorem State.takeError_events (s : State) (e : Err) : (s.takeError e).events = s.events := rfl
@[simp] theorem State.takeError_results (s : State) (e : Err) : (s.takeError e).results = s.results ++ [(.decode, .err e)] := rfl
@[simp] theorem State.takeError_hostq (s : State) (e : Err) : (s.takeError e).hostq = s.hostq := rfl
@[simp] theorem State.takeError_answers (s : State) (e : Err) : (s.takeError e).answers = s.answers := rfl
@[simp] theorem State.takeError_reenters (s : State) (e : Err) : (s.takeError e).reenters = s.reenters := rfl

/-! ### State.symbolState -/

@[simp] theorem State.symbolState_cfg (s : State) (r : Rd) (k : Nat) : (s.symbolState r k).cfg = s.cfg := rfl
@[simp] theorem State.symbolState_view (s : State) (r : Rd) (k : Nat) : (s.symbolState r k).view = s.view := rfl
@[simp] theorem State.symbolState_dec (s : State) (r : Rd) (k : Nat) : (s.symbolState r k).dec = { s.dec.withRd r with prog := { s.dec.prog with k := k } } := rfl
@[simp] theorem State.symbolState_snap (s : State) (r : Rd) (k : Nat) : (s.symbolState r k).snap = some s.unitStart := rfl
@[simp] theorem State.symbolState_mq (s : State) (r : Rd) (k : Nat) : (s.symbolState r k).mq = s.mq := rfl
@[simp] theorem State.symbolState_enc (s : State) (r : Rd) (k : Nat) : (s.symbolState r k).enc = s.enc := rfl
@[simp] theorem State.symbolState_pk (s : State) (r : Rd) (k : Nat) : (s.symbolState r k).pk = s.pk := rfl
@[simp] theorem State.symbolState_events (s : State) (r : Rd) (k : Nat) : (s.symbolState r k).events = s.events := rfl
@[simp] theorem State.symbolState_results (s : State) (r : Rd) (k : Nat) : (s.symbolState r k).results = s.results := rfl
@[simp] theorem State.symbolState_hostq (s : State) (r : Rd) (k : Nat) : (s.symbolState r k).hostq = s.hostq := rfl
@[simp] theorem State.symbolState_answers (s : State) (r : Rd) (k : Nat) : (s.symbolState r k).answers = s.answers := rfl
@[simp] theorem State.symbolState_reenters (s : State) (r : Rd) (k : Nat) : (s.symbolState r k).reenters = s.reenters := rfl

/-! ### State.placeCall -/

@[simp] theorem State.placeCall_cfg (s : State) (c : HostCall) : (s.placeCall c).cfg = s.cfg := rfl
@[simp] theorem State.placeCall_view (s : State) (c : HostCall) : (s.placeCall c).view = none := rfl
@[simp] theorem State.placeCall_dec (s : State) (c : HostCall) : (s.placeCall c).dec = s.dec := rfl
@[simp] theorem State.placeCall_snap (s : State) (c : HostCall) : (s.placeCall c).snap = none := rfl
@[simp] theorem State.placeCall_mq (s : State) (c : HostCall) : (s.placeCall c).mq = s.mq := rfl
@[simp] theorem State.placeCall_enc (s : State) (c : HostCall) : (s.placeCall c).enc = s.enc := rfl
@[simp] theorem State.placeCall_pk (s : State) (c : HostCall) : (s.placeCall c).pk = s.pk := rfl
@[simp] theorem State.placeCall_events (s : State) (c : HostCall) : (s.placeCall c).events = s.events := rfl
@[simp] theorem State.placeCall_results (s : State) (c : HostCall) : (s.placeCall c).results = s.results := rfl
@[simp] theorem State.placeCall_hostq (s : State) (c : HostCall) : (s.placeCall c).hostq = c :: s.hostq := rfl
@[simp] theorem State.placeCall_answers (s : State) (c : HostCall) : (s.placeCall c).answers = s.answers := rfl
@[simp] theorem State.placeCall_reenters (s : State) (c : HostCall) : (s.placeCall c).reenters = s.reenters := rfl

/-! ### The unit's start -/

theorem State.unitStart_of_none {s : State} (h : s.snap = none) : s.unitStart = s.dec := by simp [State.unitStart, h]

@[simp] theorem State.symbolState_unitStart (s : State) (r : Rd) (k : Nat) :
    (s.symbolState r k).unitStart = s.unitStart := rfl

/-- An error raised after a symbol's bits are read is the error from the unit's start. -/
@[simp] theorem State.symbolState_takeError (s : State) (r : Rd) (k : Nat) (e : Err) :
    (s.symbolState r k).takeError e = s.takeError e := rfl

@[simp] theorem Dec.withRd_rd (d : Dec) : d.withRd d.rd = d := rfl

/-! ### Files of four -/

@[simp] theorem Quad.get_set_same {α : Type} (q : Quad α) (i : Fin 4) (x : α) : (q.set i x).get i = x := by
  match i with
  | 0 => rfl
  | 1 => rfl
  | 2 => rfl
  | 3 => rfl

theorem Quad.get_set_other {α : Type} (q : Quad α) {i j : Fin 4} (x : α) (h : j ≠ i) : (q.set i x).get j = q.get j := by
  match i, j with
  | 0, 0 | 1, 1 | 2, 2 | 3, 3 => exact absurd rfl h
  | 0, 1 | 0, 2 | 0, 3 | 1, 0 | 1, 2 | 1, 3 | 2, 0 | 2, 1 | 2, 3 | 3, 0 | 3, 1 | 3, 2 => rfl

theorem Quad.get_all {α : Type} (x : α) (i : Fin 4) : (Quad.all x).get i = x := by
  match i with
  | 0 => rfl
  | 1 => rfl
  | 2 => rfl
  | 3 => rfl

end Sys2Proof.Machine
end

