-- ==== Sys2Proof/Laws/Ops.lean ====
section
/-! SUPPORT. What each shared operation can do: the guards of a handler, plane cells, how a unit ends, where a marker, a
symbol and a command are run. -/

namespace Sys2Proof.Machine

/-! ## Guards -/

theorem Dec.need_ok {d : Dec} {v : List Byte} {n : Nat} (h : n ≤ d.avail v) : d.need v n = .ok () := by
  simp [Dec.need, Nat.not_lt.2 h]

theorem Dec.need_ok_iff {d : Dec} {v : List Byte} {n : Nat} {u : Unit} : d.need v n = .ok u ↔ n ≤ d.avail v := by
  unfold Dec.need needFails raise
  split <;> [(split <;> simp <;> omega); (simp; omega)]

theorem Dec.need_suspends {d : Dec} {v : List Byte} {n : Nat} (h : d.avail v < n) (hm : d.more = true) :
    d.need v n = .error .suspend := by simp [Dec.need, h, needFails, hm]

theorem Dec.need_eof {d : Dec} {v : List Byte} {n : Nat} (h : d.avail v < n) (hm : d.more = false) :
    d.need v n = .error (.raise (.corrupt .eof)) := by simp [Dec.need, h, needFails, hm, raise]

@[simp] theorem failIf_false (c : Cause) : failIf false c = .ok () := rfl

@[simp] theorem failIf_true (c : Cause) : failIf true c = .error (.raise (.corrupt c)) := rfl

theorem failIf_ok_iff {b : Bool} {c : Cause} {u : Unit} : failIf b c = .ok u ↔ b = false := by
  cases b <;> simp [failIf, raise]

/-- A monadic sequence of checks succeeds when its first check does and the rest does. -/
@[simp] theorem except_ok_bind {ε α β : Type} (a : α) (f : α → Except ε β) : (Except.ok a >>= f) = f a := rfl

@[simp] theorem except_error_bind {ε α β : Type} (e : ε) (f : α → Except ε β) :
    ((Except.error e : Except ε α) >>= f) = .error e := rfl

theorem except_bind_ok {ε α β : Type} {x : Except ε α} {f : α → Except ε β} {b : β} :
    (x >>= f) = .ok b ↔ ∃ a, x = .ok a ∧ f a = .ok b := by
  cases x <;> simp [bind, Except.bind]

/-- SEGMENT_PREAMBLE of a whole segment (R286). -/
theorem Dec.preamble_ok {d : Dec} {v : List Byte} {lx minLx : Nat} {c : Cause} (h : (d.be16 v 2).toNat = lx)
    (h2 : 2 ≤ lx) (hm : minLx ≤ lx) (ha : 2 + lx ≤ d.avail v) : d.preamble v minLx c = .ok lx := by
  unfold Dec.preamble
  rw [Dec.need_ok (by omega), h]
  simp only [except_ok_bind]
  rw [decide_eq_false (by omega), decide_eq_false (by omega), failIf_false, failIf_false]
  simp only [except_ok_bind]
  rw [Dec.need_ok ha]
  rfl

theorem Dec.preamble_ok_iff {d : Dec} {v : List Byte} {lx minLx : Nat} {c : Cause} :
    d.preamble v minLx c = .ok lx ↔ (d.be16 v 2).toNat = lx ∧ 2 ≤ lx ∧ minLx ≤ lx ∧ 2 + lx ≤ d.avail v := by
  constructor
  · intro h
    simp only [Dec.preamble, except_bind_ok, Dec.need_ok_iff, failIf_ok_iff, decide_eq_false_iff_not, Nat.not_lt,
      Except.ok.injEq] at h
    obtain ⟨-, -, -, h1, -, h2, -, h3, rfl⟩ := h
    exact ⟨rfl, h1, h2, h3⟩
  · rintro ⟨h, h2, hm, ha⟩
    exact Dec.preamble_ok h h2 hm ha

/-! ## Plane cells (R81) -/

theorem Dec.readCell_ok_iff {d : Dec} {i : Fin 4} {row col n : Nat} {x : Half} :
    d.readCell i row col n = .ok x ↔
      d.inPlane i row col n = true ∧ x = d.planes.mem.readHalf (d.cellAddr i row col n) := by
  unfold Dec.readCell
  split
  · rename_i h
    simp only [h, true_and, Except.ok.injEq]
    exact eq_comm
  · rename_i h
    simp [h]

theorem Dec.writeCell_ok_iff {d d' : Dec} {i : Fin 4} {row col n : Nat} {x : Half} :
    d.writeCell i row col n x = .ok d' ↔
      d.inPlane i row col n = true ∧
        d' = { d with planes := { d.planes with mem := d.planes.mem.writeHalf (d.cellAddr i row col n) x } } := by
  unfold Dec.writeCell
  split
  · rename_i h
    simp only [h, true_and, Except.ok.injEq]
    exact eq_comm
  · rename_i h
    simp [h]

theorem Dec.clearBlock_ok_iff {d d' : Dec} {i : Fin 4} {row col : Nat} :
    d.clearBlock i row col = .ok d' ↔
      d.inPlane i row col 0 = true ∧
        d' = { d with planes := { d.planes with
          mem := d.planes.mem.clear (d.cellAddr i row col 0) (d.cellAddr i row col 0 + 128) } } := by
  unfold Dec.clearBlock
  split
  · rename_i h
    simp only [h, true_and, Except.ok.injEq]
    exact eq_comm
  · rename_i h
    simp [h]

/-- A cell's index only has to be below 64. -/
theorem Dec.inPlane_of_block {d : Dec} {i : Fin 4} {row col n m : Nat} (h : d.inPlane i row col m = true) (hn : n < 64) :
    d.inPlane i row col n = true := by
  simp only [Dec.inPlane, Bool.and_eq_true, decide_eq_true_eq] at h ⊢
  exact ⟨h.1, hn⟩

/-- Cell n of a block lies 2n bytes after its first. -/
theorem Dec.cellAddr_eq (d : Dec) (i : Fin 4) (row col n : Nat) :
    d.cellAddr i row col n = d.cellAddr i row col 0 + 2 * n := by
  simp only [Dec.cellAddr]
  omega

theorem zz_lt (k : Nat) : zz k < 64 := by
  unfold zz
  rcases Nat.lt_or_ge k 64 with h | h
  · exact (by decide : ∀ k < 64, zzRom.getD k 0 < 64) k h
  · rw [List.getD_eq_default _ _ (by simpa [zzRom] using h)]
    omega

/-- ZZ and IZZ are inverse (R120). -/
theorem izz_zz {k : Nat} (h : k < 64) : izz (zz k) = k := (by decide : ∀ k < 64, izz (zz k) = k) k h

theorem zz_izz {n : Nat} (h : n < 64) : zz (izz n) = n := (by decide : ∀ n < 64, zz (izz n) = n) n h

theorem izz_lt {n : Nat} (h : n < 64) : izz n < 64 := (by decide : ∀ n < 64, izz n < 64) n h

/-! ## How a unit ends (R14, R141) -/

@[simp] theorem State.endUnit_commit (s : State) (d : Dec) (evs : List Event) :
    s.endUnit (.ok (.commit d evs)) = .next { s with dec := d, snap := none, events := s.events ++ evs } := rfl

@[simp] theorem State.endUnit_cont (s : State) (d : Dec) :
    s.endUnit (.ok (.cont d)) = .next { s with dec := d, snap := some s.unitStart } := rfl

@[simp] theorem State.endUnit_stop (s : State) : s.endUnit (.ok .stop) = .next (s.returnDecode s.dec) := rfl

@[simp] theorem State.endUnit_suspend (s : State) :
    s.endUnit (.error .suspend) = .next (s.returnDecode s.unitStart) := rfl

@[simp] theorem State.endUnit_raise (s : State) (e : Err) :
    s.endUnit (.error (.raise e)) = .next (s.takeError e) := rfl

@[simp] theorem State.endUnit_fault (s : State) (f : Fault) : s.endUnit (.error (.fault f)) = .fault f := rfl

/-- A unit that commits without events changes the registers only. -/
theorem State.endUnit_quiet (s : State) (d : Dec) :
    s.endUnit (commit d) = .next { s with dec := d, snap := none } := by
  simp [commit]

@[simp] theorem State.returnDecode_view (s : State) (d : Dec) : (s.returnDecode d).view = none := by
  unfold State.returnDecode
  split <;> rfl

/-- What the end of a DECODE answers (R141, R142). -/
theorem State.returnDecode_eq (s : State) (d : Dec) :
    s.returnDecode d = s.takeError (.corrupt .eof) ∨
      s.returnDecode d = { s with dec := d, snap := none, view := none
                                  results := s.results ++ [(.decode, .okResend ((s.view.getD []).length - d.cur))] } := by
  unfold State.returnDecode
  split
  · exact .inl rfl
  · exact .inr rfl

/-- A DECODE that ends without an error: the registers of `d`, and the resend count. -/
theorem State.returnDecode_ok {s : State} {d : Dec} (h : s.dec.more = true) (hd : d.more = s.dec.more) :
    s.returnDecode d =
      { s with dec := d, snap := none, view := none
               results := s.results ++ [(.decode, .okResend ((s.view.getD []).length - d.cur))] } := by
  simp [State.returnDecode, hd, h]

/-- Everything `endUnit` can answer. -/
theorem State.endUnit_next {s t : State} {r : Except UnitStop UnitDone} (h : s.endUnit r = .next t) :
    (∃ d evs, r = .ok (.commit d evs) ∧ t = { s with dec := d, snap := none, events := s.events ++ evs }) ∨
    (∃ d, r = .ok (.cont d) ∧ t = { s with dec := d, snap := some s.unitStart }) ∨
    (r = .ok .stop ∧ t = s.returnDecode s.dec) ∨
    (r = .error .suspend ∧ t = s.returnDecode s.unitStart) ∨
    (∃ e, r = .error (.raise e) ∧ t = s.takeError e) := by
  match r with
  | .ok (.commit d evs) => simp at h; exact .inl ⟨d, evs, rfl, h.symm⟩
  | .ok (.cont d) => simp at h; exact .inr (.inl ⟨d, rfl, h.symm⟩)
  | .ok .stop => simp at h; exact .inr (.inr (.inl ⟨rfl, h.symm⟩))
  | .error .suspend => simp at h; exact .inr (.inr (.inr (.inl ⟨rfl, h.symm⟩)))
  | .error (.raise e) => simp at h; exact .inr (.inr (.inr (.inr ⟨e, rfl, h.symm⟩)))
  | .error (.fault f) => simp at h

/-- A step's refusal of re-entry passes a next state on unchanged, or refuses it. -/
theorem settle_next {s t : State} {o : Outcome} (h : settle s o = .next t) :
    o = .next t ∧ (s.reenters = true → t.events.length ≤ s.events.length) := by
  cases o with
  | next u =>
    simp only [settle] at h
    split at h
    · cases h
    · rename_i hn
      cases h
      refine ⟨rfl, fun hr => ?_⟩
      simpa [hr] using hn
  | fault f => cases h
  | refused r => cases h

/-- A step that delivers no event is not refused. -/
theorem settle_quiet {s t : State} (h : t.events = s.events) : settle s (.next t) = .next t := by
  simp [settle, h]

theorem settle_fault (s : State) (f : Fault) : settle s (.fault f) = .fault f := rfl

/-! ## Where instructions run -/

theorem State.atMarker_none {s : State} {v : List Byte} {f g h k : List Byte → Except UnitStop UnitDone}
    (hv : s.view = some v) (hf : s.dec.fsm = .none) (ha : 2 ≤ s.dec.avail v) : s.atMarker f g h k = s.endUnit (f v) := by
  simp [State.atMarker, hv, hf, Dec.need_ok ha]

theorem State.atMarker_scan {s : State} {v : List Byte} {f g h k : List Byte → Except UnitStop UnitDone}
    (hv : s.view = some v) (hf : s.dec.fsm = .started ∨ s.dec.fsm = .frame) (ha : 2 ≤ s.dec.avail v) :
    s.atMarker f g h k = s.endUnit (g v) := by
  rcases hf with hf | hf <;> simp [State.atMarker, hv, hf, Dec.need_ok ha]

theorem State.atMarker_find {s : State} {v : List Byte} {f g h k : List Byte → Except UnitStop UnitDone}
    (hv : s.view = some v) (hf : s.dec.fsm = .findMarker) (ha : 2 ≤ s.dec.avail v) :
    s.atMarker f g h k = s.endUnit (h v) := by
  simp [State.atMarker, hv, hf, Dec.need_ok ha]

theorem State.atScan_scan {s : State} {v : List Byte} {g : List Byte → Except UnitStop UnitDone}
    (hv : s.view = some v) (hf : s.dec.fsm = .started ∨ s.dec.fsm = .frame) (ha : 2 ≤ s.dec.avail v) :
    s.atScan g = s.endUnit (g v) := State.atMarker_scan hv hf ha

/-- Everything a marker's meaning can answer as a next state: the end of a unit, whose body is one of the four. -/
theorem State.atMarker_next {s t : State} {f g h k : List Byte → Except UnitStop UnitDone}
    (ht : s.atMarker f g h k = .next t) :
    ∃ v, s.view = some v ∧
      ((s.dec.fsm = .none ∧ s.endUnit (do s.dec.need v 2; f v) = .next t) ∨
       ((s.dec.fsm = .started ∨ s.dec.fsm = .frame) ∧ s.endUnit (do s.dec.need v 2; g v) = .next t) ∨
       (s.dec.fsm = .findMarker ∧ s.endUnit (do s.dec.need v 2; h v) = .next t) ∨
       (s.dec.fsm = .restart ∧ s.dec.bb.cnt = 0 ∧ s.endUnit (do s.dec.need v 2; k v) = .next t)) := by
  unfold State.atMarker at ht
  split at ht
  · cases ht
  · rename_i v hv
    refine ⟨v, hv, ?_⟩
    split at ht
    · exact .inl ⟨‹_›, ht⟩
    · exact .inr (.inl ⟨.inl ‹_›, ht⟩)
    · exact .inr (.inl ⟨.inr ‹_›, ht⟩)
    · exact .inr (.inr (.inl ⟨‹_›, ht⟩))
    · split at ht
      · rename_i hc
        exact .inr (.inr (.inr ⟨‹_›, hc.2, ht⟩))
      · cases ht
    · cases ht
    · cases ht
    · cases ht

theorem State.atCall_none {s : State} {o : Outcome} (h : s.view = none) : s.atCall o = o := by
  simp [State.atCall, h]

theorem State.atCall_some {s : State} {o : Outcome} (h : s.view ≠ none) : s.atCall o = .refused .reentry := by
  cases hv : s.view with
  | none => exact absurd hv h
  | some v => simp [State.atCall, hv]

theorem State.atCall_next {s t : State} {o : Outcome} (h : s.atCall o = .next t) : s.view = none ∧ o = .next t := by
  unfold State.atCall at h
  split at h
  · cases h
  · exact ⟨by simpa using ‹¬s.view.isSome = true›, h⟩

theorem State.atMq_present {s : State} {c : Command} {o : Outcome} (h : s.view = none) (hp : s.cfg.arithPresent = true) :
    s.atMq c o = o := by simp [State.atMq, State.atCall_none h, hp]

theorem State.atMq_absent {s : State} {c : Command} {o : Outcome} (h : s.view = none) (hp : s.cfg.arithPresent = false) :
    s.atMq c o = .next (s.answer c .unsupported) := by simp [State.atMq, State.atCall_none h, hp]

theorem State.currentBlock_some {s : State} {v : List Byte} {b : BlockRef} (h : s.currentBlock = some (v, b)) :
    s.view = some v ∧ s.dec.fsm = .restart ∧ s.dec.scan.mcu < s.dec.scan.total ∧
      s.dec.mcuBlocks[s.dec.prog.blk]? = some b := by
  unfold State.currentBlock at h
  split at h
  · cases h
  · split at h
    · rename_i v' hv hc
      simp only [Option.map_eq_some_iff, Prod.mk.injEq] at h
      obtain ⟨b', hb, rfl, rfl⟩ := h
      exact ⟨hv, hc.1, hc.2, hb⟩
    · cases h

theorem State.atSymbol_some {s : State} {v : List Byte} {b : BlockRef} {f : List Byte → BlockRef → Outcome}
    (h : s.currentBlock = some (v, b)) : s.atSymbol f = f v b := by simp [State.atSymbol, h]

/-! ## Blocks -/

/-- AFTER_MCU changes nothing, or goes to FINDMARKER (R210). -/
theorem Dec.afterMcu_cases (d : Dec) : d.afterMcu = d ∨ d.afterMcu = { d with fsm := .findMarker } := by
  unfold Dec.afterMcu
  split
  · exact .inl rfl
  · split
    · exact .inr rfl
    · exact .inl rfl

/-- After a block with blocks of its MCU left. -/
theorem Dec.blockDone_more {d : Dec} {cfg : Config} (h : d.prog.blk + 1 < d.mcuBlocks.length) :
    d.blockDone cfg = .ok (.cont { d with prog := { blk := d.prog.blk + 1, k := 0 } }) := by
  simp [Dec.blockDone, h]

/-- After the last block of a progressive MCU. -/
theorem Dec.blockDone_progressive {d : Dec} {cfg : Config} (h : ¬d.prog.blk + 1 < d.mcuBlocks.length)
    (hm : d.scan.mode ≠ .seq) :
    d.blockDone cfg =
      .ok (.commit ({ d.countMcu with flush := { row := 0, pending := false } } : Dec).afterMcu []) := by
  simp [Dec.blockDone, h, Dec.mcuDone, hm]

theorem Dec.renderable_ok {d : Dec} (ha : d.planes.allocated = true) (hc : d.frame.cs ≠ .unknown) :
    d.renderable = .ok () := by simp [Dec.renderable, ha, hc]

/-- SEQ_OUTPUT of a frame that can be rendered answers rows. -/
theorem Dec.seqOutput_ok {d : Dec} {cfg : Config} (ha : d.planes.allocated = true) (hc : d.frame.cs ≠ .unknown) :
    ∃ d' evs, d.seqOutput cfg = .ok (d', evs) := by
  simp only [Dec.seqOutput, Dec.renderable_ok ha hc, except_ok_bind]
  split
  · exact ⟨_, _, rfl⟩
  · exact ⟨_, _, rfl⟩

/-- What SEQ_OUTPUT changes: OUT, and nothing else (R375). -/
theorem Dec.seqOutput_frame {d d' : Dec} {cfg : Config} {evs : List Event} (h : d.seqOutput cfg = .ok (d', evs)) :
    d' = { d with out := d'.out } := by
  simp only [Dec.seqOutput] at h
  split at h
  · simp only [except_bind_ok] at h
    obtain ⟨-, -, h⟩ := h
    simp only [Except.ok.injEq, Prod.mk.injEq] at h
    obtain ⟨rfl, -⟩ := h
    rfl
  · simp only [Except.ok.injEq, Prod.mk.injEq] at h
    obtain ⟨rfl, -⟩ := h
    rfl

end Sys2Proof.Machine
end

