-- ==== Sys2Proof/Laws/Encoding.lean ====
section
/-! SUPPORT. The wire form: numbers, byte strings and rows read back from their bytes. -/

namespace Sys2Proof

/-- A word read back from its four bytes. -/
@[simp] theorem be32_bytes (w : Word) :
    be32 (w.extractLsb' 24 8) (w.extractLsb' 16 8) (w.extractLsb' 8 8) (w.extractLsb' 0 8) = w := by
  unfold be32
  ext i hi
  simp only [BitVec.getElem_append, BitVec.getElem_extractLsb']
  split
  · rw [BitVec.getLsbD_eq_getElem (by omega)]
    congr 1
    omega
  · split
    · rw [BitVec.getLsbD_eq_getElem (by omega)]
      congr 1
      omega
    · split
      · rw [BitVec.getLsbD_eq_getElem (by omega)]
        congr 1
        omega
      · rw [BitVec.getLsbD_eq_getElem (by omega)]
        congr 1
        omega

/-- A half word read back from its two bytes. -/
@[simp] theorem be16_bytes (v : Half) : be16 (v.extractLsb' 8 8) (v.extractLsb' 0 8) = v := Machine.be16_extract v

/-- A byte string behind its length. -/
theorem takeBytes_append (v rest : List Byte) : takeBytes v.length (v ++ rest) = .ok (v, rest) := by
  simp [takeBytes]

/-- A row behind its length. -/
theorem takeWords_append (ws : List Word) (rest : List Byte) :
    takeWords ws.length (ws.flatMap bytesOf32 ++ rest) = .ok (ws, rest) := by
  induction ws with
  | nil => rfl
  | cons w ws ih =>
    simp only [List.flatMap_cons, List.append_assoc, List.length_cons]
    simp only [bytesOf32, List.cons_append, List.nil_append, takeWords]
    rw [ih]
    simp

/-- A 32-bit signed number survives its two's complement. -/
theorem toInt_ofInt_32 {q : Int} (h : -2 ^ 31 ≤ q) (h' : q < 2 ^ 31) : (BitVec.ofInt 32 q).toInt = q := by
  rw [BitVec.toInt_ofInt]
  exact Int.bmod_eq_of_le (by omega) (by omega)

end Sys2Proof
end

