-- ==== Sys2Proof/Laws/Instances.lean ====
section
/-! SUPPORT. What every instance of an OPEN function obeys, an implementer's opaque one among them: the gain of FDCT_FN
(R258), the range of the upsampler (R358) and the entries EXIF_FN may deliver (R381). -/

namespace Sys2Proof.Machine

/-! ## FDCT_FN -/

theorem clampInt_between {v lo hi : Int} (h : lo ≤ hi) : lo ≤ clampInt v lo hi ∧ clampInt v lo hi ≤ hi := by
  unfold clampInt
  omega

@[simp] theorem fdct_impl_getD (n : Nat) (smp : List Byte) (i : Nat) (h : i < 64) :
    (fdct (.impl n) smp).getD i 0 =
      clampInt (Config.fdctImpl n smp i) (gain8Low smp (i / 8) (i % 8)) (gain8High smp (i / 8) (i % 8)) := by
  simp [fdct, List.getD_eq_getElem?_getD, h]

/-- R258: a coefficient of an implementer's FDCT is no further than 4 from `8·F` (both times `2^48`). -/
theorem fdct_impl_gain (n : Nat) (smp : List Byte) (i : Nat) (h : i < 64) :
    (2 ^ 48 * (fdct (.impl n) smp).getD i 0 - gain8 smp (i / 8) (i % 8)).natAbs ≤ 4 * 2 ^ 48 := by
  rw [fdct_impl_getD n smp i h]
  have hl : gain8Low smp (i / 8) (i % 8) ≤ gain8High smp (i / 8) (i % 8) := by
    simp only [gain8Low, gain8High, shr]
    omega
  have hb := clampInt_between (v := Config.fdctImpl n smp i) hl
  simp only [gain8Low, gain8High, shr] at hb ⊢
  omega

/-! ## UPSAMPLE_MODE -/

theorem foldl_min_le (l : List Nat) (a : Nat) : l.foldl min a ≤ a ∧ ∀ x ∈ l, l.foldl min a ≤ x := by
  induction l generalizing a with
  | nil => simp
  | cons b l ih =>
    have := ih (min a b)
    simp only [List.foldl_cons, List.mem_cons, forall_eq_or_imp]
    exact ⟨by omega, by omega, this.2⟩

theorem le_foldl_max (l : List Nat) (a : Nat) : a ≤ l.foldl max a ∧ ∀ x ∈ l, x ≤ l.foldl max a := by
  induction l generalizing a with
  | nil => simp
  | cons b l ih =>
    have := ih (max a b)
    simp only [List.foldl_cons, List.mem_cons, forall_eq_or_imp]
    exact ⟨by omega, by omega, this.2⟩

/-- A bound below every element bounds the least one, when the least one's start is above it too. -/
theorem le_foldl_min {l : List Nat} {a m : Nat} (ha : m ≤ a) (h : ∀ x ∈ l, m ≤ x) : m ≤ l.foldl min a := by
  induction l generalizing a with
  | nil => exact ha
  | cons b l ih =>
    simp only [List.mem_cons, forall_eq_or_imp] at h
    exact ih (by omega) h.2

theorem foldl_max_le {l : List Nat} {a m : Nat} (ha : a ≤ m) (h : ∀ x ∈ l, x ≤ m) : l.foldl max a ≤ m := by
  induction l generalizing a with
  | nil => exact ha
  | cons b l ih =>
    simp only [List.mem_cons, forall_eq_or_imp] at h
    exact ih (by omega) h.2

/-- R358(b): where every sample an implementer's filter reads lies in `lo .. hi`, so does its output; `hi` is a sample. -/
theorem upsample_impl_between {d : Dec} {cfg : Config} {n : Nat} {i : Fin 4} {x y lo hi : Nat}
    (hu : cfg.upsample = .impl n) (hf : ¬((d.comp.get i).h = d.hmax ∧ (d.comp.get i).v = d.vmax)) (hhi : hi ≤ 255)
    (h : ∀ s ∈ d.upsampleReads cfg n i x y, lo ≤ s ∧ s ≤ hi) : lo ≤ d.upsample cfg i x y ∧ d.upsample cfg i x y ≤ hi := by
  have hne : ∃ s, s ∈ d.upsampleReads cfg n i x y := ⟨_, by simp only [Dec.upsampleReads, List.map_cons]; exact .head _⟩
  obtain ⟨s, hs⟩ := hne
  have h1 : lo ≤ (d.upsampleReads cfg n i x y).foldl min 255 := le_foldl_min (by have := h s hs; omega) fun x hx => (h x hx).1
  have h2 : (d.upsampleReads cfg n i x y).foldl max 0 ≤ hi := foldl_max_le (by omega) fun x hx => (h x hx).2
  have h3 := (foldl_min_le (d.upsampleReads cfg n i x y) 255).2 s hs
  have h4 := (le_foldl_max (d.upsampleReads cfg n i x y) 0).2 s hs
  simp only [Dec.upsample, hu, hf, if_false]
  omega

/-! ## EXIF_FN -/

/-- R381(c): a payload without an II or MM mark fails under every instance. -/
theorem exifExtract_unmarked {c : Choice} {p : List Byte} (h : exifMarked p = false) : exifExtract c p = none := by
  simp [exifExtract, h]

/-- R381(d): every tag delivered is that of an entry of IFD0 or of a sub-IFD chained to it. -/
theorem exifExtract_tags {c : Choice} {p : List Byte} {ts : List (Half × String)} (h : exifExtract c p = some ts) :
    ∀ t ∈ ts, ∃ e ∈ exifEntries p, e.tag = t.1 := by
  unfold exifExtract at h
  split at h
  · split at h
    · cases h; simp
    · split at h
      · cases h
      · cases h
        intro t ht
        obtain ⟨k, -, hk⟩ := List.mem_filterMap.mp ht
        obtain ⟨e, he, rfl⟩ := Option.map_eq_some_iff.mp hk
        exact ⟨e, List.mem_of_getElem? he, rfl⟩
  · cases h

/-- R381(d): an entry has one of the seven types. -/
theorem exifEntry_type {p : List Byte} {dir : ExifDir} {o : Nat} {e : ExifEntry} (h : exifEntry p dir o = some e) :
    e.type ∈ [1, 2, 3, 4, 5, 9, 10] := by
  simp only [exifEntry, Option.bind_eq_bind, Option.bind_eq_some_iff] at h
  obtain ⟨_, -, type, -, _, -, _, -, u, hu, he⟩ := h
  cases he
  unfold exifUnits at hu
  split at hu <;> simp_all

end Sys2Proof.Machine
end

