-- ==== Sys2Proof/Laws/Mq.lean ====
section
/-! SUPPORT. The arithmetic engine: what BYTEIN, RENORMD and a decision keep, and that RENORMD ends. -/

namespace Sys2Proof.Machine

/-- The top bit of a 16-bit interval. -/
theorem topBit (a : Half) : a.getLsbD 15 = decide (0x8000 ≤ a.toNat) := by
  rw [← BitVec.msb_eq_decide a, BitVec.msb_eq_getLsbD_last]

/-- The registers a byte brought in leaves alone, and the ranges it keeps (R234). -/
theorem Mq.byteIn_ok (m : Mq) :
    m.byteIn.seg = m.seg ∧ m.byteIn.a = m.a ∧ m.byteIn.cx = m.cx ∧ 7 ≤ m.byteIn.ct ∧ m.byteIn.ct ≤ 8 ∧
      (m.bp ≤ m.seg.length → m.byteIn.bp ≤ m.seg.length) := by
  unfold Mq.byteIn
  split
  · split
    · exact ⟨rfl, rfl, rfl, by simp, by simp, id⟩
    · rename_i hb
      refine ⟨rfl, rfl, rfl, by simp, by simp, fun _ => ?_⟩
      simp only
      by_contra hc
      apply hb
      simp [Mq.byte, List.getElem?_eq_none (show m.seg.length ≤ m.bp + 1 by omega)]
  · rename_i hb
    refine ⟨rfl, rfl, rfl, by simp, by simp, fun _ => ?_⟩
    simp only
    by_contra hc
    apply hb
    simp [Mq.byte, List.getElem?_eq_none (show m.seg.length ≤ m.bp by omega)]

/-- One turn of RENORMD's loop doubles the interval (R237). -/
theorem Mq.shift_ok (m : Mq) :
    m.shift.seg = m.seg ∧ m.shift.a = m.a <<< 1 ∧ m.shift.cx = m.cx ∧ (m.ct ≤ 8 → m.shift.ct ≤ 8) ∧
      (m.bp ≤ m.seg.length → m.shift.bp ≤ m.seg.length) := by
  unfold Mq.shift
  split
  · obtain ⟨h1, h2, h3, -, h5, h6⟩ := Mq.byteIn_ok m
    exact ⟨h1, by simp [h2], h3, fun _ => by simp only; omega, h6⟩
  · exact ⟨rfl, rfl, rfl, fun h => by simp only; omega, id⟩

theorem Mq.renormFrom_ok {fuel : Nat} {m m' : Mq} (h : Mq.renormFrom fuel m = some m') :
    m'.seg = m.seg ∧ m'.cx = m.cx ∧ 0x8000 ≤ m'.a.toNat ∧ (m.ct ≤ 8 → m'.ct ≤ 8) ∧
      (m.bp ≤ m.seg.length → m'.bp ≤ m.seg.length) := by
  induction fuel generalizing m with
  | zero => cases h
  | succ fuel ih =>
    obtain ⟨h1, -, h3, h4, h5⟩ := Mq.shift_ok m
    simp only [Mq.renormFrom] at h
    split at h
    · rename_i hb
      cases h
      refine ⟨h1, h3, ?_, h4, h5⟩
      rw [topBit, decide_eq_true_eq] at hb
      exact hb
    · obtain ⟨g1, g2, g3, g4, g5⟩ := ih h
      exact ⟨g1.trans h1, g2.trans h3, g3, fun hc => g4 (h4 hc), fun hb => by rw [h1] at g5; exact g5 (h5 hb)⟩

/-- RENORMD of a non-zero interval ends (R237): the interval is doubled at most 16 times. -/
theorem Mq.renormFrom_some {fuel : Nat} {m : Mq} (hf : 2 ^ 15 ≤ m.a.toNat * 2 ^ fuel) (h0 : m.a.toNat < 2 ^ 15) :
    ∃ m', Mq.renormFrom fuel m = some m' := by
  induction fuel generalizing m with
  | zero => simp at hf; omega
  | succ fuel ih =>
    have hs : m.shift.a.toNat = m.a.toNat * 2 := by
      rw [(Mq.shift_ok m).2.1]
      simp [Nat.shiftLeft_eq]
      omega
    simp only [Mq.renormFrom]
    split
    · exact ⟨_, rfl⟩
    · rename_i hb
      refine ih ?_ ?_
      · rw [hs]
        rw [Nat.pow_succ] at hf
        calc _ ≤ _ := hf
          _ = _ := by ring
      · rw [topBit, decide_eq_true_eq] at hb
        omega

theorem Mq.renorm_some {m : Mq} (h : m.a.toNat ≠ 0) (h0 : m.a.toNat < 2 ^ 15) : ∃ m', m.renorm = some m' :=
  Mq.renormFrom_some (by omega) h0

/-- Every row of the QE table has an estimate of 1..0x5601 and next states in 0..46 (R232). -/
theorem qeRom_ok {i : Nat} {q : QeRow} (h : qeRom[i]? = some q) :
    1 ≤ q.qe ∧ q.qe ≤ 0x5601 ∧ q.nmps ≤ 46 ∧ q.nlps ≤ 46 := by
  have hall : ∀ q ∈ qeRom, 1 ≤ q.qe ∧ q.qe ≤ 0x5601 ∧ q.nmps ≤ 46 ∧ q.nlps ≤ 46 := by decide
  exact hall q (List.mem_of_getElem? h)

/-- A context of the file has a row. -/
theorem qeRom_some {i : Nat} (h : i ≤ 46) : ∃ q, qeRom[i]? = some q :=
  ⟨_, List.getElem?_eq_getElem (show i < qeRom.length by have : qeRom.length = 47 := rfl; omega)⟩

/-- What a decision leaves (R235 to R237): ranges kept, one context changed to a row's next state. -/
theorem Mq.decision_ok {m m' : Mq} {cx : Nat} {c : Ctx} {q : QeRow} {d : Bool} (h : m.decision cx c q = some (d, m'))
    (hct : m.ct ≤ 8) (hbp : m.bp ≤ m.seg.length) :
    m'.seg = m.seg ∧ 0x8000 ≤ m'.a.toNat ∧ m'.ct ≤ 8 ∧ m'.bp ≤ m.seg.length ∧
      (m'.cx = m.cx ∨ m'.cx = m.cx.set cx (ctxLps c q) ∨ m'.cx = m.cx.set cx (ctxMps c q)) := by
  have key : ∀ {n : Mq}, Mq.renorm n = some m' → n.seg = m.seg → n.ct = m.ct → n.bp = m.bp →
      (n.cx = m.cx ∨ n.cx = m.cx.set cx (ctxLps c q) ∨ n.cx = m.cx.set cx (ctxMps c q)) →
      m'.seg = m.seg ∧ 0x8000 ≤ m'.a.toNat ∧ m'.ct ≤ 8 ∧ m'.bp ≤ m.seg.length ∧
        (m'.cx = m.cx ∨ m'.cx = m.cx.set cx (ctxLps c q) ∨ m'.cx = m.cx.set cx (ctxMps c q)) := by
    intro n hn h1 h2 h3 h4
    obtain ⟨g1, g2, g3, g4, g5⟩ := Mq.renormFrom_ok hn
    rw [h1, h3] at g5
    exact ⟨g1.trans h1, g3, g4 (h2 ▸ hct), g5 hbp, by rw [g2]; exact h4⟩
  unfold Mq.decision at h
  simp only at h
  split at h
  · unfold renormed Mq.lpsExchange at h
    split at h <;>
      (simp only [Option.map_eq_some_iff, Prod.mk.injEq] at h
       obtain ⟨n, hn, -, rfl⟩ := h
       exact key hn rfl rfl rfl (by simp [Mq.setCx]))
  · split at h
    · rename_i hb
      simp only [Option.some.injEq, Prod.mk.injEq] at h
      obtain ⟨-, rfl⟩ := h
      refine ⟨rfl, ?_, hct, hbp, .inl rfl⟩
      rw [topBit, decide_eq_true_eq] at hb
      exact hb
    · unfold renormed Mq.mpsExchange at h
      split at h <;>
        (simp only [Option.map_eq_some_iff, Prod.mk.injEq] at h
         obtain ⟨n, hn, -, rfl⟩ := h
         exact key hn rfl rfl rfl (by simp [Mq.setCx]))

end Sys2Proof.Machine
end

