-- ==== Sys2Proof/Laws/Observation.lean ====
section
/-! SUPPORT. What the observation of a run (R21, R489) becomes when a command returns: one more outcome of its own unit's
run, none of the other's; and a run begins at RESET or at the ENC_INIT that opens the encoder. -/

namespace Sys2Proof.Machine

theorem fromLast_append {α : Type} (p : α → Bool) (l : List α) (a : α) :
    fromLast p (l ++ [a]) = if p a then [a] else fromLast p l ++ [a] := by
  induction l with
  | nil => simp [fromLast]
  | cons b l ih =>
    cases ha : p a <;> cases hl : l.any p <;> simp [fromLast, List.any_append, ha, hl, ih]

@[simp] theorem outcomesOf_append (p : Command → Bool) (l : List (Command × Result)) (c : Command) (r : Result) :
    outcomesOf p (l ++ [(c, r)]) = outcomesOf p l ++ if p c then [r] else [] := by
  cases h : p c <;> simp [outcomesOf, h]

/-- A command other than RESET adds its outcome to the decode run when it is a DECODE, and nothing otherwise. -/
theorem decodeOutcomes_append {s t : State} {c : Command} {r : Result} (h : t.results = s.results ++ [(c, r)])
    (hc : c ≠ .reset) : t.decodeOutcomes = s.decodeOutcomes ++ if c = .decode then [r] else [] := by
  simp [State.decodeOutcomes, h, fromLast_append, hc]

/-- RESET begins a decode run and ends what an encoder run shows. -/
theorem outcomes_reset {s t : State} (h : t.results = s.results ++ [(.reset, .ok)]) :
    t.decodeOutcomes = [] ∧ t.encOutcomes = [] := by
  simp [State.decodeOutcomes, State.encOutcomes, h, fromLast_append, outcomesOf]

/-- The ENC_INIT that opens the encoder begins an encoder run. -/
theorem encOutcomes_opened {s t : State} (h : t.results = s.results ++ [(.encInit, .ok)]) : t.encOutcomes = [.ok] := by
  simp [State.encOutcomes, h, fromLast_append, outcomesOf]

end Sys2Proof.Machine
end

