-- ==== Sys2Proof/Laws/PerInstr.lean ====
section
/-! SUPPORT. Statements for all instructions, one lemma per constructor: the shape of an instruction's encoding. -/

namespace Sys2Proof.Laws.EncodingShape

open Sys2Proof

/-- The shape of an instruction's encoding: a marker is two bytes, the first 0xFF (R101); a symbol, or a raw bit, is one
byte (R115, R116); a host command begins with an id, and is what the host's call is (R122). -/
def Statement (i : Instr) : Prop :=
  match ctxOf i with
  | .marker => (encode i).length = 2 ∧ (encode i).head? = some 0xFF ∧ callOf i = none
  | .dcSymbol => (encode i).length = 1 ∧ callOf i = none
  | .acSymbol => (encode i).length = 1 ∧ callOf i = none
  | .rawBit => (encode i).length = 1 ∧ callOf i = none
  | .call => (encode i).head?.isSome = true ∧ ∃ c, callOf i = some c ∧ c.toInstr = i

theorem tem : Statement .tem := ⟨rfl, rfl, rfl⟩

theorem sof0 : Statement .sof0 := ⟨rfl, rfl, rfl⟩

theorem sof1 : Statement .sof1 := ⟨rfl, rfl, rfl⟩

theorem sof2 : Statement .sof2 := ⟨rfl, rfl, rfl⟩

theorem sof3 : Statement .sof3 := ⟨rfl, rfl, rfl⟩

theorem sof5 : Statement .sof5 := ⟨rfl, rfl, rfl⟩

theorem sof6 : Statement .sof6 := ⟨rfl, rfl, rfl⟩

theorem sof7 : Statement .sof7 := ⟨rfl, rfl, rfl⟩

theorem sof9 : Statement .sof9 := ⟨rfl, rfl, rfl⟩

theorem sof10 : Statement .sof10 := ⟨rfl, rfl, rfl⟩

theorem sof11 : Statement .sof11 := ⟨rfl, rfl, rfl⟩

theorem sof13 : Statement .sof13 := ⟨rfl, rfl, rfl⟩

theorem sof14 : Statement .sof14 := ⟨rfl, rfl, rfl⟩

theorem sof15 : Statement .sof15 := ⟨rfl, rfl, rfl⟩

theorem dht : Statement .dht := ⟨rfl, rfl, rfl⟩

theorem jpg : Statement .jpg := ⟨rfl, rfl, rfl⟩

theorem dac : Statement .dac := ⟨rfl, rfl, rfl⟩

theorem rst0 : Statement .rst0 := ⟨rfl, rfl, rfl⟩

theorem rst1 : Statement .rst1 := ⟨rfl, rfl, rfl⟩

theorem rst2 : Statement .rst2 := ⟨rfl, rfl, rfl⟩

theorem rst3 : Statement .rst3 := ⟨rfl, rfl, rfl⟩

theorem rst4 : Statement .rst4 := ⟨rfl, rfl, rfl⟩

theorem rst5 : Statement .rst5 := ⟨rfl, rfl, rfl⟩

theorem rst6 : Statement .rst6 := ⟨rfl, rfl, rfl⟩

theorem rst7 : Statement .rst7 := ⟨rfl, rfl, rfl⟩

theorem soi : Statement .soi := ⟨rfl, rfl, rfl⟩

theorem eoi : Statement .eoi := ⟨rfl, rfl, rfl⟩

theorem sos : Statement .sos := ⟨rfl, rfl, rfl⟩

theorem dqt : Statement .dqt := ⟨rfl, rfl, rfl⟩

theorem dnl : Statement .dnl := ⟨rfl, rfl, rfl⟩

theorem dri : Statement .dri := ⟨rfl, rfl, rfl⟩

theorem dhp : Statement .dhp := ⟨rfl, rfl, rfl⟩

theorem exp : Statement .exp := ⟨rfl, rfl, rfl⟩

theorem app0 : Statement .app0 := ⟨rfl, rfl, rfl⟩

theorem app1 : Statement .app1 := ⟨rfl, rfl, rfl⟩

theorem app2 : Statement .app2 := ⟨rfl, rfl, rfl⟩

theorem app3 : Statement .app3 := ⟨rfl, rfl, rfl⟩

theorem app4 : Statement .app4 := ⟨rfl, rfl, rfl⟩

theorem app5 : Statement .app5 := ⟨rfl, rfl, rfl⟩

theorem app6 : Statement .app6 := ⟨rfl, rfl, rfl⟩

theorem app7 : Statement .app7 := ⟨rfl, rfl, rfl⟩

theorem app8 : Statement .app8 := ⟨rfl, rfl, rfl⟩

theorem app9 : Statement .app9 := ⟨rfl, rfl, rfl⟩

theorem app10 : Statement .app10 := ⟨rfl, rfl, rfl⟩

theorem app11 : Statement .app11 := ⟨rfl, rfl, rfl⟩

theorem app12 : Statement .app12 := ⟨rfl, rfl, rfl⟩

theorem app13 : Statement .app13 := ⟨rfl, rfl, rfl⟩

theorem app14 : Statement .app14 := ⟨rfl, rfl, rfl⟩

theorem app15 : Statement .app15 := ⟨rfl, rfl, rfl⟩

theorem jpg0 : Statement .jpg0 := ⟨rfl, rfl, rfl⟩

theorem jpg1 : Statement .jpg1 := ⟨rfl, rfl, rfl⟩

theorem jpg2 : Statement .jpg2 := ⟨rfl, rfl, rfl⟩

theorem jpg3 : Statement .jpg3 := ⟨rfl, rfl, rfl⟩

theorem jpg4 : Statement .jpg4 := ⟨rfl, rfl, rfl⟩

theorem jpg5 : Statement .jpg5 := ⟨rfl, rfl, rfl⟩

theorem jpg6 : Statement .jpg6 := ⟨rfl, rfl, rfl⟩

theorem jpg7 : Statement .jpg7 := ⟨rfl, rfl, rfl⟩

theorem jpg8 : Statement .jpg8 := ⟨rfl, rfl, rfl⟩

theorem jpg9 : Statement .jpg9 := ⟨rfl, rfl, rfl⟩

theorem jpg10 : Statement .jpg10 := ⟨rfl, rfl, rfl⟩

theorem jpg11 : Statement .jpg11 := ⟨rfl, rfl, rfl⟩

theorem jpg12 : Statement .jpg12 := ⟨rfl, rfl, rfl⟩

theorem jpg13 : Statement .jpg13 := ⟨rfl, rfl, rfl⟩

theorem com : Statement .com := ⟨rfl, rfl, rfl⟩

theorem res (m : Byte) : Statement (.res m) := ⟨rfl, rfl, rfl⟩

theorem dcDiff (t : BitVec 4) : Statement (.dcDiff t) := ⟨rfl, rfl⟩

theorem dcRefineBit (b : Bool) : Statement (.dcRefineBit b) := ⟨rfl, rfl⟩

theorem acEob : Statement .acEob := ⟨rfl, rfl⟩

theorem acZrl : Statement .acZrl := ⟨rfl, rfl⟩

theorem acEobRun (r : BitVec 4) : Statement (.acEobRun r) := ⟨rfl, rfl⟩

theorem acRunSize (r s : BitVec 4) : Statement (.acRunSize r s) := ⟨rfl, rfl⟩

theorem decode (bytes : List Byte) (more : Bool) : Statement (.decode bytes more) := ⟨rfl, _, rfl, rfl⟩

theorem flushProgressive : Statement .flushProgressive := ⟨rfl, _, rfl, rfl⟩

theorem reset : Statement .reset := ⟨rfl, _, rfl, rfl⟩

theorem encInit (quality : Int) (width height : Nat) : Statement (.encInit quality width height) := ⟨rfl, _, rfl, rfl⟩

theorem encScanline (row : List Word) : Statement (.encScanline row) := ⟨rfl, _, rfl, rfl⟩

theorem encFinish : Statement .encFinish := ⟨rfl, _, rfl, rfl⟩

theorem mqInitDec (seg : List Byte) : Statement (.mqInitDec seg) := ⟨rfl, _, rfl, rfl⟩

theorem mqDecode (cx : Nat) : Statement (.mqDecode cx) := ⟨rfl, _, rfl, rfl⟩

theorem mqResetCtx : Statement .mqResetCtx := ⟨rfl, _, rfl, rfl⟩

end Sys2Proof.Laws.EncodingShape
end

