-- ==== Sys2Proof/Laws/Safety.lean ====
section
/-! SUPPORT. What Safety.lean spells for the statements is what the machine computes: the legality and the mode of a scan,
the turns of RENORMD, and when BUILD refuses a table's counts. -/

namespace Sys2Proof.Machine

theorem legalScan_iff (progressive : Bool) (ns ss se ah al : Nat) :
    legalScan progressive ns ss se ah al = true ↔ lawfulScan progressive ns ss se ah al := by
  cases progressive
  · simp [legalScan, lawfulScan, and_assoc]
  · by_cases h : ss = 0
    · simp [legalScan, lawfulScan, h, and_assoc]
    · have h1 : 1 ≤ ss := by omega
      simp [legalScan, lawfulScan, h, h1, and_assoc]

theorem scanMode_eq (progressive : Bool) (ss ah : Nat) : scanMode progressive ss ah = modeOf progressive ss ah := by
  cases progressive
  · rfl
  · by_cases h : ss = 0 <;> by_cases g : ah = 0 <;> simp [scanMode, modeOf, h, g]

/-- A register doubled, as a number. -/
theorem shiftLeft_one {w : Nat} (c : BitVec w) : c <<< 1 = BitVec.ofNat w (2 * c.toNat) := by
  apply BitVec.eq_of_toNat_eq
  simp [Nat.shiftLeft_eq, Nat.mul_comm]

/-- A byte in place 2^n of a word, as a number. -/
theorem byteAt_toNat (b : Byte) {n : Nat} (h : n ≤ 24) : (b.setWidth 32 <<< n).toNat = b.toNat * 2 ^ n := by
  have hb := b.isLt
  have hp : 2 ^ n ≤ 2 ^ 24 := Nat.pow_le_pow_right (by decide) h
  have hm : b.toNat * 2 ^ n < 2 ^ 32 := calc
    _ < 2 ^ 8 * 2 ^ n := Nat.mul_lt_mul_of_pos_right hb (Nat.two_pow_pos n)
    _ ≤ 2 ^ 8 * 2 ^ 24 := Nat.mul_le_mul_left _ hp
    _ = 2 ^ 32 := by decide
  simp only [BitVec.toNat_shiftLeft, BitVec.toNat_setWidth, Nat.shiftLeft_eq]
  rw [Nat.mod_eq_of_lt (show b.toNat < 2 ^ 32 by omega), Nat.mod_eq_of_lt hm]

/-- A sum doubled, as a number. -/
theorem add_shiftLeft_one (c x : Word) : (c + x) <<< 1 = BitVec.ofNat 32 (2 * (c.toNat + x.toNat)) := by
  rw [shiftLeft_one]
  apply BitVec.eq_of_toNat_eq
  simp

/-- RENORMD's loop body makes one turn (R237). -/
theorem Mq.shift_turn (m : Mq) : MqTurn m m.shift := by
  obtain ⟨h1, h2, h3, -⟩ := Mq.shift_ok m
  refine ⟨h1, h3, by rw [h2, shiftLeft_one], fun b0 b1 e0 e1 => ?_⟩
  by_cases hc : m.ct = 0
  · rw [if_neg (by omega)]
    have hs : m.shift = { m.byteIn with a := m.byteIn.a <<< 1, c := m.byteIn.c <<< 1, ct := m.byteIn.ct - 1 } := by
      simp [Mq.shift, hc]
    rw [hs]
    unfold Mq.byteIn Mq.byte
    rw [← e0, ← e1]
    by_cases hb : b0 = 0xFF
    · by_cases h8 : 0x8F < b1.toNat
      · simp only [and_self, hb, h8, if_true]
        exact ⟨add_shiftLeft_one _ _, trivial⟩
      · simp only [hb, h8, if_true, if_false, and_false]
        exact ⟨by rw [add_shiftLeft_one, byteAt_toNat b1 (by decide)], trivial, trivial⟩
    · simp only [hb, if_false, false_and]
      exact ⟨by rw [add_shiftLeft_one, byteAt_toNat b1 (by decide)], trivial, trivial⟩
  · rw [if_pos (by omega)]
    have hs : m.shift = { m with a := m.a <<< 1, c := m.c <<< 1, ct := m.ct - 1 } := by simp [Mq.shift, hc]
    rw [hs]
    exact ⟨shiftLeft_one _, rfl, rfl⟩

/-- Where RENORMD ends, its turns lead (R237). -/
theorem Mq.renormFrom_renormed {fuel : Nat} {m m' : Mq} (h : Mq.renormFrom fuel m = some m') : MqRenormed m m' := by
  induction fuel generalizing m with
  | zero => cases h
  | succ fuel ih =>
    simp only [Mq.renormFrom, topBit] at h
    split at h <;> rename_i hb <;> simp only [decide_eq_true_eq] at hb
    · cases h
      exact .last _ _ m.shift_turn hb
    · exact .more _ _ _ m.shift_turn (by omega) (ih h)

/-- The codes of one length fit it, or BUILD refuses them (R171). -/
theorem codesOfLen_eq_none {l count code : Nat} : codesOfLen l count code = none ↔ 0 < count ∧ 2 ^ l < code + count := by
  induction count generalizing code with
  | zero => simp [codesOfLen]
  | succ count ih =>
    simp only [codesOfLen]
    split
    · simp; omega
    · simp [ih]; omega

/-- BUILD refuses the counts whose codes do not fit 16 bits (R171): `code` is the first code of length `l`, and each code of
length `l + i` takes 2^(16 - l - i) of the 2^16 places. -/
theorem buildFrom_none {counts : List Nat} {l code j : Nat} (hl : l + counts.length = 17) (h16 : l ≤ 16)
    (hc : code ≤ 2 ^ l)
    (h : 2 ^ 16 < code * 2 ^ (16 - l) + ((List.range counts.length).map fun i => counts.getD i 0 * 2 ^ (16 - l - i)).sum) :
    buildFrom counts l code j = none := by
  induction counts generalizing l code j with
  | nil =>
    simp at hl
    omega
  | cons n counts ih =>
    simp only [List.length_cons] at hl
    have hp : 2 ^ l * 2 ^ (16 - l) = 2 ^ 16 := by rw [← Nat.pow_add]; congr 1; omega
    simp only [buildFrom]
    split
    · rfl
    · rename_i hs
      have hf : codesOfLen l n code ≠ none := by rw [hs]; simp
      rw [Ne, codesOfLen_eq_none] at hf
      have hfit : code + n ≤ 2 ^ l := by omega
      rw [List.length_cons, List.range_succ_eq_map] at h
      by_cases hn : counts = []
      · subst hn
        simp at hl h
        subst hl
        omega
      · have hlen : 0 < counts.length := List.length_pos_iff.2 hn
        rw [ih (by omega) (by omega) (by rw [Nat.pow_succ]; omega)]
        have hd : 2 ^ (16 - l) = 2 * 2 ^ (16 - (l + 1)) := by
          rw [show 16 - l = 16 - (l + 1) + 1 by omega, Nat.pow_succ, Nat.mul_comm]
        have he : ((List.range counts.length).map ((fun i => (n :: counts).getD i 0 * 2 ^ (16 - l - i)) ∘ Nat.succ)) =
            (List.range counts.length).map fun i => counts.getD i 0 * 2 ^ (16 - (l + 1) - i) := by
          apply List.map_congr_left
          intro i _
          simp only [Function.comp, Nat.succ_eq_add_one, List.getD_cons_succ]
          rw [show 16 - l - (i + 1) = 16 - (l + 1) - i by omega]
        simp only [List.map_cons, List.map_map, List.sum_cons, List.getD_cons_zero, Nat.sub_zero] at h
        rw [he, hd] at h
        calc _ < _ := h
          _ = _ := by ring

/-- BUILD refuses 16 counts whose codes take more than the 2^16 places of 16 bits (R171). -/
theorem build_none {bits huffval : List Byte} (hl : bits.length = 16)
    (h : 2 ^ 16 < ((List.range 16).map fun l => (bits.getD l 0).toNat * 2 ^ (15 - l)).sum) : build bits huffval = none := by
  unfold build
  rw [buildFrom_none (by simp [hl]) (by decide) (by simp)]
  simp only [Nat.zero_mul, Nat.zero_add, List.length_map, hl]
  convert h using 5 with i
  simp [List.getD_eq_getElem?_getD, List.getElem?_map]
  cases bits[i]? <;> simp

end Sys2Proof.Machine
end

