-- ==== Sys2Proof/Laws/Units.lean ====
section
/-! SUPPORT. One lemma per handler: everything it can answer when it does not suspend, raise or fault. -/

namespace Sys2Proof.Machine

/-! ## Segments and markers -/

theorem Dec.skipSegment_ok {d : Dec} {v : List Byte} {u : UnitDone} (h : d.skipSegment v = .ok u) :
    ∃ n, 2 + n ≤ d.avail v ∧ u = .commit (d.advance (2 + n)) [] := by
  simp only [Dec.skipSegment, except_bind_ok, Dec.preamble_ok_iff, commit, Except.ok.injEq] at h
  obtain ⟨lx, ⟨-, -, -, ha⟩, rfl⟩ := h
  exact ⟨lx, ha, rfl⟩

theorem Dec.app0_ok {d : Dec} {v : List Byte} {u : UnitDone} (h : d.app0 v = .ok u) :
    ∃ n j, 2 + n ≤ d.avail v ∧ u = .commit { d.advance (2 + n) with jfif := j } [] := by
  simp only [Dec.app0, except_bind_ok, Dec.preamble_ok_iff, commit, Except.ok.injEq] at h
  obtain ⟨lx, ⟨-, -, -, ha⟩, rfl⟩ := h
  split
  · exact ⟨lx, _, ha, rfl⟩
  · exact ⟨lx, d.jfif, ha, rfl⟩

theorem Dec.app1_ok {d : Dec} {cfg : Config} {v : List Byte} {u : UnitDone} (h : d.app1 cfg v = .ok u) :
    ∃ n evs, 2 + n ≤ d.avail v ∧ Event.finished ∉ evs ∧ u = .commit (d.advance (2 + n)) evs := by
  simp only [Dec.app1, except_bind_ok, Dec.preamble_ok_iff] at h
  obtain ⟨lx, ⟨-, -, -, ha⟩, h⟩ := h
  split at h
  · split at h
    · simp [raise] at h
    · simp only [Except.ok.injEq] at h
      exact ⟨lx, _, ha, by simp, h.symm⟩
  · simp only [commit, Except.ok.injEq] at h
    exact ⟨lx, [], ha, by simp, h.symm⟩

theorem Icc.chunk_events (c : Icc) (seq cnt : Nat) (data : List Byte) : Event.finished ∉ (c.chunk seq cnt data).2 := by
  simp only [Icc.chunk]
  split
  · simp
  · split <;> simp

theorem Dec.app2_ok {d : Dec} {v : List Byte} {u : UnitDone} (h : d.app2 v = .ok u) :
    ∃ n c evs, 2 + n ≤ d.avail v ∧ Event.finished ∉ evs ∧ u = .commit { d.advance (2 + n) with icc := c } evs := by
  simp only [Dec.app2, except_bind_ok, Dec.preamble_ok_iff] at h
  obtain ⟨lx, ⟨-, -, -, ha⟩, h⟩ := h
  split at h
  · simp only [Except.ok.injEq] at h
    exact ⟨lx, _, _, ha, Icc.chunk_events _ _ _ _, h.symm⟩
  · simp only [commit, Except.ok.injEq] at h
    exact ⟨lx, d.icc, [], ha, by simp, h.symm⟩

theorem Dec.app14_ok {d : Dec} {v : List Byte} {u : UnitDone} (h : d.app14 v = .ok u) :
    ∃ n a, 2 + n ≤ d.avail v ∧ u = .commit { d.advance (2 + n) with adobe := a } [] := by
  simp only [Dec.app14, except_bind_ok, Dec.preamble_ok_iff, commit, Except.ok.injEq] at h
  obtain ⟨lx, ⟨-, -, -, ha⟩, rfl⟩ := h
  split
  · exact ⟨lx, _, ha, rfl⟩
  · exact ⟨lx, d.adobe, ha, rfl⟩

theorem Dec.dri_ok {d : Dec} {v : List Byte} {u : UnitDone} (h : d.dri v = .ok u) :
    6 ≤ d.avail v ∧ u = .commit { d.advance 6 with ri := d.be16 v 4 } [] := by
  simp only [Dec.dri, except_bind_ok, Dec.preamble_ok_iff, failIf_ok_iff, commit, Except.ok.injEq] at h
  obtain ⟨lx, ⟨-, -, -, ha⟩, -, hx, rfl⟩ := h
  obtain rfl : lx = 4 := by simpa using hx
  exact ⟨ha, rfl⟩

/-- Storing quantization tables changes QT only. -/
theorem Dec.foldl_storeQt (qs : List QDef) (d : Dec) :
    qs.foldl Dec.storeQt d =
      { d with qt := qs.foldl (fun t q => t.set q.tq { isDefined := true, pq := q.pq, q := q.q }) d.qt } := by
  induction qs generalizing d with
  | nil => rfl
  | cons q qs ih => rw [List.foldl_cons, List.foldl_cons, ih]; rfl

/-- Storing Huffman tables changes HT only. -/
theorem Dec.foldl_storeHt (hs : List HDef) (d : Dec) :
    hs.foldl Dec.storeHt d =
      { d with
        htDc := hs.foldl (fun t h => if h.isAc then t else t.set h.th h.entry) d.htDc
        htAc := hs.foldl (fun t h => if h.isAc then t.set h.th h.entry else t) d.htAc } := by
  induction hs generalizing d with
  | nil => rfl
  | cons h hs ih =>
    rw [List.foldl_cons, List.foldl_cons, List.foldl_cons, ih]
    unfold Dec.storeHt
    split <;> rfl

theorem Dec.dqt_ok {d : Dec} {v : List Byte} {u : UnitDone} (h : d.dqt v = .ok u) :
    ∃ n q, 2 + n ≤ d.avail v ∧ u = .commit { d.advance (2 + n) with qt := q } [] := by
  simp only [Dec.dqt, except_bind_ok, Dec.preamble_ok_iff, commit, Except.ok.injEq] at h
  obtain ⟨lx, ⟨-, -, -, ha⟩, defs, -, rfl⟩ := h
  exact ⟨lx, _, ha, by rw [Dec.foldl_storeQt]; rfl⟩

theorem Dec.dht_ok {d : Dec} {v : List Byte} {u : UnitDone} (h : d.dht v = .ok u) :
    ∃ n p q, 2 + n ≤ d.avail v ∧ u = .commit { d.advance (2 + n) with htDc := p, htAc := q } [] := by
  simp only [Dec.dht, except_bind_ok, Dec.preamble_ok_iff, commit, Except.ok.injEq] at h
  obtain ⟨lx, ⟨-, -, -, ha⟩, defs, -, rfl⟩ := h
  exact ⟨lx, _, _, ha, by rw [Dec.foldl_storeHt]; rfl⟩

/-- INIT_ENTROPY changes of a component its predictor only (R208). -/
theorem Dec.initEntropy_get (d : Dec) (i : Fin 4) :
    d.initEntropy.comp.get i = { d.comp.get i with pred := (d.initEntropy.comp.get i).pred } := by
  match i with
  | 0 | 1 | 2 | 3 => simp only [Dec.initEntropy, Quad.get]; split <;> rfl

theorem Dec.sos_ok {d : Dec} {v : List Byte} {u : UnitDone} (h : d.sos v = .ok u) :
    ∃ n sc ss se ah al, 2 + n ≤ d.avail v ∧ u = .commit ((d.startScan sc ss se ah al).advance (2 + n)) [] := by
  simp only [Dec.sos, except_bind_ok, Dec.preamble_ok_iff, commit, Except.ok.injEq] at h
  obtain ⟨lx, ⟨-, -, -, ha⟩, -, -, -, -, sc, -, -, -, -, -, -, -, -, -, rfl⟩ := h
  exact ⟨lx, _, _, _, _, _, ha, rfl⟩

theorem Dec.readSof_ok {d : Dec} {v : List Byte} {f : SofFields} (h : d.readSof v = .ok f) :
    10 ≤ d.avail v ∧ f = { y := d.be16 v 5, x := d.be16 v 7, nf := (d.inp v 9).toNat } ∧
      (f.nf = 1 ∨ f.nf = 3 ∨ f.nf = 4) ∧ f.x ≠ 0 ∧ f.y ≠ 0 := by
  simp only [Dec.readSof, except_bind_ok, Dec.need_ok_iff, failIf_ok_iff, Except.ok.injEq] at h
  obtain ⟨-, -, -, -, -, h10, -, -, -, hd, -, hn, -, -, rfl⟩ := h
  refine ⟨h10, rfl, ?_, ?_, ?_⟩
  · simp at hn
    simp only
    omega
  · intro h0; simp at hd; exact hd.2 h0
  · intro h0; simp at hd; exact hd.1 h0

theorem Dec.sofHeader_ok {d : Dec} {k : Fin 3} {v : List Byte} {u : UnitDone} (h : d.sofHeader k v = .ok u) :
    ∃ f, 10 ≤ d.avail v ∧ u = .commit ((if d.fsm = .frame then d.abortFrame else d).withHeader k f) (sofEvents k f) := by
  simp only [Dec.sofHeader, except_bind_ok, Except.ok.injEq] at h
  obtain ⟨f, hf, rfl⟩ := h
  refine ⟨f, ?_, rfl⟩
  have := (Dec.readSof_ok hf).1
  split at this <;> simpa [Dec.avail] using this

theorem Dec.sofBody_ok {d : Dec} {cfg : Config} {v : List Byte} {u : UnitDone} (h : d.sofBody cfg v = .ok u) :
    ∃ c, 3 * d.frame.nf ≤ d.avail v ∧
      u = .commit { d with comp := c, planes := Planes.zero, cur := d.cur + 3 * d.frame.nf
                           frame := { d.frame with valid := true }, fsm := .frame } [] := by
  simp only [Dec.sofBody, except_bind_ok, Dec.need_ok_iff] at h
  obtain ⟨-, ha, cs, -, h⟩ := h
  split at h
  · cases h
  · simp only [commit, Except.ok.injEq] at h
    exact ⟨_, ha, h.symm⟩

theorem Dec.lines_finished (d : Dec) (cfg : Config) (lo hi : Nat) : Event.finished ∉ d.lines cfg lo hi := by
  simp [Dec.lines]

theorem Dec.flushFrom_events (d : Dec) (cfg : Config) (mayAsk : Bool) (n m : Nat) (ask : Bool) (ans : List Bool) :
    Event.finished ∉ (d.flushFrom cfg mayAsk n m ask ans).events := by
  induction n generalizing m ask ans with
  | zero => simp [Dec.flushFrom]
  | succ n ih =>
    simp only [Dec.flushFrom]
    split
    · simp
    · simp only [List.mem_append, not_or]
      exact ⟨Dec.lines_finished _ _ _ _, ih _ _ _⟩

theorem Dec.eoi_ok {d : Dec} {cfg : Config} {u : UnitDone} (h : d.eoi cfg = .ok u) :
    ∃ fl evs, Event.finished ∉ evs ∧
      u = .commit { d with flush := fl, planes := Planes.free, frame := { d.frame with valid := false }
                           cur := d.cur + 2, fsm := .done } (evs ++ [.finished]) := by
  simp only [Dec.eoi, except_bind_ok, Except.ok.injEq] at h
  obtain ⟨-, -, ⟨fl, evs⟩, hf, rfl⟩ := h
  refine ⟨fl, evs, ?_, rfl⟩
  unfold Dec.eoiFlush at hf
  split at hf
  · simp only [except_bind_ok, Except.ok.injEq, Prod.mk.injEq] at hf
    obtain ⟨-, -, -, rfl⟩ := hf
    exact Dec.flushFrom_events _ _ _ _ _ _ _
  · simp only [Except.ok.injEq, Prod.mk.injEq] at hf
    obtain ⟨-, rfl⟩ := hf
    simp

theorem Dec.restart_ok (d : Dec) :
    d.restart = .ok (.commit
      { d with cur := d.cur + 2, fsm := .restart, comp := d.initEntropy.comp, bb := { d.bb with cnt := 0 }
               scan := { d.scan with eobrun := 0, rstLeft := d.ri, rstNext := d.scan.rstNext + 1 } } []) := rfl

theorem Dec.seqFinish_ok {d d' : Dec} {cfg : Config} {evs : List Event} (h : d.seqFinish cfg = .ok (d', evs)) :
    d' = { d with out := d'.out } ∧ Event.finished ∉ evs := by
  simp only [Dec.seqFinish, except_bind_ok, Except.ok.injEq, Prod.mk.injEq] at h
  obtain ⟨-, -, rfl, rfl⟩ := h
  exact ⟨rfl, Dec.lines_finished _ _ _ _⟩

theorem Dec.seqOutput_events {d d' : Dec} {cfg : Config} {evs : List Event} (h : d.seqOutput cfg = .ok (d', evs)) :
    Event.finished ∉ evs := by
  simp only [Dec.seqOutput] at h
  split at h
  · simp only [except_bind_ok, Except.ok.injEq, Prod.mk.injEq] at h
    obtain ⟨-, -, -, rfl⟩ := h
    exact Dec.lines_finished _ _ _ _
  · simp only [Except.ok.injEq, Prod.mk.injEq] at h
    obtain ⟨-, rfl⟩ := h
    simp

theorem Dec.scanEnd_ok {d : Dec} {cfg : Config} {u : UnitDone} (h : d.scanEnd cfg = .ok u) :
    ∃ o evs, Event.finished ∉ evs ∧
      u = .commit { d with
        bb := { d.bb with cnt := 0 }, out := o, scan := { d.scan with active := false }
        frame := { d.frame with scans := wrap32 (d.frame.scans + 1) }, fsm := .frame } evs := by
  unfold Dec.scanEnd at h
  split at h
  · simp only [except_bind_ok, Except.ok.injEq] at h
    obtain ⟨⟨d', evs⟩, hd, rfl⟩ := h
    obtain ⟨he, hn⟩ := Dec.seqFinish_ok hd
    refine ⟨d'.out, evs, hn, ?_⟩
    rw [he]
  · simp only [except_ok_bind, Except.ok.injEq] at h
    exact ⟨d.out, [], by simp, h.symm⟩

theorem Dec.trailing_ok {d : Dec} {v : List Byte} {u : UnitDone} (h : d.trailing v = .ok u) :
    (u = .stop ∧ d.avail v = 0) ∨ u = .commit (d.advance (d.avail v)) [] := by
  unfold Dec.trailing at h
  split at h
  · simp only [Except.ok.injEq] at h
    exact .inl ⟨h.symm, ‹_›⟩
  · simp only [commit, Except.ok.injEq] at h
    exact .inr h.symm

/-! ## The bit reader (R175, R177, R180) -/

theorem fetchFill_ok {more : Bool} {bs : List Byte} {i n : Nat} (h : fetchFill more bs i = .ok n) :
    i + 1 ≤ n ∧ n ≤ i + bs.length := by
  induction bs generalizing i with
  | nil => simp only [fetchFill, needFails, raise] at h; split at h <;> cases h
  | cons m bs ih =>
    simp only [fetchFill] at h
    simp only [List.length_cons]
    split at h
    · have := ih h
      omega
    · split at h
      · simp only [Except.ok.injEq] at h
        omega
      · simp [raise] at h

/-- FETCH moves the cursor on, never past the view's end. -/
theorem fetchByte_ok {v : List Byte} {more : Bool} {r r' : Rd} (h : fetchByte v more r = .ok r') :
    r.cur < r'.cur ∧ r'.cur ≤ v.length ∧ r'.bb.cnt = 8 := by
  unfold fetchByte at h
  split at h
  · simp only [needFails, raise] at h
    split at h <;> cases h
  · rename_i b rest hd
    have hl : v.length = r.cur + rest.length + 1 := by
      have := congrArg List.length hd
      simp only [List.length_drop, List.length_cons] at this
      omega
    split at h
    · simp only [except_bind_ok, Except.ok.injEq] at h
      obtain ⟨n, hn, rfl⟩ := h
      have := fetchFill_ok hn
      refine ⟨?_, ?_, rfl⟩ <;> simp only <;> omega
    · simp only [Except.ok.injEq] at h
      subst h
      refine ⟨?_, ?_, rfl⟩ <;> simp only <;> omega

theorem nextBit_ok {v : List Byte} {more b : Bool} {r r' : Rd} (h : nextBit v more r = .ok (b, r')) :
    r.cur ≤ r'.cur ∧ (r.cur ≤ v.length → r'.cur ≤ v.length) := by
  unfold nextBit at h
  split at h
  · simp only [except_bind_ok, Except.ok.injEq, Prod.mk.injEq] at h
    obtain ⟨r1, h1, -, rfl⟩ := h
    have := fetchByte_ok h1
    simp only
    omega
  · simp only [except_ok_bind, Except.ok.injEq, Prod.mk.injEq] at h
    obtain ⟨-, rfl⟩ := h
    simp

theorem receiveFrom_ok {v : List Byte} {more : Bool} {s acc x : Nat} {r r' : Rd}
    (h : receiveFrom v more s acc r = .ok (x, r')) : r.cur ≤ r'.cur ∧ (r.cur ≤ v.length → r'.cur ≤ v.length) := by
  induction s generalizing acc r with
  | zero => simp only [receiveFrom, Except.ok.injEq, Prod.mk.injEq] at h; obtain ⟨-, rfl⟩ := h; simp
  | succ s ih =>
    simp only [receiveFrom, except_bind_ok] at h
    obtain ⟨⟨b, r1⟩, h1, h2⟩ := h
    have h1 := nextBit_ok h1
    have h2 := ih h2
    simp only at h1 h2
    omega

theorem receive_ok {v : List Byte} {more : Bool} {s x : Nat} {r r' : Rd} (h : receive v more s r = .ok (x, r')) :
    r.cur ≤ r'.cur ∧ (r.cur ≤ v.length → r'.cur ≤ v.length) := receiveFrom_ok h

@[simp] theorem receive_zero (v : List Byte) (more : Bool) (r : Rd) : receive v more 0 r = .ok (0, r) := rfl

theorem decodeSymFrom_ok {v : List Byte} {more : Bool} {t : HEntry} {fuel code l : Nat} {sym : Byte} {r r' : Rd}
    (h : decodeSymFrom v more t fuel code l r = .ok (sym, r')) :
    r.cur ≤ r'.cur ∧ (r.cur ≤ v.length → r'.cur ≤ v.length) := by
  induction fuel generalizing code l r with
  | zero => simp [decodeSymFrom, raise] at h
  | succ fuel ih =>
    simp only [decodeSymFrom, except_bind_ok] at h
    obtain ⟨⟨b, r1⟩, h1, h2⟩ := h
    have h1 := nextBit_ok h1
    split at h2
    · split at h2
      · simp only [Except.ok.injEq, Prod.mk.injEq] at h2
        obtain ⟨-, rfl⟩ := h2
        exact h1
      · cases h2
    · have h2 := ih h2
      simp only at h1 h2
      omega

theorem decodeSym_ok {v : List Byte} {more : Bool} {t : HEntry} {sym : Byte} {r r' : Rd}
    (h : decodeSym v more t r = .ok (sym, r')) : r.cur ≤ r'.cur ∧ (r.cur ≤ v.length → r'.cur ≤ v.length) :=
  decodeSymFrom_ok h

/-! ## Symbols

`d.Moved d'` collects what a symbol may change before its block ends: the bit reader, a predictor, EOBRUN, the index and
the bytes of the planes. -/

/-- What a symbol may change before its block ends. -/
structure Dec.Moved (v : List Byte) (d d' : Dec) : Prop where
  same : d' = { d with cur := d'.cur, bb := d'.bb, comp := d'.comp, scan := { d.scan with eobrun := d'.scan.eobrun }
                       planes := { d.planes with mem := d'.planes.mem }, prog := d'.prog }
  cur_le : d.cur ≤ d'.cur
  in_view : d.cur ≤ v.length → d'.cur ≤ v.length
  mem_wf : d.planes.mem.wf = true → d'.planes.mem.wf = true

theorem Dec.Moved.refl (v : List Byte) (d : Dec) : Dec.Moved v d d := ⟨rfl, Nat.le_refl _, id, id⟩

theorem Dec.Moved.trans {v : List Byte} {d d' d'' : Dec} (h : Dec.Moved v d d') (h' : Dec.Moved v d' d'') :
    Dec.Moved v d d'' := by
  refine ⟨?_, Nat.le_trans h.cur_le h'.cur_le, fun hc => h'.in_view (h.in_view hc), fun hw => h'.mem_wf (h.mem_wf hw)⟩
  have e := h'.same
  rw [h.same] at e
  exact e

theorem Dec.Moved.withRd {v : List Byte} {d : Dec} {r : Rd} (h : d.cur ≤ r.cur ∧ (d.cur ≤ v.length → r.cur ≤ v.length)) :
    Dec.Moved v d (d.withRd r) := ⟨rfl, h.1, h.2, id⟩

theorem Dec.Moved.withPred (v : List Byte) (d : Dec) (i : Fin 4) (x : Half) : Dec.Moved v d (d.withPred i x) :=
  ⟨rfl, Nat.le_refl _, id, id⟩

theorem Dec.Moved.withEobrun (v : List Byte) (d : Dec) (x : Half) : Dec.Moved v d (d.withEobrun x) :=
  ⟨rfl, Nat.le_refl _, id, id⟩

theorem Dec.Moved.withProg (v : List Byte) (d : Dec) (p : Progress) : Dec.Moved v d { d with prog := p } :=
  ⟨rfl, Nat.le_refl _, id, id⟩

theorem Dec.Moved.writeCell {v : List Byte} {d d' : Dec} {i : Fin 4} {row col n : Nat} {x : Half}
    (h : d.writeCell i row col n x = .ok d') : Dec.Moved v d d' := by
  obtain ⟨-, rfl⟩ := Dec.writeCell_ok_iff.1 h
  exact ⟨rfl, Nat.le_refl _, id, fun hw => Memory.writeHalf_wf hw⟩

theorem Dec.Moved.writeBlk {v : List Byte} {d d' : Dec} {b : BlockRef} {n : Nat} {x : Half}
    (h : d.writeBlk b n x = .ok d') : Dec.Moved v d d' := Dec.Moved.writeCell h

theorem Dec.Moved.clearBlock {v : List Byte} {d d' : Dec} {i : Fin 4} {row col : Nat}
    (h : d.clearBlock i row col = .ok d') : Dec.Moved v d d' := by
  obtain ⟨-, rfl⟩ := Dec.clearBlock_ok_iff.1 h
  exact ⟨rfl, Nat.le_refl _, id, fun hw => Memory.clear_wf _ _ hw⟩

/-- A correction bit (R205). -/
theorem Dec.Moved.correct {v : List Byte} {d d' : Dec} {b : BlockRef} {n : Nat} {c : Half}
    (h : d.correct v b n c = .ok d') : Dec.Moved v d d' := by
  simp only [Dec.correct, except_bind_ok] at h
  obtain ⟨⟨bit, r⟩, h1, h2⟩ := h
  have hm : Dec.Moved v d (d.withRd r) := Dec.Moved.withRd (nextBit_ok h1)
  simp only at h2
  split at h2
  · exact hm.trans (Dec.Moved.writeBlk h2)
  · simp only [Except.ok.injEq] at h2
    exact h2 ▸ hm

theorem Dec.Moved.refineSkip {v : List Byte} {b : BlockRef} {fuel k r k' : Nat} {d d' : Dec}
    (h : Dec.refineSkip v b fuel k r d = .ok (k', d')) : Dec.Moved v d d' := by
  induction fuel generalizing k r d with
  | zero => simp [Dec.refineSkip, raise] at h
  | succ fuel ih =>
    simp only [Dec.refineSkip, except_bind_ok] at h
    obtain ⟨c, -, h⟩ := h
    split at h
    · simp only [except_bind_ok] at h
      obtain ⟨d1, h1, h2⟩ := h
      exact (Dec.Moved.correct h1).trans (ih h2)
    · split at h
      · simp only [Except.ok.injEq, Prod.mk.injEq] at h
        exact h.2 ▸ Dec.Moved.refl v d
      · exact ih h

theorem Dec.Moved.refineRest {v : List Byte} {b : BlockRef} {fuel k : Nat} {d d' : Dec}
    (h : Dec.refineRest v b fuel k d = .ok d') : Dec.Moved v d d' := by
  induction fuel generalizing k d with
  | zero => simp only [Dec.refineRest, Except.ok.injEq] at h; exact h ▸ Dec.Moved.refl v d
  | succ fuel ih =>
    simp only [Dec.refineRest, except_bind_ok] at h
    obtain ⟨c, -, h⟩ := h
    split at h
    · obtain ⟨d1, h1, h2⟩ := except_bind_ok.1 h
      exact (Dec.Moved.correct h1).trans (ih h2)
    · exact ih h

/-- What the end of a block answers: the MCU goes on, or it commits with its counters moved. -/
theorem Dec.blockDone_ok {d : Dec} {cfg : Config} {u : UnitDone} (h : d.blockDone cfg = .ok u) :
    (u = .cont { d with prog := { blk := d.prog.blk + 1, k := 0 } }) ∨
    (∃ o fl evs, Event.finished ∉ evs ∧
      u = .commit ({ d.countMcu with out := o, flush := fl } : Dec).afterMcu evs) := by
  unfold Dec.blockDone at h
  split at h
  · simp only [Except.ok.injEq] at h
    exact .inl h.symm
  · right
    unfold Dec.mcuDone at h
    simp only at h
    split at h
    · simp only [except_bind_ok, Except.ok.injEq] at h
      obtain ⟨⟨d', evs⟩, hd, rfl⟩ := h
      have he := Dec.seqOutput_frame hd
      refine ⟨d'.out, d'.flush, evs, Dec.seqOutput_events hd, ?_⟩
      rw [he]
    · simp only [Except.ok.injEq] at h
      exact ⟨d.countMcu.out, _, [], by simp, h.symm⟩

theorem Dec.mcuDone_ok {d : Dec} {cfg : Config} {u : UnitDone} (h : d.mcuDone cfg = .ok u) :
    ∃ o fl evs, Event.finished ∉ evs ∧ u = .commit ({ d.countMcu with out := o, flush := fl } : Dec).afterMcu evs := by
  unfold Dec.mcuDone at h
  simp only at h
  split at h
  · simp only [except_bind_ok, Except.ok.injEq] at h
    obtain ⟨⟨d', evs⟩, hd, rfl⟩ := h
    have he := Dec.seqOutput_frame hd
    refine ⟨d'.out, d'.flush, evs, Dec.seqOutput_events hd, ?_⟩
    rw [he]
  · simp only [Except.ok.injEq] at h
    exact ⟨d.countMcu.out, _, [], by simp, h.symm⟩

/-- Everything a symbol, or a block that reads none, can answer: registers `d'` that only moved, and then the MCU goes on
with them, or it commits with its counters moved. -/
def Dec.Symbol (v : List Byte) (d : Dec) (u : UnitDone) : Prop :=
  ∃ d', Dec.Moved v d d' ∧
    (u = .cont d' ∨
      ∃ o fl evs, Event.finished ∉ evs ∧ u = .commit ({ d'.countMcu with out := o, flush := fl } : Dec).afterMcu evs)

theorem Dec.Symbol.blockDone {v : List Byte} {d d' : Dec} {cfg : Config} {u : UnitDone} (hm : Dec.Moved v d d')
    (h : d'.blockDone cfg = .ok u) : Dec.Symbol v d u := by
  rcases Dec.blockDone_ok h with rfl | hc
  · exact ⟨_, hm.trans (Dec.Moved.withProg v d' _), .inl rfl⟩
  · exact ⟨d', hm, .inr hc⟩

theorem Dec.Symbol.nextK {v : List Byte} {d d' : Dec} {cfg : Config} {k : Nat} {u : UnitDone} (hm : Dec.Moved v d d')
    (h : d'.nextK cfg k = .ok u) : Dec.Symbol v d u := by
  unfold Dec.nextK at h
  split at h
  · simp only [Except.ok.injEq] at h
    exact ⟨_, hm.trans (Dec.Moved.withProg v d' _), .inl h.symm⟩
  · exact Dec.Symbol.blockDone hm h

theorem Dec.seqDc_ok {d : Dec} {v : List Byte} {b : BlockRef} {t : Nat} {u : UnitDone} (h : d.seqDc v b t = .ok u) :
    Dec.Symbol v d u := by
  simp only [Dec.seqDc, except_bind_ok, Except.ok.injEq] at h
  obtain ⟨⟨x, r⟩, hr, d1, h1, d2, h2, rfl⟩ := h
  refine ⟨_, ?_, .inl rfl⟩
  exact ((((Dec.Moved.withRd (receive_ok hr)).trans (Dec.Moved.withPred v _ _ _)).trans (Dec.Moved.clearBlock h1)).trans
    (Dec.Moved.writeBlk h2)).trans (Dec.Moved.withProg v _ _)

theorem Dec.firstDc_ok {d : Dec} {cfg : Config} {v : List Byte} {b : BlockRef} {t : Nat} {u : UnitDone}
    (h : d.firstDc cfg v b t = .ok u) : Dec.Symbol v d u := by
  simp only [Dec.firstDc, except_bind_ok] at h
  obtain ⟨⟨x, r⟩, hr, d1, h1, h2⟩ := h
  exact Dec.Symbol.blockDone
    (((Dec.Moved.withRd (receive_ok hr)).trans (Dec.Moved.withPred v _ _ _)).trans (Dec.Moved.writeBlk h1)) h2

theorem Dec.refineDc_ok {d : Dec} {cfg : Config} {v : List Byte} {b : BlockRef} {bit : Bool} {u : UnitDone}
    (h : d.refineDc cfg b bit = .ok u) : Dec.Symbol v d u := by
  simp only [Dec.refineDc, except_bind_ok] at h
  obtain ⟨c, -, h⟩ := h
  split at h
  · obtain ⟨d1, h1, h2⟩ := except_bind_ok.1 h
    exact Dec.Symbol.blockDone (Dec.Moved.writeBlk h1) h2
  · exact Dec.Symbol.blockDone (Dec.Moved.refl v d) h

theorem Dec.acCoef_ok {d : Dec} {cfg : Config} {v : List Byte} {b : BlockRef} {r s : Nat} {u : UnitDone}
    (h : d.acCoef cfg v b r s = .ok u) : Dec.Symbol v d u := by
  simp only [Dec.acCoef, except_bind_ok] at h
  obtain ⟨-, -, ⟨x, rd⟩, hr, d1, h1, h2⟩ := h
  exact Dec.Symbol.nextK ((Dec.Moved.withRd (receive_ok hr)).trans (Dec.Moved.writeBlk h1)) h2

theorem Dec.acZrl_ok {d : Dec} {cfg : Config} {v : List Byte} {u : UnitDone} (h : d.acZrl cfg = .ok u) :
    Dec.Symbol v d u := by
  simp only [Dec.acZrl, except_bind_ok] at h
  obtain ⟨-, -, h2⟩ := h
  exact Dec.Symbol.nextK (Dec.Moved.refl v d) h2

theorem Dec.firstEob_ok {d : Dec} {cfg : Config} {v : List Byte} {r : Nat} {u : UnitDone}
    (h : d.firstEob cfg v r = .ok u) : Dec.Symbol v d u := by
  simp only [Dec.firstEob, except_bind_ok] at h
  obtain ⟨⟨x, rd⟩, hr, h2⟩ := h
  exact Dec.Symbol.blockDone ((Dec.Moved.withRd (receive_ok hr)).trans (Dec.Moved.withEobrun v _ _)) h2

theorem Dec.refineRun_ok {d : Dec} {cfg : Config} {v : List Byte} {b : BlockRef} {r : Nat} {coef : Bool} {u : UnitDone}
    (h : d.refineRun cfg v b r coef = .ok u) : Dec.Symbol v d u := by
  unfold Dec.refineRun at h
  cases coef with
  | true =>
    simp only [if_true, except_bind_ok] at h
    obtain ⟨⟨bit, rd⟩, hr, ⟨k, d1⟩, h1, d2, h2, h3⟩ := h
    exact Dec.Symbol.nextK (((Dec.Moved.withRd (nextBit_ok hr)).trans (Dec.Moved.refineSkip h1)).trans
      (Dec.Moved.writeBlk h2)) h3
  | false =>
    simp only [Bool.false_eq_true, if_false, except_ok_bind, except_bind_ok] at h
    obtain ⟨⟨k, d1⟩, h1, h3⟩ := h
    exact Dec.Symbol.nextK (Dec.Moved.refineSkip h1) h3

theorem Dec.refineEobBlock_ok {d : Dec} {cfg : Config} {v : List Byte} {b : BlockRef} {k : Nat} {u : UnitDone}
    (h : d.refineEobBlock cfg v b k = .ok u) : Dec.Symbol v d u := by
  simp only [Dec.refineEobBlock, except_bind_ok] at h
  obtain ⟨d1, h1, h2⟩ := h
  exact Dec.Symbol.blockDone ((Dec.Moved.refineRest h1).trans (Dec.Moved.withEobrun v _ _)) h2

theorem Dec.Symbol.of_moved {v : List Byte} {d d' : Dec} {u : UnitDone} (hm : Dec.Moved v d d') (h : Dec.Symbol v d' u) :
    Dec.Symbol v d u := by
  obtain ⟨d1, h1, h2⟩ := h
  exact ⟨d1, hm.trans h1, h2⟩

theorem Dec.refineEob_ok {d : Dec} {cfg : Config} {v : List Byte} {b : BlockRef} {r : Nat} {u : UnitDone}
    (h : d.refineEob cfg v b r = .ok u) : Dec.Symbol v d u := by
  simp only [Dec.refineEob, except_bind_ok] at h
  obtain ⟨⟨x, rd⟩, hr, h2⟩ := h
  exact Dec.Symbol.of_moved ((Dec.Moved.withRd (receive_ok hr)).trans (Dec.Moved.withEobrun v _ _))
    (Dec.refineEobBlock_ok h2)

theorem Dec.runBlock_ok {d : Dec} {cfg : Config} {v : List Byte} {b : BlockRef} {u : UnitDone}
    (h : d.runBlock cfg v b = .ok u) : Dec.Symbol v d u := by
  unfold Dec.runBlock at h
  split at h
  · exact Dec.refineEobBlock_ok h
  · exact Dec.Symbol.blockDone (Dec.Moved.withEobrun v d _) h

end Sys2Proof.Machine
end

