-- ==== Sys2Proof/Laws/Step.lean ====
section
/-! SUPPORT. What a step can do, said once: every unit that commits, every instruction that answers a next state, and the
step itself. A proof about every step cites `step_next` and takes the cases of `Dec.Unit`. -/

namespace Sys2Proof.Machine

/-! ## Units -/

/-- Everything a unit, or one symbol of the MCU unit, can answer from the registers `d` when it does not suspend, raise or
fault. -/
inductive Dec.Unit (v : List Byte) (d : Dec) : UnitDone → Prop
  /-- DONE with no byte left (R146). -/
  | stop (hf : d.fsm = .done) (ha : d.avail v = 0) : Dec.Unit v d .stop
  /-- DONE with bytes left (R146). -/
  | trailing (hf : d.fsm = .done) : Dec.Unit v d (.commit (d.advance (d.avail v)) [])
  /-- A byte skipped, a standalone marker ignored, or a segment (R284, R300 to R305, R318, R320 to R331). -/
  | segment (n : Nat) (j : Jfif) (a : Adobe) (c : Icc) (q : Quad QEntry) (p r : Quad HEntry) (x : Half) (evs : List Event)
      (hf : d.fsm = .started ∨ d.fsm = .frame ∨ d.fsm = .findMarker) (ha : n ≤ d.avail v) (he : Event.finished ∉ evs) :
      Dec.Unit v d
        (.commit { d.advance n with jfif := j, adobe := a, icc := c, qt := q, htDc := p, htAc := r, ri := x } evs)
  /-- The SOI unit (R282). -/
  | soi (hf : d.fsm = .none) (ha : 2 ≤ d.avail v) : Dec.Unit v d (.commit { d.advance 2 with fsm := .started } [])
  /-- SOF_HEADER (R293). -/
  | header (k : Fin 3) (f : SofFields) (hf : d.fsm = .started ∨ d.fsm = .frame) (ha : 10 ≤ d.avail v) :
      Dec.Unit v d (.commit ((if d.fsm = .frame then d.abortFrame else d).withHeader k f) (sofEvents k f))
  /-- SOF_BODY (R294). -/
  | body (c : Quad Comp) (hf : d.fsm = .frameHeader) (ha : 3 * d.frame.nf ≤ d.avail v) :
      Dec.Unit v d (.commit { d with comp := c, planes := Planes.zero, cur := d.cur + 3 * d.frame.nf
                                     frame := { d.frame with valid := true }, fsm := .frame } [])
  /-- SOS (R310). -/
  | scan (n : Nat) (sc : List ScanComp) (ss se ah al : Nat) (hf : d.fsm = .frame) (ha : n ≤ d.avail v) :
      Dec.Unit v d (.commit ((d.startScan sc ss se ah al).advance n) [])
  /-- EOI (R325). -/
  | eoi (fl : FlushReg) (evs : List Event) (hf : d.fsm = .frame) (ha : 2 ≤ d.avail v) (he : Event.finished ∉ evs) :
      Dec.Unit v d (.commit { d with flush := fl, planes := Planes.free, frame := { d.frame with valid := false }
                                     cur := d.cur + 2, fsm := .done } (evs ++ [.finished]))
  /-- An RSTn marker in FINDMARKER (R318). -/
  | restart (hf : d.fsm = .findMarker) (ha : 2 ≤ d.avail v) :
      Dec.Unit v d (.commit
        { d with cur := d.cur + 2, fsm := .restart, comp := d.initEntropy.comp, bb := { d.bb with cnt := 0 }
                 scan := { d.scan with eobrun := 0, rstLeft := d.ri, rstNext := d.scan.rstNext + 1 } } [])
  /-- SCAN_END (R316). -/
  | scanEnd (o : OutReg) (evs : List Event) (hf : d.fsm = .restart) (he : Event.finished ∉ evs) :
      Dec.Unit v d (.commit { d with
        bb := { d.bb with cnt := 0 }, out := o, scan := { d.scan with active := false }
        frame := { d.frame with scans := wrap32 (d.frame.scans + 1) }, fsm := .frame } evs)
  /-- A stuffed data byte loaded (R113, R175; log 23). -/
  | stuffed (hf : d.fsm = .restart) (ha : 2 ≤ d.avail v) :
      Dec.Unit v d (.cont { d.advance 2 with bb := { val := 0xFF, cnt := 8 } })
  /-- A symbol, or a block that reads none (R200 to R210). -/
  | symbol {u : UnitDone} (hf : d.fsm = .restart) (hs : Dec.Symbol v d u) : Dec.Unit v d u

/-- The end `r` of a unit is one of those of `Dec.Unit`, unless it suspends, raises or faults. -/
def Dec.UnitEnd (v : List Byte) (d : Dec) (r : Except UnitStop UnitDone) : Prop := ∀ u, r = .ok u → Dec.Unit v d u

theorem Dec.UnitEnd.raise (v : List Byte) (d : Dec) (c : Cause) : Dec.UnitEnd v d (raise c) := by
  intro u h
  cases h

theorem Dec.UnitEnd.error (v : List Byte) (d : Dec) (e : UnitStop) : Dec.UnitEnd v d (.error e) := by
  intro u h
  cases h

theorem Dec.UnitEnd.need {v : List Byte} {d : Dec} {n : Nat} {r : Except UnitStop UnitDone}
    (h : n ≤ d.avail v → Dec.UnitEnd v d r) : Dec.UnitEnd v d (do d.need v n; r) := by
  intro u hu
  simp only [except_bind_ok, Dec.need_ok_iff] at hu
  obtain ⟨-, ha, hr⟩ := hu
  exact h ha u hr

/-! ## Instructions -/

/-- A marker answers a next state only as the end of a unit. -/
theorem State.atMarker_unit {s t : State} {f g h k : List Byte → Except UnitStop UnitDone}
    (hf : ∀ v, s.dec.fsm = .none → 2 ≤ s.dec.avail v → Dec.UnitEnd v s.dec (f v))
    (hg : ∀ v, s.dec.fsm = .started ∨ s.dec.fsm = .frame → 2 ≤ s.dec.avail v → Dec.UnitEnd v s.dec (g v))
    (hh : ∀ v, s.dec.fsm = .findMarker → 2 ≤ s.dec.avail v → Dec.UnitEnd v s.dec (h v))
    (hk : ∀ v, s.dec.fsm = .restart → 2 ≤ s.dec.avail v → Dec.UnitEnd v s.dec (k v))
    (ht : s.atMarker f g h k = .next t) :
    ∃ v r, s.view = some v ∧ s.endUnit r = .next t ∧ Dec.UnitEnd v s.dec r := by
  obtain ⟨v, hv, ⟨hs, h1⟩ | ⟨hs, h1⟩ | ⟨hs, h1⟩ | ⟨hs, -, h1⟩⟩ := State.atMarker_next ht
  · exact ⟨v, _, hv, h1, Dec.UnitEnd.need (hf v hs)⟩
  · exact ⟨v, _, hv, h1, Dec.UnitEnd.need (hg v hs)⟩
  · exact ⟨v, _, hv, h1, Dec.UnitEnd.need (hh v hs)⟩
  · exact ⟨v, _, hv, h1, Dec.UnitEnd.need (hk v hs)⟩

theorem State.atScan_unit {s t : State} {g : List Byte → Except UnitStop UnitDone}
    (hg : ∀ v, s.dec.fsm = .started ∨ s.dec.fsm = .frame → 2 ≤ s.dec.avail v → Dec.UnitEnd v s.dec (g v))
    (ht : s.atScan g = .next t) : ∃ v r, s.view = some v ∧ s.endUnit r = .next t ∧ Dec.UnitEnd v s.dec r :=
  State.atMarker_unit (fun v _ _ => .raise v _ _) hg (fun v _ _ => .raise v _ _) (fun v _ _ => .raise v _ _) ht

theorem Dec.UnitEnd.skipSegment {v : List Byte} {d : Dec} (hf : d.fsm = .started ∨ d.fsm = .frame) :
    Dec.UnitEnd v d (d.skipSegment v) := by
  intro u h
  obtain ⟨n, ha, rfl⟩ := Dec.skipSegment_ok h
  exact .segment (2 + n) _ _ _ _ _ _ _ [] (by tauto) ha (by simp)

theorem Dec.UnitEnd.ignoreStandalone {v : List Byte} {d : Dec} (hf : d.fsm = .started ∨ d.fsm = .frame)
    (ha : 2 ≤ d.avail v) : Dec.UnitEnd v d d.ignoreStandalone := by
  intro u h
  simp only [Dec.ignoreStandalone, commit, Except.ok.injEq] at h
  subst h
  exact .segment 2 _ _ _ _ _ _ _ [] (by tauto) ha (by simp)

theorem Dec.UnitEnd.skipByte {v : List Byte} {d : Dec} (hf : d.fsm = .started ∨ d.fsm = .frame ∨ d.fsm = .findMarker)
    (ha : 1 ≤ d.avail v) : Dec.UnitEnd v d d.skipByte := by
  intro u h
  simp only [Dec.skipByte, commit, Except.ok.injEq] at h
  subst h
  exact .segment 1 _ _ _ _ _ _ _ [] hf ha (by simp)

theorem State.atRst_unit {s t : State} (ht : s.atRst = .next t) :
    ∃ v r, s.view = some v ∧ s.endUnit r = .next t ∧ Dec.UnitEnd v s.dec r := by
  refine State.atMarker_unit (fun v _ _ => .raise v _ _) (fun v hf ha => .ignoreStandalone hf ha) (fun v hf ha => ?_)
    (fun v _ _ => .raise v _ _) ht
  intro u h
  rw [Dec.restart_ok, Except.ok.injEq] at h
  subst h
  exact .restart hf ha

theorem Dec.UnitEnd.sofHeader {v : List Byte} {d : Dec} (k : Fin 3) (hf : d.fsm = .started ∨ d.fsm = .frame) :
    Dec.UnitEnd v d (d.sofHeader k v) := by
  intro u h
  obtain ⟨f, ha, rfl⟩ := Dec.sofHeader_ok h
  exact .header k f hf ha

theorem Dec.UnitEnd.dqt {v : List Byte} {d : Dec} (hf : d.fsm = .started ∨ d.fsm = .frame) :
    Dec.UnitEnd v d (d.dqt v) := by
  intro u h
  obtain ⟨n, q, ha, rfl⟩ := Dec.dqt_ok h
  exact .segment (2 + n) _ _ _ q _ _ _ [] (by tauto) ha (by simp)

theorem Dec.UnitEnd.dht {v : List Byte} {d : Dec} (hf : d.fsm = .started ∨ d.fsm = .frame) :
    Dec.UnitEnd v d (d.dht v) := by
  intro u h
  obtain ⟨n, p, q, ha, rfl⟩ := Dec.dht_ok h
  exact .segment (2 + n) _ _ _ _ p q _ [] (by tauto) ha (by simp)

theorem Dec.UnitEnd.dri {v : List Byte} {d : Dec} (hf : d.fsm = .started ∨ d.fsm = .frame) :
    Dec.UnitEnd v d (d.dri v) := by
  intro u h
  obtain ⟨ha, rfl⟩ := Dec.dri_ok h
  exact .segment 6 _ _ _ _ _ _ _ [] (by tauto) ha (by simp)

theorem Dec.UnitEnd.app0 {v : List Byte} {d : Dec} (hf : d.fsm = .started ∨ d.fsm = .frame) :
    Dec.UnitEnd v d (d.app0 v) := by
  intro u h
  obtain ⟨n, j, ha, rfl⟩ := Dec.app0_ok h
  exact .segment (2 + n) j _ _ _ _ _ _ [] (by tauto) ha (by simp)

theorem Dec.UnitEnd.app1 {v : List Byte} {d : Dec} {cfg : Config} (hf : d.fsm = .started ∨ d.fsm = .frame) :
    Dec.UnitEnd v d (d.app1 cfg v) := by
  intro u h
  obtain ⟨n, evs, ha, he, rfl⟩ := Dec.app1_ok h
  exact .segment (2 + n) _ _ _ _ _ _ _ evs (by tauto) ha he

theorem Dec.UnitEnd.app2 {v : List Byte} {d : Dec} (hf : d.fsm = .started ∨ d.fsm = .frame) :
    Dec.UnitEnd v d (d.app2 v) := by
  intro u h
  obtain ⟨n, c, evs, ha, he, rfl⟩ := Dec.app2_ok h
  exact .segment (2 + n) _ _ c _ _ _ _ evs (by tauto) ha he

theorem Dec.UnitEnd.app14 {v : List Byte} {d : Dec} (hf : d.fsm = .started ∨ d.fsm = .frame) :
    Dec.UnitEnd v d (d.app14 v) := by
  intro u h
  obtain ⟨n, a, ha, rfl⟩ := Dec.app14_ok h
  exact .segment (2 + n) _ a _ _ _ _ _ [] (by tauto) ha (by simp)

/-- A marker that answers a next state is a unit that ended. -/
theorem exec_marker_next {i : Instr} {s t : State} (hi : ctxOf i = .marker) (h : exec i s = .next t) :
    ∃ v r, s.view = some v ∧ s.endUnit r = .next t ∧ Dec.UnitEnd v s.dec r := by
  cases i
  case tem => exact State.atScan_unit (fun v hf ha => .ignoreStandalone hf ha) h
  case sof0 => exact State.atScan_unit (fun v hf _ => .sofHeader 0 hf) h
  case sof1 => exact State.atScan_unit (fun v hf _ => .sofHeader 1 hf) h
  case sof2 => exact State.atScan_unit (fun v hf _ => .sofHeader 2 hf) h
  case dqt => exact State.atScan_unit (fun v hf _ => .dqt hf) h
  case dht => exact State.atScan_unit (fun v hf _ => .dht hf) h
  case dri => exact State.atScan_unit (fun v hf _ => .dri hf) h
  case app0 => exact State.atScan_unit (fun v hf _ => .app0 hf) h
  case app1 => exact State.atScan_unit (fun v hf _ => .app1 hf) h
  case app2 => exact State.atScan_unit (fun v hf _ => .app2 hf) h
  case app14 => exact State.atScan_unit (fun v hf _ => .app14 hf) h
  case sof3 | sof5 | sof6 | sof7 | sof9 | sof10 | sof11 | sof13 | sof14 | sof15 =>
    exact State.atScan_unit (fun v _ _ => .raise v _ _) h
  case rst0 | rst1 | rst2 | rst3 | rst4 | rst5 | rst6 | rst7 => exact State.atRst_unit h
  case soi =>
    refine State.atMarker_unit (fun v hf ha u hu => ?_) (fun v _ _ => .raise v _ _) (fun v _ _ => .raise v _ _)
      (fun v _ _ => .raise v _ _) h
    simp only [commit, Except.ok.injEq] at hu
    subst hu
    exact .soi hf ha
  case res m =>
    refine State.atMarker_unit (fun v _ _ => .raise v _ _) (fun v hf ha => .skipByte (by tauto) (by omega))
      (fun v hf ha => .skipByte (.inr (.inr hf)) (by omega)) (fun v hf ha u hu => ?_) h
    split at hu
    · simp only [Except.ok.injEq] at hu
      subst hu
      exact .stuffed hf ha
    · cases hu
  case sos =>
    refine State.atScan_unit (fun v hf ha u hu => ?_) h
    split at hu
    · obtain ⟨n, sc, ss, se, ah, al, hn, rfl⟩ := Dec.sos_ok hu
      exact .scan _ _ _ _ _ _ ‹_› hn
    · cases hu
  case eoi =>
    refine State.atScan_unit (fun v hf ha u hu => ?_) h
    split at hu
    · obtain ⟨fl, evs, he, rfl⟩ := Dec.eoi_ok hu
      exact .eoi fl evs ‹_› ha he
    · cases hu
  all_goals first
    | (exfalso; revert hi; simp [ctxOf]; done)
    | exact State.atScan_unit (fun v hf _ => .skipSegment hf) h

theorem State.atSymbol_next {s t : State} {f : List Byte → BlockRef → Outcome} (h : s.atSymbol f = .next t) :
    ∃ v b, s.currentBlock = some (v, b) ∧ f v b = .next t := by
  unfold State.atSymbol at h
  split at h
  · exact ⟨_, _, ‹_›, h⟩
  · cases h

/-- What an entropy symbol's meaning answers as a next state: the end of its part of the MCU unit. -/
def State.SymbolEnd (s t : State) : Prop :=
  ∃ v r, s.view = some v ∧ s.dec.fsm = .restart ∧ s.endUnit r = .next t ∧ ∀ u, r = .ok u → Dec.Symbol v s.dec u

theorem State.SymbolEnd.intro {s t : State} {v : List Byte} {b : BlockRef} {r : Except UnitStop UnitDone}
    (hb : s.currentBlock = some (v, b)) (h : s.endUnit r = .next t) (hr : ∀ u, r = .ok u → Dec.Symbol v s.dec u) :
    s.SymbolEnd t :=
  ⟨v, r, (State.currentBlock_some hb).1, (State.currentBlock_some hb).2.1, h, hr⟩

theorem State.SymbolEnd.raise {s t : State} {v : List Byte} {b : BlockRef} {c : Cause}
    (hb : s.currentBlock = some (v, b)) (h : s.endUnit (raise c) = .next t) : s.SymbolEnd t :=
  .intro hb h (by intro u hu; cases hu)

theorem execDcDiff_next {x : BitVec 4} {s t : State} (h : execDcDiff x s = .next t) : s.SymbolEnd t := by
  obtain ⟨v, b, hb, h⟩ := State.atSymbol_next h
  cases hm : s.dec.scan.mode <;> simp only [hm] at h
  · exact .intro hb h fun u => Dec.seqDc_ok
  · exact .intro hb h fun u => Dec.firstDc_ok
  all_goals cases h

theorem execDcRefineBit_next {x : Bool} {s t : State} (h : execDcRefineBit x s = .next t) : s.SymbolEnd t := by
  obtain ⟨v, b, hb, h⟩ := State.atSymbol_next h
  cases hm : s.dec.scan.mode <;> simp only [hm] at h
  · cases h
  · cases h
  · exact .intro hb h fun u => Dec.refineDc_ok
  · cases h
  · cases h

theorem execAcEob_next {s t : State} (h : execAcEob s = .next t) : s.SymbolEnd t := by
  obtain ⟨v, b, hb, h⟩ := State.atSymbol_next h
  cases hm : s.dec.scan.mode <;> simp only [hm] at h
  · exact .intro hb h fun u hu => Dec.Symbol.blockDone (Dec.Moved.refl v _) hu
  · cases h
  · cases h
  · exact .intro hb h fun u => Dec.firstEob_ok
  · exact .intro hb h fun u => Dec.refineEob_ok

theorem execAcZrl_next {s t : State} (h : execAcZrl s = .next t) : s.SymbolEnd t := by
  obtain ⟨v, b, hb, h⟩ := State.atSymbol_next h
  cases hm : s.dec.scan.mode <;> simp only [hm] at h
  · exact .intro hb h fun u => Dec.acZrl_ok
  · cases h
  · cases h
  · exact .intro hb h fun u => Dec.acZrl_ok
  · exact .intro hb h fun u => Dec.refineRun_ok

theorem execAcEobRun_next {x : BitVec 4} {s t : State} (h : execAcEobRun x s = .next t) : s.SymbolEnd t := by
  obtain ⟨v, b, hb, h⟩ := State.atSymbol_next h
  cases hm : s.dec.scan.mode <;> simp only [hm] at h
  · exact .raise hb h
  · cases h
  · cases h
  · exact .intro hb h fun u => Dec.firstEob_ok
  · exact .intro hb h fun u => Dec.refineEob_ok

theorem execAcRunSize_next {x z : BitVec 4} {s t : State} (h : execAcRunSize x z s = .next t) : s.SymbolEnd t := by
  obtain ⟨v, b, hb, h⟩ := State.atSymbol_next h
  cases hm : s.dec.scan.mode <;> simp only [hm] at h
  · exact .intro hb h fun u => Dec.acCoef_ok
  · cases h
  · cases h
  · exact .intro hb h fun u => Dec.acCoef_ok
  · by_cases hz : z = 1
    · rw [if_pos hz] at h
      exact .intro hb h fun u => Dec.refineRun_ok
    · rw [if_neg hz] at h
      exact .raise hb h

/-- An entropy symbol that answers a next state is a part of the MCU unit. -/
theorem exec_symbol_next {i : Instr} {s t : State} (hi : ctxOf i = .dcSymbol ∨ ctxOf i = .acSymbol ∨ ctxOf i = .rawBit)
    (h : exec i s = .next t) : s.SymbolEnd t := by
  cases i
  case dcDiff x => exact execDcDiff_next h
  case dcRefineBit x => exact execDcRefineBit_next h
  case acEob => exact execAcEob_next h
  case acZrl => exact execAcZrl_next h
  case acEobRun r => exact execAcEobRun_next h
  case acRunSize r z => exact execAcRunSize_next h
  all_goals (exfalso; revert hi; simp [ctxOf])

/-! ## Fetching -/

theorem decodeMarker_ctx {bs rest : List Byte} {i : Instr} (h : decode .marker bs = .ok (i, rest)) :
    ctxOf i = .marker := by
  match bs with
  | [] => simp [decode, decodeMarker] at h
  | [b] =>
    simp only [decode, decodeMarker] at h
    split at h <;> cases h
  | b :: m :: rest' =>
    simp only [decode, decodeMarker] at h
    split at h
    · cases h
    · split at h
      · rename_i j hj
        simp only [Except.ok.injEq, Prod.mk.injEq] at h
        obtain ⟨rfl, -⟩ := h
        unfold markerOf at hj
        split at hj <;> first
          | (cases hj; done)
          | (simp only [Option.some.injEq] at hj; subst hj; rfl)
      · cases h

theorem acSymbolOf_ctx (b : Byte) : ctxOf (acSymbolOf b) = .acSymbol := by
  unfold acSymbolOf
  split
  · rfl
  · split
    · rfl
    · split <;> rfl

/-- A symbol's bits read from `s`: the bit reader moved on, inside the view. -/
def State.Read (s s0 : State) (v : List Byte) : Prop :=
  ∃ r k, s0 = s.symbolState r k ∧ s.dec.cur ≤ r.cur ∧ (s.dec.cur ≤ v.length → r.cur ≤ v.length)

/-- What a fetch gives: a marker to run in the state itself, a symbol to run with its bits read, or the end of a unit. -/
def State.FetchOk (s : State) (v : List Byte) : Fetched → Prop
  | .run i s0 =>
    (ctxOf i = .marker ∧ s0 = s) ∨
      ((ctxOf i = .dcSymbol ∨ ctxOf i = .acSymbol ∨ ctxOf i = .rawBit) ∧ s.dec.fsm = .restart ∧ s.Read s0 v)
  | .ends r => Dec.UnitEnd v s.dec r

theorem State.fetchSoi_ok (s : State) (v : List Byte) : s.FetchOk v (s.fetchSoi v) := by
  unfold State.fetchSoi
  split
  · exact .error v _ _
  · split
    · exact .inl ⟨decodeMarker_ctx ‹_›, rfl⟩
    · exact .raise v _ _

theorem State.fetchMarker_ok (s : State) (v : List Byte)
    (hf : s.dec.fsm = .started ∨ s.dec.fsm = .frame ∨ s.dec.fsm = .findMarker) : s.FetchOk v (s.fetchMarker v) := by
  unfold State.fetchMarker
  split
  · exact .inl ⟨decodeMarker_ctx ‹_›, rfl⟩
  · intro u hu
    simp only [needFails, raise] at hu
    split at hu <;> cases hu
  · rename_i e hn he
    refine .skipByte hf ?_
    unfold Dec.rest at he
    rcases hr : v.drop s.dec.cur with _ | ⟨b, rest⟩
    · rw [hr] at he
      exact absurd (Except.error.inj he).symm hn
    · have := congrArg List.length hr
      simp only [List.length_drop, List.length_cons] at this
      unfold Dec.avail
      omega

theorem State.fetchAc_ok {s : State} (v : List Byte) (b : BlockRef) (k : Nat) (hf : s.dec.fsm = .restart) :
    s.FetchOk v (s.fetchAc v b k) := by
  unfold State.fetchAc
  split
  · exact fun u hu => .symbol hf (Dec.Symbol.blockDone (Dec.Moved.refl v _) hu)
  · split
    · exact .error v _ _
    · exact .inr ⟨.inr (.inl (acSymbolOf_ctx _)), hf, _, _, rfl, decodeSym_ok ‹_›⟩

theorem State.fetchDc_ok {s : State} (v : List Byte) (b : BlockRef) (hf : s.dec.fsm = .restart) :
    s.FetchOk v (s.fetchDc v b) := by
  unfold State.fetchDc
  split
  · exact .error v _ _
  · rename_i sym r hd
    split
    · rename_i i rest hi
      refine .inr ⟨.inl ?_, hf, _, _, rfl, decodeSym_ok hd⟩
      simp only [decode, dcSymbolOf] at hi
      split at hi
      · rename_i j hj
        split at hj
        · cases hj
          cases hi
          rfl
        · cases hj
      · cases hi
    · exact .raise v _ _

theorem State.fetchBand_ok {s : State} (v : List Byte) (b : BlockRef) (hf : s.dec.fsm = .restart) :
    s.FetchOk v (s.fetchBand v b) := by
  unfold State.fetchBand
  split
  · split
    · exact fun u hu => .symbol hf (Dec.runBlock_ok hu)
    · exact State.fetchAc_ok v b _ hf
  · exact State.fetchAc_ok v b _ hf

theorem State.fetchBit_ok {s : State} (v : List Byte) (hf : s.dec.fsm = .restart) : s.FetchOk v (s.fetchBit v) := by
  unfold State.fetchBit
  split
  · exact .error v _ _
  · exact .inr ⟨.inr (.inr rfl), hf, _, _, rfl, nextBit_ok ‹_›⟩

theorem State.fetchSymbol_ok {s : State} (v : List Byte) (hf : s.dec.fsm = .restart) : s.FetchOk v (s.fetchSymbol v) := by
  unfold State.fetchSymbol
  split
  · exact fun u hu => .symbol hf ⟨_, Dec.Moved.refl v _, .inr (Dec.mcuDone_ok hu)⟩
  · cases s.dec.scan.mode <;> simp only
    · split
      · exact State.fetchDc_ok v _ hf
      · exact State.fetchAc_ok v _ _ hf
    · exact State.fetchDc_ok v _ hf
    · exact State.fetchBit_ok v hf
    · exact State.fetchBand_ok v _ hf
    · exact State.fetchBand_ok v _ hf

theorem State.fetch_ok (s : State) (v : List Byte) : s.FetchOk v (s.fetch v) := by
  unfold State.fetch
  split
  · exact State.fetchSoi_ok s v
  · exact State.fetchMarker_ok s v (by tauto)
  · exact State.fetchMarker_ok s v (by tauto)
  · exact State.fetchMarker_ok s v (by tauto)
  · intro u hu
    obtain ⟨c, ha, rfl⟩ := Dec.sofBody_ok hu
    exact .body c ‹_› ha
  · split
    · exact State.fetchSymbol_ok v ‹_›
    · intro u hu
      obtain ⟨o, evs, he, rfl⟩ := Dec.scanEnd_ok hu
      exact .scanEnd o evs ‹_› he
  · intro u hu
    obtain ⟨rfl, ha⟩ | rfl := Dec.trailing_ok hu
    · exact .stop ‹_› ha
    · exact .trailing ‹_›
  · exact .error v _ _

/-! ## Host commands -/

/-- What DECODE can answer (R141, R147). -/
theorem execDecode_next {v : List Byte} {more : Bool} {s t : State} (h : execDecode v more s = .next t) :
    s.view = none ∧
      ((∃ e, s.dec.fsm = .error ∧ s.dec.err = some e ∧ t = s.answer .decode (.err e)) ∨
       (s.dec.fsm ≠ .error ∧ t = { s with view := some v, snap := none, dec := { s.dec with cur := 0, more := more } })) := by
  obtain ⟨hv, h⟩ := State.atCall_next h
  refine ⟨hv, ?_⟩
  split at h
  · unfold State.latched at h
    split at h
    · cases h
      exact .inl ⟨_, ‹_›, ‹_›, rfl⟩
    · cases h
  · cases h
    exact .inr ⟨‹_›, rfl⟩

/-- What FLUSH_PROGRESSIVE can change: FLUSH, the events, the answers still to come, the record of results (R153). -/
theorem execFlush_next {s t : State} (h : execFlushProgressive s = .next t) :
    s.view = none ∧ ∃ fl evs ans r, Event.finished ∉ evs ∧ (s.dec.flushable = false → evs = []) ∧
      (s.dec.fsm = .error → evs = []) ∧
      t = { s with dec := { s.dec with flush := fl }, events := s.events ++ evs, answers := ans
                   results := s.results ++ [r] } := by
  obtain ⟨hv, h⟩ := State.atCall_next h
  refine ⟨hv, ?_⟩
  split at h
  · unfold State.latched at h
    split at h
    · cases h
      exact ⟨s.dec.flush, [], s.answers, _, by simp, fun _ => rfl, fun _ => rfl, by simp [State.answer]; rfl⟩
    · cases h
  · split at h
    · unfold State.flushNow at h
      split at h
      · cases h
      · cases h
      · cases h
        refine ⟨_, _, _, _, Dec.flushFrom_events _ _ _ _ _ _ _, fun hf => ?_, fun hf => absurd hf ‹_›, rfl⟩
        exact absurd (hf.symm.trans ‹s.dec.flushable = true›) (by decide)
    · cases h
      exact ⟨s.dec.flush, [], s.answers, _, by simp, fun _ => rfl, fun _ => rfl, by simp [State.answer]; rfl⟩

/-- What RESET answers (R480, R481). -/
theorem execReset_next {s t : State} (h : execReset s = .next t) :
    s.view = none ∧ t = { State.fresh s.cfg with
      results := s.results ++ [(.reset, .ok)], hostq := s.hostq, answers := s.answers, reenters := s.reenters } := by
  obtain ⟨hv, h⟩ := State.atCall_next h
  cases h
  exact ⟨hv, rfl⟩

/-- A command of the engine changes the engine and the record of results (R230). -/
theorem exec_mq_frame {i : Instr} {s t : State} (hi : isMq i = true) (h : exec i s = .next t) :
    s.view = none ∧ ∃ m r, t = { s with mq := m, results := s.results ++ [r] } := by
  cases i
  case mqInitDec seg =>
    obtain ⟨hv, h⟩ := State.atCall_next h
    refine ⟨hv, ?_⟩
    split at h <;> cases h
    · exact ⟨_, _, rfl⟩
    · exact ⟨s.mq, _, rfl⟩
  case mqResetCtx =>
    obtain ⟨hv, h⟩ := State.atCall_next h
    refine ⟨hv, ?_⟩
    split at h <;> cases h
    · exact ⟨_, _, rfl⟩
    · exact ⟨s.mq, _, rfl⟩
  case mqDecode n =>
    obtain ⟨hv, h⟩ := State.atCall_next h
    refine ⟨hv, ?_⟩
    split at h
    · split at h
      · split at h
        · cases h
        · split at h
          · cases h
          · split at h
            · cases h
            · cases h
              exact ⟨_, _, rfl⟩
      · cases h
        exact ⟨s.mq, _, rfl⟩
    · cases h
      exact ⟨s.mq, _, rfl⟩
  all_goals (exfalso; revert hi; simp [isMq])

theorem State.encDone_next {s t : State} {c : Command} {r : Except Fault (Enc × Packer)}
    (h : s.encDone c r = .next t) :
    ∃ e p, r = .ok (e, p) ∧ t = { s with enc := e, pk := p, results := s.results ++ [(c, .ok)] } := by
  unfold State.encDone at h
  split at h
  · cases h
    exact ⟨_, _, rfl, rfl⟩
  · cases h

/-- A command of the encoder changes the encoder, the packer and the record of results (R390). -/
theorem exec_enc_frame {i : Instr} {s t : State} (hi : isEnc i = true) (h : exec i s = .next t) :
    s.view = none ∧ ∃ e p r, t = { s with enc := e, pk := p, results := s.results ++ [r] } := by
  cases i
  case encInit q w n =>
    obtain ⟨hv, h⟩ := State.atCall_next h
    refine ⟨hv, ?_⟩
    split at h
    · cases h
      exact ⟨s.enc, s.pk, _, rfl⟩
    · split at h
      · cases h
        exact ⟨s.enc, s.pk, _, rfl⟩
      · obtain ⟨e, p, -, rfl⟩ := State.encDone_next h
        exact ⟨_, _, _, rfl⟩
  case encScanline row =>
    obtain ⟨hv, h⟩ := State.atCall_next h
    refine ⟨hv, ?_⟩
    split at h
    · cases h
      exact ⟨s.enc, s.pk, _, rfl⟩
    · split at h
      · cases h
        exact ⟨s.enc, s.pk, _, rfl⟩
      · split at h
        · cases h
          exact ⟨s.enc, s.pk, _, rfl⟩
        · obtain ⟨e, p, -, rfl⟩ := State.encDone_next h
          exact ⟨_, _, _, rfl⟩
  case encFinish =>
    obtain ⟨hv, h⟩ := State.atCall_next h
    refine ⟨hv, ?_⟩
    split at h
    · cases h
      exact ⟨s.enc, s.pk, _, rfl⟩
    · obtain ⟨e, p, -, rfl⟩ := State.encDone_next h
      exact ⟨_, _, _, rfl⟩
  all_goals (exfalso; revert hi; simp [isEnc])

/-- What a command does to the decoder: nothing, a DECODE takes its view, a flush delivers events, or RESET. -/
theorem exec_call_next {c : HostCall} {s t : State} (h : exec c.toInstr s = .next t) :
    (t.dec = s.dec ∧ t.snap = s.snap ∧ t.view = s.view ∧ t.events = s.events) ∨
    (∃ v more, s.view = none ∧ s.dec.fsm ≠ .error ∧
      t = { s with view := some v, snap := none, dec := { s.dec with cur := 0, more := more } }) ∨
    (∃ fl evs, t.dec = { s.dec with flush := fl } ∧ t.snap = s.snap ∧ t.view = s.view ∧ t.events = s.events ++ evs ∧
      Event.finished ∉ evs ∧ (s.dec.flushable = false → evs = [])) ∨
    (c = .reset ∧ t.dec = Dec.reset ∧ t.snap = none ∧ t.view = none ∧ t.events = []) := by
  have kinds : (∃ v m, c = .decode v m) ∨ c = .flushProgressive ∨ c = .reset ∨ isMq c.toInstr = true ∨
      isEnc c.toInstr = true := by
    cases c <;> simp [HostCall.toInstr, isMq, isEnc]
  rcases kinds with ⟨v, m, rfl⟩ | rfl | rfl | hm | he
  · obtain ⟨hv, ⟨e, -, -, rfl⟩ | ⟨hf, rfl⟩⟩ := execDecode_next h
    · exact .inl ⟨rfl, rfl, rfl, rfl⟩
    · exact .inr (.inl ⟨v, m, hv, hf, rfl⟩)
  · obtain ⟨-, fl, evs, ans, r, h1, h2, -, rfl⟩ := execFlush_next h
    exact .inr (.inr (.inl ⟨fl, evs, rfl, rfl, rfl, rfl, h1, h2⟩))
  · obtain ⟨-, rfl⟩ := execReset_next h
    exact .inr (.inr (.inr ⟨rfl, rfl, rfl, rfl, rfl⟩))
  · obtain ⟨-, m, r, rfl⟩ := exec_mq_frame hm h
    exact .inl ⟨rfl, rfl, rfl, rfl⟩
  · obtain ⟨-, m, p, r, rfl⟩ := exec_enc_frame he h
    exact .inl ⟨rfl, rfl, rfl, rfl⟩

/-! ## The step -/

/-- What a step of a DECODE that answers a next state does: a unit, or one symbol of the MCU unit, ends in the state `s0`,
which is `s` itself or `s` with the symbol's bits read. -/
def State.UnitStep (s t : State) (v : List Byte) : Prop :=
  ∃ s0 r, (s0 = s ∨ s.dec.fsm = .restart ∧ s.Read s0 v) ∧ s0.endUnit r = .next t ∧ Dec.UnitEnd v s0.dec r

theorem unitStep_next {s t : State} {v : List Byte} (hv : s.view = some v) (h : s.unitStep v = .next t) :
    s.UnitStep t v := by
  have hf := State.fetch_ok s v
  unfold State.unitStep at h
  split at h
  · rename_i i s0 hs
    rw [hs] at hf
    obtain ⟨hi, rfl⟩ | ⟨hi, hr, hd⟩ := hf
    · obtain ⟨v', r, hv', h1, h2⟩ := exec_marker_next hi h
      rw [hv] at hv'
      cases hv'
      exact ⟨_, r, .inl rfl, h1, h2⟩
    · obtain ⟨v', u, hv', hf', h1, h2⟩ := exec_symbol_next hi h
      have hvv : v' = v := by
        obtain ⟨r, k, rfl, -⟩ := hd
        have : (s.symbolState r k).view = s.view := rfl
        rw [this, hv] at hv'
        exact (Option.some.inj hv').symm
      subst hvv
      exact ⟨_, u, .inr ⟨hr, hd⟩, h1, fun x hx => .symbol hf' (h2 x hx)⟩
  · rename_i r hs
    rw [hs] at hf
    exact ⟨s, r, .inl rfl, h, hf⟩

/-- A step in DONE (R146): the bytes left are consumed, or with none left the DECODE returns. -/
theorem unitStep_done {s : State} {v : List Byte} (hf : s.dec.fsm = .done) :
    s.unitStep v = s.endUnit (s.dec.trailing v) := by
  simp [State.unitStep, State.fetch, hf]

theorem step_done {s t : State} {v : List Byte} (hv : s.view = some v) (hf : s.dec.fsm = .done) (h : step s = .next t) :
    (s.dec.avail v = 0 ∧ t = s.returnDecode s.dec) ∨
      t = { s with dec := s.dec.advance (s.dec.avail v), snap := none } := by
  obtain ⟨h, -⟩ := settle_next h
  simp only [hv, unitStep_done hf, Dec.trailing] at h
  split at h
  · cases h
    exact .inl ⟨‹_›, rfl⟩
  · rw [State.endUnit_quiet] at h
    cases h
    exact .inr rfl

/-- The view after a step of a DECODE: the same, or none when the command has returned. -/
theorem unitStep_view {s t : State} {v : List Byte} (h : s.UnitStep t v) : t.view = none ∨ t.view = s.view := by
  obtain ⟨s0, r, hb, he, -⟩ := h
  have hs : s0.view = s.view := by
    rcases hb with rfl | ⟨-, r, k, rfl, -⟩ <;> rfl
  rw [← hs]
  rcases State.endUnit_next he with ⟨d, evs, rfl, rfl⟩ | ⟨d, rfl, rfl⟩ | ⟨rfl, rfl⟩ | ⟨rfl, rfl⟩ | ⟨e, rfl, rfl⟩
  · exact .inr rfl
  · exact .inr rfl
  · exact .inl (State.returnDecode_view _ _)
  · exact .inl (State.returnDecode_view _ _)
  · exact .inl rfl

/-- A fact about the decoder's registers that every unit, every read of a symbol's bits and ENTER_ERROR keep is kept by a
step of a DECODE, for the registers and for the snapshot. -/
theorem unitStep_keeps {P : Dec → Prop} {s t : State} {v : List Byte} (hs : P s.dec ∧ P s.unitStart)
    (hread : ∀ s0, s.dec.fsm = .restart → s.Read s0 v → P s0.dec)
    (hunit : ∀ d u, P d → Dec.Unit v d u → ∀ d', (∃ evs, u = .commit d' evs) ∨ u = .cont d' → P d')
    (herr : ∀ d e, P d → P (d.enterError e)) (h : s.UnitStep t v) : P t.dec ∧ P t.unitStart := by
  obtain ⟨s0, r, hb, he, hu⟩ := h
  have h0 : P s0.dec ∧ P s0.unitStart := by
    rcases hb with rfl | ⟨hf, hr⟩
    · exact hs
    · refine ⟨hread _ hf hr, ?_⟩
      obtain ⟨r, k, rfl, -⟩ := hr
      exact hs.2
  rcases State.endUnit_next he with ⟨d, evs, rfl, rfl⟩ | ⟨d, rfl, rfl⟩ | ⟨rfl, rfl⟩ | ⟨rfl, rfl⟩ | ⟨e, rfl, rfl⟩
  · have := hunit _ _ h0.1 (hu _ rfl) d (.inl ⟨_, rfl⟩)
    exact ⟨this, this⟩
  · exact ⟨hunit _ _ h0.1 (hu _ rfl) d (.inr rfl), h0.2⟩
  · rcases State.returnDecode_eq s0 s0.dec with h | h <;> rw [h]
    · exact ⟨herr _ _ h0.2, herr _ _ h0.2⟩
    · exact ⟨h0.1, h0.1⟩
  · rcases State.returnDecode_eq s0 s0.unitStart with h | h <;> rw [h]
    · exact ⟨herr _ _ h0.2, herr _ _ h0.2⟩
    · exact ⟨h0.2, h0.2⟩
  · exact ⟨herr _ _ h0.2, herr _ _ h0.2⟩

theorem callStep_next {s t : State} (h : s.callStep = .next t) :
    (s.hostq = [] ∧ t = s) ∨ ∃ c q, s.hostq = c :: q ∧ exec c.toInstr { s with hostq := q } = .next t := by
  unfold State.callStep at h
  split at h
  · cases h
    exact .inl ⟨‹_›, rfl⟩
  · exact .inr ⟨_, _, ‹_›, h⟩

/-- Everything a step can do when it answers a next state. -/
theorem step_next {s t : State} (h : step s = .next t) :
    (s.reenters = true → t.events.length ≤ s.events.length) ∧
    ((∃ v, s.view = some v ∧ s.UnitStep t v) ∨
     (s.view = none ∧ s.hostq = [] ∧ t = s) ∨
     (∃ c q, s.view = none ∧ s.hostq = c :: q ∧ exec c.toInstr { s with hostq := q } = .next t)) := by
  obtain ⟨h, hr⟩ := settle_next h
  refine ⟨hr, ?_⟩
  split at h
  · exact .inl ⟨_, ‹_›, unitStep_next ‹_› h⟩
  · rename_i hv
    obtain ⟨hq, rfl⟩ | ⟨c, q, hq, hx⟩ := callStep_next h
    · exact .inr (.inl ⟨hv, hq, rfl⟩)
    · exact .inr (.inr ⟨c, q, hv, hq, hx⟩)

end Sys2Proof.Machine
end

