-- ==== Sys2Proof/Laws/Transform.lean ====
section
/-! SUPPORT. The transforms' passes as sums, one lemma each, and the table of cosines: what its numbers are. -/

namespace Sys2Proof.Machine

/-! ## The passes (R254, R259) -/

/-- The factor of value `x` in frequency `u`, of both passes, in units of 2^-13. -/
def passAt (u x : Nat) : Int :=
  (([[8192, 8192, 8192, 8192, 8192, 8192, 8192, 8192], [11363, 9633, 6437, 2260, -2260, -6437, -9633, -11363],
    [10703, 4433, -4433, -10703, -10703, -4433, 4433, 10703], [9633, -2259, -11362, -6436, 6436, 11362, 2259, -9633],
    [8192, -8192, -8192, 8192, 8192, -8192, -8192, 8192], [6437, -11362, 2261, 9633, -9633, -2261, 11362, -6437],
    [4433, -10704, 10704, -4433, -4433, 10704, -10704, 4433],
    [2260, -6436, 9633, -11363, 11363, -9633, 6436, -2260]] : List (List Int)).getD u []).getD x 0

/-- IDCT1 descales a weighted sum (R254). -/
theorem idctPass_getD (f : Nat → Int) (s x : Nat) (h : x < 8) :
    (idctPass f s).getD x 0 = descale ((List.range 8).map fun u => passAt u x * f u).sum s := by
  interval_cases x <;>
    (simp only [idctPass, idct1, passAt, List.range_succ, List.range_zero]
     simp only [List.map_append, List.map_cons, List.map_nil, List.sum_append, List.sum_cons, List.sum_nil,
       List.getD_cons_succ, List.getD_cons_zero]
     congr 1
     ring)

/-- FDCT1 descales a weighted sum too (R259): `(x + 2) >> 2` is `(2^13 x + 2^14) >> 15`, and `x << 2` is exact. -/
theorem fdctPass_getD (f : Nat → Int) (first : Bool) (u : Nat) (h : u < 8) :
    (fdctPass f first).getD u 0 =
      descale ((List.range 8).map fun x => passAt u x * f x).sum (if first then 11 else 15) := by
  have d4 : ∀ x : Int, x * 4 = descale (8192 * x) 11 := fun x => by simp only [descale, shr]; omega
  have d2 : ∀ x : Int, descale x 2 = descale (8192 * x) 15 := fun x => by simp only [descale, shr]; omega
  cases first <;> interval_cases u <;>
    (simp only [fdctPass, fdct1, passAt, List.range_succ, List.range_zero, if_true, if_false, Bool.false_eq_true]
     simp only [List.map_append, List.map_cons, List.map_nil, List.sum_append, List.sum_cons, List.sum_nil,
       List.getD_cons_succ, List.getD_cons_zero, d4, d2]
     congr 1
     ring)

/-- DESCALE is off by half a unit at most (R254). -/
theorem descale_near (x : Int) (s : Nat) (h : 1 ≤ s) : (2 ^ s * descale x s - x).natAbs ≤ 2 ^ (s - 1) := by
  obtain ⟨s, rfl⟩ : ∃ t, s = t + 1 := ⟨s - 1, by omega⟩
  have hp : (0 : Int) < 2 ^ s := by positivity
  have hc : ((2 ^ s : Nat) : Int) = 2 ^ s := by norm_cast
  simp only [descale, shr, Nat.add_sub_cancel, pow_succ]
  have h1 := Int.mul_ediv_add_emod (x + 2 ^ s) (2 ^ s * 2)
  have h2 := Int.emod_nonneg (x + 2 ^ s) (show (2 : Int) ^ s * 2 ≠ 0 by omega)
  have h3 := Int.emod_lt_of_pos (x + 2 ^ s) (show (0 : Int) < 2 ^ s * 2 by omega)
  omega

/-! ## The cosines (R258) -/

/-- The table FDCT_FN's law is computed with holds `dctAt`. -/
theorem dctBasis_eq {u x : Nat} (hu : u < 8) (hx : x < 8) : dctBasis u x = dctAt u x := by
  have h : ∀ u, u < 8 → ∀ x, x < 8 → dctBasis u x = dctAt u x := by decide
  exact h u hu x hx

/-- The half angle: bounds on a cosine give bounds on `2^24 · sqrt(2)` times the cosine of half the angle. -/
theorem halfAngle_near {t lo hi : ℝ} {n : ℝ} (hc : 0 ≤ Real.cos t) (hn : 1 ≤ n) (h1 : lo ≤ Real.cos (2 * t))
    (h2 : Real.cos (2 * t) ≤ hi) (h3 : (n - 1 / 2) ^ 2 ≤ 2 ^ 48 * (1 + lo)) (h4 : 2 ^ 48 * (1 + hi) ≤ (n + 1 / 2) ^ 2) :
    |n - 2 ^ 24 * √2 * Real.cos t| ≤ 1 / 2 := by
  have hs : (2 ^ 24 * √2 * Real.cos t) ^ 2 = 2 ^ 48 * (1 + Real.cos (2 * t)) := by
    rw [Real.cos_two_mul, mul_pow, mul_pow, Real.sq_sqrt (by norm_num)]
    ring
  have h0 : 0 ≤ 2 ^ 24 * √2 * Real.cos t := by positivity
  rw [abs_le]
  constructor
  · have := (sq_le_sq₀ h0 (by linarith : (0 : ℝ) ≤ n + 1 / 2)).1 (by rw [hs]; linarith)
    linarith
  · have := (sq_le_sq₀ (by linarith : (0 : ℝ) ≤ n - 1 / 2) h0).1 (by rw [hs]; linarith)
    linarith

/-- The nine numbers of `sqrt2Cos` are the cosines its docstring names, to nearest. -/
theorem sqrt2Cos_near (k : Nat) (hk : k ≤ 8) :
    |(sqrt2Cos k : ℝ) - 2 ^ 24 * √2 * Real.cos (k * Real.pi / 16)| ≤ 1 / 2 := by
  have hpos : 0 ≤ Real.cos (k * Real.pi / 16) := by
    have hk' : (k : ℝ) ≤ 8 := by exact_mod_cast hk
    have := Real.pi_pos
    exact Real.cos_nonneg_of_mem_Icc ⟨by nlinarith [(Nat.cast_nonneg k : (0 : ℝ) ≤ k)], by nlinarith⟩
  have q1 : (1.41421356237 : ℝ) ≤ √2 := Real.le_sqrt' (by norm_num) |>.2 (by norm_num)
  have q2 : √2 ≤ 1.41421356238 := Real.sqrt_le_iff.2 ⟨by norm_num, by norm_num⟩
  -- cosines of twice the angle, for the even angles
  have c4 : Real.cos (Real.pi / 4) = √2 / 2 := Real.cos_pi_div_four
  have c2 : Real.cos (Real.pi / 8) = √(2 + √2) / 2 := Real.cos_pi_div_eight
  have s2 : Real.sin (Real.pi / 8) = √(2 - √2) / 2 := Real.sin_pi_div_eight
  have a1 : (1.8477590650 : ℝ) ≤ √(2 + √2) := Real.le_sqrt' (by norm_num) |>.2 (by norm_num; linarith)
  have a2 : √(2 + √2) ≤ 1.8477590651 := Real.sqrt_le_iff.2 ⟨by norm_num, by norm_num; linarith⟩
  have b1 : (0.7653668647 : ℝ) ≤ √(2 - √2) := Real.le_sqrt' (by norm_num) |>.2 (by norm_num; linarith)
  have b2 : √(2 - √2) ≤ 0.7653668648 := Real.sqrt_le_iff.2 ⟨by norm_num, by norm_num; linarith⟩
  have c12 : Real.cos (3 * Real.pi / 4) = -(√2 / 2) := by
    rw [show 3 * Real.pi / 4 = Real.pi - Real.pi / 4 by ring, Real.cos_pi_sub, c4]
  have c6 : Real.cos (3 * Real.pi / 8) = √(2 - √2) / 2 := by
    rw [show 3 * Real.pi / 8 = Real.pi / 2 - Real.pi / 8 by ring, Real.cos_pi_div_two_sub, s2]
  have c10 : Real.cos (5 * Real.pi / 8) = -(√(2 - √2) / 2) := by
    rw [show 5 * Real.pi / 8 = Real.pi - 3 * Real.pi / 8 by ring, Real.cos_pi_sub, c6]
  have c14 : Real.cos (7 * Real.pi / 8) = -(√(2 + √2) / 2) := by
    rw [show 7 * Real.pi / 8 = Real.pi - Real.pi / 8 by ring, Real.cos_pi_sub, c2]
  have key : ∀ {c lo hi : ℝ}, Real.cos (2 * (k * Real.pi / 16)) = c → lo ≤ c → c ≤ hi → 1 ≤ (sqrt2Cos k : ℝ) →
      ((sqrt2Cos k : ℝ) - 1 / 2) ^ 2 ≤ 2 ^ 48 * (1 + lo) → 2 ^ 48 * (1 + hi) ≤ ((sqrt2Cos k : ℝ) + 1 / 2) ^ 2 →
      |(sqrt2Cos k : ℝ) - 2 ^ 24 * √2 * Real.cos (k * Real.pi / 16)| ≤ 1 / 2 :=
    fun hc h1 h2 hn h3 h4 => halfAngle_near hpos hn (hc ▸ h1) (hc ▸ h2) h3 h4
  have ev : (sqrt2Cos 0, sqrt2Cos 1, sqrt2Cos 2, sqrt2Cos 3, sqrt2Cos 4) =
      (23726566, 23270667, 21920489, 19727919, 16777216) ∧
      (sqrt2Cos 5, sqrt2Cos 6, sqrt2Cos 7, sqrt2Cos 8) = (13181774, 9079764, 4628823, 0) := by decide
  simp only [Prod.mk.injEq] at ev
  obtain ⟨⟨e0, e1, e2, e3, e4⟩, e5, e6, e7, e8⟩ := ev
  interval_cases k
  · exact key (c := 1) (lo := 1) (hi := 1) (by simp) le_rfl le_rfl (by rw [e0]; norm_num) (by rw [e0]; norm_num)
      (by rw [e0]; norm_num)
  · exact key (lo := 0.9238795325) (hi := 0.92387953255) ((congrArg Real.cos (by push_cast; ring)).trans c2) (by linarith) (by linarith)
      (by rw [e1]; norm_num) (by rw [e1]; norm_num) (by rw [e1]; norm_num)
  · exact key (lo := 0.707106781185) (hi := 0.70710678119) ((congrArg Real.cos (by push_cast; ring)).trans c4) (by linarith)
      (by linarith) (by rw [e2]; norm_num) (by rw [e2]; norm_num) (by rw [e2]; norm_num)
  · exact key (lo := 0.38268343235) (hi := 0.3826834324) ((congrArg Real.cos (by push_cast; ring)).trans c6) (by linarith)
      (by linarith) (by rw [e3]; norm_num) (by rw [e3]; norm_num) (by rw [e3]; norm_num)
  · exact key (c := 0) (lo := 0) (hi := 0) ((congrArg Real.cos (by push_cast; ring)).trans Real.cos_pi_div_two) le_rfl le_rfl
      (by rw [e4]; norm_num) (by rw [e4]; norm_num) (by rw [e4]; norm_num)
  · exact key (lo := -0.3826834324) (hi := -0.38268343235) ((congrArg Real.cos (by push_cast; ring)).trans c10) (by linarith)
      (by linarith) (by rw [e5]; norm_num) (by rw [e5]; norm_num) (by rw [e5]; norm_num)
  · exact key (lo := -0.70710678119) (hi := -0.707106781185) ((congrArg Real.cos (by push_cast; ring)).trans c12) (by linarith)
      (by linarith) (by rw [e6]; norm_num) (by rw [e6]; norm_num) (by rw [e6]; norm_num)
  · exact key (lo := -0.92387953255) (hi := -0.9238795325) ((congrArg Real.cos (by push_cast; ring)).trans c14) (by linarith)
      (by linarith) (by rw [e7]; norm_num) (by rw [e7]; norm_num) (by rw [e7]; norm_num)
  · rw [e8, show ((8 : Nat) : ℝ) * Real.pi / 16 = Real.pi / 2 by push_cast; ring, Real.cos_pi_div_two]
    norm_num

end Sys2Proof.Machine
end

