-- ==== Sys2Proof/Tests/Slice0.lean ====
section
/-! SUPPORT. Tests of the model on small states, each about one step, with results taken from the spec's tables and worked
examples; and for every statement a concrete state and operands that meet its hypotheses together. -/

namespace Sys2Proof.Tests

open Sys2Proof Sys2Proof.Machine

/-! ## Small states -/

/-- The registers of a decoder with a frame of one 8x8 grey component (id 1, 1x1), its tables defined. -/
def grey : Dec :=
  { Dec.reset with
    frame := { valid := true, sof := 0, progressive := false, p := 8, y := 8, x := 8, nf := 1, cs := .gray, scans := 0 }
    comp := { Dec.reset.comp with q0 := { id := 1, h := 1, v := 1, tq := 0, pred := 0 } }
    qt := { Dec.reset.qt with q0 := { isDefined := true, pq := false, q := List.replicate 64 1 } }
    htDc := { Dec.reset.htDc with q0 := oneCode 3 }
    htAc := { Dec.reset.htAc with q0 := oneCode 0 }
    planes := Planes.zero }

/-- A DECODE in progress on `v` with the registers `d` in the state `f`. -/
def run (d : Dec) (f : Fsm) (v : List Byte) : State := { State.reset with view := some v, dec := { d with fsm := f } }

/-- The registers inside the one-MCU scan of `grey`, with the mode and the parameters given. -/
def scanOf (m : ScanMode) (ss se ah al : Nat) : Dec :=
  { grey with
    scan := { active := true, ns := 1, sc := [{ ci := 0, td := 0, ta := 0 }], ss := ss, se := se, ah := ah, al := al
              mode := m, total := 1, mcu := 0, rstLeft := 0, rstNext := 0, eobrun := 0 } }

/-- The one block of that scan. -/
def block0 : BlockRef := { sc := { ci := 0, td := 0, ta := 0 }, row := 0, col := 0 }

/-- That scan with coefficient n of its block at `x`. -/
def withCoef (d : Dec) (n : Nat) (x : Half) : Dec :=
  { d with planes := { d.planes with mem := d.planes.mem.writeHalf (2 * n) x } }

/-- A field of the next state, when there is one. -/
def after {α : Type} (o : Outcome) (f : State → α) : Option α :=
  match o with
  | .next t => some (f t)
  | .fault _ => none
  | .refused _ => none

/-! ## Well-formedness (R102, R116, R122): an ill-formed term for each check -/

theorem test_wf_res :
    (Instr.res 0x01).wf = false ∧ (Instr.res 0xC0).wf = false ∧ (Instr.res 0xFF).wf = false ∧
      (Instr.res 0x00).wf = true ∧ (Instr.res 0x02).wf = true ∧ (Instr.res 0xBF).wf = true := by decide

theorem test_wf_acEobRun :
    (Instr.acEobRun 0).wf = false ∧ (Instr.acEobRun 15).wf = false ∧ (Instr.acEobRun 1).wf = true ∧
      (Instr.acEobRun 14).wf = true := by decide

theorem test_wf_acRunSize :
    (Instr.acRunSize 3 0).wf = false ∧ (Instr.acRunSize 0 1).wf = true ∧ (Instr.acRunSize 15 15).wf = true := by decide

theorem test_wf_encInit :
    (Instr.encInit (2 ^ 31) 1 1).wf = false ∧ (Instr.encInit (-2 ^ 31 - 1) 1 1).wf = false ∧
      (Instr.encInit 50 65536 1).wf = false ∧ (Instr.encInit 50 1 65536).wf = false ∧
      (Instr.encInit 50 65535 65535).wf = true := by decide

theorem test_wf_mqDecode : (Instr.mqDecode (2 ^ 32)).wf = false ∧ (Instr.mqDecode (2 ^ 32 - 1)).wf = true := by decide

/-- A byte string or a row of 2^32 entries, one more than its length field holds. -/
theorem test_wf_lengths :
    (∀ (v : List Byte) (more : Bool), v.length = 2 ^ 32 → (Instr.decode v more).wf = false) ∧
      (∀ v : List Byte, v.length = 2 ^ 32 → (Instr.mqInitDec v).wf = false) ∧
      (∀ row : List Word, row.length = 2 ^ 32 → (Instr.encScanline row).wf = false) ∧
      (Instr.decode [0xFF, 0xD8] true).wf = true ∧ (Instr.mqInitDec []).wf = true ∧
      (Instr.encScanline [0xFF000000]).wf = true := by
  refine ⟨fun v more h => ?_, fun v h => ?_, fun row h => ?_, by decide, by decide, by decide⟩ <;> simp [Instr.wf, h]

/-! ## Decoding: every constructor's word, written bit by bit from spec/30_encoding.md R101, R102, R115, R116, R122 -/

/-- A marker's two bytes read by the decoder. -/
def mark (m : Byte) : Except DecodeError (Instr × List Byte) := decode .marker [0b11111111, m]

theorem test_decode_sof_a :
    mark 0b11000000 = .ok (.sof0, []) ∧ mark 0b11000001 = .ok (.sof1, []) ∧
    mark 0b11000010 = .ok (.sof2, []) ∧ mark 0b11000011 = .ok (.sof3, []) ∧
    mark 0b11000101 = .ok (.sof5, []) ∧ mark 0b11000110 = .ok (.sof6, []) ∧
    mark 0b11000111 = .ok (.sof7, []) ∧ mark 0b11001001 = .ok (.sof9, []) := by decide

theorem test_decode_sof_b :
    mark 0b11001010 = .ok (.sof10, []) ∧ mark 0b11001011 = .ok (.sof11, []) ∧
    mark 0b11001101 = .ok (.sof13, []) ∧ mark 0b11001110 = .ok (.sof14, []) ∧
    mark 0b11001111 = .ok (.sof15, []) := by decide

theorem test_decode_rst :
    mark 0b11010000 = .ok (.rst0, []) ∧ mark 0b11010001 = .ok (.rst1, []) ∧
      mark 0b11010010 = .ok (.rst2, []) ∧ mark 0b11010011 = .ok (.rst3, []) ∧
      mark 0b11010100 = .ok (.rst4, []) ∧ mark 0b11010101 = .ok (.rst5, []) ∧
      mark 0b11010110 = .ok (.rst6, []) ∧ mark 0b11010111 = .ok (.rst7, []) := by decide

theorem test_decode_skipped_a :
    mark 0b11001000 = .ok (.jpg, []) ∧ mark 0b11001100 = .ok (.dac, []) ∧
    mark 0b11011100 = .ok (.dnl, []) ∧ mark 0b11011110 = .ok (.dhp, []) ∧
    mark 0b11011111 = .ok (.exp, []) ∧ mark 0b11100011 = .ok (.app3, []) ∧
    mark 0b11100100 = .ok (.app4, []) ∧ mark 0b11100101 = .ok (.app5, []) := by decide

theorem test_decode_skipped_b :
    mark 0b11100110 = .ok (.app6, []) ∧ mark 0b11100111 = .ok (.app7, []) ∧
    mark 0b11101000 = .ok (.app8, []) ∧ mark 0b11101001 = .ok (.app9, []) ∧
    mark 0b11101010 = .ok (.app10, []) ∧ mark 0b11101011 = .ok (.app11, []) ∧
    mark 0b11101100 = .ok (.app12, []) ∧ mark 0b11101101 = .ok (.app13, []) := by decide

theorem test_decode_skipped_c :
    mark 0b11101111 = .ok (.app15, []) ∧ mark 0b11110000 = .ok (.jpg0, []) ∧
    mark 0b11110001 = .ok (.jpg1, []) ∧ mark 0b11110010 = .ok (.jpg2, []) ∧
    mark 0b11110011 = .ok (.jpg3, []) ∧ mark 0b11110100 = .ok (.jpg4, []) ∧
    mark 0b11110101 = .ok (.jpg5, []) ∧ mark 0b11110110 = .ok (.jpg6, []) := by decide

theorem test_decode_skipped_d :
    mark 0b11110111 = .ok (.jpg7, []) ∧ mark 0b11111000 = .ok (.jpg8, []) ∧
    mark 0b11111001 = .ok (.jpg9, []) ∧ mark 0b11111010 = .ok (.jpg10, []) ∧
    mark 0b11111011 = .ok (.jpg11, []) ∧ mark 0b11111100 = .ok (.jpg12, []) ∧
    mark 0b11111101 = .ok (.jpg13, []) ∧ mark 0b11111110 = .ok (.com, []) := by decide

theorem test_decode_others_a :
    mark 0b00000001 = .ok (.tem, []) ∧ mark 0b11000100 = .ok (.dht, []) ∧
    mark 0b11011000 = .ok (.soi, []) ∧ mark 0b11011001 = .ok (.eoi, []) ∧
    mark 0b11011010 = .ok (.sos, []) ∧ mark 0b11011011 = .ok (.dqt, []) ∧
    mark 0b11011101 = .ok (.dri, []) ∧ mark 0b11100000 = .ok (.app0, []) := by decide

theorem test_decode_others_b :
    mark 0b11100001 = .ok (.app1, []) ∧ mark 0b11100010 = .ok (.app2, []) ∧
    mark 0b11101110 = .ok (.app14, []) := by decide

/-- FF 00, FF 02 and FF BF are no marker: RES (R102). -/
theorem test_decode_res :
    mark 0b00000000 = .ok (.res 0, []) ∧ mark 0b00000010 = .ok (.res 2, []) ∧ mark 0b10111111 = .ok (.res 0xBF, []) := by
  decide

theorem test_decode_symbols :
    decode .dcSymbol [0b00001011] = .ok (.dcDiff 11, []) ∧ decode .dcSymbol [0b00000000] = .ok (.dcDiff 0, []) ∧
      decode .rawBit [1] = .ok (.dcRefineBit true, []) ∧ decode .acSymbol [0b00000000] = .ok (.acEob, []) ∧
      decode .acSymbol [0b11110000] = .ok (.acZrl, []) ∧ decode .acSymbol [0b11100000] = .ok (.acEobRun 14, []) ∧
      decode .acSymbol [0b00010000] = .ok (.acEobRun 1, []) ∧
      decode .acSymbol [0b00110001] = .ok (.acRunSize 3 1, []) ∧
      decode .acSymbol [0b11111010] = .ok (.acRunSize 15 10, []) := by decide

/-- The ids of R122, with the operands of the wire form (log 3). -/
theorem test_decode_calls :
    decode .call [0x01, 1, 0, 0, 0, 2, 0xFF, 0xD8] = .ok (.decode [0xFF, 0xD8] true, []) ∧
      decode .call [0x02] = .ok (.flushProgressive, []) ∧ decode .call [0x03] = .ok (.reset, []) ∧
      decode .call [0x10, 0, 0, 0, 50, 0, 16, 1, 0] = .ok (.encInit 50 16 256, []) ∧
      decode .call [0x11, 0, 0, 0, 1, 0xFF, 0, 0x80, 1] = .ok (.encScanline [0xFF008001], []) ∧
      decode .call [0x12] = .ok (.encFinish, []) ∧
      decode .call [0x20, 0, 0, 0, 2, 0x44, 0x27] = .ok (.mqInitDec [0x44, 0x27], []) ∧
      decode .call [0x21, 0, 0, 0, 18] = .ok (.mqDecode 18, []) ∧ decode .call [0x22] = .ok (.mqResetCtx, []) := by
  decide

/-- What is no instruction is refused by name. -/
theorem test_decode_refusals :
    decode .marker [0x12, 0xD8] = .error .garbage ∧ mark 0xFF = .error .fill ∧ decode .marker [0xFF] = .error .needMore ∧
      decode .dcSymbol [0x10] = .error .dcSize ∧ decode .rawBit [2] = .error .notABit ∧
      decode .call [0x04] = .error .unknownCommand ∧ decode .call [0x01, 2, 0, 0, 0, 0] = .error .badFlag := by decide

/-! ## One step each, with the spec's worked examples -/

/-- R282: `FF D8` starts; `00 FF D8` is SOI_MISSING; `FF` with more = 1 suspends with resend 1. -/
theorem test_soi :
    after (step (run Dec.reset .none [0xFF, 0xD8])) (fun t => (t.dec.fsm, t.dec.cur)) = some (.started, 2) ∧
      after (step (run Dec.reset .none [0x00, 0xFF, 0xD8])) (fun t => t.results) = some [(.decode, .err (.corrupt .soiMissing))] ∧
      after (step (run Dec.reset .none [0xFF])) (fun t => (t.dec.fsm, t.results)) = some (.none, [(.decode, .okResend 1)]) := by decide

/-- R284: in FRAME, `12 FF FF DA` skips 12, then the first FF. -/
theorem test_skip :
    after (step (run grey .frame [0x12, 0xFF, 0xFF, 0xDA])) (fun t => t.dec.cur) = some 1 ∧
      after (step { run grey .frame [0x12, 0xFF, 0xFF, 0xDA] with dec := { grey with fsm := .frame, cur := 1 } })
        (fun t => t.dec.cur) =
        some 2 := by decide

/-- R293: the fixed header of a 16x16 grey SOF0; a precision of 12 is SOF_PRECISION. -/
theorem test_sof0 :
    after (exec .sof0 (run Dec.reset .started [0xFF, 0xC0, 0, 0x0B, 8, 0, 0x10, 0, 0x10, 1]))
        (fun t => (t.dec.fsm, t.dec.cur, t.events)) =
      some (.frameHeader, 10, [.sizeKnown 16 16, .frameStarted 8 false none]) := by decide

theorem test_sof1 :
    after (exec .sof1 (run Dec.reset .started [0xFF, 0xC1, 0, 0x0B, 12, 0, 0x10, 0, 0x10, 1])) (fun t => t.results) =
      some [(.decode, .err (.corrupt .sofPrecision))] := by decide

theorem test_sof2 :
    after (exec .sof2 (run Dec.reset .started [0xFF, 0xC2, 0, 0x0B, 8, 0, 8, 0, 8, 1]))
        (fun t => (t.dec.frame.progressive, t.events)) =
      some (true, [.sizeKnown 8 8, .frameStarted 8 true none]) := by decide

/-- R292: an arithmetic-coded frame is refused, and the error is latched. -/
theorem test_sof9 :
    after (exec .sof9 (run Dec.reset .started [0xFF, 0xC9]))
        (fun t => (t.dec.fsm, t.dec.err, t.results)) =
      some (.error, some (.corrupt .sofUnsupported), [(.decode, .err (.corrupt .sofUnsupported))]) := by decide

/-- R294: the component list `01 11 00` of a 16x16 frame: COMP[0] = (1, 1, 1, 0) and a plane of 2x2 blocks. -/
theorem test_sofBody :
    after (step (run { grey with frame := { grey.frame with valid := false, x := 16, y := 16 } } .frameHeader [1, 0x11, 0]))
        (fun t => (t.dec.comp.q0, t.dec.planes.allocated, t.dec.pbw t.dec.comp.q0, t.dec.pbh t.dec.comp.q0, t.dec.fsm)) =
      some ({ id := 1, h := 1, v := 1, tq := 0, pred := 0 }, true, 2, 2, .frame) := by decide

/-- R300's example: Tq 0, 8-bit, q0 = 16, then 63 entries of 1. -/
theorem test_dqt :
    after (exec .dqt (run Dec.reset .started ([0xFF, 0xDB, 0, 0x43, 0, 0x10] ++ List.replicate 63 1)))
        (fun t => (t.dec.qt.q0.isDefined, t.dec.qt.q0.q.take 3, t.dec.qt.q0.q.length, t.dec.cur)) =
      some (true, [16, 1, 1], 64, 69) := by decide

/-- R302's example: DC table 0 with one code `0` for 3. -/
theorem test_dht :
    after (exec .dht (run Dec.reset .started ([0xFF, 0xC4, 0, 0x14, 0, 1] ++ List.replicate 15 0 ++ [3])))
        (fun t => (t.dec.htDc.q0.isDefined, t.dec.htDc.q0.huffcode, t.dec.htDc.q0.huffsize, t.dec.htDc.q0.huffval)) =
      some (true, [0], [1], [3]) := by decide

/-- R305's example, and a length of 5. -/
theorem test_dri :
    after (exec .dri (run Dec.reset .started [0xFF, 0xDD, 0, 4, 0, 1])) (fun t => t.dec.ri) = some 1 ∧
      after (exec .dri (run Dec.reset .started [0xFF, 0xDD, 0, 5, 0, 1, 0])) (fun t => t.results) =
        some [(.decode, .err (.corrupt .driLength))] := by decide

/-- R310's example, with 16x16 samples. -/
theorem test_sos :
    after (exec .sos (run { grey with frame := { grey.frame with x := 16, y := 16 } } .frame
        [0xFF, 0xDA, 0, 8, 1, 1, 0, 0, 0x3F, 0]))
        (fun t => (t.dec.scan.ns, t.dec.scan.mode, t.dec.scan.total, t.dec.fsm)) =
      some (1, .seq, 4, .restart) := by decide

/-- R318's example: any RSTn restarts; EOI is RST_EXPECTED. -/
theorem test_rst :
    after (exec .rst0 (run { scanOf .seq 0 63 0 0 with bb := { val := 0xFF, cnt := 3 } } .findMarker [0xFF, 0xD0]))
        (fun t => (t.dec.fsm, t.dec.bb.cnt, t.dec.scan.rstNext)) =
      some (.restart, 0, 1) ∧
      after (exec .eoi (run (scanOf .seq 0 63 0 0) .findMarker [0xFF, 0xD9])) (fun t => t.results) =
        some [(.decode, .err (.corrupt .rstExpected))] := by decide

/-- R331: outside FINDMARKER an RSTn, and TEM anywhere in a scan for a marker, are ignored. -/
theorem test_standalone :
    after (exec .rst3 (run grey .frame [0xFF, 0xD3])) (fun t => (t.dec.fsm, t.dec.cur)) = some (.frame, 2) ∧
      after (exec .tem (run Dec.reset .started [0xFF, 1])) (fun t => (t.dec.fsm, t.dec.cur)) = some (.started, 2) := by decide

/-- R325's example: a progressive 8x8 grey frame emits 8 lines and then Finished; before a scan it is EOI_INCOMPLETE. -/
theorem test_eoi :
    after (exec .eoi (run { grey with frame := { grey.frame with progressive := true, scans := 1 } } .frame [0xFF, 0xD9]))
        (fun t => (t.events.length, t.dec.fsm, t.dec.planes.allocated)) =
      some (9, .done, false) ∧
      after (exec .eoi (run grey .frame [0xFF, 0xD9])) (fun t => t.results) = some [(.decode, .err (.corrupt .eoiIncomplete))] := by
  decide

/-- R320: a JFIF header; an APP0 of another identifier has no effect. -/
theorem test_app0 :
    after (exec .app0 (run Dec.reset .started
        [0xFF, 0xE0, 0, 16, 0x4A, 0x46, 0x49, 0x46, 0, 1, 1, 0, 0, 1, 0, 1, 0, 0])) (fun t => t.dec.jfif) =
      some { present := true, version := 0x0101, units := 0, xdensity := 1, ydensity := 1, xthumb := 0, ythumb := 0 } ∧
      after (exec .app0 (run Dec.reset .started
        [0xFF, 0xE0, 0, 16, 0x4A, 0x46, 0x58, 0x58, 0, 1, 1, 0, 0, 1, 0, 1, 0, 0])) (fun t => t.dec.jfif.present) =
        some false := by decide

/-- R321, R381: an EXIF payload without II or MM fails; EXIF_NULL gives no tag for another. -/
theorem test_app1 :
    after (exec .app1 (run Dec.reset .started [0xFF, 0xE1, 0, 10, 0x45, 0x78, 0x69, 0x66, 0, 0, 0x41, 0x41]))
        (fun t => t.results) = some [(.decode, .err (.corrupt .metadata))] ∧
      after (exec .app1 (run Dec.reset .started [0xFF, 0xE1, 0, 10, 0x45, 0x78, 0x69, 0x66, 0, 0, 0x49, 0x49]))
        (fun t => (t.dec.cur, t.events)) = some (12, []) := by decide

/-- R322, R383: the one chunk of a profile delivers it. -/
theorem test_app2 :
    after (exec .app2 (run Dec.reset .started ([0xFF, 0xE2, 0, 18] ++ idIcc ++ [1, 1, 0xAA, 0xBB])))
        (fun t => (t.events, t.dec.icc.count)) = some ([.iccProfile [0xAA, 0xBB]], 0) := by decide

/-- R323: an Adobe marker with transform 2. -/
theorem test_app14 :
    after (exec .app14 (run Dec.reset .started [0xFF, 0xEE, 0, 14, 0x41, 0x64, 0x6F, 0x62, 0x65, 0, 100, 0, 0, 0, 0, 2]))
        (fun t => (t.dec.adobe, t.dec.cur)) = some ({ present := true, transform := 2 }, 16) := by decide

/-- R330: a comment is skipped by its length; with a byte missing it suspends. -/
theorem test_com :
    after (exec .com (run Dec.reset .started [0xFF, 0xFE, 0, 4, 0xFF, 0xD9])) (fun t => t.dec.cur) = some 6 ∧
      after (exec .com (run Dec.reset .started [0xFF, 0xFE, 0, 4, 0xFF])) (fun t => (t.dec.cur, t.results)) =
        some (0, [(.decode, .okResend 5)]) := by decide

/-- R284, R175: FF 00 is skipped by one byte in a scan for a marker, and is the data byte FF where the bit reader meets it. -/
theorem test_res :
    after (exec (.res 0) (run grey .frame [0xFF, 0])) (fun t => t.dec.cur) = some 1 ∧
      after (exec (.res 0) (run (scanOf .seq 0 63 0 0) .restart [0xFF, 0])) (fun t => (t.dec.cur, t.dec.bb)) =
        some (2, { val := 0xFF, cnt := 8 }) := by decide

/-- R200's example: t = 3 and bits 101 give pred 5 and blk[0] = 5. R202's example: Al = 1 and diff = +8 give pred 8, cell 16. -/
theorem test_dcDiff :
    after (exec (.dcDiff 3) (run (scanOf .seq 0 63 0 0) .restart [0b10100000]))
        (fun t => (t.dec.comp.q0.pred, t.dec.cell 0 0 0 0, t.dec.bb.cnt, t.dec.prog.k)) = some (5, 5, 5, 1) ∧
      after (exec (.dcDiff 4) (run (scanOf .dcFirst 0 0 0 1) .restart [0b10000000]))
        (fun t => (t.dec.comp.q0.pred, t.dec.cell 0 0 0 0, t.dec.scan.mcu)) = some (8, 16, 1) := by decide

/-- R203's example. -/
theorem test_dcRefineBit :
    after (exec (.dcRefineBit true) (run (withCoef (scanOf .dcRefine 0 0 1 0) 0 16) .restart []))
        (fun t => t.dec.cell 0 0 0 0) = some 17 ∧
      after (exec (.dcRefineBit false) (run (withCoef (scanOf .dcRefine 0 0 1 0) 0 16) .restart []))
        (fun t => t.dec.cell 0 0 0 0) = some 16 := by decide

/-- R201's example: symbol 01 and the bit 1 give blk[1] = +1. Past index 63 it is HUFF_AC_INDEX. -/
theorem test_acRunSize :
    after (exec (.acRunSize 0 1) (run { scanOf .seq 0 63 0 0 with prog := { blk := 0, k := 1 } } .restart [0x80]))
        (fun t => (t.dec.cell 0 0 0 1, t.dec.prog.k)) = some (1, 2) ∧
      after (exec (.acRunSize 1 1) (run { scanOf .seq 0 63 0 0 with prog := { blk := 0, k := 63 } } .restart [0x80]))
        (fun t => t.results) = some [(.decode, .err (.corrupt .huffAcIndex))] := by decide

/-- R204's example: symbol 20 and bits 11 give EOBRUN = 6. R201: in a sequential scan it is HUFF_AC_SYMBOL. -/
theorem test_acEobRun :
    after (exec (.acEobRun 2) (run { scanOf .acFirst 1 63 0 0 with prog := { blk := 0, k := 1 } } .restart [0b11000000]))
        (fun t => t.dec.scan.eobrun) = some 6 ∧
      after (exec (.acEobRun 2) (run { scanOf .seq 0 63 0 0 with prog := { blk := 0, k := 1 } } .restart [0]))
        (fun t => t.results) = some [(.decode, .err (.corrupt .huffAcSymbol))] := by decide

/-- R204: symbol 00 gives EOBRUN = 0. R205's example: EOB, blk[1] = 2, Al = 0 and the bit 1 give 3 and EOBRUN 0. -/
theorem test_acEob :
    after (exec .acEob (run { scanOf .acFirst 1 63 0 0 with prog := { blk := 0, k := 1 } } .restart []))
        (fun t => (t.dec.scan.eobrun, t.dec.scan.mcu)) = some (0, 1) ∧
      after (exec .acEob (run { withCoef (scanOf .acRefine 1 1 1 0) 1 2 with prog := { blk := 0, k := 1 } } .restart [0x80]))
        (fun t => (t.dec.cell 0 0 0 1, t.dec.scan.eobrun)) = some (3, 0) := by decide

/-- R201: ZRL moves the index by 16, up to the index past the band. -/
theorem test_acZrl :
    after (exec .acZrl (run { scanOf .seq 0 63 0 0 with prog := { blk := 0, k := 1 } } .restart [])) (fun t => t.dec.prog.k) =
        some 17 ∧
      after (exec .acZrl (run { scanOf .seq 0 63 0 0 with prog := { blk := 0, k := 49 } } .restart []))
        (fun t => t.results) = some [(.decode, .err (.corrupt .huffAcIndex))] := by decide

/-- R141, R147. -/
theorem test_decode :
    after (exec (.decode [0xFF] true) State.reset) (fun t => (t.view, t.dec.cur)) = some (some [0xFF], 0) ∧
      after (exec (.decode [0xFF] true)
          { State.reset with dec := { Dec.reset with fsm := .error, err := some .outOfMemory } }) (fun t => t.results) =
        some [(.decode, .err .outOfMemory)] := by decide

/-- R372's example: 3 MCU rows of 8 lines, 20 rows, and the answer false at the first query. -/
theorem test_flushProgressive :
    after (exec .flushProgressive
        { run { grey with frame := { grey.frame with progressive := true, y := 20 } } .frame [] with
          view := none, answers := [false] })
        (fun t => (t.events.length, t.dec.flush)) = some (8, { row := 1, pending := true }) ∧
      after (exec .flushProgressive
        { run { grey with frame := { grey.frame with progressive := true, y := 20 }, flush := { row := 2, pending := true } }
            .frame [] with view := none })
        (fun t => (t.events.length, t.dec.flush)) = some (4, { row := 0, pending := false }) := by decide

/-- R480: RESET from ERROR. -/
theorem test_reset :
    after (exec .reset { State.reset with dec := { Dec.reset with fsm := .error, err := some .outOfMemory, ri := 7 } })
        (fun t => (t.dec.fsm, t.dec.err, t.dec.ri, t.results)) = some (.none, none, 0, [(.reset, .ok)]) := by decide

/-- R393, R394, R395: the 623 header bytes after what OUTQ holds, and the first row of QL at quality 75. R489: the run's
bytes begin there. -/
theorem test_encInit :
    after (exec (.encInit 75 16 16) { State.reset with pk := { acc := 0, cnt := 0, outq := [0xAA] } })
        (fun t => (t.encOutput.length, t.encOutput.take 2, t.enc.ql.take 8, t.enc.isOpen)) =
      some (623, [0xFF, 0xD8], [8, 6, 5, 8, 12, 20, 26, 31], true) := by decide +kernel

/-- R405: a first row of 16 is buffered, and no byte is appended; R416: a row of another length is refused. -/
theorem test_encScanline :
    after (exec (.encScanline [0xFF000000]) { State.reset with enc := { Enc.reset with isOpen := true, w := 1, h := 16 } })
        (fun t => (t.enc.rows, t.enc.band.length, t.pk.outq)) = some (1, 1, []) ∧
      after (exec (.encScanline []) { State.reset with enc := { Enc.reset with isOpen := true, w := 1, h := 16 } })
        (fun t => t.results) = some [(.encScanline, .encErr .rowLength)] := by decide

/-- R414, R415, R489: the partial byte 101 is padded to BF, then FF D9; the run has ended. -/
theorem test_encFinish :
    after (exec .encFinish
        { State.reset with
          enc := { Enc.reset with isOpen := true, w := 1, h := 1, rows := 1 }, pk := { acc := 0b101, cnt := 3, outq := [] } })
        (fun t => (t.pk.outq, t.enc.isOpen, t.encEnded)) = some ([0xBF, 0xFF, 0xD9], false, true) := by decide

/-- R233's example, and its corner case of an empty segment. -/
theorem test_mqInitDec :
    after (exec (.mqInitDec [0x44, 0x27]) State.reset) (fun t => (t.mq.c, t.mq.ct, t.mq.bp, t.mq.a)) =
        some (0x22138000, 1, 1, 0x8000) ∧
      after (exec (.mqInitDec []) State.reset) (fun t => (t.mq.c, t.mq.ct, t.mq.bp)) = some (0x7FFF8000, 1, 0) := by decide

/-- R235's example. -/
theorem test_mqDecode :
    after (exec (.mqDecode 0)
        { State.reset with mq := { Mq.reset Config.default with seg := [0x44, 0x27], bp := 1, c := 0x22138000 } })
        (fun t => (t.results, t.mq.a, t.mq.c, t.mq.ct, t.mq.cx.head?)) =
      some ([(.mqDecode, .okBit false)], 0xAC02, 0x44270000, 0, some { i := 1, mps := false }) := by decide

/-- R238. -/
theorem test_mqResetCtx :
    after (exec .mqResetCtx { State.reset with
        mq := { Mq.reset Config.default with cx := List.replicate 19 { i := 5, mps := true } } })
        (fun t => (t.mq.cx.head?, t.mq.cx.length)) = some (some { i := 0, mps := false }, 19) := by decide

/-- R413's examples. -/
theorem test_packer :
    (Packer.reset.put 0xFF 8).outq = [0xFF, 0x00] ∧ ((Packer.reset.put 0b101 3).put 0b11111 5).outq = [0xBF] := by decide

/-- R174(a): the worked example of BUILD. -/
theorem test_build :
    (build ([0, 3, 1] ++ List.replicate 13 0) [0xA, 0xB, 0xC, 0xD]).map (fun e => e.huffcode) = some [0, 1, 2, 6] ∧
      (build ([0, 3, 1] ++ List.replicate 13 0) [0xA, 0xB, 0xC, 0xD]).map (fun e => e.mincode.take 3) = some [0, 0, 6] ∧
      (build ([0, 3, 1] ++ List.replicate 13 0) [0xA, 0xB, 0xC, 0xD]).map (fun e => e.maxcode.take 3) = some [-1, 2, 6] ∧
      (build ([0, 3, 1] ++ List.replicate 13 0) [0xA, 0xB, 0xC, 0xD]).map (fun e => e.look.getD 0xC0 (9, 9)) =
        some (3, 0xD) := by decide

/-- R260's and R411's vectors. -/
theorem test_quantize_mag :
    quantOne 64 16 = 1 ∧ quantOne (-64) 16 = -1 ∧ quantOne 192 16 = 2 ∧ quantOne 63 16 = 0 ∧
      mag 5 3 = 0b101 ∧ mag (-5) 3 = 0b010 ∧ mag (-1) 1 = 0 ∧ mag 1023 10 = 0x3FF ∧ mag (-1023) 10 = 0 ∧
      mag (-64) 7 = 0b0111111 := by decide

/-- R361's and R407's vectors. -/
theorem test_colour :
    ycbcrToRgb 100 50 200 = ⟨201, 75, 0⟩ ∧ ycbcrToRgb 0 0 0 = ⟨0, 135, 0⟩ ∧ ycbcrToRgb 76 85 255 = ⟨254, 0, 0⟩ ∧
      (lumaOf 0x00FF8040, cbOf 0x00FF8040, crOf 0x00FF8040) = (159, 75, 197) ∧
      (lumaOf 0xFFFF0000, cbOf 0xFFFF0000, crOf 0xFFFF0000) = (76, 85, 255) := by decide

/-- R381(c), R381(d): an "II" and an "MM" payload with one directory of two entries, a SHORT, and one of a type that
produces no value. -/
theorem test_exifEntries :
    exifEntries ([0x49, 0x49, 0x2A, 0, 8, 0, 0, 0, 2, 0] ++ [0x12, 0x01, 3, 0, 1, 0, 0, 0, 6, 0, 0, 0] ++
        [0x13, 0x01, 7, 0, 1, 0, 0, 0, 6, 0, 0, 0]) = [{ dir := .ifd0, tag := 0x0112, type := 3, count := 1, values := [6] }] ∧
      exifEntries ([0x4D, 0x4D, 0, 0x2A, 0, 0, 0, 8, 0, 1] ++ [0x01, 0x12, 0, 3, 0, 0, 0, 1, 0, 6, 0, 0]) =
        [{ dir := .ifd0, tag := 0x0112, type := 3, count := 1, values := [6] }] := by decide

/-- R381(d): IFD0 at offset 8 leads by the tag 8825 to the GPS sub-IFD at offset 22, whose tag 1 is ASCII "N". -/
theorem test_exifGps :
    (exifEntries ([0x49, 0x49, 0x2A, 0, 8, 0, 0, 0, 1, 0] ++ [0x25, 0x88, 4, 0, 1, 0, 0, 0, 22, 0, 0, 0] ++ [1, 0] ++
        [1, 0, 2, 0, 2, 0, 0, 0, 0x4E, 0, 0, 0])).drop 1 =
      [{ dir := .gps, tag := 1, type := 2, count := 2, values := [0x4E, 0] }] := by decide

/-- R21, R489: a run is the events and every DECODE's outcome since RESET; an encoder run, the outcomes since ENC_INIT. -/
theorem test_observation :
    { State.reset with results := [(.decode, .okResend 3), (.reset, .ok), (.decode, .okResend 2), (.encInit, .ok),
        (.encFinish, .encErr .notOpen), (.decode, .okResend 0)] }.observation = ([], [.okResend 2, .okResend 0]) ∧
      { State.reset with results := [(.encFinish, .encErr .notOpen), (.encInit, .ok), (.decode, .okResend 2),
        (.encScanline, .ok)] }.encObservation = ([], [.ok, .ok]) := by decide

/-- R258, R259: of a block of samples 129 the DC is 8 and gain 8 makes it 64; FDCT_REF gives it, and an implementer's
instance a value within 4 of it. -/
theorem test_fdct_gain :
    (fdct .ref (List.replicate 64 129)).take 2 = [64, 0] ∧
      (gain8Low (List.replicate 64 129) 0 0, gain8High (List.replicate 64 129) 0 0) = (60, 68) := by decide +kernel

/-! ## Witnesses: for each statement with hypotheses, concrete values that meet them, clause by clause -/

theorem after_some {α : Type} {o : Outcome} {f : State → α} {x : α} (h : after o f = some x) :
    ∃ t, o = .next t ∧ f t = x := by
  unfold after at h
  split at h
  · exact ⟨_, rfl, by simpa using h⟩
  · cases h
  · cases h

theorem witness_EncodeThenDecode :
    (Instr.encInit (-2 ^ 31) 65535 0).wf = true ∧ (Instr.acEobRun 14).wf = true ∧ (Instr.res 0xBF).wf = true ∧
      (Instr.decode [0xFF, 0xD8] false).wf = true := by decide

theorem witness_DecodeThenEncode :
    FetchCtx.acSymbol ≠ .call ∧ decode .acSymbol [0xE0, 0x01] = .ok (.acEobRun 14, [0x01]) ∧
      FetchCtx.marker ≠ .call ∧ decode .marker [0xFF, 0xBF] = .ok (.res 0xBF, []) := by decide

theorem witness_WordsDecodeOrAreRefused :
    (0xFE : Byte) ≠ 0xFF ∧ 16 ≤ (0x10 : Byte).toNat ∧
      (0x04 : Byte) ∉ ([0x01, 0x02, 0x03, 0x10, 0x11, 0x12, 0x20, 0x21, 0x22] : List Byte) := by decide

theorem witness_StepRunsDecodedInstruction_marker :
    (run grey .frame [0xFF, 0xD9]).view = some [0xFF, 0xD9] ∧ (run grey .frame [0xFF, 0xD9]).dec.fsm = .frame ∧
      decode .marker ([0xFF, 0xD9].drop (run grey .frame [0xFF, 0xD9]).dec.cur) = .ok (.eoi, []) := by decide

theorem witness_StepRunsDecodedInstruction_call :
    ({ State.reset with hostq := [.reset] } : State).view = none ∧
      ({ State.reset with hostq := [.reset] } : State).hostq = .reset :: [] := by decide

/-- The bits 0 101 of R200's example, in a sequential and in a DC-first scan. -/
theorem witness_StepRunsDecodedInstruction_dc :
    (run (scanOf .seq 0 63 0 0) .restart [0b01010000]).currentBlock = some ([0b01010000], block0) ∧
      (scanOf .seq 0 63 0 0).scan.mode = .seq ∧ (scanOf .seq 0 63 0 0).prog.k = 0 ∧
      (scanOf .dcFirst 0 0 0 1).scan.mode = .dcFirst ∧
      decodeSym [0b01010000] true (grey.htDc.get 0) grey.rd = .ok (3, { cur := 1, bb := { val := 0b01010000, cnt := 7 } }) ∧
      (3 : Byte).toNat ≤ 15 := by decide

theorem witness_StepRunsDecodedInstruction_bit :
    (run (scanOf .dcRefine 0 0 1 0) .restart [0x80]).currentBlock = some ([0x80], block0) ∧
      (scanOf .dcRefine 0 0 1 0).scan.mode = .dcRefine ∧
      nextBit [0x80] true grey.rd = .ok (true, { cur := 1, bb := { val := 0x80, cnt := 7 } }) := by decide

/-- An AC symbol inside a sequential block, and the first of a band. -/
theorem witness_StepRunsDecodedInstruction_ac :
    (run { scanOf .seq 0 63 0 0 with prog := { blk := 0, k := 63 } } .restart [0]).currentBlock = some ([0], block0) ∧
      63 ≤ (scanOf .seq 0 63 0 0).lastK ∧
      (run (scanOf .acFirst 1 1 0 0) .restart [0]).currentBlock = some ([0], block0) ∧
      (scanOf .acFirst 1 1 0 0).prog.k = 0 ∧ (scanOf .acFirst 1 1 0 0).scan.eobrun = 0 ∧ 1 ≤ (scanOf .acFirst 1 1 0 0).lastK ∧
      decodeSym [0] true (grey.htAc.get 0) grey.rd = .ok (0, { cur := 1, bb := { val := 0, cnt := 7 } }) := by decide

theorem witness_OneByteSkipped :
    (run grey .frame [0x12, 0xFF, 0xFF]).dec.fsm = .frame ∧
      [0x12, 0xFF, 0xFF].drop (run grey .frame [0x12, 0xFF, 0xFF]).dec.cur = (0x12 : Byte) :: [0xFF, 0xFF] ∧
      (0x12 : Byte) ≠ 0xFF ∧ (run grey .findMarker [0xFF, 0xFF]).dec.fsm = .findMarker ∧
      [0xFF, 0xFF].drop (run grey .findMarker [0xFF, 0xFF]).dec.cur = (0xFF : Byte) :: 0xFF :: [] ∧
      2 ≤ (run grey .frame [0xFF, 0x02]).dec.avail [0xFF, 0x02] := by decide

theorem phase_none (v : List Byte) : (run Dec.reset .none v).PhaseInv := by
  refine ⟨⟨rfl, ?_, ?_, ?_⟩, ⟨rfl, ?_, ?_, ?_⟩, ?_, ?_⟩ <;> simp [run, State.reset, State.fresh, Dec.reset, Frame.reset, Scan.reset, State.unitStart]

theorem phase_scan (v : List Byte) : (run (scanOf .seq 0 63 0 0) .restart v).PhaseInv := by
  refine ⟨⟨rfl, ?_, ?_, ?_⟩, ⟨rfl, ?_, ?_, ?_⟩, ?_, ?_⟩ <;>
    simp [run, State.reset, State.fresh, Dec.reset, State.unitStart, scanOf, grey]

theorem witness_EndedDecodeLeavesNoTrace :
    (run Dec.reset .none [0xFF]).PhaseInv ∧ (run Dec.reset .none [0xFF]).view = some [0xFF] ∧
      ∃ t, step (run Dec.reset .none [0xFF]) = .next t ∧ t.view = none :=
  ⟨phase_none _, rfl, after_some (by decide)⟩

theorem witness_MoreBytesChangeNothing :
    (run grey .frame [0x12, 0xFF]).view = some [0x12, 0xFF] ∧ (run grey .frame [0x12, 0xFF]).dec.fsm ≠ .done ∧
      ∃ t, step (run grey .frame [0x12, 0xFF]) = .next t ∧ t.view = some [0x12, 0xFF] :=
  ⟨rfl, by decide, after_some (by decide)⟩

/-- A core in ERROR. -/
def failed : State := { State.reset with dec := { Dec.reset with fsm := .error, err := some (.corrupt .eof) } }

theorem witness_ResetState : failed.view = none := rfl

theorem witness_DecodeBeginsOrReturnsError :
    (failed.view = none ∧ failed.dec.fsm = .error ∧ failed.dec.err = some (.corrupt .eof)) ∧
      (State.reset.view = none ∧ State.reset.dec.fsm ≠ .error) ∧ State.reset.dec.flushable = false := by decide

/-- A progressive frame of 20 rows, 3 MCU rows. -/
def tall (fl : FlushReg) (ans : List Bool) : State :=
  { run { grey with frame := { grey.frame with progressive := true, y := 20 }, flush := fl } .frame [] with
    view := none, answers := ans }

theorem canRender_tall (fl : FlushReg) (ans : List Bool) : (tall fl ans).dec.canRender := ⟨rfl, by simp [tall, run, grey]⟩

/-- A true answer and three rows left; a false one that is not taken, the last row pending; and a false one after a true
one. -/
theorem witness_FlushEmitsRows :
    (∀ fl ans, (tall fl ans).view = none ∧ (tall fl ans).dec.fsm ≠ .error ∧ (tall fl ans).dec.flushable = true ∧
      (tall fl ans).dec.canRender) ∧
      (0 = (if (tall ⟨0, false⟩ [true]).dec.flush.pending then (tall ⟨0, false⟩ [true]).dec.flush.row else 0) ∧
        3 = (tall ⟨0, false⟩ [true]).dec.mcuy - 0 ∧ ∀ a ∈ (tall ⟨0, false⟩ [true]).answers.take (3 - 1), a = true) ∧
      (2 = (if (tall ⟨2, true⟩ [false]).dec.flush.pending then (tall ⟨2, true⟩ [false]).dec.flush.row else 0) ∧
        1 = (tall ⟨2, true⟩ [false]).dec.mcuy - 2 ∧ ∀ a ∈ (tall ⟨2, true⟩ [false]).answers.take (1 - 1), a = true) ∧
      (tall ⟨0, false⟩ [true, false]).answers = List.replicate 1 true ++ false :: [] ∧ 1 + 1 < 3 :=
  ⟨fun fl ans => ⟨rfl, (by simp [tall, run]), rfl, canRender_tall _ _⟩, by decide, by decide, rfl, by decide⟩

theorem witness_DoneConsumesEverything :
    (run grey .done [0xAB]).inState [0xAB] .done ∧ (run grey .done [0xAB]).dec.cur < [(0xAB : Byte)].length ∧
      (run grey .done []).inState [] .done ∧ ([] : List Byte).length ≤ (run grey .done []).dec.cur :=
  ⟨⟨rfl, rfl⟩, by decide, ⟨rfl, rfl⟩, by decide⟩

theorem witness_ReentryRefused :
    (callOf .reset = some .reset ∧ (run grey .frame []).view ≠ none) ∧
      (({ State.reset with reenters := true } : State).reenters = true ∧
        ∃ t, step { State.reset with reenters := true } = .next t ∧ t.events.length = 0) :=
  ⟨by decide, rfl, after_some (by decide)⟩

/-! ### Markers -/

/-- A length field of `lo` with the bytes `rest` behind it. -/
def seg (m lo : Byte) (rest : List Byte) : State := run grey .frame ([0xFF, m, 0, lo] ++ rest)

/-- Three bytes; Lx = 1; Lx = 2 below DQT's 3 and Lx = 7 below SOS's 8; a segment that lacks its last byte. -/
theorem witness_SegmentPreamble :
    ((Instr.dqt, 3, Cause.dqtLength) ∈ segmentMarkers ∧ (Instr.sos, 8, Cause.sosLength) ∈ segmentMarkers ∧
        (Instr.com, 2, Cause.segmentLength) ∈ segmentMarkers) ∧
      (run grey .frame [0xFF, 0xDB, 0]).scanning [0xFF, 0xDB, 0] ∧ (run grey .frame [0xFF, 0xDB, 0]).snap = none ∧
      (run grey .frame [0xFF, 0xDB, 0]).dec.avail [0xFF, 0xDB, 0] = 3 ∧
      ((seg 0xDB 1 []).dec.be16 [0xFF, 0xDB, 0, 1] 2).toNat = 1 ∧ ((seg 0xDB 2 []).dec.be16 [0xFF, 0xDB, 0, 2] 2).toNat = 2 ∧
      ((seg 0xDA 7 []).dec.be16 [0xFF, 0xDA, 0, 7] 2).toNat = 7 ∧ (seg 0xDA 7 []).dec.fsm = .frame ∧
      ((seg 0xFE 4 [0]).dec.be16 [0xFF, 0xFE, 0, 4, 0] 2).toNat = 4 ∧
      (seg 0xFE 4 [0]).dec.avail [0xFF, 0xFE, 0, 4, 0] = 2 + 4 - 1 :=
  ⟨by decide, ⟨rfl, .inr rfl⟩, rfl, by decide, by decide, by decide, by decide, by decide, by decide, by decide⟩

theorem witness_SegmentSkipped :
    Instr.com ∈ skipMarkers ∧ (seg 0xFE 2 []).scanning [0xFF, 0xFE, 0, 2] ∧
      (seg 0xFE 2 []).dec.segment [0xFF, 0xFE, 0, 2] 2 ∧
      (seg 0xFE 1 []).snap = none ∧ (seg 0xFE 1 []).dec.avail [0xFF, 0xFE, 0, 1] = 4 ∧
      ((seg 0xFE 1 []).dec.be16 [0xFF, 0xFE, 0, 1] 2).toNat = 1 ∧
      (run grey .frame [0xFF, 0xFE, 0]).dec.avail [0xFF, 0xFE, 0] = 3 ∧
      ((seg 0xFE 4 [0]).dec.be16 [0xFF, 0xFE, 0, 4, 0] 2).toNat = 4 ∧ (seg 0xFE 4 [0]).dec.avail [0xFF, 0xFE, 0, 4, 0] < 2 + 4 :=
  ⟨by decide, ⟨rfl, .inr rfl⟩, ⟨by decide, by decide, by decide⟩, rfl, by decide, by decide, by decide, by decide, by decide⟩

theorem witness_StandaloneIgnored :
    Instr.rst7 ∈ standaloneMarkers ∧ (run grey .frame [0xFF, 0xD7]).scanning [0xFF, 0xD7] ∧
      2 ≤ (run grey .frame [0xFF, 0xD7]).dec.avail [0xFF, 0xD7] := ⟨by decide, ⟨rfl, .inr rfl⟩, by decide⟩

theorem witness_UnsupportedFrameRaises :
    Instr.sof15 ∈ unsupportedMarkers ∧ (run Dec.reset .started [0xFF, 0xCF]).scanning [0xFF, 0xCF] ∧
      2 ≤ (run Dec.reset .started [0xFF, 0xCF]).dec.avail [0xFF, 0xCF] := ⟨by decide, ⟨rfl, .inl rfl⟩, by decide⟩

theorem witness_StartOfImage :
    (run Dec.reset .none [0xFF, 0xD8]).inState [0xFF, 0xD8] .none ∧ (run Dec.reset .none [0xFF, 0xD8]).snap = none ∧
      [0xFF, 0xD8].drop (run Dec.reset .none [0xFF, 0xD8]).dec.cur = (0xFF : Byte) :: 0xD8 :: [] ∧
      [0xFF, 0xD9].drop (run Dec.reset .none [0xFF, 0xD9]).dec.cur = (0xFF : Byte) :: 0xD9 :: [] ∧
      ¬((0xFF : Byte) = 0xFF ∧ (0xD9 : Byte) = 0xD8) ∧ (run Dec.reset .none [0xFF]).dec.avail [0xFF] < 2 :=
  ⟨⟨rfl, rfl⟩, rfl, rfl, rfl, by decide, by decide⟩

theorem witness_MisplacedMarkersRaise :
    (run Dec.reset .none [0xFF, 0xD9]).view = some [0xFF, 0xD9] ∧ 2 ≤ (run Dec.reset .none [0xFF, 0xD9]).dec.avail [0xFF, 0xD9] ∧
      (run Dec.reset .none [0xFF, 0xD9]).dec.fsm = .none ∧ ctxOf .eoi = .marker ∧ Instr.eoi ≠ .soi ∧
      (run Dec.reset .started [0xFF, 0xDA]).dec.fsm = .started ∧
      (run grey .frame [0xFF, 0xD9]).dec.fsm = .frame ∧ (run grey .frame [0xFF, 0xD9]).dec.frame.scans = 0 := by decide

/-- A frame header for `n` components. -/
def header (n : Byte) : List Byte := [0xFF, 0xC0, 0, 8 + 3 * n, 8, 0xFF, 0xFF, 0, 1, n]

theorem witness_FrameHeaderAcceptedOrRaises :
    (Instr.sof2, (2 : Fin 3)) ∈ frameMarkers ∧ (run grey .frame (header 1)).scanning (header 1) ∧
      10 ≤ grey.avail (header 1) ∧ grey.inp (header 1) 4 = 8 ∧ grey.be16 (header 1) 5 ≠ 0 ∧ grey.be16 (header 1) 7 ≠ 0 ∧
      (∀ n ∈ ([1, 3, 4] : List Byte), (grey.inp (header n) 9).toNat = n.toNat ∧
        (grey.be16 (header n) 2).toNat = 8 + 3 * (grey.inp (header n) 9).toNat) :=
  ⟨by decide, ⟨rfl, .inr rfl⟩, by decide, by decide, by decide, by decide, by decide⟩

/-- A header with the length `lf`, the precision `p`, the height `y`, the width `x` and `n` components. -/
def headerOf (lf p y x n : Byte) : List Byte := [0xFF, 0xC0, 0, lf, p, 0, y, 0, x, n]

/-- Two and three bytes, then 4 and 9; lengths 7 and 8; then one field that fails its check at a time. -/
theorem witness_FrameHeaderAcceptedOrRaises_causes :
    (∀ v : List Byte, (run grey .frame v).scanning v ∧ (run grey .frame v).snap = none) ∧
      (∀ n ∈ [2, 3], 2 ≤ grey.avail ((header 1).take n) ∧ grey.avail ((header 1).take n) < 4) ∧
      (4 ≤ grey.avail (headerOf 7 8 1 1 1) ∧ (grey.be16 (headerOf 7 8 1 1 1) 2).toNat < 8) ∧
      (∀ n ∈ [4, 9], 4 ≤ grey.avail ((header 1).take n) ∧ 8 ≤ (grey.be16 ((header 1).take n) 2).toNat ∧
        grey.avail ((header 1).take n) < 10) ∧
      (10 ≤ grey.avail (headerOf 8 7 1 1 1) ∧ 8 ≤ (grey.be16 (headerOf 8 7 1 1 1) 2).toNat ∧
        grey.inp (headerOf 8 7 1 1 1) 4 ≠ 8) ∧
      (grey.inp (headerOf 11 8 0 1 1) 4 = 8 ∧ grey.be16 (headerOf 11 8 0 1 1) 5 = 0 ∧
        grey.be16 (headerOf 11 8 1 0 1) 7 = 0) ∧
      (∀ n ∈ ([0, 2, 5] : List Byte), grey.be16 (headerOf 11 8 1 1 n) 5 ≠ 0 ∧ grey.be16 (headerOf 11 8 1 1 n) 7 ≠ 0 ∧
        (grey.inp (headerOf 11 8 1 1 n) 9).toNat ≠ 1 ∧ (grey.inp (headerOf 11 8 1 1 n) 9).toNat ≠ 3 ∧
        (grey.inp (headerOf 11 8 1 1 n) 9).toNat ≠ 4) ∧
      (∀ n ∈ ([1, 3, 4] : List Byte), (grey.be16 (headerOf (9 + 3 * n) 8 1 1 n) 2).toNat ≠
        8 + 3 * (grey.inp (headerOf (9 + 3 * n) 8 1 1 n) 9).toNat) :=
  ⟨fun _ => ⟨⟨rfl, .inr rfl⟩, rfl⟩, by decide, by decide, by decide, by decide, by decide, by decide, by decide⟩

/-- One component at the bounds of its fields; three of the same id would be refused. -/
theorem witness_ComponentListAcceptedOrRaises :
    (run grey .frameHeader [0xFF, 0x41, 3]).inState [0xFF, 0x41, 3] .frameHeader ∧ grey.frame.nf ≤ 4 ∧
      [({ id := 0xFF, h := 4, v := 1, tq := 3, pred := 0 } : Comp)].length = grey.frame.nf ∧
      3 * grey.frame.nf ≤ grey.avail [0xFF, 0x41, 3] ∧
      (∀ j c, [({ id := 0xFF, h := 4, v := 1, tq := 3, pred := 0 } : Comp)][j]? = some c →
        c.id = grey.inp [0xFF, 0x41, 3] (3 * j) ∧ c.h = (hiNibble (grey.inp [0xFF, 0x41, 3] (3 * j + 1))).toNat ∧
        c.v = (loNibble (grey.inp [0xFF, 0x41, 3] (3 * j + 1))).toNat ∧ (1 ≤ c.h ∧ c.h ≤ 4) ∧ (1 ≤ c.v ∧ c.v ≤ 4) ∧
        (grey.inp [0xFF, 0x41, 3] (3 * j + 2)).toNat = c.tq.val ∧ c.pred = 0) ∧
      ([({ id := 0xFF, h := 4, v := 1, tq := 3, pred := 0 } : Comp)].map Comp.id).Nodup := by
  refine ⟨⟨rfl, rfl⟩, by decide, rfl, by decide, ?_, by decide⟩
  intro j c hc
  match j with
  | 0 => cases hc; decide
  | j + 1 => simp at hc

/-- The registers of the frame header of `n` components. -/
def bodyOf (n : Nat) : Dec := { grey with fsm := .frameHeader, frame := { grey.frame with nf := n } }

/-- `grey`'s component of 128 bytes where ALLOC_LIMIT is 127 and where it is 128; two bytes of three; and as the entry
that fails, at the bounds: a second id equal to the first, factors 0 and 5, table 4 and table 16 (a high nibble). -/
theorem witness_ComponentListAcceptedOrRaises_causes :
    (let d : Dec := { grey with comp := { grey.comp with q0 := { id := 1, h := 1, v := 1, tq := 0, pred := 0 } } };
      127 < ([({ id := 1, h := 1, v := 1, tq := 0, pred := 0 } : Comp)].map fun c => d.pbw c * d.pbh c * 128).sum ∧
      ¬128 < ([({ id := 1, h := 1, v := 1, tq := 0, pred := 0 } : Comp)].map fun c => d.pbw c * d.pbh c * 128).sum) ∧
      (∀ v : List Byte, (run grey .frameHeader v).inState v .frameHeader ∧ (run grey .frameHeader v).snap = none) ∧
      grey.avail [1, 0x11] < 3 * grey.frame.nf ∧
      (let id : Nat → Nat := fun i => ((bodyOf 3).inp [1, 0x11, 0, 1, 0x11, 0, 3, 0x11, 0] (3 * i)).toNat;
        1 < (bodyOf 3).frame.nf ∧ (∀ i, i < 1 → ∀ n, n < i → id n ≠ id i) ∧ 0 < 1 ∧ id 0 = id 1) ∧
      (∀ b ∈ ([0x01, 0x51, 0x10, 0x15] : List Byte),
        (hiNibble (grey.inp [1, b, 0] 1)).toNat < 1 ∨ 4 < (hiNibble (grey.inp [1, b, 0] 1)).toNat ∨
        (loNibble (grey.inp [1, b, 0] 1)).toNat < 1 ∨ 4 < (loNibble (grey.inp [1, b, 0] 1)).toNat) ∧
      (∀ b ∈ ([4, 0x10] : List Byte), 3 < (grey.inp [1, 0x44, b] 2).toNat ∧
        (hiNibble (grey.inp [1, 0x44, b] 1)).toNat ≤ 4 ∧ (loNibble (grey.inp [1, 0x44, b] 1)).toNat ≤ 4) ∧
      (∀ n, n < 0 → (0 : Nat) ≠ 1) :=
  ⟨by decide, fun _ => ⟨⟨rfl, rfl⟩, rfl⟩, by decide, by decide, by decide, by decide, fun n h => absurd h (Nat.not_lt_zero n)⟩

/-- That frame's planes do not fit an ALLOC_LIMIT of 127 bytes. -/
theorem witness_ComponentListAcceptedOrRaises_outOfMemory :
    ∃ t, step { run grey .frameHeader [1, 0x11, 0] with cfg := { Config.default with allocLimit := 127 } } = .next t ∧
      t.dec.err = some .outOfMemory :=
  after_some (by decide)

/-- A narrow definition of table 3 and a wide one of table 0. -/
def twoTables : List QDef :=
  [{ tq := 3, pq := false, q := List.replicate 64 0xFF }, { tq := 0, pq := true, q := List.replicate 64 0xFFFF }]

theorem witness_QuantizationTablesStoredOrRaise :
    twoTables ≠ [] ∧ (∀ q ∈ twoTables, q.wf) ∧ (twoTables.flatMap QDef.bytes).length = 194 ∧ 194 + 2 < 2 ^ 16 ∧
      (run Dec.reset .started ([0xFF, 0xDB] ++ bytesOf16 (BitVec.ofNat 16 (194 + 2)) ++ twoTables.flatMap QDef.bytes ++ [])).scanning
        ([0xFF, 0xDB] ++ bytesOf16 (BitVec.ofNat 16 (194 + 2)) ++ twoTables.flatMap QDef.bytes ++ []) := by
  refine ⟨by simp [twoTables], ?_, by simp [twoTables, QDef.bytes, bytesOf16], by decide, ⟨rfl, .inl rfl⟩⟩
  intro q hq
  simp only [twoTables, List.mem_cons, List.not_mem_nil, or_false] at hq
  rcases hq with rfl | rfl
  · exact ⟨by simp, fun _ => by simp⟩
  · exact ⟨by simp, fun h => by cases h⟩

/-- The table segment `m` whose definitions are the bytes `defs`. -/
def tableSeg (m : Byte) (defs : List Byte) : List Byte := [0xFF, m] ++ bytesOf16 (BitVec.ofNat 16 (defs.length + 2)) ++ defs

/-- A definition of the bytes `tail` behind its first byte `b`, alone in its segment. -/
theorem oneDef (m b : Byte) (tail : List Byte) :
    (run Dec.reset .started (tableSeg m (b :: tail))).scanning (tableSeg m (b :: tail)) ∧
      (tableSeg m (b :: tail)).drop (run Dec.reset .started (tableSeg m (b :: tail))).dec.cur =
        [0xFF, m] ++ bytesOf16 (BitVec.ofNat 16 (([] : List Byte).length + (1 + tail.length) + 2)) ++ [] ++ (b :: tail) ++ [] :=
  ⟨⟨rfl, .inl rfl⟩, by
    rw [show (run Dec.reset .started (tableSeg m (b :: tail))).dec.cur = 0 from rfl, List.drop_zero, List.append_nil,
      List.append_nil, tableSeg, List.length_cons, List.length_nil, show tail.length + 1 = 0 + (1 + tail.length) by omega]⟩

/-- At the bounds: precision 2 and table 4; 63 bytes of a narrow definition and 127 of a wide one. -/
theorem witness_QuantizationTablesStoredOrRaise_causes :
    (∀ q ∈ ([] : List QDef), q.wf) ∧ (([] : List QDef).flatMap QDef.bytes).length = 0 ∧
      (∀ (b : Byte) (tail : List Byte),
        (run Dec.reset .started (tableSeg 0xDB (b :: tail))).scanning (tableSeg 0xDB (b :: tail))) ∧
      1 < (hiNibble 0x20).toNat ∧ 3 < (loNibble 0x04).toNat ∧
      ((hiNibble 0x03).toNat ≤ 1 ∧ (loNibble 0x03).toNat ≤ 3 ∧
        (List.replicate 63 (1 : Byte)).length < 64 * ((hiNibble 0x03).toNat + 1)) ∧
      ((hiNibble 0x13).toNat ≤ 1 ∧ (loNibble 0x13).toNat ≤ 3 ∧
        (List.replicate 127 (1 : Byte)).length < 64 * ((hiNibble 0x13).toNat + 1)) := by
  refine ⟨by simp, rfl, fun b tail => (oneDef 0xDB b tail).1, ?_⟩
  simp only [List.length_replicate]
  decide

theorem oneCode_canonical : (oneCode 0xF0).Canonical ∧ (oneCode 0x10).Canonical := by
  constructor <;> constructor <;> decide +kernel

/-- AC table 3 with one code. -/
def oneTable : List HDef := [{ isAc := true, th := 3, entry := oneCode 0xF0 }]

theorem witness_HuffmanTablesStoredOrRaise :
    oneTable ≠ [] ∧ (∀ h ∈ oneTable, h.wf) ∧ (oneTable.flatMap HDef.bytes).length = 18 ∧
      (run Dec.reset .started ([0xFF, 0xC4] ++ bytesOf16 (BitVec.ofNat 16 (18 + 2)) ++ oneTable.flatMap HDef.bytes ++ [])).scanning
        ([0xFF, 0xC4] ++ bytesOf16 (BitVec.ofNat 16 (18 + 2)) ++ oneTable.flatMap HDef.bytes ++ []) := by
  refine ⟨by decide, ?_, by decide, ⟨rfl, .inl rfl⟩⟩
  intro h hh
  simp only [oneTable, List.mem_cons, List.not_mem_nil, or_false] at hh
  subst hh
  exact ⟨by decide, oneCode_canonical.1⟩

/-- At the bounds: class 2 and table 4; 15 bytes of counts; 257 codes; one value missing of 256; three codes of length 1. -/
theorem witness_HuffmanTablesStoredOrRaise_causes :
    (∀ h ∈ ([] : List HDef), h.wf) ∧ (([] : List HDef).flatMap HDef.bytes).length = 0 ∧
      (∀ (b : Byte) (tail : List Byte),
        (run Dec.reset .started (tableSeg 0xC4 (b :: tail))).scanning (tableSeg 0xC4 (b :: tail))) ∧
      1 < (hiNibble 0x20).toNat ∧ 3 < (loNibble 0x04).toNat ∧
      ((hiNibble 0x13).toNat ≤ 1 ∧ (loNibble 0x13).toNat ≤ 3 ∧ (List.replicate 15 (0 : Byte)).length < 16) ∧
      (let tail : List Byte := List.replicate 14 0 ++ [2, 255];
        16 ≤ tail.length ∧ 256 < ((tail.take 16).map BitVec.toNat).sum) ∧
      (let tail : List Byte := List.replicate 14 0 ++ [1, 255] ++ List.replicate 255 0;
        ((tail.take 16).map BitVec.toNat).sum = 256 ∧ tail.length < 16 + 256) ∧
      (let tail : List Byte := [3] ++ List.replicate 15 0 ++ [1, 2, 3];
        ((tail.take 16).map BitVec.toNat).sum = 3 ∧ 16 + 3 ≤ tail.length ∧
          2 ^ 16 < ((List.range 16).map fun l => (tail.getD l 0).toNat * 2 ^ (15 - l)).sum) := by
  refine ⟨by simp, rfl, fun b tail => (oneDef 0xC4 b tail).1, by decide +kernel⟩

theorem witness_RestartIntervalSet :
    (seg 0xDD 4 [0, 1]).scanning [0xFF, 0xDD, 0, 4, 0, 1] ∧ (seg 0xDD 4 [0, 1]).dec.segment [0xFF, 0xDD, 0, 4, 0, 1] 4 ∧
      (seg 0xDD 3 [0]).dec.segment [0xFF, 0xDD, 0, 3, 0] 3 :=
  ⟨⟨rfl, .inr rfl⟩, ⟨by decide, by decide, by decide⟩, ⟨by decide, by decide, by decide⟩⟩

/-- R310's example. -/
def sosBytes : List Byte := [0xFF, 0xDA, 0, 8, 1, 1, 0, 0, 0x3F, 0]

/-- The slot that names `grey`'s component. -/
def slot0 : ScanComp := { ci := 0, td := 0, ta := 0 }

theorem grey_selects : grey.selects sosBytes [slot0] := by
  refine ⟨by decide, by decide, by decide, by decide, ?_, by decide⟩
  intro j c hc
  match j with
  | 0 => cases hc; exact ⟨by decide, by decide, by decide, by decide, by decide⟩
  | j + 1 => simp at hc

theorem witness_ScanStartsOrRaises :
    (run grey .frame sosBytes).inState sosBytes .frame ∧ grey.segment sosBytes (6 + 2 * [slot0].length) ∧
      grey.selects sosBytes [slot0] ∧ grey.scanParams sosBytes 1 0 63 0 0 ∧ modeOf grey.frame.progressive 0 0 = .seq ∧
      lawfulScan grey.frame.progressive 1 0 63 0 0 ∧ (grey.frame.scans = 0 ∧ [slot0].length = grey.frame.nf) ∧
      ¬1 < [slot0].length ∧ (∀ c ∈ [slot0], grey.codesDefined .seq c ∧ grey.stepsDefined c) :=
  ⟨⟨rfl, rfl⟩, ⟨by decide, by decide, by decide⟩, grey_selects, ⟨by decide, by decide, by decide, by decide⟩, by decide,
    ⟨rfl, rfl, rfl, rfl⟩, by decide, by decide,
    fun c hc => by rw [List.mem_singleton.1 hc]; exact ⟨⟨fun _ => by decide, fun _ => by decide⟩, rfl⟩⟩

/-- An SOS of two slots, and the registers of a frame of two components of 6 and 5 blocks, the second with no tables. -/
def twoSos : List Byte := [0xFF, 0xDA, 0, 10, 2, 1, 0, 2, 0x11, 0, 0x3F, 0]
def twoComps : Dec :=
  { grey with
    frame := { grey.frame with nf := 2 }
    comp := { grey.comp with
      q0 := { id := 1, h := 2, v := 3, tq := 0, pred := 0 }, q1 := { id := 2, h := 1, v := 4, tq := 3, pred := 0 } } }

theorem two_selects (d : Dec) (h : d.cur = 0) (hn : 2 ≤ d.frame.nf) (h0 : d.comp.q0.id = 1) (h1 : d.comp.q1.id = 2) :
    d.selects twoSos [slot0, { ci := 1, td := 1, ta := 1 }] := by
  have hi : ∀ i, d.inp twoSos i = twoSos.getD i 0 := fun i => by rw [Dec.inp, h, Nat.zero_add]
  refine ⟨by rw [hi]; decide, by decide, by decide, hn, ?_, by decide⟩
  intro j c hc
  match j with
  | 0 =>
    cases hc
    exact ⟨by show 0 < d.frame.nf; omega, by rw [hi]; exact h0, fun i hlt => absurd hlt (Nat.not_lt_zero i.val),
      by rw [hi]; decide, by rw [hi]; decide⟩
  | 1 =>
    cases hc
    refine ⟨by show 1 < d.frame.nf; omega, by rw [hi]; exact h1, fun i hlt => ?_, by rw [hi]; decide, by rw [hi]; decide⟩
    have : i = 0 := by ext; have : i.val < 1 := hlt; simpa using this
    subst this
    rw [hi, show d.comp.get 0 = d.comp.q0 from rfl, h0]
    decide
  | j + 2 => simp at hc

/-- In FRAME: parameters no scan has; a second sequential scan, and one that lacks a component; MCUs of 11 blocks and of
10; a slot without codes in the mode, then one without steps, each after a slot that has both. -/
theorem witness_ScanStartsOrRaises_causes :
    (∀ n, ¬lawfulScan false n 0 62 0 0) ∧ ¬lawfulScan true 2 1 63 0 0 ∧ ¬lawfulScan true 1 0 0 2 0 ∧
      lawfulScan true 4 0 0 14 13 ∧
      (let d : Dec := { grey with frame := { grey.frame with scans := 1 } };
        0 < d.frame.scans ∧ d.selects sosBytes [slot0] ∧ lawfulScan false 1 0 63 0 0) ∧
      (let d : Dec := { twoComps with frame := { twoComps.frame with nf := 3 } };
        2 ≠ d.frame.nf ∧ d.selects twoSos [slot0, { ci := 1, td := 1, ta := 1 }]) ∧
      (twoComps.selects twoSos [slot0, { ci := 1, td := 1, ta := 1 }] ∧ twoComps.segment twoSos (6 + 2 * 2) ∧
        twoComps.frame.scans = 0 ∧ 2 = twoComps.frame.nf ∧
        ([slot0, { ci := 1, td := 1, ta := 1 }].map fun c =>
          (twoComps.comp.get c.ci).h * (twoComps.comp.get c.ci).v).sum = 10) ∧
      (let d : Dec := { twoComps with comp := { twoComps.comp with q0 := { twoComps.comp.q0 with h := 4, v := 2 } } };
        d.selects twoSos [slot0, { ci := 1, td := 1, ta := 1 }] ∧
          10 < ([slot0, { ci := 1, td := 1, ta := 1 }].map fun c => (d.comp.get c.ci).h * (d.comp.get c.ci).v).sum) ∧
      (twoComps.codesDefined .seq slot0 ∧ twoComps.stepsDefined slot0 ∧
        ¬twoComps.codesDefined .seq { ci := 1, td := 1, ta := 1 } ∧ twoComps.codesDefined .dcRefine { ci := 1, td := 1, ta := 1 } ∧
        ¬twoComps.stepsDefined { ci := 1, td := 1, ta := 1 }) := by
  refine ⟨fun n h => by simp [lawfulScan] at h, by simp [lawfulScan], by simp [lawfulScan], by simp [lawfulScan],
    ⟨by decide, grey_selects, ⟨rfl, rfl, rfl, rfl⟩⟩, ⟨by decide, two_selects _ rfl (by decide) rfl rfl⟩,
    ⟨two_selects _ rfl (by decide) rfl rfl, ⟨by decide, by decide, by decide⟩, by decide, by decide, by decide⟩,
    ⟨two_selects _ rfl (by decide) rfl rfl, by decide⟩, ⟨fun _ => by decide, fun _ => by decide⟩, rfl,
    fun h => absurd (h.1 (.inl rfl)) (by decide), ⟨fun h => ?_, fun h => ?_⟩, by simp [Dec.stepsDefined]; decide⟩ <;>
  simp at h

/-- A segment of an SOS with its length field and its count, then `rest`. -/
def sosOf (lx ns : Byte) (rest : List Byte) : List Byte := [0xFF, 0xDA, 0, lx, ns] ++ rest

/-- At the bounds: no slot, 5 slots and more than Nf; a length that differs by one each way; a first selector of no
component; a second one of the first's; table 4 of each class. -/
theorem witness_ScanStartsOrRaises_fields :
    (∀ v : List Byte, (run twoComps .frame v).inState v .frame) ∧
      (∀ n ∈ ([0, 5, 3] : List Byte), twoComps.segment (sosOf 8 n [1, 0, 0, 0, 0]) 8 ∧
        ((twoComps.inp (sosOf 8 n [1, 0, 0, 0, 0]) 4).toNat < 1 ∨ 4 < (twoComps.inp (sosOf 8 n [1, 0, 0, 0, 0]) 4).toNat ∨
          twoComps.frame.nf < (twoComps.inp (sosOf 8 n [1, 0, 0, 0, 0]) 4).toNat)) ∧
      (twoComps.segment (sosOf 9 2 [1, 0, 2, 0, 0, 63]) 9 ∧ 9 ≠ 6 + 2 * 2 ∧
        twoComps.segment (sosOf 11 2 [1, 0, 2, 0, 0, 63, 0, 0]) 11 ∧ 11 ≠ 6 + 2 * 2 ∧ 2 ≤ twoComps.frame.nf) ∧
      (∀ c : Fin 4, c.val < twoComps.frame.nf →
        (twoComps.comp.get c).id.toNat ≠ (twoComps.inp (sosOf 10 2 [3, 0, 2, 0, 0, 63, 0]) (5 + 2 * 0)).toNat) ∧
      ((twoComps.comp.get 0).id.toNat = (twoComps.inp (sosOf 10 2 [1, 0, 1, 0, 0, 63, 0]) (5 + 2 * 0)).toNat ∧
        twoComps.inp (sosOf 10 2 [1, 0, 1, 0, 0, 63, 0]) (5 + 2 * 0) =
          twoComps.inp (sosOf 10 2 [1, 0, 1, 0, 0, 63, 0]) (5 + 2 * 1)) ∧
      (∀ b ∈ ([0x40, 0x04] : List Byte),
        (twoComps.comp.get 0).id.toNat = (twoComps.inp (sosOf 10 2 [1, b, 2, 0, 0, 63, 0]) (5 + 2 * 0)).toNat ∧
        (3 < (hiNibble (twoComps.inp (sosOf 10 2 [1, b, 2, 0, 0, 63, 0]) (6 + 2 * 0))).toNat ∨
          3 < (loNibble (twoComps.inp (sosOf 10 2 [1, b, 2, 0, 0, 63, 0]) (6 + 2 * 0))).toNat)) :=
  ⟨fun _ => ⟨rfl, rfl⟩, by simp only [Dec.segment]; decide, by simp only [Dec.segment]; decide, by decide, by decide, by decide⟩

/-- `scanOf` with its MCU done. -/
def doneScan (m : ScanMode) : Dec := { scanOf m 0 63 0 0 with scan := { (scanOf m 0 63 0 0).scan with mcu := 1 } }

theorem witness_ScanEnds :
    (run (doneScan .seq) .restart []).inState [] .restart ∧ (doneScan .seq).scan.mcu = (doneScan .seq).scan.total ∧
      (run (doneScan .seq) .restart []).reenters = false ∧ ((doneScan .seq).scan.mode = .seq → (doneScan .seq).canRender) ∧
      ((doneScan .dcFirst).scan.mode = .seq → (doneScan .dcFirst).canRender) :=
  ⟨⟨rfl, rfl⟩, rfl, rfl, fun _ => ⟨rfl, by decide⟩, fun h => by cases h⟩

theorem witness_RestartStep :
    (Instr.rst7 ∈ rstMarkers ∧ (run (scanOf .seq 0 63 0 0) .findMarker [0xFF, 0xD7]).inState [0xFF, 0xD7] .findMarker ∧
      2 ≤ grey.avail [0xFF, 0xD7]) ∧
      isRecognized .eoi = true ∧ Instr.eoi ∉ rstMarkers ∧
      (run (scanOf .seq 0 63 0 0) .findMarker [0xFF, 0xD9]).inState [0xFF, 0xD9] .findMarker ∧ 2 ≤ grey.avail [0xFF, 0xD9] :=
  ⟨⟨by decide, ⟨rfl, rfl⟩, by decide⟩, by decide, by decide, ⟨rfl, rfl⟩, by decide⟩

/-- The segments of the tests above are whole; at the bounds 16 of APP0, 14 of APP14, and one byte shorter. -/
theorem witness_JfifAndAdobeRecorded :
    (run grey .frame ([0xFF, 0xE0, 0, 16] ++ idJfif ++ List.replicate 9 0)).scanning
        ([0xFF, 0xE0, 0, 16] ++ idJfif ++ List.replicate 9 0) ∧
      grey.segment ([0xFF, 0xE0, 0, 16] ++ idJfif ++ List.replicate 9 0) 16 ∧
      grey.slice ([0xFF, 0xE0, 0, 16] ++ idJfif ++ List.replicate 9 0) 4 5 = idJfif ∧
      grey.segment ([0xFF, 0xEE, 0, 14] ++ idAdobe ++ List.replicate 7 0) 14 ∧
      grey.slice ([0xFF, 0xEE, 0, 14] ++ idAdobe ++ List.replicate 7 0) 4 5 = idAdobe ∧
      grey.segment ([0xFF, 0xE0, 0, 15] ++ idJfif ++ List.replicate 8 0) 15 :=
  ⟨⟨rfl, .inr rfl⟩, ⟨by decide, by decide, by decide⟩, by decide, ⟨by decide, by decide, by decide⟩, by decide,
    ⟨by decide, by decide, by decide⟩⟩

theorem witness_ExifDelivered :
    (run grey .frame ([0xFF, 0xE1, 0, 8] ++ idExif)).scanning ([0xFF, 0xE1, 0, 8] ++ idExif) ∧
      grey.segment ([0xFF, 0xE1, 0, 8] ++ idExif) 8 ∧ grey.slice ([0xFF, 0xE1, 0, 8] ++ idExif) 4 6 = idExif ∧
      ([] : List Byte).take 2 ≠ [0x49, 0x49] ∧ ([] : List Byte).take 2 ≠ [0x4D, 0x4D] :=
  ⟨⟨rfl, .inr rfl⟩, ⟨by decide, by decide, by decide⟩, by decide, by decide, by decide⟩

/-- An ICC segment with chunk `seq` of `cnt`, one byte of data. -/
def iccBytes (sq cnt : Byte) : List Byte := [0xFF, 0xE2, 0, 17] ++ idIcc ++ [sq, cnt, 0xAA]

/-- The segment is whole and of ICC for every chunk number and count, so each clause has its witness: chunk 0 of 1; 3 of 3
out of order; 1 of 2; 1 of 1; 2 of 3 and 2 of 2 in order; another identifier. -/
theorem witness_IccChunkAdded :
    (∀ sq cnt : Byte, (run grey .frame (iccBytes sq cnt)).scanning (iccBytes sq cnt) ∧
      grey.be16 (iccBytes sq cnt) 2 = 17 ∧ grey.avail (iccBytes sq cnt) = 2 + 17 ∧
      grey.slice (iccBytes sq cnt) 4 12 = idIcc ∧ grey.inp (iccBytes sq cnt) 16 = sq ∧
      grey.inp (iccBytes sq cnt) 17 = cnt) ∧
      (3 ≠ 1 ∧ ¬(grey.icc.count ≠ 0 ∧ 3 = grey.icc.count ∧ 3 = grey.icc.next)) ∧
      (let c : Icc := { count := 3, next := 2, buf := [0xAA] }; 1 < 2 ∧ 2 < 3 ∧ 3 = c.count ∧ 2 = c.next) ∧
      (let c : Icc := { count := 2, next := 2, buf := [0xAA] }; 1 < 2 ∧ 2 = c.count ∧ 2 = c.next) ∧
      ¬(16 ≤ 15 ∧ grey.slice ([0xFF, 0xE2, 0, 15] ++ idIcc ++ [1]) 4 12 = idIcc) ∧
      grey.segment ([0xFF, 0xE2, 0, 15] ++ idIcc ++ [1]) 15 :=
  ⟨fun _ _ => ⟨⟨rfl, .inr rfl⟩, (by show Sys2Proof.be16 0 17 = 17; decide), rfl, rfl, rfl, rfl⟩, by decide, by decide, by decide, by decide,
    ⟨by decide, by decide, by decide⟩⟩

/-- A progressive frame after one scan. -/
def oneScan : Dec := { grey with frame := { grey.frame with progressive := true, scans := 1 } }

theorem witness_EndOfImage :
    (run oneScan .frame [0xFF, 0xD9]).inState [0xFF, 0xD9] .frame ∧ 2 ≤ oneScan.avail [0xFF, 0xD9] ∧
      oneScan.frame.scans ≠ 0 ∧ (oneScan.frame.progressive = true → oneScan.canRender ∧ 0 < oneScan.vmax) :=
  ⟨⟨rfl, rfl⟩, by decide, by decide, fun _ => ⟨⟨rfl, by decide⟩, by decide⟩⟩

theorem witness_MarkerFrame :
    ctxOf .eoi = .marker ∧ (run oneScan .frame [0xFF, 0xD9]).snap = none ∧
      ∃ t, exec .eoi (run oneScan .frame [0xFF, 0xD9]) = .next t ∧ t.dec.fsm = .done :=
  ⟨rfl, rfl, after_some (by decide)⟩

/-! ### Entropy symbols -/

/-- A symbol of `scanOf m` at index `k` of its block, on the bits `v`. -/
def sym (m : ScanMode) (ss se ah al k : Nat) (v : List Byte) : State :=
  run { scanOf m ss se ah al with prog := { blk := 0, k := k } } .restart v

theorem witness_SequentialDc :
    (sym .seq 0 63 0 0 0 [0xA0]).dec.planes.mem.wf = true ∧ (sym .seq 0 63 0 0 0 [0xA0]).currentBlock = some ([0xA0], block0) ∧
      (sym .seq 0 63 0 0 0 [0xA0]).dec.scan.mode = .seq ∧ (sym .seq 0 63 0 0 0 [0xA0]).dec.inPlane 0 0 0 0 = true ∧
      receive [0xA0] true (3 : BitVec 4).toNat grey.rd = .ok (5, { cur := 1, bb := { val := 0xA0, cnt := 5 } }) := by decide

theorem witness_ProgressiveDc :
    ((sym .dcFirst 0 0 0 13 0 []).currentBlock = some ([], block0) ∧ (sym .dcFirst 0 0 0 13 0 []).dec.scan.mode = .dcFirst ∧
      (sym .dcFirst 0 0 0 13 0 []).dec.inPlane 0 0 0 0 = true ∧
      receive [] true (0 : BitVec 4).toNat grey.rd = .ok (0, grey.rd)) ∧
      (sym .dcRefine 0 0 1 0 0 []).currentBlock = some ([], block0) ∧ (sym .dcRefine 0 0 1 0 0 []).dec.scan.mode = .dcRefine ∧
      (sym .dcRefine 0 0 1 0 0 []).dec.inPlane 0 0 0 0 = true ∧
      (0 : Half) = grey.planes.mem.readHalf (grey.cellAddr 0 0 0 0) := by decide

theorem canRender_seq (k : Nat) (v : List Byte) : (sym .seq 0 63 0 0 k v).dec.canRender := ⟨rfl, by simp [sym, run, scanOf, grey]⟩

/-- At the last index of the block, and one past it; in AC_FIRST at the band's last index. -/
theorem witness_RunAndCoefficient :
    (sym .seq 0 63 0 0 60 [0x80]).currentBlock = some ([0x80], block0) ∧ (sym .seq 0 63 0 0 60 [0x80]).dec.canRender ∧
      (sym .seq 0 63 0 0 60 [0x80]).dec.inPlane 0 0 0 0 = true ∧
      (63 = (sym .seq 0 63 0 0 60 [0x80]).dec.prog.k + (3 : BitVec 4).toNat ∧ 63 ≤ (sym .seq 0 63 0 0 60 [0x80]).dec.lastK) ∧
      (64 = (sym .seq 0 63 0 0 60 [0x80]).dec.prog.k + (4 : BitVec 4).toNat ∧ (sym .seq 0 63 0 0 60 [0x80]).dec.lastK < 64) ∧
      (sym .acFirst 1 5 0 0 5 [0x80]).dec.scan.mode = .acFirst ∧ 5 ≤ (sym .acFirst 1 5 0 0 5 [0x80]).dec.lastK ∧
      receive [0x80] true (1 : BitVec 4).toNat grey.rd = .ok (1, { cur := 1, bb := { val := 0x80, cnt := 7 } }) :=
  ⟨by decide, canRender_seq _ _, by decide, by decide, by decide, by decide, by decide, by decide⟩

theorem witness_EndOfBlockAndRuns :
    ((sym .seq 0 63 0 0 48 []).currentBlock = some ([], block0) ∧ (sym .seq 0 63 0 0 48 []).dec.canRender ∧
      (sym .seq 0 63 0 0 48 []).dec.prog.k + 16 ≤ (sym .seq 0 63 0 0 48 []).dec.lastK + 1 ∧
      (sym .acFirst 1 16 0 0 1 []).dec.scan.mode = .acFirst ∧
      (sym .acFirst 1 16 0 0 1 []).dec.prog.k + 16 ≤ (sym .acFirst 1 16 0 0 1 []).dec.lastK + 1 ∧
      (sym .seq 0 63 0 0 49 []).dec.lastK + 1 < (sym .seq 0 63 0 0 49 []).dec.prog.k + 16) ∧
      (sym .seq 0 63 0 0 1 []).currentBlock = some ([], block0) ∧ (sym .seq 0 63 0 0 1 []).dec.scan.mode = .seq ∧
      (sym .acFirst 1 63 0 0 1 [0xC0]).currentBlock = some ([0xC0], block0) ∧
      (sym .acFirst 1 63 0 0 1 [0xC0]).dec.scan.mode = .acFirst ∧
      receive [0xC0] true (2 : BitVec 4).toNat grey.rd = .ok (3, { cur := 1, bb := { val := 0xC0, cnt := 6 } }) :=
  ⟨⟨by decide, canRender_seq _ _, by decide, by decide, by decide, by decide⟩, by decide⟩

/-- A block at its start inside an EOB run of 2, in a scan of the mode `m` over the band 1..1, where a cell is 2. -/
def inRun (m : ScanMode) (more : Bool) (v : List Byte) : State :=
  run { withCoef (scanOf m 1 1 1 0) 1 2 with
    more := more, scan := { (scanOf m 1 1 1 0).scan with eobrun := 2 } } .restart v

theorem witness_EndOfBlockAndRuns_run :
    (inRun .acFirst true []).currentBlock = some ([], block0) ∧ (inRun .acFirst true []).dec.scan.mode = .acFirst ∧
      (inRun .acFirst true []).dec.prog.k = 0 ∧ 0 < (inRun .acFirst true []).dec.scan.eobrun.toNat := by decide

/-- R205's example. -/
def refined : State := run { withCoef (scanOf .acRefine 1 1 1 0) 1 2 with prog := { blk := 0, k := 1 } } .restart [0x80]

/-- The answer of a computation that succeeds. -/
def value {α β : Type} (x : Except UnitStop α) (f : α → β) : Option β :=
  match x with
  | .ok a => some (f a)
  | .error _ => none

theorem value_some {α β : Type} {x : Except UnitStop α} {f : α → β} {b : β} (h : value x f = some b) :
    ∃ a, x = .ok a ∧ f a = b := by
  unfold value at h
  split at h
  · exact ⟨_, rfl, by simpa using h⟩
  · cases h

theorem witness_RefinementSymbols_eob :
    refined.currentBlock = some ([0x80], block0) ∧ refined.dec.scan.mode = .acRefine ∧
      receive [0x80] refined.dec.more (0 : BitVec 4).toNat refined.dec.rd = .ok (0, refined.dec.rd) ∧
      ∃ d, Dec.refineRest [0x80] block0 (refined.dec.scan.se + 1 - refined.dec.prog.k) refined.dec.prog.k
        (refined.dec.withRd refined.dec.rd) = .ok d ∧ d.cell 0 0 0 1 = 3 :=
  ⟨by decide, by decide, by decide, value_some (by decide)⟩

/-- A band of 16 zero cells, at whose last ZRL and a run of 15 find their target. -/
def wideBand : State := run { scanOf .acRefine 1 16 1 0 with prog := { blk := 0, k := 1 } } .restart [0x80]

theorem witness_RefinementSymbols_run :
    wideBand.currentBlock = some ([0x80], block0) ∧ wideBand.dec.scan.mode = .acRefine ∧ (2 : BitVec 4) ≠ 1 ∧
      (∃ p, Dec.refineSkip [0x80] block0 (wideBand.dec.scan.se + 1 - wideBand.dec.prog.k) wideBand.dec.prog.k 15 wideBand.dec =
        .ok p ∧ p.1 = 16) ∧
      nextBit [0x80] wideBand.dec.more wideBand.dec.rd = .ok (true, { cur := 1, bb := { val := 0x80, cnt := 7 } }) ∧
      ∃ p, Dec.refineSkip [0x80] block0 (wideBand.dec.scan.se + 1 - wideBand.dec.prog.k) wideBand.dec.prog.k
        (15 : BitVec 4).toNat (wideBand.dec.withRd { cur := 1, bb := { val := 0x80, cnt := 7 } }) = .ok p ∧ p.1 = 16 :=
  ⟨by decide, by decide, by decide, value_some (by decide), by decide, value_some (by decide)⟩

/-- A band of a non-zero cell and two zero cells: no run of 2 or more finds a target in it. -/
def shortBand : State := run { withCoef (scanOf .acRefine 1 3 1 0) 1 2 with prog := { blk := 0, k := 1 } } .restart [0x80]

theorem witness_RefinementSymbols_index :
    shortBand.currentBlock = some ([0x80], block0) ∧ shortBand.dec.scan.mode = .acRefine ∧
      shortBand.dec.planes.mem.wf = true ∧ shortBand.dec.scan.se < 64 ∧ shortBand.dec.inPlane 0 0 0 0 = true ∧
      3 = shortBand.dec.scan.se + 1 - shortBand.dec.prog.k ∧
      (shortBand.dec.band block0 true 1 3).length ≤ (2 : BitVec 4).toNat ∧
      readBits [0x80] shortBand.dec.more (shortBand.dec.band block0 false 1 3).length shortBand.dec.rd =
        .ok ([true], { cur := 1, bb := { val := 0x80, cnt := 7 } }) ∧
      nextBit [0x80] shortBand.dec.more shortBand.dec.rd = .ok (true, { cur := 1, bb := { val := 0x80, cnt := 7 } }) ∧
      readBits [0x80] shortBand.dec.more (shortBand.dec.band block0 false 1 3).length
        { cur := 1, bb := { val := 0x80, cnt := 7 } } = .ok ([false], { cur := 1, bb := { val := 0x80, cnt := 6 } }) := by
  decide

/-- The band's correction bit is there; the view ends before it, with more to come and with none. -/
theorem witness_RefinementSymbols_eobRun :
    ((inRun .acRefine true [0x80]).currentBlock = some ([0x80], block0) ∧
        (inRun .acRefine true [0x80]).dec.scan.mode = .acRefine ∧ (inRun .acRefine true [0x80]).dec.prog.k = 0 ∧
        0 < (inRun .acRefine true [0x80]).dec.scan.eobrun.toNat ∧ (inRun .acRefine true []).snap = none) ∧
      (∃ d, Dec.refineRest [0x80] block0 (1 + 1 - 1) 1 (inRun .acRefine true [0x80]).dec = .ok d ∧ d.cell 0 0 0 1 = 3) ∧
      Dec.refineRest [] block0 (1 + 1 - 1) 1 (inRun .acRefine true []).dec = .error .suspend ∧
      Dec.refineRest [] block0 (1 + 1 - 1) 1 (inRun .acRefine false []).dec = .error (.raise (.corrupt .eof)) :=
  ⟨by decide, value_some (by decide), rfl, rfl⟩

/-- The bits are there; they are not; a run of 1 finds the zero cell 3 after the zero cell 2; a run of 2 finds none. -/
theorem witness_CorrectionBits :
    (shortBand.dec.planes.mem.wf = true ∧ 1 + 3 ≤ 64 ∧ shortBand.dec.inPlane 0 0 0 0 = true) ∧
      readBits [0x80] shortBand.dec.more (shortBand.dec.band block0 false 1 3).length shortBand.dec.rd =
        .ok ([true], { cur := 1, bb := { val := 0x80, cnt := 7 } }) ∧
      readBits [] shortBand.dec.more (shortBand.dec.band block0 false 1 3).length shortBand.dec.rd = .error .suspend ∧
      (1 ≤ 3 ∧ 3 < 1 + 3 ∧ shortBand.dec.cell 0 0 0 (zz 3) = 0 ∧ (shortBand.dec.band block0 true 1 (3 - 1)).length = 1 ∧
        readBits [0x80] shortBand.dec.more (shortBand.dec.band block0 false 1 (3 - 1)).length shortBand.dec.rd =
          .ok ([true], { cur := 1, bb := { val := 0x80, cnt := 7 } })) ∧
      (shortBand.dec.band block0 true 1 3).length ≤ 2 ∧
      ∃ d, Dec.refineRest [0x80] block0 1 1 refined.dec = .ok d ∧ d.cell 0 0 0 1 = 3 :=
  ⟨by decide, by decide, by decide, by decide, by decide, value_some (by decide)⟩

theorem witness_SymbolFrame :
    isSymbol (.dcDiff 3) = true ∧ (sym .seq 0 63 0 0 0 [0xA0]).dec.planes.mem.wf = true ∧
      (sym .seq 0 63 0 0 0 [0xA0]).currentBlock = some ([0xA0], block0) ∧
      ∃ t, exec (.dcDiff 3) (sym .seq 0 63 0 0 0 [0xA0]) = .next t ∧ (t.view, t.dec.comp.q0.pred) = (some [0xA0], 5) :=
  ⟨by decide, by decide, by decide, after_some (by decide)⟩

/-- R174(a)'s table. -/
def fourCodes : HEntry := (build ([0, 3, 1] ++ List.replicate 13 0) [0xA, 0xB, 0xC, 0xD]).getD HEntry.reset

/-- R174(a), R174(b): counts that fit, all places taken by 0 and the all-ones code 1 among them, and counts that do not. -/
theorem witness_CodesDecodeToTheirSymbols_counts :
    (([0, 3, 1] ++ List.replicate 13 0 : List Byte).length = 16 ∧
      [(0xA : Byte), 0xB, 0xC, 0xD].length = (([0, 3, 1] ++ List.replicate 13 0 : List Byte).map BitVec.toNat).sum ∧
      codesFit ([0, 3, 1] ++ List.replicate 13 0)) ∧
      (codesFit (2 :: List.replicate 15 0) ∧ [(0xA : Byte), 0xB].length = ((2 :: List.replicate 15 0 : List Byte).map BitVec.toNat).sum) ∧
      ¬codesFit ([2, 1] ++ List.replicate 14 0) := by decide

/-- R174(a)'s code 110 for the symbol of length 3. -/
theorem witness_CodesDecodeToTheirSymbols :
    fourCodes.Canonical ∧ fourCodes.huffcode[3]? = some 6 ∧ fourCodes.huffsize[3]? = some 3 ∧
      fourCodes.huffval[3]? = some 0xD ∧
      receive [0b11000000] true 3 { cur := 0, bb := { val := 0, cnt := 0 } } =
        .ok (6, { cur := 1, bb := { val := 0b11000000, cnt := 5 } }) :=
  ⟨by constructor <;> decide +kernel, by decide, by decide, by decide, by decide⟩

/-- R173(c), R174(b): two codes of length 1, the all-ones code 1 among them. -/
theorem test_build_allOnes :
    (build (2 :: List.replicate 15 0) [0xA, 0xB]).map (fun e => (e.huffcode, e.maxcode.take 2, e.look.getD 0xFF (9, 9))) =
      some ([0, 1], [1, -1], (1, 0xB)) ∧
      build ([2, 1] ++ List.replicate 14 0) [0xA, 0xB, 0xC] = none := by decide

/-- A byte; a stuffed FF after a fill byte; a marker after one; the view's end after one; bits to receive, and too few. -/
theorem witness_BitsAreRead :
    [(0x80 : Byte), 1].drop 0 = 0x80 :: [1] ∧ (0x80 : Byte) ≠ 0xFF ∧
      [(0xFF : Byte), 0xFF, 0, 7].drop 0 = List.replicate (1 + 1) 0xFF ++ 0x00 :: [7] ∧
      [(0xFF : Byte), 0xFF, 0xD9].drop 0 = List.replicate (1 + 1) 0xFF ++ 0xD9 :: [] ∧
      (0xD9 : Byte) ≠ 0xFF ∧ (0xD9 : Byte) ≠ 0x00 ∧ [(0xFF : Byte)].drop 0 = List.replicate 1 0xFF ∧
      readBits [0xA0] true 3 grey.rd = .ok ([true, false, true], { cur := 1, bb := { val := 0xA0, cnt := 5 } }) ∧
      readBits [0xA0] true 9 grey.rd = .error .suspend := by decide

/-- A table whose one code is the bit 0, and bits that begin with 1. -/
theorem witness_SymbolsRejected_code :
    (oneCode 0x10).Canonical ∧
      (∀ j code size : Nat, (oneCode 0x10).huffcode[j]? = some code → (oneCode 0x10).huffsize[j]? = some size →
        bitsValue ((List.replicate 16 true).take size) ≠ code) ∧
      readBits [0xFF, 0, 0xFF, 0] true 16 grey.rd =
        .ok (List.replicate 16 true, { cur := 4, bb := { val := 0xFF, cnt := 0 } }) := by
  refine ⟨oneCode_canonical.2, fun j code size hc hs => ?_, by decide⟩
  have h : (oneCode 0x10).huffcode = [0] ∧ (oneCode 0x10).huffsize = [1] := by decide
  rw [h.1] at hc
  rw [h.2] at hs
  cases j with
  | zero => cases hc; cases hs; decide
  | succ j => cases hc

/-- A scan of one block whose tables have the one code 0, for the symbol 10. -/
def wideSym (k : Nat) (v : List Byte) : State :=
  run { scanOf .seq 0 63 0 0 with
    prog := { blk := 0, k := k }, htDc := { grey.htDc with q0 := oneCode 0x10 } } .restart v

theorem witness_SymbolsRejected_step :
    (wideSym 0 [0]).currentBlock = some ([0], block0) ∧ (wideSym 0 [0]).dec.scan.mode = .seq ∧ (wideSym 0 [0]).dec.prog.k = 0 ∧
      decodeSym [0] true ((wideSym 0 [0]).dec.htDc.get 0) (wideSym 0 [0]).dec.rd =
        .ok (0x10, { cur := 1, bb := { val := 0, cnt := 7 } }) ∧ 16 ≤ (0x10 : Byte).toNat ∧
      decodeSym [0xFF, 0, 0xFF, 0] true ((wideSym 0 []).dec.htDc.get 0) (wideSym 0 []).dec.rd =
        .error (.raise (.corrupt .huffBadCode)) ∧
      (wideSym 1 [0xFF, 0, 0xFF, 0]).currentBlock = some ([0xFF, 0, 0xFF, 0], block0) ∧ (wideSym 1 []).dec.prog.k ≠ 0 ∧
      (wideSym 1 []).dec.prog.k ≤ (wideSym 1 []).dec.lastK ∧
      decodeSym [0xFF, 0, 0xFF, 0] true ((wideSym 1 []).dec.htAc.get 0) (wideSym 1 []).dec.rd =
        .error (.raise (.corrupt .huffBadCode)) := by decide

/-! ### Transform, rendering, MQ engine, encoder -/

/-- A block and a table of the entries named, 0 and `q` elsewhere. -/
def blockOf (l : List (Nat × Half)) : List Half := (List.range 64).map fun n => (l.lookup n).getD 0

/-- R257(b), R257(c): horizontal and vertical frequency 1. -/
theorem test_idct_b :
    idct .ref (blockOf [(1, 10)]) (List.replicate 64 16) =
        (List.replicate 8 [156, 152, 144, 134, 122, 112, 104, 100]).flatten ∧
      idct .ref (blockOf [(8, -10)]) (List.replicate 64 16) =
        [100, 104, 112, 122, 134, 144, 152, 156].flatMap fun b => List.replicate 8 b := by decide +kernel

/-- R257(d), R257(e): saturation; rows 0, 3 and 7 of a block of two coefficients. -/
theorem test_idct_d :
    idct .ref (blockOf [(0, -1100)]) (List.replicate 64 1) = List.replicate 64 0 ∧
      idct .ref (blockOf [(0, 1200)]) (List.replicate 64 1) = List.replicate 64 255 ∧
      (let o := idct .ref (blockOf [(0, 100), (9, -50)]) (List.replicate 64 2);
        o.take 8 = [129, 133, 139, 148, 158, 167, 173, 177] ∧
        (o.drop 24).take 8 = [148, 149, 150, 152, 154, 156, 157, 158] ∧
        o.drop 56 = [177, 173, 167, 158, 148, 139, 133, 129]) := by decide +kernel

/-- R263(b): the horizontal ramp. -/
def ramp : List Byte := (List.range 64).map fun n => BitVec.ofNat 8 (16 * (n % 8) + 8)

theorem test_fdct_b :
    fdct .ref ramp = [-4096, -2332, 0, -244, 0, -72, 0, -18] ++ List.replicate 56 0 ∧
      (fdctZzQ .ref ramp (List.replicate 64 1)).take 10 = [-512, -292, 0, 0, 0, 0, -31, 0, 0, 0] ∧
      (fdctZzQ .ref ramp (List.replicate 64 16)).take 10 = [-32, -18, 0, 0, 0, 0, -2, 0, 0, 0] := by decide +kernel

/-- A flat block; a block of the first row and one of the first column only. -/
theorem witness_TransformsFollowTheDct :
    (∀ n, 0 < n → n < 64 → (blockOf [(0, 5)]).getD n 0 = 0) ∧
      (∀ n, 8 ≤ n → n < 64 → (blockOf [(0, 5), (7, 9)]).getD n 0 = 0) ∧
      (∀ n, n < 64 → n % 8 ≠ 0 → (blockOf [(0, 5), (56, 9)]).getD n 0 = 0) ∧
      (∀ n, (fun n => ((blockOf [(63, 5)]).getD n 0).toInt * ((List.replicate 64 (2 : Half)).getD n 0).toNat) n =
        ((blockOf [(63, 5)]).getD n 0).toInt * ((List.replicate 64 (2 : Half)).getD n 0).toNat) := by
  have h : ∀ n, n < 64 → (0 < n → (blockOf [(0, 5)]).getD n 0 = 0) ∧
      (8 ≤ n → (blockOf [(0, 5), (7, 9)]).getD n 0 = 0) ∧
      (n % 8 ≠ 0 → (blockOf [(0, 5), (56, 9)]).getD n 0 = 0) := by decide
  exact ⟨fun n h0 hn => (h n hn).1 h0, fun n h8 hn => (h n hn).2.1 h8, fun n hn => (h n hn).2.2, fun _ => rfl⟩

/-- R366's vectors of CMYK_REF. -/
theorem test_cmyk :
    cmykToRgb .ref 255 0 128 255 true = ⟨255, 0, 128⟩ ∧ cmykToRgb .ref 0 255 128 0 false = ⟨255, 0, 127⟩ ∧
      cmykToRgb .ref 7 80 255 0 true = ⟨0, 0, 0⟩ := by decide

/-- Two components, the first of the factors given, the second 1x1. -/
def sampled (h v : Nat) : Dec :=
  { grey with
    frame := { grey.frame with nf := 2 }
    comp := { grey.comp with q0 := { id := 1, h := h, v := v, tq := 0, pred := 0 }
                             q1 := { id := 2, h := 1, v := 1, tq := 1, pred := 0 } } }

/-- The positions and the samples exist for any registers, and so does a constant plane. -/
theorem edges_exist (d : Dec) (cfg : Config) (i : Fin 4) (q : List Half) (w h : Nat) (hw : 1 ≤ w) (hh : 1 ≤ h) :
    ∃ e : Int → Int → Nat,
      (∀ px py : Nat, px < w → py < h →
        e px py = ((idct cfg.idct ((List.range 64).map fun n => d.cell i (py / 8) (px / 8) n) q).getD
          (py % 8 * 8 + px % 8) 0).toNat) ∧
      (∀ px py : Int, e px py = e (max 0 (min px (w - 1))) (max 0 (min py (h - 1)))) := by
  refine ⟨fun px py =>
    ((idct cfg.idct ((List.range 64).map fun n =>
      d.cell i ((max 0 (min py (h - 1))).toNat / 8) ((max 0 (min px (w - 1))).toNat / 8) n) q).getD
        ((max 0 (min py (h - 1))).toNat % 8 * 8 + (max 0 (min px (w - 1))).toNat % 8) 0).toNat, ?_, ?_⟩
  · intro px py hx hy
    have h1 : (max (0 : Int) (min px (w - 1))).toNat = px := by omega
    have h2 : (max (0 : Int) (min py (h - 1))).toNat = py := by omega
    simp only [h1, h2]
  · intro px py
    have h1 : max (0 : Int) (min (max 0 (min px (w - 1))) (w - 1)) = max 0 (min px (w - 1)) := by omega
    have h2 : max (0 : Int) (min (max 0 (min py (h - 1))) (h - 1)) = max 0 (min py (h - 1)) := by omega
    simp only [h1, h2]

/-- Lines, a pixel, and component 1 at each ratio. -/
theorem witness_PixelsRendered :
    (3 ≤ 3 ∧ 3 < 5 ∧ 7 < (sampled 2 2).frame.x.toNat) ∧ 255 < 256 ∧
      (∀ p ∈ [(1, 1), (2, 1), (1, 2), (2, 2), (3, 1)],
        1 ≤ (sampled p.1 p.2).wc ((sampled p.1 p.2).comp.get 1) ∧ 1 ≤ (sampled p.1 p.2).hc ((sampled p.1 p.2).comp.get 1) ∧
        (sampled p.1 p.2).hmax = p.1 * ((sampled p.1 p.2).comp.get 1).h ∧
        (sampled p.1 p.2).vmax = p.2 * ((sampled p.1 p.2).comp.get 1).v) ∧
      Config.default.upsample = .ref ∧
      (∀ px py : Int, (fun _ _ : Int => 128) px py = 128) ∧
      idct .ref (List.replicate 64 0) (List.replicate 64 1) = List.replicate 64 128 := by
  refine ⟨by decide, by decide, by decide, rfl, fun _ _ => rfl, by decide +kernel⟩

theorem witness_QuantizeNearest : 63 < 64 ∧ 1 ≤ 1 ∧ (0 : Int) ≤ 64 := by decide

theorem witness_MqInitAndReset : State.reset.view = none ∧ State.reset.cfg.arithPresent = true := by decide

theorem mqInv_reset : State.reset.MqInv := ⟨by decide, by decide, by decide, by decide, by decide, by decide⟩

/-- The MQ engine with the interval `a` and the code register `c`, each context in row 0 (Qe = 5601, SW = 1). -/
def mqAt (a : Half) (c : Word) : State := { State.reset with mq := { State.reset.mq with a := a, c := c } }

theorem mqAt_inv {a : Half} (c : Word) (h : 0x8000 ≤ a.toNat) : (mqAt a c).MqInv :=
  ⟨h, by show State.reset.mq.ct ≤ 8; decide, by show State.reset.mq.bp ≤ State.reset.mq.seg.length; decide,
    by show State.reset.mq.cx.length = State.reset.cfg.nCx; decide, by show ∀ c ∈ State.reset.mq.cx, c.i ≤ 46; decide,
    by show ∀ c ∈ State.reset.cfg.mqInit, c.i ≤ 46; decide⟩

/-- The five paths: LPS exchange with A - Qe below Qe and not below; no exchange; MPS exchange below and not below. -/
theorem witness_MqDecodes :
    (∀ (a : Half) (c : Word), (mqAt a c).view = none ∧ (mqAt a c).cfg.arithPresent = true ∧
      (mqAt a c).mq.cx[18]? = some { i := 0, mps := false }) ∧
      qeRom[0]? = some { qe := 0x5601, nmps := 1, nlps := 1, sw := true } ∧
      ((mqAt 0x8000 0).MqInv ∧ (0 : Word).toNat / 2 ^ 16 < 0x5601 ∧ ((0x8000 : Half) - BitVec.ofNat 16 0x5601).toNat < 0x5601) ∧
      ((mqAt 0xB000 0x56000000).MqInv ∧ (0x56000000 : Word).toNat / 2 ^ 16 < 0x5601 ∧
        ¬((0xB000 : Half) - BitVec.ofNat 16 0x5601).toNat < 0x5601) ∧
      ((mqAt 0xFFFF 0x56010000).MqInv ∧ ¬(0x56010000 : Word).toNat / 2 ^ 16 < 0x5601 ∧
        0x8000 ≤ ((0xFFFF : Half) - BitVec.ofNat 16 0x5601).toNat) ∧
      ((mqAt 0x8000 0x56010000).MqInv ∧ ¬0x8000 ≤ ((0x8000 : Half) - BitVec.ofNat 16 0x5601).toNat ∧
        ((0x8000 : Half) - BitVec.ofNat 16 0x5601).toNat < 0x5601) ∧
      ((mqAt 0xB000 0x56010000).MqInv ∧ ¬0x8000 ≤ ((0xB000 : Half) - BitVec.ofNat 16 0x5601).toNat ∧
        ¬((0xB000 : Half) - BitVec.ofNat 16 0x5601).toNat < 0x5601) := by
  refine ⟨fun _ _ => ⟨rfl, rfl, rfl⟩, by decide, ⟨mqAt_inv _ (by decide), by decide⟩, ⟨mqAt_inv _ (by decide), by decide⟩,
    ⟨mqAt_inv _ (by decide), by decide⟩, ⟨mqAt_inv _ (by decide), by decide⟩, mqAt_inv _ (by decide), by decide⟩

/-- R234, R237: CT = 0 brings in the byte 11 after FF (7 bits); A is doubled twice, C too. -/
theorem test_mqRenorm :
    (Mq.renorm { State.reset.mq with a := 0x29FF, c := 1, ct := 0, bp := 0, seg := [0xFF, 0x11] }).map
      (fun m => (m.a, m.c, m.ct, m.bp)) = some (0xA7FC, 0x8804, 5, 1) := by decide

theorem witness_EncoderOpens :
    State.reset.view = none ∧ State.reset.enc.isOpen = false ∧ 1 ≤ 1 ∧ 65535 ≤ 65535 ∧
      ((50 : Nat) : Int) = max 1 (min 50 100) ∧ 100 = (if 50 < 50 then 5000 / 50 else 200 - 2 * 50) ∧
      ((1 : Nat) : Int) = max 1 (min (-7) 100) ∧ 5000 = (if 1 < 50 then 5000 / 1 else 200 - 2 * 1) := by decide

/-- Tables in zig-zag order, for every table of 64 entries. -/
theorem witness_EncoderOpens_zigzag (ql : List Byte) (h : ql.length = 64) :
    ∃ zl : List Byte, zl.length = 64 ∧ ∀ k, k < 64 → zl[k]? = ql[zz k]? := by
  refine ⟨(List.range 64).map fun k => ql.getD (zz k) 0, by simp, fun k hk => ?_⟩
  have hz : ∀ k, k < 64 → zz k < 64 := by decide
  simp [hk, List.getD_eq_getElem?_getD, List.getElem?_eq_getElem (show zz k < ql.length by rw [h]; exact hz k hk)]

/-- R407: white is 255, 128, 128. -/
theorem witness_EncoderColour :
    (255 : Int) = ((0xFFFFFFFF : Word).toNat / 2 ^ 16 % 256 : Nat) ∧ (255 : Int) = ((0xFFFFFFFF : Word).toNat / 2 ^ 8 % 256 : Nat) ∧
      (255 : Int) = ((0xFFFFFFFF : Word).toNat % 256 : Nat) ∧ lumaOf 0xFFFFFFFF = 255 ∧ cbOf 0xFFFFFFFF = 128 ∧
      crOf 0xFFFFFFFF = 128 := by decide

/-- An open encoder of width 1 and height h. -/
def opened (h rows : Nat) : State := { State.reset with enc := { Enc.reset with isOpen := true, w := 1, h := h, rows := rows } }

/-- An encoder of width 1 with a sound state, at its last row or with 15 rows in its band. -/
def soundEnc (h rows : Nat) : State :=
  { State.reset with
    enc := { encOpened 50 1 h 0 with rows := rows, band := List.replicate rows [0xFF000000] } }

theorem soundEnc_inv (h rows : Nat) (h1 : 1 ≤ h) (h2 : rows ≤ h) (h3 : rows < 16) : (soundEnc h rows).EncInv :=
  ⟨fun _ => ⟨by show 1 ≤ 1; decide, h1, by show (encOpened 50 1 1 0).ql.length = 64; decide,
      by show (encOpened 50 1 1 0).qc.length = 64; decide, by show ∀ q ∈ (encOpened 50 1 1 0).ql, q ≠ 0; decide,
      by show ∀ q ∈ (encOpened 50 1 1 0).qc, q ≠ 0; decide, h2, by simpa [soundEnc] using h3⟩,
    ⟨by show -1025 ≤ (0 : Word).toInt; decide, by show (0 : Word).toInt ≤ 1017; decide⟩,
    ⟨by show -1025 ≤ (0 : Word).toInt; decide, by show (0 : Word).toInt ≤ 1017; decide⟩,
    ⟨by show -1025 ≤ (0 : Word).toInt; decide, by show (0 : Word).toInt ≤ 1017; decide⟩,
    by show 0 < 8; decide, by show 0 ≤ 0; decide⟩

/-- The row that fills the band and the one that is the image's last; a row missing, none sent before it. -/
theorem witness_EncoderRowsAndFinish_band :
    ((soundEnc 1 0).EncInv ∧ (soundEnc 1 0).enc.rows + 1 = (soundEnc 1 0).enc.h ∧
        (soundEnc 1 0).enc.rows ≠ (soundEnc 1 0).enc.h ∧ (soundEnc 1 0).enc.isOpen = true ∧
        [(0xFF000000 : Word)].length = (soundEnc 1 0).enc.w) ∧
      ((soundEnc 40 15).EncInv ∧ (soundEnc 40 15).enc.band.length + 1 = 16) ∧
      ((opened 2 0).enc.rows < (opened 2 0).enc.h ∧
        [(0xFF000000 : Word)] = (opened 2 0).enc.last.getD (List.replicate (opened 2 0).enc.w 0xFF000000) ∧
        ∃ u, exec (.encScanline [0xFF000000]) (opened 2 0) = .next u ∧ u.enc.rows = 1) :=
  ⟨⟨soundEnc_inv _ _ (by decide) (by decide) (by decide), by decide, by decide, by decide, by decide⟩,
    ⟨soundEnc_inv _ _ (by decide) (by decide) (by decide), by decide⟩, by decide, by decide, after_some (by decide)⟩

theorem witness_EncoderRowsAndFinish :
    ((opened 16 0).view = none ∧ (opened 16 0).enc.isOpen = true ∧ [(0xFF000000 : Word)].length = (opened 16 0).enc.w ∧
        (opened 16 0).enc.rows ≠ (opened 16 0).enc.h ∧ (opened 16 0).enc.band.length + 1 ≠ 16 ∧
        (opened 16 0).enc.rows + 1 ≠ (opened 16 0).enc.h) ∧
      ((opened 1 1).enc.isOpen = true ∧ (opened 1 1).enc.rows = (opened 1 1).enc.h ∧ (opened 1 1).pk.cnt = 0) ∧
      (let p : Packer := { acc := 0b101, cnt := 3, outq := [] }; 0 < p.cnt ∧ p.cnt < 8 ∧
        (0xBF : Byte) = BitVec.ofNat 8 (p.acc.toNat * 2 ^ (8 - p.cnt) + (2 ^ (8 - p.cnt) - 1))) := by decide

/-- A core without the arithmetic engine. -/
def noMq : State := State.fresh { Config.default with arithPresent := false }

theorem witness_RefusalsChangeNothing :
    (noMq.view = none ∧ noMq.cfg.arithPresent = false ∧ isMq .mqResetCtx = true) ∧
      (State.reset.cfg.arithPresent = true ∧ State.reset.cfg.nCx ≤ 19) ∧
      ((opened 1 1).enc.isOpen = true ∧ ([] : List Word).length ≠ (opened 1 1).enc.w ∧
        [(0xFF000000 : Word)].length = (opened 1 1).enc.w ∧ (opened 1 1).enc.rows = (opened 1 1).enc.h) ∧
      (State.reset.enc.isOpen = false ∧ (0 < 1 ∨ 65535 < 0 ∨ 1 < 1 ∨ 65535 < 65536)) := by decide

/-- Five bits that fill the partial byte 101 to BF (R413's example), and two that do not; R411's categories. -/
theorem witness_EncoderBits :
    ({ acc := 0b101, cnt := 3, outq := [] } : Packer).cnt + [true, true].length < 8 ∧
      ({ acc := 0b101, cnt := 3, outq := [] } : Packer).cnt + (List.replicate 5 true).length = 8 ∧
      (0xBF : Byte) = BitVec.ofNat 8 ((0b101 : Byte).toNat * 2 ^ 5 + bitsValue (List.replicate 5 true)) ∧
      nbits (-1023) = 10 ∧ nbits 0 = 0 ∧ nbits 64 = 7 := by decide

/-- A step that writes cells of a plane. -/
theorem witness_MemoryStaysCanonical :
    (run (scanOf .seq 0 63 0 0) .restart [0b01010000]).MemInv ∧
      ∃ t, step (run (scanOf .seq 0 63 0 0) .restart [0b01010000]) = .next t ∧ t.dec.planes.mem = [(1, 5)] :=
  ⟨⟨by decide, by decide⟩, after_some (by decide)⟩

/-- A step that reads the view's last byte. -/
theorem witness_CursorStaysInView :
    (run (scanOf .seq 0 63 0 0) .restart [0b01010000]).CursorInv ∧
      ∃ t, step (run (scanOf .seq 0 63 0 0) .restart [0b01010000]) = .next t ∧ t.dec.cur = 1 :=
  ⟨fun v h => by cases h; exact ⟨by decide, by decide⟩, after_some (by decide)⟩

theorem witness_PhaseIsKept :
    (run (scanOf .seq 0 63 0 0) .restart [0b01010000]).PhaseInv ∧
      ∃ t, step (run (scanOf .seq 0 63 0 0) .restart [0b01010000]) = .next t ∧ t.snap.isSome = true :=
  ⟨phase_scan _, after_some (by decide)⟩

theorem witness_MqRangesAreKept :
    State.MqInv { State.reset with hostq := [.mqDecode 18] } ∧
      ∃ t, step { State.reset with hostq := [.mqDecode 18] } = .next t ∧ t.results.length = 1 :=
  ⟨mqInv_reset, after_some (by decide)⟩

theorem witness_EncoderNeverStops : isEnc .encFinish = true ∧ (soundEnc 1 0).view = none ∧ (soundEnc 1 0).EncInv :=
  ⟨rfl, rfl, soundEnc_inv _ _ (by decide) (by decide) (by decide)⟩

theorem witness_FinishedIsLast :
    (run oneScan .frame [0xFF, 0xD9]).FinishedInv ∧
      ∃ t, step (run oneScan .frame [0xFF, 0xD9]) = .next t ∧ t.dec.fsm = .done :=
  ⟨fun h => absurd h (by decide), after_some (by decide)⟩

theorem witness_UnitsShareNoState :
    (∃ t, exec .mqResetCtx State.reset = .next t ∧ t.results = [(.mqResetCtx, .ok)]) ∧
      (∃ t, exec (.encInit 50 1 1) State.reset = .next t ∧ t.results = [(.encInit, .ok)]) ∧
      (isMq .soi = false ∧ isEnc .soi = false ∧ Instr.soi ≠ .reset ∧
        ∃ t, exec .soi (run Dec.reset .none [0xFF, 0xD8]) = .next t ∧ t.dec.fsm = .started) :=
  ⟨after_some (by decide), after_some (by decide), by decide, by decide, by decide, after_some (by decide)⟩

end Sys2Proof.Tests
end

section
/-! PROOFS. The cursor stays in the view (R12, R32, R140). -/

namespace Sys2Proof.Machine

/-- What `ADVANCE(n)` answers stays in the view when `n` bytes are there (R12). -/
theorem Dec.cur_add_le_of_avail {v : List Byte} {d : Dec} {n : Nat} (hc : d.cur ≤ v.length) (ha : n ≤ d.avail v) :
    d.cur + n ≤ v.length := by
  unfold Dec.avail at ha
  omega

/-- The registers a unit ends with, if it leaves any, have their cursor in the view. -/
def UnitDone.CurInView (v : List Byte) : UnitDone → Prop
  | .commit d _ => d.cur ≤ v.length
  | .cont d => d.cur ≤ v.length
  | .stop => True

/-- A symbol's bit reader stays in the view, and the end of its MCU does not move the cursor. -/
theorem Dec.Symbol.curInView {v : List Byte} {d : Dec} {u : UnitDone} (h : Dec.Symbol v d u) (hc : d.cur ≤ v.length) :
    u.CurInView v := by
  obtain ⟨d', hm, rfl | ⟨o, fl, evs, -, rfl⟩⟩ := h
  · exact hm.in_view hc
  · simpa [UnitDone.CurInView] using hm.in_view hc

/-- Every unit that moves the cursor has asked for the bytes it moves over. -/
theorem Dec.Unit.curInView {v : List Byte} {d : Dec} {u : UnitDone} (h : Dec.Unit v d u) (hc : d.cur ≤ v.length) :
    u.CurInView v := by
  cases h with
  | stop => trivial
  | trailing => exact Dec.cur_add_le_of_avail hc (Nat.le_refl _)
  | segment n j a c q p r x evs hf ha => exact Dec.cur_add_le_of_avail hc ha
  | soi hf ha => exact Dec.cur_add_le_of_avail hc ha
  | header k f hf ha =>
    have hcur : (if d.fsm = .frame then d.abortFrame else d).cur = d.cur := by split <;> rfl
    simpa [UnitDone.CurInView, hcur] using Dec.cur_add_le_of_avail hc ha
  | body c hf ha => exact Dec.cur_add_le_of_avail hc ha
  | scan n sc ss se ah al hf ha => exact Dec.cur_add_le_of_avail hc ha
  | eoi fl evs hf ha => exact Dec.cur_add_le_of_avail hc ha
  | restart hf ha => exact Dec.cur_add_le_of_avail hc ha
  | scanEnd => exact hc
  | stuffed hf ha => exact Dec.cur_add_le_of_avail hc ha
  | symbol hf hs => exact hs.curInView hc

/-- R175: FETCH never passes the view's end. -/
theorem State.Read.cur_le {s s0 : State} {v : List Byte} (h : s.Read s0 v) (hc : s.dec.cur ≤ v.length) :
    s0.dec.cur ≤ v.length := by
  obtain ⟨r, k, rfl, -, hr⟩ := h
  exact hr hc

/-- R140, for the registers and for the snapshot a suspended unit goes back to. -/
theorem State.UnitStep.cur_le {s t : State} {v : List Byte} (h : s.UnitStep t v)
    (hs : s.dec.cur ≤ v.length ∧ s.unitStart.cur ≤ v.length) : t.dec.cur ≤ v.length ∧ t.unitStart.cur ≤ v.length := by
  refine unitStep_keeps (P := fun d => d.cur ≤ v.length) hs (fun s0 _ hr => hr.cur_le hs.1) ?_ (fun _ _ hd => hd) h
  rintro d u hd hu d' (⟨evs, rfl⟩ | rfl) <;> exact hu.curInView hd

theorem State.CursorInv.of_view_none {s : State} (h : s.view = none) : s.CursorInv := by
  intro v hv
  rw [h] at hv
  cases hv

/-- Settles O55: a unit moves the cursor over bytes it has asked for, and of the commands only DECODE sets a view, with the
cursor at its start. -/
theorem cursorStaysInView : Obligations.CursorStaysInView := by
  intro s t hs h
  obtain ⟨-, ⟨v, hv, hu⟩ | ⟨-, -, rfl⟩ | ⟨c, q, hv, -, hx⟩⟩ := step_next h
  · intro w hw
    rcases unitStep_view hu with hn | he
    · rw [hn] at hw
      cases hw
    · obtain rfl : v = w := Option.some.inj (hv.symm.trans (he.symm.trans hw))
      exact hu.cur_le (hs v hv)
  · exact hs
  · obtain ⟨-, -, hvt, -⟩ | ⟨v, more, -, -, rfl⟩ | ⟨-, -, -, -, hvt, -⟩ | ⟨-, -, -, hvt, -⟩ := exec_call_next hx
    · exact .of_view_none (hvt.trans hv)
    · exact fun w _ => ⟨Nat.zero_le _, Nat.zero_le _⟩
    · exact .of_view_none (hvt.trans hv)
    · exact .of_view_none hvt

end Sys2Proof.Machine
end

section
/-! PROOFS. What a unit leaves in the registers, and how a fact about the registers is carried through a whole step. -/

namespace Sys2Proof.Machine

/-- The registers a unit ends with, if it leaves any, meet `P`. -/
def UnitDone.Leaves (P : Dec → Prop) : UnitDone → Prop
  | .commit d _ => P d
  | .cont d => P d
  | .stop => True

@[simp] theorem UnitDone.leaves_commit {P : Dec → Prop} {d : Dec} {evs : List Event} :
    (UnitDone.commit d evs).Leaves P ↔ P d := Iff.rfl

@[simp] theorem UnitDone.leaves_cont {P : Dec → Prop} {d : Dec} : (UnitDone.cont d).Leaves P ↔ P d := Iff.rfl

/-- A symbol leaves what only moved, or that with the MCU's end counted. -/
theorem Dec.Symbol.leaves {P : Dec → Prop} {v : List Byte} {d : Dec} {u : UnitDone} (h : Dec.Symbol v d u)
    (hcont : ∀ d', Dec.Moved v d d' → P d')
    (hend : ∀ d' o fl, Dec.Moved v d d' → P ({ d'.countMcu with out := o, flush := fl } : Dec).afterMcu) :
    u.Leaves P := by
  obtain ⟨d', hm, rfl | ⟨o, fl, evs, -, rfl⟩⟩ := h
  · exact hcont d' hm
  · exact hend d' o fl hm

/-- A fact about the registers holds after a unit if it holds of what the unit leaves, of the registers a DECODE returns
with, and of ENTER_ERROR's. -/
theorem State.endUnit_keeps {P : Dec → Prop} {s t : State} {r : Except UnitStop UnitDone} (hd : P s.dec)
    (hu : P s.unitStart) (he : ∀ e, P (s.unitStart.enterError e)) (hr : ∀ u, r = .ok u → u.Leaves P)
    (h : s.endUnit r = .next t) : P t.dec := by
  have hreturn : ∀ d, P d → P (s.returnDecode d).dec := by
    intro d hd
    rcases State.returnDecode_eq s d with h | h <;> rw [h]
    · exact he _
    · exact hd
  rcases State.endUnit_next h with ⟨d, evs, rfl, rfl⟩ | ⟨d, rfl, rfl⟩ | ⟨-, rfl⟩ | ⟨-, rfl⟩ | ⟨e, -, rfl⟩
  · exact hr _ rfl
  · exact hr _ rfl
  · exact hreturn _ hd
  · exact hreturn _ hu
  · exact he e

theorem State.returnDecode_frame (s : State) (d : Dec) :
    s.returnDecode d = { s with
      view := (s.returnDecode d).view, dec := (s.returnDecode d).dec, snap := (s.returnDecode d).snap
      results := (s.returnDecode d).results } := by
  unfold State.returnDecode
  split <;> rfl

/-- A unit of DECODE changes the decoder's registers and what DECODE returns and delivers, and nothing else. -/
theorem State.endUnit_frame {s t : State} {r : Except UnitStop UnitDone} (h : s.endUnit r = .next t) :
    t = { s with view := t.view, dec := t.dec, snap := t.snap, events := t.events, results := t.results } := by
  rcases State.endUnit_next h with ⟨d, evs, -, rfl⟩ | ⟨d, -, rfl⟩ | ⟨-, rfl⟩ | ⟨-, rfl⟩ | ⟨e, -, rfl⟩
  · rfl
  · rfl
  · rw [State.returnDecode_frame]
  · rw [State.returnDecode_frame]
  · rfl

/-- Where the snapshot is kept, the unit's start is the old one or, with no unit in progress, the new registers. -/
theorem State.unitStart_keeps {P : Dec → Prop} {s t : State} (hn : t.snap = s.snap) (hd : P t.dec)
    (hu : P s.unitStart) : P t.unitStart := by
  unfold State.unitStart at hu ⊢
  rw [hn]
  cases hs : s.snap with
  | none => exact hd
  | some d => simpa [hs] using hu

/-- A fact about the decoder's registers that every unit and ENTER_ERROR keep, that holds after RESET, and that does not
look at the registers which a symbol's bits, DECODE and a flush write, is kept by every step, for the registers and for the
snapshot. -/
theorem step_keeps {P : Dec → Prop} {s t : State} (hs : P s.dec ∧ P s.unitStart)
    (hunit : ∀ v d u, P d → Dec.Unit v d u → u.Leaves P) (herr : ∀ d e, P d → P (d.enterError e)) (hreset : P Dec.reset)
    (hquiet : ∀ d c m b f p, P d → P { d with cur := c, more := m, bb := b, flush := f, prog := p })
    (h : step s = .next t) : P t.dec ∧ P t.unitStart := by
  obtain ⟨-, ⟨v, -, hu⟩ | ⟨-, -, rfl⟩ | ⟨c, q, -, -, hx⟩⟩ := step_next h
  · refine unitStep_keeps hs ?_ ?_ herr hu
    · rintro s0 - ⟨r, k, rfl, -⟩
      exact hquiet s.dec r.cur s.dec.more r.bb s.dec.flush { s.dec.prog with k := k } hs.1
    · rintro d u hd hdu d' (⟨evs, rfl⟩ | rfl) <;> exact hunit v d _ hd hdu
  · exact hs
  · rcases exec_call_next hx with ⟨hd, hn, -⟩ | ⟨v, more, -, -, rfl⟩ | ⟨fl, evs, hd, hn, -⟩ | ⟨-, hd, hn, -⟩
    · have hdt : P t.dec := hd ▸ hs.1
      exact ⟨hdt, State.unitStart_keeps hn hdt hs.2⟩
    · have := hquiet s.dec 0 more s.dec.bb s.dec.flush s.dec.prog hs.1
      exact ⟨this, this⟩
    · have hdt : P t.dec :=
        hd ▸ hquiet s.dec s.dec.cur s.dec.more s.dec.bb fl s.dec.prog hs.1
      exact ⟨hdt, State.unitStart_keeps hn hdt hs.2⟩
    · rw [State.unitStart_of_none hn, hd]
      exact ⟨hreset, hreset⟩

end Sys2Proof.Machine
end

section
/-! PROOFS. The planes' bytes stay in canonical form (R47, R81; log 8). -/

namespace Sys2Proof.Machine

/-- Every unit leaves canonical planes: it frees them, allocates them fresh, or writes cells of them as a symbol does. -/
theorem Dec.Unit.leaves_mem_wf {v : List Byte} {d : Dec} {u : UnitDone} (hd : d.planes.mem.wf = true)
    (h : Dec.Unit v d u) : u.Leaves fun d' => d'.planes.mem.wf = true := by
  cases h with
  | stop => trivial
  | trailing | segment | soi | scan | restart | scanEnd | stuffed => exact hd
  | header =>
    rw [UnitDone.leaves_commit, Dec.withHeader_planes]
    split
    · exact Planes.free_wf
    · exact hd
  | body => exact Planes.zero_wf
  | eoi => exact Planes.free_wf
  | symbol _ hs => exact hs.leaves (fun _ hm => hm.mem_wf hd) fun _ _ _ hm => by simpa using hm.mem_wf hd

/-- Settles O54: every unit leaves canonical planes, and ENTER_ERROR and RESET leave freed ones. -/
theorem memoryStaysCanonical : Obligations.MemoryStaysCanonical := fun _ _ hs h =>
  step_keeps (P := fun d => d.planes.mem.wf = true) hs (fun _ _ _ hd hu => hu.leaves_mem_wf hd)
    (fun _ _ _ => Planes.free_wf) rfl (fun _ _ _ _ _ _ hd => hd) h

end Sys2Proof.Machine
end

section
/-! PROOFS. STATE goes with FRAME.valid, the planes, SCAN.active and ERR (R33, R34, R44, R47, R280, R444). -/

namespace Sys2Proof.Machine

/-- The states in which the frame is valid and its planes are allocated (R34, R47). -/
def Fsm.hasFrame : Fsm → Bool
  | .frame | .restart | .findMarker => true
  | _ => false

/-- The states in which a scan is active (R44). -/
def Fsm.hasScan : Fsm → Bool
  | .restart | .findMarker => true
  | _ => false

/-- The phase invariant as a table by STATE. -/
theorem Dec.phaseInv_iff {d : Dec} :
    d.PhaseInv ↔ d.planes.allocated = d.fsm.hasFrame ∧ d.frame.valid = d.fsm.hasFrame ∧
      d.scan.active = d.fsm.hasScan ∧ (d.err ≠ none ↔ d.fsm = .error) := by
  unfold Dec.PhaseInv
  cases d.fsm <;> cases d.frame.valid <;> simp [Fsm.hasFrame, Fsm.hasScan]

theorem Dec.PhaseInv.enterError (d : Dec) (e : Err) : (d.enterError e).PhaseInv :=
  Dec.phaseInv_iff.2 ⟨rfl, rfl, rfl, by simp⟩

theorem Dec.PhaseInv.reset : Dec.reset.PhaseInv := Dec.phaseInv_iff.2 ⟨rfl, rfl, rfl, by simp [Dec.reset]⟩

/-- What a symbol may change before its block ends is none of what the phase is about. -/
theorem Dec.PhaseInv.moved {v : List Byte} {d d' : Dec} (hd : d.PhaseInv) (hm : Dec.Moved v d d') : d'.PhaseInv := by
  rw [hm.same]
  exact hd

theorem Dec.Moved.fsm_eq {v : List Byte} {d d' : Dec} (hm : Dec.Moved v d d') : d'.fsm = d.fsm := by rw [hm.same]

theorem Dec.afterMcu_fsm_ne_error {d : Dec} (hf : d.fsm = .restart) : d.afterMcu.fsm ≠ .error := by
  rcases Dec.afterMcu_cases d with h | h <;> simp [h, hf]

/-- The end of an MCU stays in RESTART or goes to FINDMARKER, and in both a frame is valid and a scan active (R210). -/
theorem Dec.PhaseInv.afterMcu {d : Dec} (hd : d.PhaseInv) (hf : d.fsm = .restart) : d.afterMcu.PhaseInv := by
  rcases Dec.afterMcu_cases d with h | h <;> rw [h]
  · exact hd
  · rw [Dec.phaseInv_iff, hf] at hd
    simpa [Dec.phaseInv_iff, Fsm.hasFrame, Fsm.hasScan] using hd

/-- SOF_HEADER, after ABORT_FRAME in FRAME: no frame is valid in FRAMEHEADER (R293, R295). -/
theorem Dec.PhaseInv.header {d : Dec} (hd : d.PhaseInv) (hf : d.fsm = .started ∨ d.fsm = .frame) (k : Fin 3)
    (f : SofFields) : ((if d.fsm = .frame then d.abortFrame else d).withHeader k f).PhaseInv := by
  rw [Dec.phaseInv_iff] at hd ⊢
  obtain ⟨ha, hv, hs, he⟩ := hd
  rcases hf with hf | hf <;> rw [hf] at ha hv hs he <;>
    simp [hf, ha, hv, hs, he, Fsm.hasFrame, Fsm.hasScan, Planes.free]

/-- Every unit leaves the registers in line with the STATE it goes to. -/
theorem Dec.Unit.leaves_phaseInv {v : List Byte} {d : Dec} {u : UnitDone} (hd : d.PhaseInv) (h : Dec.Unit v d u) :
    u.Leaves Dec.PhaseInv := by
  cases h with
  | stop => trivial
  | trailing | segment | stuffed => exact hd
  | header k f hf => exact hd.header hf k f
  | soi hf | body _ hf | scan _ _ _ _ _ _ hf | eoi _ _ hf | restart hf | scanEnd _ _ hf =>
    obtain ⟨ha, hv, hs, he⟩ := Dec.phaseInv_iff.1 hd
    rw [hf] at ha hv hs he
    rw [UnitDone.leaves_commit, Dec.phaseInv_iff]
    simp [ha, hv, hs, he, Fsm.hasFrame, Fsm.hasScan, Planes.free, Planes.zero, Dec.startScan, Dec.newScan]
  | symbol hf hs =>
    refine hs.leaves (fun _ hm => hd.moved hm) fun d' o fl hm => ?_
    have hd' : d'.PhaseInv := hd.moved hm
    exact Dec.PhaseInv.afterMcu hd' (hm.fsm_eq.trans hf)

/-- No unit goes to ERROR: only ENTER_ERROR does (R444). -/
theorem Dec.Unit.leaves_no_error {v : List Byte} {d : Dec} {u : UnitDone} (h : Dec.Unit v d u) :
    u.Leaves fun d' => d'.fsm ≠ .error := by
  cases h with
  | stop => trivial
  | trailing hf | stuffed hf => simp [hf]
  | segment _ _ _ _ _ _ _ _ _ hf => rcases hf with hf | hf | hf <;> simp [hf]
  | header | soi | body | scan | eoi | restart | scanEnd => simp [Dec.startScan]
  | symbol hf hs =>
    exact hs.leaves (fun d' hm => by simp [hm.fsm_eq, hf]) fun d' o fl hm =>
      Dec.afterMcu_fsm_ne_error (hm.fsm_eq.trans hf)

/-- Only an MCU unit is left in progress, and STATE is RESTART then (R209). -/
theorem Dec.Unit.cont_restart {v : List Byte} {d d' : Dec} (h : Dec.Unit v d (.cont d')) :
    d.fsm = .restart ∧ d'.fsm = .restart := by
  cases h with
  | stuffed hf => exact ⟨hf, hf⟩
  | symbol hf hs =>
    obtain ⟨d1, hm, h | ⟨o, fl, evs, -, h⟩⟩ := hs <;> cases h
    exact ⟨hf, hm.fsm_eq.trans hf⟩

/-- What `State.PhaseInv` says of the unit in progress: there is one only inside a DECODE in RESTART, and no DECODE is in
progress in ERROR. -/
def State.ProgressInv (s : State) : Prop :=
  (s.snap ≠ none → s.view ≠ none ∧ s.dec.fsm = .restart ∧ s.unitStart.fsm = .restart) ∧
    (s.dec.fsm = .error → s.view = none)

theorem State.phaseInv_iff {s : State} :
    s.PhaseInv ↔ (s.dec.PhaseInv ∧ s.unitStart.PhaseInv) ∧ s.ProgressInv := by
  simp only [State.PhaseInv, State.ProgressInv, and_assoc]

theorem State.ProgressInv.of_snap_none {s : State} (hs : s.snap = none) (he : s.dec.fsm = .error → s.view = none) :
    s.ProgressInv := ⟨fun h => absurd hs h, he⟩

theorem State.ProgressInv.snap_none {s : State} (h : s.ProgressInv) (hv : s.view = none) : s.snap = none := by
  by_contra hs
  exact (h.1 hs).1 hv

/-- Where an MCU unit goes on, it began in RESTART. -/
theorem State.ProgressInv.unitStart_restart {s : State} (h : s.ProgressInv) (hf : s.dec.fsm = .restart) :
    s.unitStart.fsm = .restart := by
  by_cases hs : s.snap = none
  · rwa [State.unitStart_of_none hs]
  · exact (h.1 hs).2.2

/-- Reading a symbol's bits begins the MCU unit, or goes on with it. -/
theorem State.ProgressInv.read {s s0 : State} {v : List Byte} (h : s.ProgressInv) (hv : s.view = some v)
    (hf : s.dec.fsm = .restart) (hr : s.Read s0 v) : s0.ProgressInv ∧ s0.view = some v := by
  obtain ⟨r, k, rfl, -⟩ := hr
  exact ⟨⟨fun _ => ⟨by simp [hv], hf, h.unitStart_restart hf⟩, fun he => by simp [hf] at he⟩, hv⟩

theorem State.ProgressInv.endUnit {s t : State} {v : List Byte} {r : Except UnitStop UnitDone} (h : s.ProgressInv)
    (hv : s.view = some v) (hr : Dec.UnitEnd v s.dec r) (ht : s.endUnit r = .next t) : t.ProgressInv := by
  have hreturn : ∀ d, (s.returnDecode d).ProgressInv := by
    intro d
    rcases State.returnDecode_eq s d with h | h <;> rw [h] <;> exact .of_snap_none rfl fun _ => rfl
  rcases State.endUnit_next ht with ⟨d, evs, rfl, rfl⟩ | ⟨d, rfl, rfl⟩ | ⟨-, rfl⟩ | ⟨-, rfl⟩ | ⟨e, -, rfl⟩
  · exact .of_snap_none rfl fun he => absurd he (hr _ rfl).leaves_no_error
  · obtain ⟨hf, hf'⟩ := (hr _ rfl).cont_restart
    exact ⟨fun _ => ⟨by simp [hv], hf', h.unitStart_restart hf⟩, fun he => by simp [hf'] at he⟩
  · exact hreturn _
  · exact hreturn _
  · exact .of_snap_none rfl fun _ => rfl

theorem State.ProgressInv.unitStep {s t : State} {v : List Byte} (h : s.ProgressInv) (hv : s.view = some v)
    (hu : s.UnitStep t v) : t.ProgressInv := by
  obtain ⟨s0, r, rfl | ⟨hf, hread⟩, ht, hr⟩ := hu
  · exact h.endUnit hv hr ht
  · obtain ⟨h0, hv0⟩ := h.read hv hf hread
    exact h0.endUnit hv0 hr ht

/-- Of the commands only DECODE sets a view, and not in ERROR (R147). -/
theorem State.ProgressInv.call {s t : State} {c : HostCall} (h : s.ProgressInv) (hv : s.view = none)
    (hx : exec c.toInstr s = .next t) : t.ProgressInv := by
  have hs := h.snap_none hv
  rcases exec_call_next hx with ⟨-, hn, hw, -⟩ | ⟨v, more, -, hf, rfl⟩ | ⟨fl, evs, -, hn, hw, -⟩ | ⟨-, -, hn, hw, -⟩
  · exact .of_snap_none (hn.trans hs) fun _ => hw.trans hv
  · exact .of_snap_none rfl fun he => absurd he hf
  · exact .of_snap_none (hn.trans hs) fun _ => hw.trans hv
  · exact .of_snap_none hn fun _ => hw

/-- Settles O56: the registers keep in line with STATE through every unit, and a unit is left in progress only by a symbol. -/
theorem phaseIsKept : Obligations.PhaseIsKept := by
  intro s t hs h
  obtain ⟨hd, hp⟩ := State.phaseInv_iff.1 hs
  refine State.phaseInv_iff.2 ⟨?_, ?_⟩
  · exact step_keeps hd (fun _ _ _ hd hu => hu.leaves_phaseInv hd) (fun d e _ => .enterError d e) .reset
      (fun _ _ _ _ _ _ hd => hd) h
  · obtain ⟨-, ⟨v, hv, hu⟩ | ⟨-, -, rfl⟩ | ⟨c, q, hv, -, hx⟩⟩ := step_next h
    · exact hp.unitStep hv hu
    · exact hp
    · exact State.ProgressInv.call (s := { s with hostq := q }) hp hv hx

end Sys2Proof.Machine
end

section
/-! PROOFS. What no marker changes (R37 to R41, R230, R383, R390). -/

namespace Sys2Proof.Machine

/-- What marker `i` leaves of the registers `d` in `d'`: each table and flag but its own, the predictors and components but
for SOS and RSTn, the planes unless it frees them, and MORE. -/
structure Dec.MarkerFrame (i : Instr) (d d' : Dec) : Prop where
  qt : i ≠ .dqt → d'.qt = d.qt := by exact fun _ => rfl
  ht : i ≠ .dht → d'.htDc = d.htDc ∧ d'.htAc = d.htAc := by exact fun _ => ⟨rfl, rfl⟩
  ri : i ≠ .dri → d'.ri = d.ri := by exact fun _ => rfl
  jfif : i ≠ .app0 → d'.jfif = d.jfif := by exact fun _ => rfl
  adobe : i ≠ .app14 → d'.adobe = d.adobe := by exact fun _ => rfl
  icc : i ≠ .app2 → d'.icc = d.icc := by exact fun _ => rfl
  comp : i ≠ .sos → i ∉ rstMarkers → d'.comp = d.comp := by exact fun _ _ => rfl
  planes : d'.planes.allocated = true → d'.planes = d.planes := by exact fun _ => rfl
  more : d'.more = d.more := by rfl

theorem Dec.MarkerFrame.enterError (i : Instr) (d : Dec) (e : Err) : Dec.MarkerFrame i d (d.enterError e) :=
  { planes := nofun }

/-- The end `r` of a unit leaves what marker `i` leaves. -/
def Dec.MarkerEnd (i : Instr) (d : Dec) (r : Except UnitStop UnitDone) : Prop :=
  ∀ u, r = .ok u → u.Leaves (Dec.MarkerFrame i d)

theorem Dec.MarkerEnd.raise (i : Instr) (d : Dec) (c : Cause) : Dec.MarkerEnd i d (raise c) := by
  intro u h
  cases h

theorem Dec.MarkerEnd.advance (i : Instr) (d : Dec) (n : Nat) : Dec.MarkerEnd i d (commit (d.advance n)) := by
  rintro u ⟨⟩
  exact {}

theorem Dec.MarkerEnd.need {i : Instr} {d : Dec} {v : List Byte} {n : Nat} {r : Except UnitStop UnitDone}
    (h : Dec.MarkerEnd i d r) : Dec.MarkerEnd i d (do d.need v n; r) := by
  intro u hu
  obtain ⟨-, -, hr⟩ := except_bind_ok.1 hu
  exact h u hr

theorem Dec.MarkerEnd.endUnit {i : Instr} {s t : State} {r : Except UnitStop UnitDone} (h : Dec.MarkerEnd i s.dec r)
    (hs : s.snap = none) (ht : s.endUnit r = .next t) : Dec.MarkerFrame i s.dec t.dec := by
  have hu := State.unitStart_of_none hs
  refine State.endUnit_keeps {} ?_ (fun e => ?_) h ht <;> rw [hu]
  · exact {}
  · exact .enterError i s.dec e

/-! ## The handlers -/

theorem Dec.MarkerEnd.skipSegment (i : Instr) (d : Dec) (v : List Byte) : Dec.MarkerEnd i d (d.skipSegment v) := by
  intro u h
  obtain ⟨n, -, rfl⟩ := Dec.skipSegment_ok h
  exact {}

theorem Dec.MarkerEnd.sofHeader (i : Instr) (d : Dec) (k : Fin 3) (v : List Byte) :
    Dec.MarkerEnd i d (d.sofHeader k v) := by
  intro u h
  obtain ⟨f, -, rfl⟩ := Dec.sofHeader_ok h
  rw [UnitDone.leaves_commit]
  split
  · exact { planes := nofun }
  · exact {}

theorem Dec.MarkerEnd.dqt (d : Dec) (v : List Byte) : Dec.MarkerEnd .dqt d (d.dqt v) := by
  intro u h
  obtain ⟨n, q, -, rfl⟩ := Dec.dqt_ok h
  exact { qt := fun hi => absurd rfl hi }

theorem Dec.MarkerEnd.dht (d : Dec) (v : List Byte) : Dec.MarkerEnd .dht d (d.dht v) := by
  intro u h
  obtain ⟨n, p, q, -, rfl⟩ := Dec.dht_ok h
  exact { ht := fun hi => absurd rfl hi }

theorem Dec.MarkerEnd.dri (d : Dec) (v : List Byte) : Dec.MarkerEnd .dri d (d.dri v) := by
  intro u h
  obtain ⟨-, rfl⟩ := Dec.dri_ok h
  exact { ri := fun hi => absurd rfl hi }

theorem Dec.MarkerEnd.app0 (d : Dec) (v : List Byte) : Dec.MarkerEnd .app0 d (d.app0 v) := by
  intro u h
  obtain ⟨n, j, -, rfl⟩ := Dec.app0_ok h
  exact { jfif := fun hi => absurd rfl hi }

theorem Dec.MarkerEnd.app1 (i : Instr) (d : Dec) (cfg : Config) (v : List Byte) : Dec.MarkerEnd i d (d.app1 cfg v) := by
  intro u h
  obtain ⟨n, evs, -, -, rfl⟩ := Dec.app1_ok h
  exact {}

theorem Dec.MarkerEnd.app2 (d : Dec) (v : List Byte) : Dec.MarkerEnd .app2 d (d.app2 v) := by
  intro u h
  obtain ⟨n, c, evs, -, -, rfl⟩ := Dec.app2_ok h
  exact { icc := fun hi => absurd rfl hi }

theorem Dec.MarkerEnd.app14 (d : Dec) (v : List Byte) : Dec.MarkerEnd .app14 d (d.app14 v) := by
  intro u h
  obtain ⟨n, a, -, rfl⟩ := Dec.app14_ok h
  exact { adobe := fun hi => absurd rfl hi }

theorem Dec.MarkerEnd.sos (d : Dec) (v : List Byte) : Dec.MarkerEnd .sos d (d.sos v) := by
  intro u h
  obtain ⟨n, sc, ss, se, ah, al, -, rfl⟩ := Dec.sos_ok h
  exact { comp := fun hi => absurd rfl hi }

theorem Dec.MarkerEnd.eoi (i : Instr) (d : Dec) (cfg : Config) : Dec.MarkerEnd i d (d.eoi cfg) := by
  intro u h
  obtain ⟨fl, evs, -, rfl⟩ := Dec.eoi_ok h
  exact { planes := nofun }

theorem Dec.MarkerEnd.restart {i : Instr} (hi : i ∈ rstMarkers) (d : Dec) : Dec.MarkerEnd i d d.restart := by
  intro u h
  rw [Dec.restart_ok, Except.ok.injEq] at h
  subst h
  exact { comp := fun _ hn => absurd hi hn }

/-! ## The markers -/

theorem State.atMarker_frame {i : Instr} {s t : State} {f g h k : List Byte → Except UnitStop UnitDone}
    (hs : s.snap = none) (hf : ∀ v, Dec.MarkerEnd i s.dec (f v)) (hg : ∀ v, Dec.MarkerEnd i s.dec (g v))
    (hh : ∀ v, Dec.MarkerEnd i s.dec (h v)) (hk : ∀ v, Dec.MarkerEnd i s.dec (k v))
    (ht : s.atMarker f g h k = .next t) : Dec.MarkerFrame i s.dec t.dec := by
  obtain ⟨v, -, ⟨-, h1⟩ | ⟨-, h1⟩ | ⟨-, h1⟩ | ⟨-, -, h1⟩⟩ := State.atMarker_next ht
  · exact (hf v).need.endUnit hs h1
  · exact (hg v).need.endUnit hs h1
  · exact (hh v).need.endUnit hs h1
  · exact (hk v).need.endUnit hs h1

theorem State.atScan_frame {i : Instr} {s t : State} {g : List Byte → Except UnitStop UnitDone} (hs : s.snap = none)
    (hg : ∀ v, Dec.MarkerEnd i s.dec (g v)) (ht : s.atScan g = .next t) : Dec.MarkerFrame i s.dec t.dec :=
  State.atMarker_frame hs (fun _ => .raise i _ _) hg (fun _ => .raise i _ _) (fun _ => .raise i _ _) ht

theorem State.atRst_frame {i : Instr} {s t : State} (hi : i ∈ rstMarkers) (hs : s.snap = none) (ht : s.atRst = .next t) :
    Dec.MarkerFrame i s.dec t.dec :=
  State.atMarker_frame hs (fun _ => .raise i _ _) (fun _ => .advance i _ 2) (fun _ => .restart hi _)
    (fun _ => .raise i _ _) ht

theorem exec_marker_frame {i : Instr} {s t : State} (hi : ctxOf i = .marker) (hs : s.snap = none)
    (h : exec i s = .next t) : Dec.MarkerFrame i s.dec t.dec := by
  cases i
  case tem => exact State.atScan_frame hs (fun _ => .advance _ _ 2) h
  case sof0 | sof1 | sof2 => exact State.atScan_frame hs (fun v => .sofHeader _ _ _ v) h
  case sof3 | sof5 | sof6 | sof7 | sof9 | sof10 | sof11 | sof13 | sof14 | sof15 =>
    exact State.atScan_frame hs (fun _ => .raise _ _ _) h
  case dqt => exact State.atScan_frame hs (.dqt s.dec) h
  case dht => exact State.atScan_frame hs (.dht s.dec) h
  case dri => exact State.atScan_frame hs (.dri s.dec) h
  case app0 => exact State.atScan_frame hs (.app0 s.dec) h
  case app1 => exact State.atScan_frame hs (.app1 _ s.dec s.cfg) h
  case app2 => exact State.atScan_frame hs (.app2 s.dec) h
  case app14 => exact State.atScan_frame hs (.app14 s.dec) h
  case rst0 | rst1 | rst2 | rst3 | rst4 | rst5 | rst6 | rst7 => exact State.atRst_frame (by decide) hs h
  case soi =>
    refine State.atMarker_frame hs (fun v u hu => ?_) (fun _ => .raise _ _ _) (fun _ => .raise _ _ _)
      (fun _ => .raise _ _ _) h
    cases hu
    exact {}
  case res m =>
    refine State.atMarker_frame hs (fun _ => .raise _ _ _) (fun _ => .advance _ _ 1) (fun _ => .advance _ _ 1)
      (fun v u hu => ?_) h
    split at hu
    · cases hu
      exact {}
    · cases hu
  case sos =>
    refine State.atScan_frame hs (fun v => ?_) h
    split
    · exact .sos _ v
    · exact .raise _ _ _
  case eoi =>
    refine State.atScan_frame hs (fun v => ?_) h
    split
    · exact .eoi _ _ _
    · exact .raise _ _ _
  case dcDiff | dcRefineBit | acEob | acZrl | acEobRun | acRunSize | decode | flushProgressive | reset | encInit |
      encScanline | encFinish | mqInitDec | mqDecode | mqResetCtx => cases hi
  -- What is left are the markers of SKIP_SEGMENT (R330).
  all_goals exact State.atScan_frame hs (.skipSegment _ s.dec) h

/-- Settles O33: a marker is a unit of DECODE, so only its handler's registers can change, and each handler writes its own
table or flag. -/
theorem markerFrame : Obligations.MarkerFrame := by
  intro i s t hi hs h
  have hd := exec_marker_frame hi hs h
  obtain ⟨v, r, -, hend, -⟩ := exec_marker_next hi h
  have he := State.endUnit_frame hend
  refine ⟨hd.qt, hd.ht, hd.ri, hd.jfif, hd.adobe, hd.icc, hd.comp, fun ha a => by rw [hd.planes ha],
    fun ha => hd.planes ha ▸ ha, hd.more, ?_, ?_, ?_, ?_, ?_, ?_, ?_⟩ <;> rw [he]

end Sys2Proof.Machine
end

section
/-! PROOFS. Encoding and decoding undo each other, and what the decoder refuses (R101, R102, R115, R116, R122, R200). -/

namespace Sys2Proof

/-! ## Bytes as two nibbles (R118) -/

@[simp] theorem hiNibble_append (r s : BitVec 4) : hiNibble (r ++ s) = r := BitVec.extractLsb'_append_eq_left

@[simp] theorem loNibble_append (r s : BitVec 4) : loNibble (r ++ s) = s := BitVec.extractLsb'_append_eq_right

@[simp] theorem hiNibble_append_loNibble (b : Byte) : hiNibble b ++ loNibble b = b :=
  BitVec.extractLsb'_append_extractLsb' (w := 4)

/-- A byte is known from its two nibbles. -/
theorem byte_eq_iff_nibbles (a b : Byte) : a = b ↔ hiNibble a = hiNibble b ∧ loNibble a = loNibble b := by
  constructor
  · rintro rfl
    exact ⟨rfl, rfl⟩
  · rintro ⟨hh, hl⟩
    rw [← hiNibble_append_loNibble a, hh, hl, hiNibble_append_loNibble]

theorem hiNibble_toNat (b : Byte) : (hiNibble b).toNat = b.toNat / 16 := by
  simp only [hiNibble, BitVec.extractLsb'_toNat, Nat.shiftRight_eq_div_pow]
  omega

/-! ## Markers -/

theorem markerOf_reserved {m : Byte} (h : reservedCode m = true) : markerOf m = some (.res m) := by
  have hm : m.toNat ≠ 1 ∧ m.toNat < 0xC0 := by
    simp only [reservedCode, Bool.or_eq_true, Bool.and_eq_true, beq_iff_eq, decide_eq_true_eq] at h
    bv_omega
  unfold markerOf
  split
  case h_66 => rfl
  all_goals omega

theorem markerOf_some {m : Byte} {i : Instr} (h : markerOf m = some i) :
    i.wf = true ∧ ctxOf i = .marker ∧ encode i = [0xFF, m] := by
  have hb : m = BitVec.ofNat 8 m.toNat := by simp
  unfold markerOf at h
  split at h
  case h_65 => cases h
  case h_66 =>
    cases h
    refine ⟨?_, rfl, rfl⟩
    simp only [Instr.wf, reservedCode, Bool.or_eq_true, Bool.and_eq_true, beq_iff_eq, decide_eq_true_eq,
      imp_false] at *
    bv_omega
  all_goals
    rename_i hm
    rw [hm] at hb
    cases h
    exact ⟨rfl, rfl, by rw [hb]; rfl⟩

theorem decode_marker_garbage {b : Byte} (rest : List Byte) (h : b ≠ 0xFF#8) :
    decode .marker (b :: rest) = .error .garbage := by
  simp [decode, decodeMarker, h]

/-- R101: a marker read is FF and its code. -/
theorem decodeMarker_ok {bs rest : List Byte} {i : Instr} (h : decodeMarker bs = .ok (i, rest)) :
    ∃ m, bs = 0xFF :: m :: rest ∧ markerOf m = some i := by
  unfold decodeMarker at h
  split at h
  · cases h
  · rename_i b bs
    split at h
    · cases h
    · rename_i hb
      obtain rfl : b = 0xFF := by simpa using hb
      split at h
      · cases h
      · rename_i m rest'
        split at h
        · rename_i j hj
          cases h
          exact ⟨m, rfl, hj⟩
        · cases h

/-! ## Symbols -/

/-- R116 by the symbol's two fields. -/
theorem acSymbolOf_nibbles (b : Byte) :
    acSymbolOf b =
      if loNibble b ≠ 0#4 then .acRunSize (hiNibble b) (loNibble b)
      else if hiNibble b = 0#4 then .acEob
      else if hiNibble b = 15#4 then .acZrl
      else .acEobRun (hiNibble b) := by
  have h0 : b = 0x00#8 ↔ hiNibble b = 0#4 ∧ loNibble b = 0#4 := byte_eq_iff_nibbles b 0x00
  have hF : b = 0xF0#8 ↔ hiNibble b = 15#4 ∧ loNibble b = 0#4 := byte_eq_iff_nibbles b 0xF0
  by_cases hs : loNibble b = 0#4 <;> simp [acSymbolOf, h0, hF, hs]

theorem acSymbolOf_wf (b : Byte) : (acSymbolOf b).wf = true := by
  rw [acSymbolOf_nibbles]
  split
  · rename_i hs
    simp only [Instr.wf, decide_eq_true_eq]
    bv_omega
  · split
    · rfl
    · split
      · rfl
      · rename_i h0 hF
        simp only [Instr.wf, Bool.and_eq_true, decide_eq_true_eq]
        bv_omega

theorem encode_acSymbolOf (b : Byte) : encode (acSymbolOf b) = [b] := by
  have hb := hiNibble_append_loNibble b
  suffices encode (acSymbolOf b) = [hiNibble b ++ loNibble b] from this.trans (congrArg (fun x : Byte => [x]) hb)
  rw [acSymbolOf_nibbles]
  split
  · rfl
  · rename_i hs
    rw [not_not.1 hs]
    split
    · rename_i h0
      rw [h0]
      rfl
    · split
      · rename_i hF
        rw [hF]
        rfl
      · rfl

theorem decode_acSymbol_ok {bs rest : List Byte} {i : Instr} (h : decode .acSymbol bs = .ok (i, rest)) :
    ∃ b, i = acSymbolOf b ∧ bs = b :: rest := by
  cases bs with
  | nil => cases h
  | cons b bs =>
    cases h
    exact ⟨b, rfl, rfl⟩

/-- R115, R200: a DC symbol read is a byte of at most 15, so its category after four bits 0. -/
theorem decode_dcSymbol_ok {bs rest : List Byte} {i : Instr} (h : decode .dcSymbol bs = .ok (i, rest)) :
    ∃ t : BitVec 4, i = .dcDiff t ∧ bs = ((0 : BitVec 4) ++ t) :: rest := by
  cases bs with
  | nil => cases h
  | cons b bs =>
    simp only [decode, dcSymbolOf] at h
    split at h
    · rename_i j hj
      split at hj
      · rename_i h0
        cases h
        cases hj
        have hb := hiNibble_append_loNibble b
        rw [beq_iff_eq.1 h0] at hb
        exact ⟨loNibble b, rfl, congrArg (· :: rest) hb.symm⟩
      · cases hj
    · cases h

theorem decode_dcSymbol_above {b : Byte} (rest : List Byte) (h : 16 ≤ b.toNat) :
    decode .dcSymbol (b :: rest) = .error .dcSize := by
  have hh : hiNibble b ≠ 0#4 := by
    have := hiNibble_toNat b
    bv_omega
  simp [decode, dcSymbolOf, hh]

theorem decode_rawBit_ok {bs rest : List Byte} {i : Instr} (h : decode .rawBit bs = .ok (i, rest)) :
    ∃ b, i = .dcRefineBit b ∧ bs = (if b then 1 else 0) :: rest := by
  cases bs with
  | nil => cases h
  | cons x bs =>
    simp only [decode] at h
    split at h
    · rename_i hx
      cases h
      exact ⟨false, rfl, congrArg (· :: rest) (beq_iff_eq.1 hx)⟩
    · split at h
      · rename_i hx
        cases h
        exact ⟨true, rfl, congrArg (· :: rest) (beq_iff_eq.1 hx)⟩
      · cases h

/-! ## Host commands (R122, log 3) -/

theorem toNat_ofNat_of_lt {w n : Nat} (h : n < 2 ^ w) : (BitVec.ofNat w n).toNat = n :=
  (BitVec.toNat_ofNat n w).trans (Nat.mod_eq_of_lt h)

theorem decodeCall_encode_decode {bytes : List Byte} (more : Bool) (rest : List Byte) (h : bytes.length < 2 ^ 32) :
    decodeCall (encode (.decode bytes more) ++ rest) = .ok (.decode bytes more, rest) := by
  cases more <;> simp [encode, decodeCall, bytesOf32, toNat_ofNat_of_lt h, takeBytes_append]

theorem decodeCall_encode_encInit {q : Int} {w h : Nat} (rest : List Byte) (hq : -2 ^ 31 ≤ q) (hq' : q < 2 ^ 31)
    (hw : w < 2 ^ 16) (hh : h < 2 ^ 16) :
    decodeCall (encode (.encInit q w h) ++ rest) = .ok (.encInit q w h, rest) := by
  simp [encode, decodeCall, bytesOf32, bytesOf16, toInt_ofInt_32 hq hq', toNat_ofNat_of_lt hw, toNat_ofNat_of_lt hh]

theorem decodeCall_encode_encScanline {row : List Word} (rest : List Byte) (h : row.length < 2 ^ 32) :
    decodeCall (encode (.encScanline row) ++ rest) = .ok (.encScanline row, rest) := by
  simp [encode, decodeCall, bytesOf32, toNat_ofNat_of_lt h, takeWords_append]

theorem decodeCall_encode_mqInitDec {seg : List Byte} (rest : List Byte) (h : seg.length < 2 ^ 32) :
    decodeCall (encode (.mqInitDec seg) ++ rest) = .ok (.mqInitDec seg, rest) := by
  simp [encode, decodeCall, bytesOf32, toNat_ofNat_of_lt h, takeBytes_append]

theorem decodeCall_encode_mqDecode {cx : Nat} (rest : List Byte) (h : cx < 2 ^ 32) :
    decodeCall (encode (.mqDecode cx) ++ rest) = .ok (.mqDecode cx, rest) := by
  simp [encode, decodeCall, bytesOf32, toNat_ofNat_of_lt h]

theorem decode_call_unknown {b : Byte} (rest : List Byte)
    (h : b ∉ ([0x01, 0x02, 0x03, 0x10, 0x11, 0x12, 0x20, 0x21, 0x22] : List Byte)) :
    decode .call (b :: rest) = .error .unknownCommand := by
  simp only [List.mem_cons, List.not_mem_nil, or_false, not_or] at h
  simp only [decode, decodeCall]
  split
  case h_10 => rfl
  all_goals bv_omega

/-! ## The statements -/

/-- Settles O1, by cases on the instruction: those without operands are read back by evaluation, a symbol by its nibbles,
a command's operands by their fields of the wire form. -/
theorem encodeThenDecode : Obligations.EncodeThenDecode := by
  intro i rest h
  cases i with
  | res m => simp [ctxOf, encode, decode, decodeMarker, markerOf_reserved h]
  | dcDiff t => simp [ctxOf, encode, decode, dcSymbolOf]
  | dcRefineBit b => cases b <;> rfl
  | acEobRun r =>
    simp only [Instr.wf, Bool.and_eq_true, decide_eq_true_eq] at h
    have h0 : r ≠ 0#4 := by bv_omega
    have hF : r ≠ 15#4 := by bv_omega
    simp [ctxOf, encode, decode, acSymbolOf_nibbles, h0, hF]
  | acRunSize r s =>
    simp only [Instr.wf, decide_eq_true_eq] at h
    have h0 : s ≠ 0#4 := by bv_omega
    simp [ctxOf, encode, decode, acSymbolOf_nibbles, h0]
  | decode bytes more => exact decodeCall_encode_decode more rest (of_decide_eq_true h)
  | encInit q w h' =>
    simp only [Instr.wf, Bool.and_eq_true, decide_eq_true_eq] at h
    obtain ⟨⟨⟨hq, hq'⟩, hw⟩, hh⟩ := h
    exact decodeCall_encode_encInit rest hq hq' hw hh
  | encScanline row => exact decodeCall_encode_encScanline rest (of_decide_eq_true h)
  | mqInitDec seg => exact decodeCall_encode_mqInitDec rest (of_decide_eq_true h)
  | mqDecode cx => exact decodeCall_encode_mqDecode rest (of_decide_eq_true h)
  | _ => rfl

/-- Settles O2, by the place: each place's decoder says which bytes it read, and they are the instruction's encoding. -/
theorem decodeThenEncode : Obligations.DecodeThenEncode := by
  intro c bs rest i hc h
  cases c with
  | marker =>
    obtain ⟨m, rfl, hm⟩ := decodeMarker_ok h
    obtain ⟨hw, hk, he⟩ := markerOf_some hm
    exact ⟨hw, hk, congrArg (· ++ rest) he⟩
  | dcSymbol =>
    obtain ⟨t, rfl, rfl⟩ := decode_dcSymbol_ok h
    exact ⟨rfl, rfl, rfl⟩
  | acSymbol =>
    obtain ⟨b, rfl, rfl⟩ := decode_acSymbol_ok h
    exact ⟨acSymbolOf_wf b, Machine.acSymbolOf_ctx b, congrArg (· ++ rest) (encode_acSymbolOf b)⟩
  | rawBit =>
    obtain ⟨b, rfl, rfl⟩ := decode_rawBit_ok h
    exact ⟨rfl, rfl, rfl⟩
  | call => exact absurd rfl hc

/-- Settles O3: the tables' words are evaluated, and each refusal is its place's own. -/
theorem wordsDecodeOrAreRefused : Obligations.WordsDecodeOrAreRefused :=
  ⟨by decide, fun _ => decode_marker_garbage, fun _ => rfl, fun _ => decode_dcSymbol_above, fun _ => decode_call_unknown⟩

end Sys2Proof
end

section
/-! PROOFS. The bit reader: which byte FETCH takes, and that RECEIVE(s) is the next s bits (R113, R175, R176, R177). -/

namespace Sys2Proof.Machine

/-! ## FETCH (R113, R175) -/

/-- Fill bytes are passed over. -/
@[simp] theorem fetchFill_replicate (more : Bool) (bs : List Byte) (n i : Nat) :
    fetchFill more (List.replicate n 0xFF ++ bs) i = fetchFill more bs (i + n) := by
  induction n generalizing i with
  | zero => rfl
  | succ n ih =>
    simp only [List.replicate_succ, List.cons_append, fetchFill, if_true]
    rw [ih]
    congr 1
    omega

theorem fetchByte_data {v rest : List Byte} {r : Rd} {x : Byte} (more : Bool) (h : v.drop r.cur = x :: rest)
    (hx : x ≠ 0xFF) : fetchByte v more r = .ok { cur := r.cur + 1, bb := { val := x, cnt := 8 } } := by
  simp only [fetchByte, h, if_neg hx]

/-- After an FF, the fill and what follows it decide. -/
theorem fetchByte_FF {v bs : List Byte} {r : Rd} {n : Nat} (more : Bool)
    (h : v.drop r.cur = List.replicate (n + 1) 0xFF ++ bs) :
    fetchByte v more r =
      fetchFill more bs (n + 1) >>= fun m => .ok { cur := r.cur + m, bb := { val := 0xFF, cnt := 8 } } := by
  rw [List.replicate_succ, List.cons_append] at h
  simp only [fetchByte, h, if_true, fetchFill_replicate, Nat.add_comm 1 n]

theorem fetchByte_stuffed {v rest : List Byte} {r : Rd} {n : Nat} (more : Bool)
    (h : v.drop r.cur = List.replicate (n + 1) 0xFF ++ 0x00 :: rest) :
    fetchByte v more r = .ok { cur := r.cur + (n + 2), bb := { val := 0xFF, cnt := 8 } } := by
  rw [fetchByte_FF more h]
  rfl

theorem fetchByte_marker {v rest : List Byte} {r : Rd} {n : Nat} {x : Byte} (more : Bool)
    (h : v.drop r.cur = List.replicate (n + 1) 0xFF ++ x :: rest) (hF : x ≠ 0xFF) (h0 : x ≠ 0x00) :
    fetchByte v more r = raise .ecsMarker := by
  rw [fetchByte_FF more h]
  simp only [fetchFill, if_neg hF, if_neg h0]
  rfl

theorem needFails_eq {α : Type} (more : Bool) :
    (needFails more : Except UnitStop α) = .error (if more then .suspend else .raise (.corrupt .eof)) := by
  cases more <;> rfl

theorem fetchByte_end {v : List Byte} {r : Rd} {n : Nat} (more : Bool) (h : v.drop r.cur = List.replicate n 0xFF) :
    fetchByte v more r = needFails more := by
  cases n with
  | zero => simp only [fetchByte, h, List.replicate_zero]
  | succ n =>
    rw [← List.append_nil (List.replicate (n + 1) _)] at h
    rw [fetchByte_FF more h, fetchFill]
    cases more <;> rfl

/-! ## NEXTBIT (R175, R176) -/

/-- With no bit left, NEXTBIT takes the most significant bit of the byte FETCH brings. -/
theorem nextBit_of_fetchByte_ok {v : List Byte} {more : Bool} {cur cur' : Nat} {old x : Byte}
    (h : fetchByte v more { cur := cur, bb := { val := old, cnt := 0 } } =
      .ok { cur := cur', bb := { val := x, cnt := 8 } }) :
    nextBit v more { cur := cur, bb := { val := old, cnt := 0 } } =
      .ok (x.msb, { cur := cur', bb := { val := x, cnt := 7 } }) := by
  simp [nextBit, h, BitVec.msb_eq_getLsbD_last]

theorem nextBit_of_fetchByte_error {v : List Byte} {more : Bool} {cur : Nat} {old : Byte} {e : UnitStop}
    (h : fetchByte v more { cur := cur, bb := { val := old, cnt := 0 } } = .error e) :
    nextBit v more { cur := cur, bb := { val := old, cnt := 0 } } = .error e := by
  simp [nextBit, h]

/-! ## RECEIVE (R177) -/

/-- RECEIVE's loop folds the bits that are read into the number it holds, and ends as the bit reader does. -/
theorem receiveFrom_readBits (v : List Byte) (more : Bool) (s acc : Nat) (r : Rd) :
    receiveFrom v more s acc r =
      readBits v more s r >>= fun (bs, r') => .ok (bs.foldl (fun a b => 2 * a + b.toNat) acc, r') := by
  induction s generalizing acc r with
  | zero => rfl
  | succ s ih =>
    simp only [receiveFrom, readBits]
    cases nextBit v more r with
    | error e => rfl
    | ok p =>
      obtain ⟨b, r1⟩ := p
      simp only [except_ok_bind, ih, Nat.mul_comm acc 2]
      cases readBits v more s r1 <;> rfl

theorem receive_readBits (v : List Byte) (more : Bool) (s : Nat) (r : Rd) :
    receive v more s r = readBits v more s r >>= fun (bs, r') => .ok (bitsValue bs, r') :=
  receiveFrom_readBits v more s 0 r

/-- Settles O42: a bit of the current byte by definition, a fetched one by what FETCH brings, and RECEIVE as a fold over the
bits read. -/
theorem bitsAreRead : Obligations.BitsAreRead := by
  refine ⟨fun _ _ _ _ _ => rfl, fun v rest more cur n old x => ⟨?_, ?_, ?_, ?_⟩, fun v more s r => ⟨?_, ?_⟩⟩
  · exact fun h hx => nextBit_of_fetchByte_ok (fetchByte_data more h hx)
  · exact fun h => nextBit_of_fetchByte_ok (fetchByte_stuffed more h)
  · exact fun h hF h0 => nextBit_of_fetchByte_error (fetchByte_marker more h hF h0)
  · exact fun h => nextBit_of_fetchByte_error ((fetchByte_end more h).trans (needFails_eq more))
  · intro bs r' h
    rw [receive_readBits, h]
    rfl
  · intro e h
    rw [receive_readBits, h]
    rfl

end Sys2Proof.Machine
end

section
/-! PROOFS. Finished is the last event until RESET (R150). -/

namespace Sys2Proof.Machine

@[simp] theorem State.returnDecode_events (s : State) (d : Dec) : (s.returnDecode d).events = s.events := by
  rw [State.returnDecode_frame]

/-- Only a unit that commits delivers events (R14, R84). -/
theorem State.endUnit_events {s t : State} {r : Except UnitStop UnitDone} (h : s.endUnit r = .next t) :
    t.events = s.events ∨
      ∃ d evs, r = .ok (.commit d evs) ∧ t = { s with dec := d, snap := none, events := s.events ++ evs } := by
  rcases State.endUnit_next h with hc | ⟨d, -, rfl⟩ | ⟨-, rfl⟩ | ⟨-, rfl⟩ | ⟨e, -, rfl⟩
  · exact .inr hc
  · exact .inl rfl
  · exact .inl (State.returnDecode_events _ _)
  · exact .inl (State.returnDecode_events _ _)
  · exact .inl rfl

/-- Of all units only EOI delivers Finished, last of its events, and it goes to DONE (R150, R325). -/
theorem Dec.Unit.finished_last {v : List Byte} {d d' : Dec} {evs : List Event} (h : Dec.Unit v d (.commit d' evs)) :
    Event.finished ∉ evs ∨ d'.fsm = .done ∧ ∃ es, evs = es ++ [.finished] ∧ Event.finished ∉ es := by
  cases h with
  | trailing | soi | body | scan | restart => exact .inl List.not_mem_nil
  | header => exact .inl (by simp [sofEvents])
  | segment _ _ _ _ _ _ _ _ _ _ _ he | scanEnd _ _ _ he => exact .inl he
  | eoi fl es _ _ he => exact .inr ⟨rfl, es, rfl, he⟩
  | symbol _ hs =>
    obtain ⟨d1, -, h | ⟨o, fl, es, he, h⟩⟩ := hs
    · cases h
    · cases h
      exact .inl he

theorem State.FinishedInv.of_not_mem {s : State} (h : Event.finished ∉ s.events) : s.FinishedInv :=
  fun hm => absurd hm h

/-- What delivers no event, keeps STATE and begins no unit keeps the invariant. -/
theorem State.FinishedInv.quiet {s t : State} (h : s.FinishedInv) (he : t.events = s.events)
    (hf : t.dec.fsm = s.dec.fsm) (hn : t.snap = s.snap ∨ t.snap = none) : t.FinishedInv := by
  intro hm
  obtain ⟨hd, hs, hl⟩ := h (he ▸ hm)
  exact ⟨hf.trans hd, hn.elim (·.trans hs) id, he ▸ hl⟩

/-- A step before Finished is delivered: only EOI can deliver it. -/
theorem State.UnitStep.finishedInv {s t : State} {v : List Byte} (hs : Event.finished ∉ s.events)
    (h : s.UnitStep t v) : t.FinishedInv := by
  obtain ⟨s0, r, hb, he, hr⟩ := h
  have h0 : s0.events = s.events := by
    rcases hb with rfl | ⟨-, r, k, rfl, -⟩ <;> rfl
  rcases State.endUnit_events he with hq | ⟨d, evs, rfl, rfl⟩
  · exact .of_not_mem (by rwa [hq, h0])
  · rcases (hr _ rfl).finished_last with hn | ⟨hf, es, rfl, hn⟩
    · exact .of_not_mem (by simp [h0, hs, hn])
    · exact fun _ => ⟨hf, rfl, s.events ++ es, by simp [h0], by simp [hs, hn]⟩

/-- A step in DONE delivers nothing and stays there (R146). -/
theorem State.FinishedInv.step_done {s t : State} {v : List Byte} (hs : s.FinishedInv) (hv : s.view = some v)
    (hf : s.dec.fsm = .done) (h : step s = .next t) : t.FinishedInv := by
  rcases Machine.step_done hv hf h with ⟨-, rfl⟩ | rfl
  · refine hs.quiet (State.returnDecode_events _ _) ?_ (.inr ?_) <;> simp [State.returnDecode, hf]
  · exact hs.quiet rfl rfl (.inr rfl)

/-- Of the commands only a flush delivers events, never Finished, and there is no frame to flush in DONE (R153). -/
theorem State.FinishedInv.call {s t : State} {c : HostCall} (hs : s.FinishedInv) (hx : exec c.toInstr s = .next t) :
    t.FinishedInv := by
  rcases exec_call_next hx with ⟨hd, hn, -, he⟩ | ⟨v, more, -, -, rfl⟩ | ⟨fl, evs, hd, hn, -, he, hev, hfl⟩ |
    ⟨-, -, -, -, he⟩
  · exact hs.quiet he (by rw [hd]) (.inl hn)
  · exact hs.quiet rfl rfl (.inr rfl)
  · by_cases hm : Event.finished ∈ s.events
    · have hq : s.dec.flushable = false := by simp [Dec.flushable, (hs hm).1]
      exact hs.quiet (by simp [he, hfl hq]) (by rw [hd]) (.inl hn)
    · exact .of_not_mem (by simp [he, hm, hev])
  · exact .of_not_mem (by simp [he])

/-- Settles O59: after Finished STATE is DONE, where no unit and no command delivers anything; before it only EOI's unit
delivers it, as its last event. -/
theorem finishedIsLast : Obligations.FinishedIsLast := by
  intro s t hs h
  obtain ⟨-, ⟨v, hv, hu⟩ | ⟨-, -, rfl⟩ | ⟨c, q, -, -, hx⟩⟩ := step_next h
  · by_cases hm : Event.finished ∈ s.events
    · exact hs.step_done hv (hs hm).1 h
    · exact hu.finishedInv hm
  · exact hs
  · exact State.FinishedInv.call (s := { s with hostq := q }) hs hx

end Sys2Proof.Machine
end

section
/-! PROOFS. How a DECODE ends: a unit that suspends or raises leaves no trace of itself (R142, R143, R444), and DONE
consumes every byte (R146). -/

namespace Sys2Proof.Machine

@[simp] theorem State.symbolState_returnDecode (s : State) (r : Rd) (k : Nat) (d : Dec) :
    (s.symbolState r k).returnDecode d = s.returnDecode d := rfl

/-- Only the unit of DONE stops (R146). -/
theorem Dec.Unit.stop_done {v : List Byte} {d : Dec} (h : Dec.Unit v d .stop) : d.fsm = .done := by
  cases h with
  | stop hf => exact hf
  | symbol _ hs => obtain ⟨_, -, h | ⟨_, _, _, -, h⟩⟩ := hs <;> cases h

/-- How a step ends a DECODE: it returns from DONE, it suspends, or it raises (R141); bits that were read do not show. -/
theorem State.UnitStep.ended {s t : State} {v : List Byte} (h : s.UnitStep t v) (hv : s.view = some v)
    (ht : t.view = none) :
    s.dec.fsm = .done ∧ t = s.returnDecode s.dec ∨ t = s.returnDecode s.unitStart ∨ ∃ e, t = s.takeError e := by
  obtain ⟨s0, r, hb, he, hr⟩ := h
  have hv0 : s0.view = some v := by
    rcases hb with rfl | ⟨-, r, k, rfl, -⟩ <;> exact hv
  rcases State.endUnit_next he with ⟨d, evs, -, rfl⟩ | ⟨d, -, rfl⟩ | ⟨rfl, rfl⟩ | ⟨-, rfl⟩ | ⟨e, -, rfl⟩
  · exact absurd (hv0.symm.trans ht) (by simp)
  · exact absurd (hv0.symm.trans ht) (by simp)
  · have hf := (hr _ rfl).stop_done
    rcases hb with rfl | ⟨hf', r, k, rfl, -⟩
    · exact .inl ⟨hf, rfl⟩
    · exact absurd (hf'.symm.trans hf) (by decide)
  · rcases hb with rfl | ⟨-, r, k, rfl, -⟩ <;> exact .inr (.inl rfl)
  · rcases hb with rfl | ⟨-, r, k, rfl, -⟩ <;> exact .inr (.inr ⟨e, rfl⟩)

/-- Settles O6: a DECODE is ended by its error, by a suspended unit, or in DONE, where no unit has begun. -/
theorem endedDecodeLeavesNoTrace : Obligations.EndedDecodeLeavesNoTrace := by
  intro s t v hs hv h ht
  obtain ⟨-, ⟨w, hw, hu⟩ | ⟨hn, -, -⟩ | ⟨c, q, hn, -, -⟩⟩ := step_next h
  · obtain rfl : w = v := Option.some.inj (hw.symm.trans hv)
    have hreturn : t = s.returnDecode s.unitStart ∨ ∃ e, t = s.takeError e := by
      rcases hu.ended hv ht with ⟨hf, rfl⟩ | h
      · have hn : s.snap = none := by
          by_contra hn
          exact absurd (hf.symm.trans ((State.phaseInv_iff.1 hs).2.1 hn).2.1) (by decide)
        exact .inl (by rw [State.unitStart_of_none hn])
      · exact h
    rcases hreturn with rfl | he
    · rcases State.returnDecode_eq s s.unitStart with h | h
      · exact .inl ⟨_, h⟩
      · exact .inr (by rw [h, hv]; rfl)
    · exact .inl he
  · exact absurd (hv.symm.trans hn) (by simp)
  · exact absurd (hv.symm.trans hn) (by simp)

/-- Settles O12, by the two cases of TRAILING. -/
theorem doneConsumesEverything : Obligations.DoneConsumesEverything := by
  rintro s v ⟨hv, hf⟩
  have hstep : step s = settle s (s.endUnit (s.dec.trailing v)) := by simp only [step, hv, unitStep_done hf]
  refine ⟨fun hc => ?_, fun hc => ?_⟩
  · have ha : s.dec.avail v ≠ 0 := by unfold Dec.avail; omega
    have hcur : s.dec.cur + s.dec.avail v = v.length := by unfold Dec.avail; omega
    rw [hstep, Dec.trailing, if_neg ha, State.endUnit_quiet, Dec.advance, hcur]
    exact settle_quiet rfl
  · have ha : s.dec.avail v = 0 := by unfold Dec.avail; omega
    have hcount : v.length - s.dec.cur = 0 := by omega
    rw [hstep, Dec.trailing, if_pos ha, State.endUnit_stop, settle_quiet (State.returnDecode_events _ _)]
    simp [State.returnDecode, hf, hv, hcount]

end Sys2Proof.Machine
end

section
/-! PROOFS. The host's commands, and re-entry (R141, R147, R152, R153, R488). -/

namespace Sys2Proof.Machine

/-- A command of the engine, present or not, is refused while a DECODE is in progress. -/
theorem State.atMq_some {s : State} {c : Command} {o : Outcome} (h : s.view ≠ none) : s.atMq c o = .refused .reentry :=
  State.atCall_some h

/-- In ERROR a command of the decoder returns the latched error (R147, R153). -/
theorem State.latched_some {s : State} {c : Command} {e : Err} (h : s.dec.err = some e) :
    s.latched c = .next { s with results := s.results ++ [(c, .err e)] } := by
  simp only [State.latched, h]
  rfl

/-- Settles O13: every command's meaning begins with the refusal, and the step's `settle` refuses what delivers. -/
theorem reentryRefused : Obligations.ReentryRefused := by
  refine ⟨fun i c s hi hv => ?_, fun s t hr h => (step_next h).1 hr⟩
  cases i
  case decode | flushProgressive | reset | encInit | encScanline | encFinish => exact State.atCall_some hv
  case mqInitDec | mqDecode | mqResetCtx => exact State.atMq_some hv
  all_goals cases hi

/-- Settles O10, by the branches of the two commands. -/
theorem decodeBeginsOrReturnsError : Obligations.DecodeBeginsOrReturnsError := by
  refine ⟨fun s v more e hv hf he => ⟨?_, ?_⟩, fun s v more hv hf => ?_, fun s hv hf hfl => ?_⟩
  · exact (State.atCall_none hv).trans ((if_pos hf).trans (State.latched_some he))
  · exact (State.atCall_none hv).trans ((if_pos hf).trans (State.latched_some he))
  · exact (State.atCall_none hv).trans (if_neg hf)
  · exact (State.atCall_none hv).trans ((if_neg hf).trans (if_neg (by simp [hfl])))

end Sys2Proof.Machine
end

section
/-! PROOFS. FLUSH_PROGRESSIVE's rows and answers (R151, R153, R372). -/

namespace Sys2Proof.Machine

/-- One more MCU row before the rows that follow it. -/
theorem Dec.flatMap_mcuRowLines_succ (d : Dec) (cfg : Config) (n m : Nat) :
    (List.range (n + 1)).flatMap (fun j => d.mcuRowLines cfg (m + j)) =
      d.mcuRowLines cfg m ++ (List.range n).flatMap fun j => d.mcuRowLines cfg (m + 1 + j) := by
  simp only [List.range_succ_eq_map, List.flatMap_cons, List.flatMap_map, Nat.add_zero, Nat.succ_eq_add_one,
    Nat.add_right_comm m 1, Nat.add_assoc]

/-- While the answers taken are true, a flush emits every row, and the answers after them stay. -/
theorem Dec.flushFrom_all (d : Dec) (cfg : Config) (n m : Nat) (ans : List Bool) (h : ∀ a ∈ ans.take n, a = true) :
    d.flushFrom cfg true n m true ans =
      { flush := { row := 0, pending := false }
        events := (List.range n).flatMap fun j => d.mcuRowLines cfg (m + j)
        answers := ans.drop n } := by
  induction n generalizing m ans with
  | zero => rfl
  | succ n ih =>
    rw [Dec.flatMap_mcuRowLines_succ]
    cases ans with
    | nil => simp [Dec.flushFrom, ih (m + 1) [] (by simp)]
    | cons a as =>
      obtain rfl : a = true := h a List.mem_cons_self
      simp [Dec.flushFrom, ih (m + 1) as fun b hb => h b (List.mem_cons_of_mem _ hb)]

/-- A false answer after `n` true ones ends a flush after `n` rows, the next row pending. -/
theorem Dec.flushFrom_stopped (d : Dec) (cfg : Config) (n k m : Nat) (rest : List Bool) (h : n < k) :
    d.flushFrom cfg true k m true (List.replicate n true ++ false :: rest) =
      { flush := { row := m + n, pending := true }
        events := (List.range n).flatMap fun j => d.mcuRowLines cfg (m + j)
        answers := rest } := by
  induction n generalizing k m with
  | zero =>
    obtain ⟨k, rfl⟩ := Nat.exists_eq_add_of_lt h
    simp [Dec.flushFrom]
  | succ n ih =>
    obtain ⟨k, rfl⟩ : ∃ j, k = j + 1 := ⟨k - 1, by omega⟩
    rw [Dec.flatMap_mcuRowLines_succ]
    simp [Dec.flushFrom, List.replicate_succ, ih k (m + 1) (by omega), Nat.add_assoc, Nat.add_comm 1 n]

/-- The first row of a flush is emitted without a question (R372). -/
theorem Dec.flushFrom_first (d : Dec) (cfg : Config) (n m : Nat) (ans : List Bool) :
    d.flushFrom cfg true (n + 1) m false ans =
      { d.flushFrom cfg true n (m + 1) true ans with
        events := d.mcuRowLines cfg m ++ (d.flushFrom cfg true n (m + 1) true ans).events } := rfl

theorem Dec.progressiveFlush_all (d : Dec) (cfg : Config) (start : Nat) (ans : List Bool)
    (h : ∀ a ∈ ans.take (d.mcuy - start - 1), a = true) :
    d.progressiveFlush cfg start true ans =
      { flush := { row := 0, pending := false }
        events := (List.range (d.mcuy - start)).flatMap fun j => d.mcuRowLines cfg (start + j)
        answers := ans.drop (d.mcuy - start - 1) } := by
  unfold Dec.progressiveFlush
  cases hn : d.mcuy - start with
  | zero => rfl
  | succ n =>
    rw [hn] at h
    rw [Dec.flushFrom_first, Dec.flatMap_mcuRowLines_succ, Dec.flushFrom_all d cfg n _ ans h]
    rfl

theorem Dec.progressiveFlush_stopped (d : Dec) (cfg : Config) (start n : Nat) (rest : List Bool)
    (h : n + 1 < d.mcuy - start) :
    d.progressiveFlush cfg start true (List.replicate n true ++ false :: rest) =
      { flush := { row := start + n + 1, pending := true }
        events := (List.range (n + 1)).flatMap fun j => d.mcuRowLines cfg (start + j)
        answers := rest } := by
  obtain ⟨k, hk⟩ : ∃ k, d.mcuy - start = k + 1 := ⟨d.mcuy - start - 1, by omega⟩
  unfold Dec.progressiveFlush
  rw [hk, Dec.flushFrom_first, Dec.flatMap_mcuRowLines_succ, Dec.flushFrom_stopped d cfg n k _ rest (by omega),
    Nat.add_right_comm start 1 n]

/-- What FLUSH_PROGRESSIVE answers for a frame that can be rendered (R153). -/
theorem execFlushProgressive_flush {s : State} (hv : s.view = none) (hf : s.dec.fsm ≠ .error)
    (hfl : s.dec.flushable = true) (hr : s.dec.canRender) {f : Flushed}
    (h : s.dec.progressiveFlush s.cfg (if s.dec.flush.pending then s.dec.flush.row else 0) true s.answers = f) :
    execFlushProgressive s = .next { s with
      dec := { s.dec with flush := f.flush }
      events := s.events ++ f.events
      answers := f.answers
      results := s.results ++ [(.flushProgressive, .ok)] } := by
  subst h
  unfold execFlushProgressive
  rw [State.atCall_none hv, if_neg hf, if_pos hfl, State.flushNow, Dec.renderable_ok hr.1 hr.2]

/-- Settles O11: the first row without a question, and then by induction on the rows, or on the true answers. -/
theorem flushEmitsRows : Obligations.FlushEmitsRows := by
  rintro s start left hv hf hfl hr rfl rfl
  refine ⟨fun h => ?_, fun n rest hans hn => ?_⟩
  · exact execFlushProgressive_flush hv hf hfl hr (Dec.progressiveFlush_all _ _ _ _ h)
  · exact execFlushProgressive_flush hv hf hfl hr (hans ▸ Dec.progressiveFlush_stopped _ _ _ n rest hn)

end Sys2Proof.Machine
end

section
/-! PROOFS. A step runs the decoded instruction (R141, R209, R281, R282, R284, R318). -/

namespace Sys2Proof.Machine

theorem step_of_fetch_run {s s0 : State} {v : List Byte} {i : Instr} (hv : s.view = some v)
    (h : s.fetch v = .run i s0) : step s = settle s (exec i s0) := by
  simp only [step, hv, State.unitStep, h]

/-- A marker that decodes has its two bytes in the view. -/
theorem Dec.two_le_avail_of_decode {d : Dec} {v rest : List Byte} {i : Instr}
    (h : decode .marker (v.drop d.cur) = .ok (i, rest)) : 2 ≤ d.avail v := by
  obtain ⟨m, hm, -⟩ := decodeMarker_ok h
  have hl := congrArg List.length hm
  simp only [List.length_drop, List.length_cons] at hl
  unfold Dec.avail
  omega

/-- Where STATE selects a unit that reads a marker, the marker at `CUR` is fetched (R282, R284, R318). -/
theorem State.fetch_marker {s : State} {v rest : List Byte} {i : Instr}
    (hf : s.dec.fsm = .none ∨ s.dec.fsm = .started ∨ s.dec.fsm = .frame ∨ s.dec.fsm = .findMarker)
    (h : decode .marker (v.drop s.dec.cur) = .ok (i, rest)) : s.fetch v = .run i s := by
  have hsoi : s.fetchSoi v = .run i s := by
    simp only [State.fetchSoi, Dec.need_ok (Dec.two_le_avail_of_decode h), Dec.rest, h]
  have hmarker : s.fetchMarker v = .run i s := by simp only [State.fetchMarker, Dec.rest, h]
  rcases hf with hf | hf | hf | hf <;> simp only [State.fetch, hf, hsoi, hmarker]

theorem decode_dcSymbol_of_le {b : Byte} (rest : List Byte) (h : b.toNat ≤ 15) :
    decode .dcSymbol (b :: rest) = .ok (.dcDiff (loNibble b), rest) := by
  have hh : hiNibble b = 0#4 := by
    have := hiNibble_toNat b
    bv_omega
  simp [decode, dcSymbolOf, hh]

theorem State.fetchDc_run {s : State} {v : List Byte} {b : BlockRef} {sym : Byte} {r : Rd}
    (h : decodeSym v s.dec.more (s.dec.htDc.get b.sc.td) s.dec.rd = .ok (sym, r)) (hs : sym.toNat ≤ 15) :
    s.fetchDc v b = .run (.dcDiff (loNibble sym)) (s.symbolState r 0) := by
  simp only [State.fetchDc, h, decode_dcSymbol_of_le [] hs]

theorem State.fetchBit_run {s : State} {v : List Byte} {bit : Bool} {r : Rd}
    (h : nextBit v s.dec.more s.dec.rd = .ok (bit, r)) :
    s.fetchBit v = .run (.dcRefineBit bit) (s.symbolState r 0) := by
  simp only [State.fetchBit, h]

theorem State.fetchAc_run {s : State} {v : List Byte} {b : BlockRef} {k : Nat} {sym : Byte} {r : Rd}
    (hk : k ≤ s.dec.lastK) (h : decodeSym v s.dec.more (s.dec.htAc.get b.sc.ta) s.dec.rd = .ok (sym, r)) :
    s.fetchAc v b k = .run (acSymbolOf sym) (s.symbolState r k) := by
  simp only [State.fetchAc, if_neg (Nat.not_lt.2 hk), h]

/-- Outside an EOB run a band's next symbol stands at Ss or at the index reached (R204, R205). -/
theorem State.fetchBand_eq {s : State} (v : List Byte) (b : BlockRef) {k : Nat}
    (hk : s.dec.prog.k = 0 ∧ s.dec.scan.eobrun = 0 ∧ k = s.dec.scan.ss ∨ s.dec.prog.k = k ∧ k ≠ 0) :
    s.fetchBand v b = s.fetchAc v b k := by
  rcases hk with ⟨h0, he, rfl⟩ | ⟨rfl, hk⟩
  · simp [State.fetchBand, h0, he]
  · simp [State.fetchBand, hk]

/-- With MCUs left in a scan STATE selects the MCU unit (R209). -/
theorem State.fetch_symbol {s : State} {v : List Byte} {b : BlockRef} (h : s.currentBlock = some (v, b)) :
    s.fetch v = s.fetchSymbol v := by
  obtain ⟨-, hf, hm, -⟩ := State.currentBlock_some h
  simp only [State.fetch, hf, if_pos hm]

theorem State.fetch_dc {s : State} {v : List Byte} {b : BlockRef} (h : s.currentBlock = some (v, b))
    (hm : s.dec.scan.mode = .seq ∧ s.dec.prog.k = 0 ∨ s.dec.scan.mode = .dcFirst) : s.fetch v = s.fetchDc v b := by
  obtain ⟨-, -, -, hb⟩ := State.currentBlock_some h
  rcases hm with ⟨hm, hk⟩ | hm
  · simp only [State.fetch_symbol h, State.fetchSymbol, hb, hm, if_pos hk]
  · simp only [State.fetch_symbol h, State.fetchSymbol, hb, hm]

theorem State.fetch_bit {s : State} {v : List Byte} {b : BlockRef} (h : s.currentBlock = some (v, b))
    (hm : s.dec.scan.mode = .dcRefine) : s.fetch v = s.fetchBit v := by
  obtain ⟨-, -, -, hb⟩ := State.currentBlock_some h
  simp only [State.fetch_symbol h, State.fetchSymbol, hb, hm]

theorem State.fetch_ac {s : State} {v : List Byte} {b : BlockRef} {k : Nat} (h : s.currentBlock = some (v, b))
    (hm : s.dec.scan.mode = .seq ∧ s.dec.prog.k = k ∧ k ≠ 0 ∨
      (s.dec.scan.mode = .acFirst ∨ s.dec.scan.mode = .acRefine) ∧
        (s.dec.prog.k = 0 ∧ s.dec.scan.eobrun = 0 ∧ k = s.dec.scan.ss ∨ s.dec.prog.k = k ∧ k ≠ 0)) :
    s.fetch v = s.fetchAc v b k := by
  obtain ⟨-, -, -, hb⟩ := State.currentBlock_some h
  rcases hm with ⟨hm, rfl, h0⟩ | ⟨hm | hm, hp⟩
  · simp only [State.fetch_symbol h, State.fetchSymbol, hb, hm, if_neg h0]
  · simp only [State.fetch_symbol h, State.fetchSymbol, hb, hm, State.fetchBand_eq v b hp]
  · simp only [State.fetch_symbol h, State.fetchSymbol, hb, hm, State.fetchBand_eq v b hp]

/-- Settles O4, place by place: what is fetched there is the decoded instruction, and the step is its `exec`. -/
theorem stepRunsDecodedInstruction : Obligations.StepRunsDecodedInstruction := by
  refine ⟨?marker, ?call, ?dc, ?bit, ?ac⟩
  case marker =>
    intro s v rest i hv hf h
    exact step_of_fetch_run hv (State.fetch_marker hf h)
  case call =>
    intro s c q hv hq
    simp only [step, hv, State.callStep, hq]
  case dc =>
    intro s v b sym r hb hm h hs
    exact step_of_fetch_run (State.currentBlock_some hb).1 ((State.fetch_dc hb hm).trans (State.fetchDc_run h hs))
  case bit =>
    intro s v b bit r hb hm h
    exact step_of_fetch_run (State.currentBlock_some hb).1 ((State.fetch_bit hb hm).trans (State.fetchBit_run h))
  case ac =>
    intro s v b k sym r hb hm hk h
    exact step_of_fetch_run (State.currentBlock_some hb).1 ((State.fetch_ac hb hm).trans (State.fetchAc_run hk h))

end Sys2Proof.Machine
end

section
/-! PROOFS. What reads the view answers the same when more bytes follow in it: the marker handlers (R144, R145, R286). -/

namespace Sys2Proof.Machine

/-- `y` answers what `x` answers, if `x` answers. -/
def SameOk {α : Type} (x y : Except UnitStop α) : Prop := ∀ a, x = .ok a → y = .ok a

theorem SameOk.of_eq {α : Type} {x y : Except UnitStop α} (h : y = x) : SameOk x y := fun _ ha => h.trans ha

theorem SameOk.refl {α : Type} (x : Except UnitStop α) : SameOk x x := fun _ h => h

theorem SameOk.error {α : Type} (e : UnitStop) (y : Except UnitStop α) : SameOk (.error e) y := nofun

theorem SameOk.bind {α β : Type} {x y : Except UnitStop α} {f g : α → Except UnitStop β} (h : SameOk x y)
    (hf : ∀ a, x = .ok a → SameOk (f a) (g a)) : SameOk (x >>= f) (y >>= g) := by
  intro b hb
  obtain ⟨a, ha, hb⟩ := except_bind_ok.1 hb
  exact except_bind_ok.2 ⟨a, h a ha, hf a ha b hb⟩

/-- The guards before a handler's body are the same checks, and the body may use what they say. -/
theorem SameOk.guard {β : Type} {b : Bool} {c : Cause} {x y : Except UnitStop β} (h : b = false → SameOk x y) :
    SameOk (failIf b c >>= fun _ => x) (failIf b c >>= fun _ => y) :=
  SameOk.bind (.refl _) fun _ hb => h (failIf_ok_iff.1 hb)

/-! ## Reading the view (R12) -/

section
variable {d : Dec} {v : List Byte} (w : List Byte)

theorem Dec.avail_append : d.avail v ≤ d.avail (v ++ w) := by
  simp only [Dec.avail, List.length_append]
  omega

theorem Dec.inp_append {i : Nat} (h : i < d.avail v) : d.inp (v ++ w) i = d.inp v i := by
  unfold Dec.avail at h
  exact List.getD_append _ _ _ _ (by omega)

theorem Dec.be16_append {i : Nat} (h : i + 1 < d.avail v) : d.be16 (v ++ w) i = d.be16 v i := by
  rw [Dec.be16, Dec.inp_append w (Nat.lt_of_succ_lt h), Dec.inp_append w h, Dec.be16]

theorem Dec.slice_append {i n : Nat} (h : i + n ≤ d.avail v) : d.slice (v ++ w) i n = d.slice v i n := by
  unfold Dec.avail at h
  rcases Nat.eq_zero_or_pos n with rfl | hn
  · simp [Dec.slice]
  · rw [Dec.slice, List.drop_append_of_le_length (by omega), List.take_append_of_le_length, Dec.slice]
    rw [List.length_drop]
    omega

theorem Dec.need_append (n : Nat) : SameOk (d.need v n) (d.need (v ++ w) n) := fun _ h =>
  Dec.need_ok (Nat.le_trans (Dec.need_ok_iff.1 h) (Dec.avail_append w))

theorem Dec.preamble_append (n : Nat) (c : Cause) : SameOk (d.preamble v n c) (d.preamble (v ++ w) n c) := by
  intro lx h
  obtain ⟨hx, h2, hn, ha⟩ := Dec.preamble_ok_iff.1 h
  rw [← Dec.be16_append w (by omega)] at hx
  exact Dec.preamble_ok hx h2 hn (Nat.le_trans ha (Dec.avail_append w))

/-- After SEGMENT_PREAMBLE the whole segment is in the view (R286). -/
theorem SameOk.preamble {n : Nat} {c : Cause} {f g : Nat → Except UnitStop UnitDone}
    (h : ∀ lx, 2 ≤ lx → n ≤ lx → 2 + lx ≤ d.avail v → SameOk (f lx) (g lx)) :
    SameOk (d.preamble v n c >>= f) (d.preamble (v ++ w) n c >>= g) := by
  refine SameOk.bind (Dec.preamble_append w n c) fun lx hx => ?_
  obtain ⟨-, h2, hn, ha⟩ := Dec.preamble_ok_iff.1 hx
  exact h lx h2 hn ha

/-- The identifier of an application segment long enough to hold it (R320 to R323). -/
theorem Dec.identifier_append {lx k n : Nat} {id : List Byte} (ha : 2 + lx ≤ d.avail v) (hn : 4 + n ≤ 2 + k) :
    (k ≤ lx ∧ d.slice (v ++ w) 4 n = id) = (k ≤ lx ∧ d.slice v 4 n = id) := by
  refine propext (and_congr_right fun hk => ?_)
  rw [Dec.slice_append w (by omega)]

/-! ## Segments (R300 to R305, R320 to R330) -/

theorem Dec.skipSegment_append : SameOk (d.skipSegment v) (d.skipSegment (v ++ w)) :=
  SameOk.preamble w fun _ _ _ _ => .refl _

theorem Dec.app0_append : SameOk (d.app0 v) (d.app0 (v ++ w)) := by
  refine SameOk.preamble w fun lx _ _ ha => SameOk.of_eq ?_
  simp only [Dec.identifier_append w ha (by omega : 4 + 5 ≤ 2 + 16)]
  split
  · rename_i h
    have hj : d.readJfif (v ++ w) = d.readJfif v := by
      unfold Dec.readJfif
      rw [Dec.be16_append w, Dec.be16_append w, Dec.be16_append w, Dec.inp_append w, Dec.inp_append w, Dec.inp_append w] <;>
        omega
    rw [hj]
  · rfl

theorem Dec.app1_append (cfg : Config) : SameOk (d.app1 cfg v) (d.app1 cfg (v ++ w)) := by
  refine SameOk.preamble w fun lx _ _ ha => SameOk.of_eq ?_
  simp only [Dec.identifier_append w ha (by omega : 4 + 6 ≤ 2 + 8)]
  split
  · rw [Dec.slice_append w (by omega)]
  · rfl

theorem Dec.app2_append : SameOk (d.app2 v) (d.app2 (v ++ w)) := by
  refine SameOk.preamble w fun lx _ _ ha => SameOk.of_eq ?_
  simp only [Dec.identifier_append w ha (by omega : 4 + 12 ≤ 2 + 16)]
  split
  · rw [Dec.inp_append w (by omega), Dec.inp_append w (by omega), Dec.slice_append w (by omega)]
  · rfl

theorem Dec.app14_append : SameOk (d.app14 v) (d.app14 (v ++ w)) := by
  refine SameOk.preamble w fun lx _ _ ha => SameOk.of_eq ?_
  simp only [Dec.identifier_append w ha (by omega : 4 + 5 ≤ 2 + 14)]
  split
  · rw [Dec.inp_append w (by omega)]
  · rfl

theorem Dec.dqt_append : SameOk (d.dqt v) (d.dqt (v ++ w)) := by
  refine SameOk.preamble w fun lx _ _ ha => SameOk.of_eq ?_
  rw [Dec.slice_append w (by omega)]

theorem Dec.dht_append : SameOk (d.dht v) (d.dht (v ++ w)) := by
  refine SameOk.preamble w fun lx _ _ ha => SameOk.of_eq ?_
  rw [Dec.slice_append w (by omega)]

theorem Dec.dri_append : SameOk (d.dri v) (d.dri (v ++ w)) := by
  refine SameOk.preamble w fun lx _ _ ha => SameOk.guard fun hx => SameOk.of_eq ?_
  obtain rfl : lx = 4 := by simpa using hx
  rw [Dec.be16_append w (by omega)]

/-! ## Scan and frame headers (R293, R294, R310) -/

theorem Dec.readSelectors_append {n j : Nat} (before : List ScanComp) (h : 5 + 2 * (j + n) ≤ d.avail v) :
    d.readSelectors (v ++ w) n j before = d.readSelectors v n j before := by
  induction n generalizing j before with
  | zero => rfl
  | succ n ih =>
    have ih' := fun b => ih (j := j + 1) b (by omega)
    simp only [Dec.readSelectors, Dec.inp_append w (by omega : 5 + 2 * j < d.avail v),
      Dec.inp_append w (by omega : 6 + 2 * j < d.avail v), ih']

theorem Dec.sos_append : SameOk (d.sos v) (d.sos (v ++ w)) := by
  refine SameOk.preamble w fun ls _ h8 ha => ?_
  rw [Dec.inp_append w (by omega)]
  refine SameOk.guard fun _ => SameOk.guard fun hs => SameOk.of_eq ?_
  have hls : ls = 6 + 2 * (d.inp v 4).toNat := by simpa using hs
  rw [Dec.readSelectors_append w [] (by omega), Dec.inp_append w (by omega), Dec.inp_append w (by omega),
    Dec.inp_append w (by omega)]

theorem Dec.readSof_append : SameOk (d.readSof v) (d.readSof (v ++ w)) := by
  refine SameOk.bind (Dec.need_append w 4) fun _ h4 => ?_
  have h4 := Dec.need_ok_iff.1 h4
  rw [Dec.be16_append w (by omega)]
  refine SameOk.guard fun _ => SameOk.bind (Dec.need_append w 10) fun _ h10 => SameOk.of_eq ?_
  have h10 := Dec.need_ok_iff.1 h10
  rw [Dec.inp_append w (by omega), Dec.inp_append w (by omega), Dec.be16_append w (by omega),
    Dec.be16_append w (by omega)]

theorem Dec.sofHeader_append (k : Fin 3) : SameOk (d.sofHeader k v) (d.sofHeader k (v ++ w)) :=
  SameOk.bind (Dec.readSof_append w) fun _ _ => .refl _

theorem Dec.readComp_append {i : Nat} (before : List Comp) (h : 3 * (i + 1) ≤ d.avail v) :
    d.readComp (v ++ w) i before = d.readComp v i before := by
  simp only [Dec.readComp, Dec.inp_append w (by omega : 3 * i < d.avail v),
    Dec.inp_append w (by omega : 3 * i + 1 < d.avail v), Dec.inp_append w (by omega : 3 * i + 2 < d.avail v)]

theorem Dec.readComps_append {n i : Nat} (before : List Comp) (h : 3 * (i + n) ≤ d.avail v) :
    d.readComps (v ++ w) n i before = d.readComps v n i before := by
  induction n generalizing i before with
  | zero => rfl
  | succ n ih =>
    have ih' := fun b => ih (i := i + 1) b (by omega)
    simp only [Dec.readComps, Dec.readComp_append w before (by omega : 3 * (i + 1) ≤ d.avail v), ih']

theorem Dec.sofBody_append (cfg : Config) : SameOk (d.sofBody cfg v) (d.sofBody cfg (v ++ w)) := by
  refine SameOk.bind (Dec.need_append w _) fun _ h => SameOk.of_eq ?_
  have h := Dec.need_ok_iff.1 h
  rw [Dec.readComps_append w [] (by omega)]

end

end Sys2Proof.Machine
end

section
/-! PROOFS. The bit reader and the symbols answer the same when more bytes follow in the view (R175 to R181, R200 to
R206). -/

namespace Sys2Proof.Machine

/-! ## The bit reader -/

/-- What stands at the cursor is followed by the bytes that were added. -/
theorem drop_append_of_cons {v rest : List Byte} {n : Nat} {b : Byte} (w : List Byte) (h : v.drop n = b :: rest) :
    (v ++ w).drop n = b :: (rest ++ w) := by
  have hn : n ≤ v.length := by
    by_contra hn
    rw [List.drop_eq_nil_of_le (by omega)] at h
    cases h
  rw [List.drop_append_of_le_length hn, h, List.cons_append]

theorem needFails_sameOk {α : Type} (more : Bool) (y : Except UnitStop α) : SameOk (needFails more) y := by
  rw [needFails_eq]
  exact .error _ _

theorem fetchFill_append (more : Bool) (bs w : List Byte) (i : Nat) :
    SameOk (fetchFill more bs i) (fetchFill more (bs ++ w) i) := by
  induction bs generalizing i with
  | nil => exact needFails_sameOk more _
  | cons m bs ih =>
    simp only [List.cons_append, fetchFill]
    split
    · exact ih (i + 1)
    · exact .refl _

section
variable {v : List Byte} (w : List Byte) (more : Bool)

theorem fetchByte_append (r : Rd) : SameOk (fetchByte v more r) (fetchByte (v ++ w) more r) := by
  unfold fetchByte
  cases h : v.drop r.cur with
  | nil => exact needFails_sameOk more _
  | cons b rest =>
    rw [drop_append_of_cons w h]
    simp only
    split
    · exact SameOk.bind (fetchFill_append more rest w 1) fun _ _ => .refl _
    · exact .refl _

theorem nextBit_append (r : Rd) : SameOk (nextBit v more r) (nextBit (v ++ w) more r) := by
  unfold nextBit
  split
  · exact SameOk.bind (fetchByte_append w more r) fun _ _ => .refl _
  · exact .refl _

theorem receiveFrom_append (s acc : Nat) (r : Rd) :
    SameOk (receiveFrom v more s acc r) (receiveFrom (v ++ w) more s acc r) := by
  induction s generalizing acc r with
  | zero => exact .refl _
  | succ s ih => exact SameOk.bind (nextBit_append w more r) fun _ _ => ih _ _

theorem receive_append (s : Nat) (r : Rd) : SameOk (receive v more s r) (receive (v ++ w) more s r) :=
  receiveFrom_append w more s 0 r

theorem decodeSymFrom_append (t : HEntry) (fuel code l : Nat) (r : Rd) :
    SameOk (decodeSymFrom v more t fuel code l r) (decodeSymFrom (v ++ w) more t fuel code l r) := by
  induction fuel generalizing code l r with
  | zero => exact .refl _
  | succ fuel ih =>
    refine SameOk.bind (nextBit_append w more r) fun _ _ => ?_
    simp only
    split
    · exact .refl _
    · exact ih _ _ _

theorem decodeSym_append (t : HEntry) (r : Rd) : SameOk (decodeSym v more t r) (decodeSym (v ++ w) more t r) :=
  decodeSymFrom_append w more t 16 0 1 r

end

/-! ## Symbols -/

section
variable {v : List Byte} (w : List Byte) (d : Dec) (cfg : Config) (b : BlockRef)

theorem Dec.seqDc_append (t : Nat) : SameOk (d.seqDc v b t) (d.seqDc (v ++ w) b t) :=
  SameOk.bind (receive_append w _ _ _) fun _ _ => .refl _

theorem Dec.firstDc_append (t : Nat) : SameOk (d.firstDc cfg v b t) (d.firstDc cfg (v ++ w) b t) :=
  SameOk.bind (receive_append w _ _ _) fun _ _ => .refl _

theorem Dec.acCoef_append (r s : Nat) : SameOk (d.acCoef cfg v b r s) (d.acCoef cfg (v ++ w) b r s) :=
  SameOk.guard fun _ => SameOk.bind (receive_append w _ _ _) fun _ _ => .refl _

theorem Dec.firstEob_append (r : Nat) : SameOk (d.firstEob cfg v r) (d.firstEob cfg (v ++ w) r) :=
  SameOk.bind (receive_append w _ _ _) fun _ _ => .refl _

theorem Dec.correct_append (n : Nat) (c : Half) : SameOk (d.correct v b n c) (d.correct (v ++ w) b n c) :=
  SameOk.bind (nextBit_append w _ _) fun _ _ => .refl _

theorem Dec.refineSkip_append (fuel k r : Nat) :
    SameOk (Dec.refineSkip v b fuel k r d) (Dec.refineSkip (v ++ w) b fuel k r d) := by
  induction fuel generalizing k r d with
  | zero => exact .refl _
  | succ fuel ih =>
    refine SameOk.bind (.refl _) fun c _ => ?_
    split
    · exact SameOk.bind (Dec.correct_append w d b _ c) fun d1 _ => ih d1 _ _
    · split
      · exact .refl _
      · exact ih d _ _

theorem Dec.refineRest_append (fuel k : Nat) :
    SameOk (Dec.refineRest v b fuel k d) (Dec.refineRest (v ++ w) b fuel k d) := by
  induction fuel generalizing k d with
  | zero => exact .refl _
  | succ fuel ih =>
    refine SameOk.bind (.refl _) fun c _ => ?_
    simp only
    split
    · exact SameOk.bind (Dec.correct_append w d b _ c) fun d1 _ => ih d1 _
    · exact ih d _

theorem Dec.refineRun_append (r : Nat) (coef : Bool) :
    SameOk (d.refineRun cfg v b r coef) (d.refineRun cfg (v ++ w) b r coef) := by
  have skip (d : Dec) (fuel k : Nat) (f : Nat × Dec → Except UnitStop UnitDone) :
      SameOk (Dec.refineSkip v b fuel k r d >>= f) (Dec.refineSkip (v ++ w) b fuel k r d >>= f) :=
    SameOk.bind (Dec.refineSkip_append w d b fuel k r) fun _ _ => .refl _
  unfold Dec.refineRun
  split
  · exact SameOk.bind (nextBit_append w _ _) fun _ _ => skip _ _ _ _
  · exact skip _ _ _ _

theorem Dec.refineEobBlock_append (k : Nat) :
    SameOk (d.refineEobBlock cfg v b k) (d.refineEobBlock cfg (v ++ w) b k) :=
  SameOk.bind (Dec.refineRest_append w d b _ k) fun _ _ => .refl _

theorem Dec.refineEob_append (r : Nat) : SameOk (d.refineEob cfg v b r) (d.refineEob cfg (v ++ w) b r) :=
  SameOk.bind (receive_append w _ _ _) fun _ _ => Dec.refineEobBlock_append w _ cfg b _

theorem Dec.runBlock_append : SameOk (d.runBlock cfg v b) (d.runBlock cfg (v ++ w) b) := by
  unfold Dec.runBlock
  split
  · exact Dec.refineEobBlock_append w d cfg b _
  · exact .refl _

end

end Sys2Proof.Machine
end

section
/-! PROOFS. A step that does not end the DECODE does the same when more bytes follow in the view (R144, R145, R445). -/

namespace Sys2Proof.Machine

/-- The state with the bytes `w` after its view. -/
def State.moreBytes (s : State) (w : List Byte) : State := { s with view := s.view.map (· ++ w) }

@[simp] theorem State.moreBytes_dec (s : State) (w : List Byte) : (s.moreBytes w).dec = s.dec := rfl
@[simp] theorem State.moreBytes_cfg (s : State) (w : List Byte) : (s.moreBytes w).cfg = s.cfg := rfl

theorem State.moreBytes_of_view {s : State} {v : List Byte} (w : List Byte) (h : s.view = some v) :
    s.moreBytes w = { s with view := some (v ++ w) } := by simp [State.moreBytes, h]

/-- If `o` answers a next state in which the DECODE goes on, then `o'` answers it with the bytes `w` after its view. -/
def SameNext (w : List Byte) (o o' : Outcome) : Prop := ∀ t, o = .next t → t.view ≠ none → o' = .next (t.moreBytes w)

theorem SameNext.fault (w : List Byte) (f : Fault) (o : Outcome) : SameNext w (.fault f) o := by
  intro t h
  cases h

/-- A unit that commits, or an MCU unit that goes on, does so with more bytes after it (R14). -/
theorem SameNext.endUnit {s : State} {w : List Byte} {r r' : Except UnitStop UnitDone} (h : SameOk r r') :
    SameNext w (s.endUnit r) ((s.moreBytes w).endUnit r') := by
  intro t ht hv
  rcases State.endUnit_next ht with ⟨d, evs, hr, rfl⟩ | ⟨d, hr, rfl⟩ | ⟨-, rfl⟩ | ⟨-, rfl⟩ | ⟨e, -, rfl⟩
  · rw [h _ hr]
    rfl
  · rw [h _ hr]
    rfl
  · exact absurd (State.returnDecode_view _ _) hv
  · exact absurd (State.returnDecode_view _ _) hv
  · exact absurd rfl hv

/-! ## Instructions -/

theorem SameNext.atMarker {s : State} (w : List Byte) {f g h k : List Byte → Except UnitStop UnitDone}
    (hf : ∀ v, SameOk (f v) (f (v ++ w))) (hg : ∀ v, SameOk (g v) (g (v ++ w)))
    (hh : ∀ v, SameOk (h v) (h (v ++ w))) (hk : ∀ v, SameOk (k v) (k (v ++ w))) :
    SameNext w (s.atMarker f g h k) ((s.moreBytes w).atMarker f g h k) := by
  have body {f : List Byte → Except UnitStop UnitDone} (hf : ∀ v, SameOk (f v) (f (v ++ w))) (v : List Byte) :
      SameNext w (s.endUnit (s.dec.need v 2 >>= fun _ => f v))
        ((s.moreBytes w).endUnit (s.dec.need (v ++ w) 2 >>= fun _ => f (v ++ w))) :=
    SameNext.endUnit (SameOk.bind (Dec.need_append w 2) fun _ _ => hf v)
  cases hv : s.view with
  | none => simpa only [State.atMarker, hv] using SameNext.fault w _ _
  | some v =>
    have hv' : (s.moreBytes w).view = some (v ++ w) := by simp [State.moreBytes, hv]
    unfold State.atMarker
    rw [hv, hv', State.moreBytes_dec]
    cases s.dec.fsm with
    | none => exact body hf v
    | started | frame => exact body hg v
    | findMarker => exact body hh v
    | restart =>
      simp only
      split
      · exact body hk v
      · exact .fault w _ _
    | frameHeader | done | error => exact .fault w _ _

theorem SameNext.atScan {s : State} (w : List Byte) {g : List Byte → Except UnitStop UnitDone}
    (hg : ∀ v, SameOk (g v) (g (v ++ w))) : SameNext w (s.atScan g) ((s.moreBytes w).atScan g) :=
  .atMarker w (fun _ => .refl _) hg (fun _ => .refl _) (fun _ => .refl _)

theorem SameNext.atRst {s : State} (w : List Byte) : SameNext w s.atRst (s.moreBytes w).atRst :=
  .atMarker w (fun _ => .refl _) (fun _ => .refl _) (fun _ => .refl _) (fun _ => .refl _)

theorem exec_marker_moreBytes {i : Instr} (s : State) (w : List Byte) (hi : ctxOf i = .marker) :
    SameNext w (exec i s) (exec i (s.moreBytes w)) := by
  cases i
  case tem | sof3 | sof5 | sof6 | sof7 | sof9 | sof10 | sof11 | sof13 | sof14 | sof15 | eoi =>
    exact SameNext.atScan w fun _ => .refl _
  case sof0 | sof1 | sof2 => exact SameNext.atScan w fun _ => Dec.sofHeader_append w _
  case dqt => exact SameNext.atScan w fun _ => Dec.dqt_append w
  case dht => exact SameNext.atScan w fun _ => Dec.dht_append w
  case dri => exact SameNext.atScan w fun _ => Dec.dri_append w
  case app0 => exact SameNext.atScan w fun _ => Dec.app0_append w
  case app1 => exact SameNext.atScan w fun _ => Dec.app1_append w _
  case app2 => exact SameNext.atScan w fun _ => Dec.app2_append w
  case app14 => exact SameNext.atScan w fun _ => Dec.app14_append w
  case sos =>
    refine SameNext.atScan w fun v => ?_
    split
    · exact Dec.sos_append w
    · exact .refl _
  case rst0 | rst1 | rst2 | rst3 | rst4 | rst5 | rst6 | rst7 => exact SameNext.atRst w
  case soi | res => exact SameNext.atMarker w (fun _ => .refl _) (fun _ => .refl _) (fun _ => .refl _) (fun _ => .refl _)
  case dcDiff | dcRefineBit | acEob | acZrl | acEobRun | acRunSize | decode | flushProgressive | reset | encInit |
      encScanline | encFinish | mqInitDec | mqDecode | mqResetCtx => cases hi
  -- What is left are the markers of SKIP_SEGMENT (R330).
  all_goals exact SameNext.atScan w fun _ => Dec.skipSegment_append w

theorem State.currentBlock_moreBytes {s : State} {v : List Byte} {b : BlockRef} (w : List Byte)
    (h : s.currentBlock = some (v, b)) : (s.moreBytes w).currentBlock = some (v ++ w, b) := by
  obtain ⟨hv, hf, hm, hb⟩ := State.currentBlock_some h
  simp [State.currentBlock, State.moreBytes, hv, hf, hm, hb]

theorem SameNext.atSymbol {s : State} (w : List Byte) {f g : List Byte → BlockRef → Outcome}
    (h : ∀ v b, SameNext w (f v b) (g (v ++ w) b)) : SameNext w (s.atSymbol f) ((s.moreBytes w).atSymbol g) := by
  intro t ht hv
  obtain ⟨v, b, hb, ht⟩ := State.atSymbol_next ht
  rw [State.atSymbol_some (State.currentBlock_moreBytes w hb)]
  exact h v b t ht hv

theorem exec_symbol_moreBytes {i : Instr} (s : State) (w : List Byte)
    (hi : ctxOf i = .dcSymbol ∨ ctxOf i = .acSymbol ∨ ctxOf i = .rawBit) :
    SameNext w (exec i s) (exec i (s.moreBytes w)) := by
  cases i
  case dcDiff t =>
    refine SameNext.atSymbol w fun v b => ?_
    simp only [State.moreBytes_dec, State.moreBytes_cfg]
    cases s.dec.scan.mode
    · exact .endUnit (Dec.seqDc_append w _ b _)
    · exact .endUnit (Dec.firstDc_append w _ _ b _)
    all_goals exact .fault w _ _
  case dcRefineBit bit =>
    refine SameNext.atSymbol w fun v b => ?_
    simp only [State.moreBytes_dec, State.moreBytes_cfg]
    cases s.dec.scan.mode
    case dcRefine => exact .endUnit (.refl _)
    all_goals exact .fault w _ _
  case acEob =>
    refine SameNext.atSymbol w fun v b => ?_
    simp only [State.moreBytes_dec, State.moreBytes_cfg]
    cases s.dec.scan.mode
    case seq => exact .endUnit (.refl _)
    case acFirst => exact .endUnit (Dec.firstEob_append w _ _ _)
    case acRefine => exact .endUnit (Dec.refineEob_append w _ _ b _)
    all_goals exact .fault w _ _
  case acZrl =>
    refine SameNext.atSymbol w fun v b => ?_
    simp only [State.moreBytes_dec, State.moreBytes_cfg]
    cases s.dec.scan.mode
    case seq | acFirst => exact .endUnit (.refl _)
    case acRefine => exact .endUnit (Dec.refineRun_append w _ _ b _ _)
    all_goals exact .fault w _ _
  case acEobRun r =>
    refine SameNext.atSymbol w fun v b => ?_
    simp only [State.moreBytes_dec, State.moreBytes_cfg]
    cases s.dec.scan.mode
    case seq => exact .endUnit (.refl _)
    case acFirst => exact .endUnit (Dec.firstEob_append w _ _ _)
    case acRefine => exact .endUnit (Dec.refineEob_append w _ _ b _)
    all_goals exact .fault w _ _
  case acRunSize r z =>
    refine SameNext.atSymbol w fun v b => ?_
    simp only [State.moreBytes_dec, State.moreBytes_cfg]
    cases s.dec.scan.mode
    case seq | acFirst => exact .endUnit (Dec.acCoef_append w _ _ b _ _)
    case acRefine =>
      refine .endUnit ?_
      split
      · exact Dec.refineRun_append w _ _ b _ _
      · exact .refl _
    all_goals exact .fault w _ _
  all_goals (exfalso; revert hi; simp [ctxOf])

/-! ## Fetching -/

/-- Where bytes are no marker, and do not end too early, the first is not FF or the first two are FF FF (R284). -/
theorem decodeMarker_error {bs : List Byte} {e : DecodeError} (h : decode .marker bs = .error e) (he : e ≠ .needMore) :
    (∃ b rest, bs = b :: rest ∧ b ≠ 0xFF ∧ e = .garbage) ∨
      ∃ m rest, bs = 0xFF :: m :: rest ∧ markerOf m = none ∧ e = .fill := by
  simp only [decode] at h
  unfold decodeMarker at h
  split at h
  · cases h
    exact absurd rfl he
  · rename_i b bs
    split at h
    · rename_i hb
      cases h
      exact .inl ⟨b, bs, rfl, by simpa using hb, rfl⟩
    · rename_i hb
      obtain rfl : b = 0xFF := by simpa using hb
      split at h
      · cases h
        exact absurd rfl he
      · split at h
        · cases h
        · cases h
          exact .inr ⟨_, _, rfl, ‹_›, rfl⟩

section
variable {d : Dec} {v : List Byte} (w : List Byte)

theorem Dec.decode_append {rest : List Byte} {i : Instr} (h : decode .marker (d.rest v) = .ok (i, rest)) :
    decode .marker (d.rest (v ++ w)) = .ok (i, rest ++ w) := by
  obtain ⟨m, hr, hm⟩ := decodeMarker_ok h
  rw [Dec.rest, drop_append_of_cons w hr]
  simp [decode, decodeMarker, hm]

theorem Dec.decode_append_error {e : DecodeError} (h : decode .marker (d.rest v) = .error e) (he : e ≠ .needMore) :
    decode .marker (d.rest (v ++ w)) = .error e := by
  obtain ⟨b, rest, hr, hb, rfl⟩ | ⟨m, rest, hr, hm, rfl⟩ := decodeMarker_error h he
  · rw [Dec.rest, drop_append_of_cons w hr]
    exact decode_marker_garbage _ hb
  · rw [Dec.rest, drop_append_of_cons w hr]
    simp [decode, decodeMarker, hm]

end

/-- `y` is what is fetched when the bytes `w` follow in the view, and `x` without them, if what `x` does lets the DECODE go
on. -/
inductive Fetched.More (w : List Byte) : Fetched → Fetched → Prop
  /-- The same instruction. -/
  | run (i : Instr) (s : State) : Fetched.More w (.run i s) (.run i (s.moreBytes w))
  /-- A unit that fetches no instruction. -/
  | ends {r r' : Except UnitStop UnitDone} (h : SameOk r r') : Fetched.More w (.ends r) (.ends r')
  /-- A unit that suspends, raises or faults before it has fetched an instruction. -/
  | stops (e : UnitStop) (y : Fetched) : Fetched.More w (.ends (.error e)) y

section
variable {v : List Byte} (w : List Byte) (s : State) (b : BlockRef)

theorem State.fetchSoi_moreBytes : Fetched.More w (s.fetchSoi v) ((s.moreBytes w).fetchSoi (v ++ w)) := by
  cases h2 : s.dec.need v 2 with
  | error e =>
    simp only [State.fetchSoi, h2]
    exact .stops e _
  | ok u =>
    cases hd : decode .marker (s.dec.rest v) with
    | error e =>
      simp only [State.fetchSoi, h2, hd]
      exact .stops _ _
    | ok p =>
      simp only [State.fetchSoi, h2, hd, State.moreBytes_dec, Dec.need_append w 2 u h2, Dec.decode_append w hd]
      exact .run _ s

theorem State.fetchMarker_moreBytes : Fetched.More w (s.fetchMarker v) ((s.moreBytes w).fetchMarker (v ++ w)) := by
  unfold State.fetchMarker
  rw [State.moreBytes_dec]
  cases hd : decode .marker (s.dec.rest v) with
  | ok p =>
    rw [Dec.decode_append w hd]
    exact .run _ s
  | error e =>
    by_cases he : e = .needMore
    · subst he
      rw [needFails_eq]
      exact .stops _ _
    · rw [Dec.decode_append_error w hd he]
      simp only
      exact .ends (.refl _)

theorem State.fetchDc_moreBytes : Fetched.More w (s.fetchDc v b) ((s.moreBytes w).fetchDc (v ++ w) b) := by
  cases h : decodeSym v s.dec.more (s.dec.htDc.get b.sc.td) s.dec.rd with
  | error e =>
    simp only [State.fetchDc, h]
    exact .stops e _
  | ok p =>
    simp only [State.fetchDc, h, State.moreBytes_dec, decodeSym_append w _ _ _ _ h]
    split
    · exact .run _ (s.symbolState p.2 0)
    · exact .stops _ _

theorem State.fetchBit_moreBytes : Fetched.More w (s.fetchBit v) ((s.moreBytes w).fetchBit (v ++ w)) := by
  cases h : nextBit v s.dec.more s.dec.rd with
  | error e =>
    simp only [State.fetchBit, h]
    exact .stops e _
  | ok p =>
    simp only [State.fetchBit, h, State.moreBytes_dec, nextBit_append w _ _ _ h]
    exact .run _ (s.symbolState p.2 0)

theorem State.fetchAc_moreBytes (k : Nat) :
    Fetched.More w (s.fetchAc v b k) ((s.moreBytes w).fetchAc (v ++ w) b k) := by
  unfold State.fetchAc
  rw [State.moreBytes_dec]
  split
  · exact .ends (.refl _)
  · cases h : decodeSym v s.dec.more (s.dec.htAc.get b.sc.ta) s.dec.rd with
    | error e => exact .stops e _
    | ok p =>
      rw [decodeSym_append w _ _ _ _ h]
      exact .run _ (s.symbolState p.2 k)

theorem State.fetchBand_moreBytes : Fetched.More w (s.fetchBand v b) ((s.moreBytes w).fetchBand (v ++ w) b) := by
  unfold State.fetchBand
  rw [State.moreBytes_dec]
  split
  · split
    · exact .ends (Dec.runBlock_append w _ _ b)
    · exact State.fetchAc_moreBytes w s b _
  · exact State.fetchAc_moreBytes w s b _

theorem State.fetchSymbol_moreBytes : Fetched.More w (s.fetchSymbol v) ((s.moreBytes w).fetchSymbol (v ++ w)) := by
  unfold State.fetchSymbol
  rw [State.moreBytes_dec]
  cases s.dec.mcuBlocks[s.dec.prog.blk]? with
  | none => exact .ends (.refl _)
  | some b =>
    cases s.dec.scan.mode with
    | seq =>
      simp only
      split
      · exact State.fetchDc_moreBytes w s b
      · exact State.fetchAc_moreBytes w s b _
    | dcFirst => exact State.fetchDc_moreBytes w s b
    | dcRefine => exact State.fetchBit_moreBytes w s
    | acFirst | acRefine => exact State.fetchBand_moreBytes w s b

/-- UNIT() with more bytes after it (R281); DONE is left out, whose unit takes every byte there is (R146). -/
theorem State.fetch_moreBytes (hf : s.dec.fsm ≠ .done) : Fetched.More w (s.fetch v) ((s.moreBytes w).fetch (v ++ w)) := by
  unfold State.fetch
  rw [State.moreBytes_dec]
  cases h : s.dec.fsm with
  | none => exact State.fetchSoi_moreBytes w s
  | started | frame | findMarker => exact State.fetchMarker_moreBytes w s
  | frameHeader => exact .ends (Dec.sofBody_append w _)
  | restart =>
    simp only
    split
    · exact State.fetchSymbol_moreBytes w s
    · exact .ends (.refl _)
  | done => exact absurd h hf
  | error => exact .stops _ _

end

/-! ## The step -/

theorem State.unitStep_moreBytes {s : State} (v w : List Byte) (hf : s.dec.fsm ≠ .done) :
    SameNext w (s.unitStep v) ((s.moreBytes w).unitStep (v ++ w)) := by
  have hm := State.fetch_moreBytes (v := v) w s hf
  have hok := State.fetch_ok s v
  unfold State.unitStep
  revert hm hok
  generalize s.fetch v = x
  generalize (s.moreBytes w).fetch (v ++ w) = y
  rintro (⟨i, s0⟩ | h | ⟨e, y⟩) hok
  · obtain ⟨hi, -⟩ | ⟨hi, -⟩ := hok
    · exact exec_marker_moreBytes s0 w hi
    · exact exec_symbol_moreBytes s0 w hi
  · exact .endUnit h
  · intro t ht hv
    rcases State.endUnit_next ht with ⟨d, evs, h, -⟩ | ⟨d, h, -⟩ | ⟨h, -⟩ | ⟨-, rfl⟩ | ⟨e, -, rfl⟩
    · cases h
    · cases h
    · cases h
    · exact absurd (State.returnDecode_view _ _) hv
    · exact absurd rfl hv

/-- The refusal of re-entry does not look at the view. -/
theorem settle_moreBytes {s t : State} (w : List Byte) {o : Outcome} (h : settle s o = .next t) :
    settle (s.moreBytes w) (.next (t.moreBytes w)) = .next (t.moreBytes w) := by
  have hr := (settle_next h).2
  refine if_neg fun hc => ?_
  obtain ⟨h1, h2⟩ := Bool.and_eq_true_iff.1 hc
  exact absurd (hr h1) (Nat.not_le.2 (of_decide_eq_true h2))

/-- Settles O7: what is fetched and what it does read only bytes they have asked for, which stand where they stood. -/
theorem moreBytesChangeNothing : Obligations.MoreBytesChangeNothing := by
  intro s t v w hv hf h ht
  have hu : s.unitStep v = .next t := by simpa only [hv] using (settle_next h).1
  rw [← State.moreBytes_of_view w hv, ← State.moreBytes_of_view w ht]
  calc
    step (s.moreBytes w) = settle (s.moreBytes w) ((s.moreBytes w).unitStep (v ++ w)) := by
      simp only [step, State.moreBytes, hv, Option.map_some]
    _ = settle (s.moreBytes w) (.next (t.moreBytes w)) := by
      rw [State.unitStep_moreBytes v w hf t hu (by simp [ht])]
    _ = .next (t.moreBytes w) := settle_moreBytes w h

end Sys2Proof.Machine
end

section
/-! PROOFS. How a symbol writes a cell of its block, and what follows the end of a block (R81, R209, R210, R370,
R374). -/

namespace Sys2Proof.Machine

/-! ## Cells of a block (R81) -/

/-- What does not look at the predictors is the same of the components after one is replaced. -/
theorem Dec.withPred_comps_map {α : Type} (f : Comp → α) (hf : ∀ c p, f { c with pred := p } = f c) (d : Dec)
    (i : Fin 4) (x : Half) : (d.withPred i x).comps.map f = d.comps.map f := by
  have hlist : (d.withPred i x).comp.toList.map f = d.comp.toList.map f := by
    match i with
    | 0 | 1 | 2 | 3 => simp [Quad.toList, Quad.set, Quad.get, hf]
  simp only [Dec.comps, List.map_take, hlist, Dec.withPred_frame]

/-- A predictor is no part of the frame's geometry (R36). -/
theorem Dec.withPred_mcux (d : Dec) (i : Fin 4) (x : Half) : (d.withPred i x).mcux = d.mcux := by
  simp only [Dec.mcux, Dec.hmax, Dec.withPred_comps_map Comp.h (fun _ _ => rfl), Dec.withPred_frame]

theorem Dec.withPred_mcuy (d : Dec) (i : Fin 4) (x : Half) : (d.withPred i x).mcuy = d.mcuy := by
  simp only [Dec.mcuy, Dec.vmax, Dec.withPred_comps_map Comp.v (fun _ _ => rfl), Dec.withPred_frame]

/-- A predictor is no part of a component's sampling factors (R35). -/
theorem Dec.withPred_sampling (d : Dec) (i j : Fin 4) (x : Half) :
    ((d.withPred i x).comp.get j).h = (d.comp.get j).h ∧ ((d.withPred i x).comp.get j).v = (d.comp.get j).v := by
  rw [Dec.withPred_comp]
  by_cases h : j = i
  · subst h
    simp
  · simp [Quad.get_set_other _ _ h]

@[simp] theorem Dec.withPred_cellAddr (d : Dec) (i j : Fin 4) (x : Half) (row col n : Nat) :
    (d.withPred i x).cellAddr j row col n = d.cellAddr j row col n := by
  have hbytes : (d.withPred i x).planeBytes = d.planeBytes := by
    funext c
    simp only [Dec.planeBytes, Dec.pbw, Dec.pbh, Dec.withPred_mcux, Dec.withPred_mcuy]
  simp only [Dec.cellAddr, Dec.planeBase, Dec.pbw, Dec.withPred_mcux, (d.withPred_sampling i j x).1, List.map_take,
    hbytes, Dec.withPred_comps_map d.planeBytes (fun _ _ => rfl)]

@[simp] theorem Dec.withPred_inPlane (d : Dec) (i j : Fin 4) (x : Half) (row col n : Nat) :
    (d.withPred i x).inPlane j row col n = d.inPlane j row col n := by
  rw [Dec.inPlane, Dec.pbw, Dec.pbh, Dec.withPred_mcux, Dec.withPred_mcuy, (d.withPred_sampling i j x).1,
    (d.withPred_sampling i j x).2]
  rfl

@[simp] theorem Dec.withRd_inPlane (d : Dec) (r : Rd) (i : Fin 4) (row col n : Nat) :
    (d.withRd r).inPlane i row col n = d.inPlane i row col n := rfl

@[simp] theorem Dec.withRd_cellAddr (d : Dec) (r : Rd) (i : Fin 4) (row col n : Nat) :
    (d.withRd r).cellAddr i row col n = d.cellAddr i row col n := rfl

/-- The registers with the planes' bytes replaced. -/
def Dec.withMem (d : Dec) (m : Memory) : Dec := { d with planes := { d.planes with mem := m } }

@[simp] theorem Dec.withMem_inPlane (d : Dec) (m : Memory) (i : Fin 4) (row col n : Nat) :
    (d.withMem m).inPlane i row col n = d.inPlane i row col n := rfl

@[simp] theorem Dec.withMem_cellAddr (d : Dec) (m : Memory) (i : Fin 4) (row col n : Nat) :
    (d.withMem m).cellAddr i row col n = d.cellAddr i row col n := rfl

section
variable {d : Dec} {b : BlockRef} (h : d.inPlane b.sc.ci b.row b.col 0 = true)
include h

theorem Dec.clearBlock_block :
    d.clearBlock b.sc.ci b.row b.col =
      .ok (d.withMem
        (d.planes.mem.clear (d.cellAddr b.sc.ci b.row b.col 0) (d.cellAddr b.sc.ci b.row b.col 0 + 128))) :=
  Dec.clearBlock_ok_iff.2 ⟨h, rfl⟩

theorem Dec.readBlk_block {n : Nat} (hn : n < 64) :
    d.readBlk b n = .ok (d.planes.mem.readHalf (d.cellAddr b.sc.ci b.row b.col n)) :=
  Dec.readCell_ok_iff.2 ⟨Dec.inPlane_of_block h hn, rfl⟩

theorem Dec.writeBlk_block {n : Nat} (hn : n < 64) (x : Half) :
    d.writeBlk b n x = .ok (d.withMem (d.planes.mem.writeHalf (d.cellAddr b.sc.ci b.row b.col n) x)) :=
  Dec.writeCell_ok_iff.2 ⟨Dec.inPlane_of_block h hn, rfl⟩

end

/-! ## The end of a block and of an MCU (R209, R210) -/

/-- AFTER_MCU by its two conditions (R210). -/
theorem Dec.afterMcu_eq (d : Dec) :
    d.afterMcu =
      { d with fsm := if d.scan.mcu ≠ d.scan.total ∧ d.ri ≠ 0 ∧ d.scan.rstLeft = 0 then .findMarker else d.fsm } := by
  unfold Dec.afterMcu
  split
  · rename_i ht
    rw [if_neg fun h => h.1 ht]
  · rename_i ht
    split
    · rename_i hr
      rw [if_pos ⟨ht, hr⟩]
    · rename_i hr
      rw [if_neg fun h => hr h.2]

/-- The MCU counters are no part of what is rendered (R350). -/
theorem Dec.countMcu_lines (d : Dec) (cfg : Config) (lo hi : Nat) :
    d.countMcu.lines cfg lo hi = d.lines cfg lo hi := by
  have hupsample : d.countMcu.upsample cfg = d.upsample cfg := rfl
  have hpixel : d.countMcu.pixel cfg = d.pixel cfg := by
    funext x y
    simp only [Dec.pixel, hupsample, Dec.countMcu_frame, Dec.countMcu_adobe]
  simp only [Dec.lines, Dec.line, hpixel, Dec.countMcu_frame]

section
variable {s : State} {d : Dec}

theorem State.blockEnd_nextBlock (hb : d.prog.blk + 1 < d.mcuBlocks.length) :
    s.blockEnd d { s with dec := { d with prog := { blk := d.prog.blk + 1, k := 0 } }, snap := some s.unitStart } :=
  (if_pos hb).mpr rfl

variable (hb : ¬d.prog.blk + 1 < d.mcuBlocks.length)
include hb

/-- R374: the MCU's end in a progressive scan. -/
theorem State.blockEnd_progressive (hm : d.scan.mode ≠ .seq) :
    s.blockEnd d
      { s with dec := ({ d.countMcu with flush := { row := 0, pending := false } } : Dec).afterMcu, snap := none } := by
  rw [State.blockEnd, if_neg hb, Dec.afterMcu_eq]
  exact (if_pos hm).mpr rfl

/-- R370: the MCU's end in a sequential scan, with what SEQ_OUTPUT emits. -/
theorem State.blockEnd_sequential (hm : d.scan.mode = .seq) {d' : Dec} {evs : List Event}
    (ho : d.countMcu.seqOutput s.cfg = .ok (d', evs)) :
    s.blockEnd d { s with dec := d'.afterMcu, snap := none, events := s.events ++ evs } := by
  rw [State.blockEnd, if_neg hb, Dec.afterMcu_eq]
  refine (if_neg (not_not.2 hm)).mpr ?_
  simp only [Dec.seqOutput] at ho
  split at ho
  · rename_i hc
    obtain ⟨-, -, ho⟩ := except_bind_ok.1 ho
    cases ho
    rw [Dec.countMcu_lines]
    exact (if_pos hc).mpr rfl
  · rename_i hc
    cases ho
    rw [List.append_nil]
    exact (if_neg hc).mpr rfl

end

/-- The end of a block leads where `State.blockEnd` says, if a sequential frame can be rendered. -/
theorem State.endUnit_blockDone (s : State) {d : Dec} (hr : d.scan.mode = .seq → d.canRender) :
    ∃ u, s.endUnit (d.blockDone s.cfg) = .next u ∧ s.blockEnd d u := by
  by_cases hb : d.prog.blk + 1 < d.mcuBlocks.length
  · rw [Dec.blockDone_more hb]
    exact ⟨_, rfl, State.blockEnd_nextBlock hb⟩
  by_cases hm : d.scan.mode = .seq
  · obtain ⟨ha, hc⟩ := hr hm
    obtain ⟨d', evs, ho⟩ := Dec.seqOutput_ok (d := d.countMcu) (cfg := s.cfg) ha hc
    have hdone : d.blockDone s.cfg = .ok (.commit d'.afterMcu evs) := by
      simp only [Dec.blockDone, if_neg hb, Dec.mcuDone, Dec.countMcu_scan, if_pos hm, ho, except_ok_bind]
    rw [hdone]
    exact ⟨_, rfl, State.blockEnd_sequential hb hm ho⟩
  · rw [Dec.blockDone_progressive hb hm, State.endUnit_commit, List.append_nil]
    exact ⟨_, rfl, State.blockEnd_progressive hb hm⟩

/-- The end of a block in a progressive scan, of mode `m`. -/
theorem State.endUnit_blockDone_progressive (s : State) {d : Dec} {m : ScanMode} (hd : d.scan.mode = m)
    (hm : m ≠ .seq) : ∃ u, s.endUnit (d.blockDone s.cfg) = .next u ∧ s.blockEnd d u :=
  s.endUnit_blockDone fun hseq => absurd (hd.symm.trans hseq) hm

theorem State.blockEnd_events {s u : State} {d : Dec} (hm : d.scan.mode ≠ .seq) (h : s.blockEnd d u) :
    u.events = s.events := by
  simp only [State.blockEnd, if_pos hm] at h
  split at h <;> rw [h]

/-- A progressive block's end delivers nothing, and so it is no re-entry. -/
theorem State.settle_blockDone (s : State) {d : Dec} (hm : d.scan.mode ≠ .seq) :
    ∃ u, settle s (s.endUnit (d.blockDone s.cfg)) = .next u ∧ s.blockEnd d u := by
  obtain ⟨u, hu, hend⟩ := s.endUnit_blockDone_progressive (d := d) rfl hm
  rw [hu, settle_quiet (State.blockEnd_events hm hend)]
  exact ⟨u, rfl, hend⟩

/-- The block's next index leads where `State.indexEnd` says. -/
theorem State.endUnit_nextK (s : State) {d : Dec} (k : Nat) (hr : d.scan.mode = .seq → d.canRender) :
    ∃ u, s.endUnit (d.nextK s.cfg k) = .next u ∧ s.indexEnd d k u := by
  unfold Dec.nextK State.indexEnd
  by_cases hk : k ≤ d.lastK
  · simp only [if_pos hk]
    exact ⟨_, rfl, rfl⟩
  · simp only [if_neg hk]
    exact s.endUnit_blockDone hr

/-! ## Steps that fetch no instruction (R200, R202, R204, R205) -/

theorem step_of_fetch_ends {s : State} {v : List Byte} {r : Except UnitStop UnitDone} (hv : s.view = some v)
    (h : s.fetch v = .ends r) : step s = settle s (s.endUnit r) := by
  simp only [step, hv, State.unitStep, h]

theorem step_of_fetch_raise {s : State} {v : List Byte} {e : Err} (hv : s.view = some v)
    (h : s.fetch v = .ends (.error (.raise e))) : step s = .next (s.takeError e) :=
  (step_of_fetch_ends hv h).trans (settle_quiet rfl)

/-- A block that begins inside an EOB run fetches no symbol (R204, R205). -/
theorem State.fetch_runBlock {s : State} {v : List Byte} {b : BlockRef} (hb : s.currentBlock = some (v, b))
    (hm : s.dec.scan.mode = .acFirst ∨ s.dec.scan.mode = .acRefine) (hk : s.dec.prog.k = 0)
    (hrun : 0 < s.dec.scan.eobrun.toNat) : s.fetch v = .ends (s.dec.runBlock s.cfg v b) := by
  obtain ⟨-, -, -, hblk⟩ := State.currentBlock_some hb
  rcases hm with hm | hm <;>
    simp only [State.fetch_symbol hb, State.fetchSymbol, hblk, hm, State.fetchBand, if_pos hk, if_pos hrun]

end Sys2Proof.Machine
end

section
/-! PROOFS. The symbols of a sequential and of a first progressive scan (R200 to R204). -/

namespace Sys2Proof.Machine

/-! ## The DC symbol of a sequential scan (R200) -/

/-- The planes after a block at `a` is cleared and takes `p` as its DC. -/
def Memory.dcBlock (m : Memory) (a : Nat) (p : Half) : Memory := (m.clear a (a + 128)).writeHalf a p

section
variable {m : Memory} (h : m.wf = true) (a : Nat) (p : Half)
include h

theorem Memory.readHalf_dcBlock_dc : (m.dcBlock a p).readHalf a = p :=
  Memory.readHalf_writeHalf _ _ (Memory.clear_wf _ _ h)

theorem Memory.readHalf_dcBlock_ac {n : Nat} (h0 : 0 < n) (hn : n < 64) : (m.dcBlock a p).readHalf (a + 2 * n) = 0 := by
  rw [Memory.dcBlock, Memory.readHalf_writeHalf_other (Memory.clear_wf _ _ h) (by omega), Memory.readHalf,
    Memory.read_clear _ _ _ h, Memory.read_clear _ _ _ h, if_pos (by omega), if_pos (by omega)]
  rfl

theorem Memory.read_dcBlock_outside {x : Nat} (hx : x < a ∨ a + 128 ≤ x) : (m.dcBlock a p).read x = m.read x := by
  rw [Memory.dcBlock, Memory.read_writeHalf _ _ _ (Memory.clear_wf _ _ h), if_neg (by omega), if_neg (by omega),
    Memory.read_clear _ _ _ h, if_neg (by omega)]

end

/-- R200 with its bits in the view. -/
theorem Dec.seqDc_block {d : Dec} {v : List Byte} {b : BlockRef} {t x : Nat} {r : Rd} {p : Half}
    (h : d.inPlane b.sc.ci b.row b.col 0 = true) (hr : receive v d.more t d.rd = .ok (x, r))
    (hp : p = wrap16 ((d.comp.get b.sc.ci).pred.toInt + extend x t)) :
    d.seqDc v b t =
      .ok (.cont { d with
        cur := r.cur, bb := r.bb
        comp := d.comp.set b.sc.ci { d.comp.get b.sc.ci with pred := p }
        planes := { d.planes with mem := d.planes.mem.dcBlock (d.cellAddr b.sc.ci b.row b.col 0) p }
        prog := { d.prog with k := 1 } }) := by
  subst hp
  rw [Dec.seqDc, hr, except_ok_bind]
  simp only [Dec.clearBlock_block (d := (d.withRd r).withPred _ _) (by simpa using h), except_ok_bind,
    Dec.writeBlk_block (d := ((d.withRd r).withPred _ _).withMem _) (by simpa using h) (by decide : 0 < 64),
    Dec.withMem_cellAddr, Dec.withPred_cellAddr, Dec.withRd_cellAddr]
  rfl

/-- Settles O34: the block is cleared, then its first cell is written. -/
theorem sequentialDc : Obligations.SequentialDc := by
  intro t s v b x r p hw hb hm hp hr he
  refine ⟨s.dec.planes.mem.dcBlock (s.dec.cellAddr b.sc.ci b.row b.col 0) p, ?_, Memory.readHalf_dcBlock_dc hw _ _,
    fun n h0 hn => ?_, fun a ha => Memory.read_dcBlock_outside hw _ _ ha⟩
  · have hexec : exec (.dcDiff t) s = s.endUnit (s.dec.seqDc v b t.toNat) :=
      (State.atSymbol_some hb).trans (by rw [hm])
    rw [hexec, Dec.seqDc_block hp hr he]
    rfl
  · rw [Dec.cellAddr_eq _ _ _ _ n]
    exact Memory.readHalf_dcBlock_ac hw _ _ h0 hn

/-! ## The DC symbols of a progressive scan (R202, R203) -/

/-- Settles O35: a DC-first symbol and a DC refinement bit write at most cell 0, and the block ends. -/
theorem progressiveDc : Obligations.ProgressiveDc := by
  refine ⟨fun t s v b x r p hb hm hp hr he => ?_, fun bit s v b c hb hm hp hc => ?_⟩
  · have hexec : exec (.dcDiff t) s = s.endUnit (s.dec.firstDc s.cfg v b t.toNat) :=
      (State.atSymbol_some hb).trans (by rw [hm])
    subst he
    rw [hexec, Dec.firstDc, hr, except_ok_bind]
    simp only [Dec.writeBlk_block (d := (s.dec.withRd r).withPred _ _) (by simpa using hp) (by decide : 0 < 64),
      except_ok_bind, Dec.withPred_cellAddr, Dec.withRd_cellAddr]
    exact s.endUnit_blockDone_progressive hm (by decide)
  · have hexec : exec (.dcRefineBit bit) s = s.endUnit (s.dec.refineDc s.cfg b bit) :=
      (State.atSymbol_some hb).trans (by rw [hm])
    rw [hexec, Dec.refineDc, Dec.readBlk_block hp (by decide), except_ok_bind, ← hc]
    cases bit
    · exact s.endUnit_blockDone_progressive hm (by decide)
    · rw [if_pos rfl, if_pos rfl, Dec.writeBlk_block hp (by decide), except_ok_bind]
      exact s.endUnit_blockDone_progressive hm (by decide)

/-! ## The AC symbols of a sequential or an AC-first scan (R201, R204) -/

/-- Where the statements about a sequential or an AC-first scan speak of a block's end, it can be reached. -/
theorem Dec.canRender_of_mode {d : Dec} (h : d.scan.mode = .seq ∧ d.canRender ∨ d.scan.mode = .acFirst) :
    d.scan.mode = .seq → d.canRender := by
  rcases h with ⟨-, h⟩ | h
  · exact fun _ => h
  · exact fun hm => absurd (h.symm.trans hm) (by decide)

/-- Settles O36: the run's target is past the band, or its cell is written and the index moves past it. -/
theorem runAndCoefficient : Obligations.RunAndCoefficient := by
  intro r sz s v b k hb hm hp hk
  have hexec : exec (.acRunSize r sz) s = s.endUnit (s.dec.acCoef s.cfg v b r.toNat sz.toNat) := by
    refine (State.atSymbol_some hb).trans ?_
    rcases hm with ⟨hm, -⟩ | hm <;> rw [hm]
  rw [hexec, Dec.acCoef, ← hk]
  refine ⟨fun hlast => ?_, fun x rd hlast hr => ?_⟩
  · rw [decide_eq_true hlast]
    rfl
  · rw [decide_eq_false (Nat.not_lt.2 hlast), failIf_false, except_ok_bind, hr, except_ok_bind]
    simp only [Dec.writeBlk_block (d := s.dec.withRd rd) (by simpa using hp) (zz_lt k), except_ok_bind,
      Dec.withRd_cellAddr]
    exact s.endUnit_nextK (k + 1) (Dec.canRender_of_mode hm)

/-- Settles O37, symbol by symbol. -/
theorem endOfBlockAndRuns : Obligations.EndOfBlockAndRuns := by
  refine ⟨fun s v b hb hm => ⟨?_, ?_⟩, fun r s v b hb => ⟨fun hm => ?_, fun x rd hm hr => ?_⟩,
    fun s v b hb hm hk hrun => ?_⟩
  · rcases hm with ⟨hm, hr⟩ | hm
    · have hexec : exec .acEob s = s.endUnit (s.dec.blockDone s.cfg) := (State.atSymbol_some hb).trans (by rw [hm])
      rw [hexec, if_pos hm]
      exact s.endUnit_blockDone fun _ => hr
    · have hexec : exec .acEob s = s.endUnit (s.dec.firstEob s.cfg v 0) := (State.atSymbol_some hb).trans (by rw [hm])
      rw [hexec, if_neg (by simp [hm]), Dec.firstEob, receive_zero, except_ok_bind]
      exact s.endUnit_blockDone_progressive hm (by decide)
  · have hexec : exec .acZrl s = s.endUnit (s.dec.acZrl s.cfg) := by
      refine (State.atSymbol_some hb).trans ?_
      rcases hm with ⟨hm, -⟩ | hm <;> rw [hm]
    rw [hexec, Dec.acZrl]
    refine ⟨fun hlast => ?_, fun hlast => ?_⟩
    · rw [decide_eq_false (Nat.not_lt.2 hlast), failIf_false, except_ok_bind]
      exact s.endUnit_nextK _ (Dec.canRender_of_mode hm)
    · rw [decide_eq_true hlast]
      rfl
  · exact (State.atSymbol_some hb).trans (by rw [hm]; rfl)
  · have hexec : exec (.acEobRun r) s = s.endUnit (s.dec.firstEob s.cfg v r.toNat) :=
      (State.atSymbol_some hb).trans (by rw [hm])
    rw [hexec, Dec.firstEob, hr, except_ok_bind]
    exact s.endUnit_blockDone_progressive hm (by decide)
  · have hblock : s.dec.runBlock s.cfg v b = (s.dec.withEobrun (s.dec.scan.eobrun - 1)).blockDone s.cfg :=
      if_neg (by simp [hm])
    rw [step_of_fetch_ends (State.currentBlock_some hb).1 (State.fetch_runBlock hb (.inl hm) hk hrun), hblock]
    exact s.settle_blockDone (by simp [hm])

end Sys2Proof.Machine
end

section
/-! PROOFS. Correction bits and the passes of a refinement scan over a band (R205). -/

namespace Sys2Proof.Machine

/-! ## A block whose cells can be read and written -/

/-- The block `b` lies in the planes, whose bytes are in canonical form. -/
structure Dec.HasBlock (d : Dec) (b : BlockRef) : Prop where
  mem_wf : d.planes.mem.wf = true
  inPlane : d.inPlane b.sc.ci b.row b.col 0 = true

@[simp] theorem Dec.withCell_mem (d : Dec) (r : Rd) (i : Fin 4) (row col n : Nat) (x : Half) :
    (d.withCell r i row col n x).planes.mem = d.planes.mem.writeHalf (d.cellAddr i row col n) x := rfl

@[simp] theorem Dec.withCell_cellAddr (d : Dec) (r : Rd) (i j : Fin 4) (row col row' col' n m : Nat) (x : Half) :
    (d.withCell r i row col n x).cellAddr j row' col' m = d.cellAddr j row' col' m := rfl

/-- A cell written with its own value leaves the memory as it is. -/
theorem Memory.writeHalf_readHalf {m : Memory} (a : Nat) (h : m.wf = true) : m.writeHalf a (m.readHalf a) = m := by
  refine Memory.ext (Memory.writeHalf_wf h) h fun x => ?_
  rw [Memory.read_writeHalf _ _ _ h]
  split
  · rename_i hx
    rw [hx, Memory.readHalf]
    exact BitVec.extractLsb'_append_eq_right
  · split
    · rename_i hx
      rw [hx, Memory.readHalf]
      exact BitVec.extractLsb'_append_eq_left
    · rfl

section
variable {d : Dec} {b : BlockRef} (h : d.HasBlock b)
include h

theorem Dec.HasBlock.cell_eq {n : Nat} (hn : n < 64) :
    d.cell b.sc.ci b.row b.col n = d.planes.mem.readHalf (d.cellAddr b.sc.ci b.row b.col n) :=
  if_pos (Dec.inPlane_of_block h.inPlane hn)

theorem Dec.HasBlock.readBlk_eq {n : Nat} (hn : n < 64) : d.readBlk b n = .ok (d.cell b.sc.ci b.row b.col n) := by
  rw [h.cell_eq hn, Dec.readBlk_block h.inPlane hn]

theorem Dec.HasBlock.withRd (r : Rd) : (d.withRd r).HasBlock b := ⟨h.mem_wf, h.inPlane⟩

theorem Dec.HasBlock.withCell (r : Rd) (n : Nat) (x : Half) : (d.withCell r b.sc.ci b.row b.col n x).HasBlock b :=
  ⟨Memory.writeHalf_wf h.mem_wf, h.inPlane⟩

/-- What a cell of the block holds after one is written. -/
theorem Dec.HasBlock.cell_withCell (r : Rd) {n m : Nat} (x : Half) (hm : m < 64) :
    (d.withCell r b.sc.ci b.row b.col n x).cell b.sc.ci b.row b.col m =
      if m = n then x else d.cell b.sc.ci b.row b.col m := by
  rw [(h.withCell r n x).cell_eq hm, h.cell_eq hm, Dec.withCell_mem, Dec.withCell_cellAddr]
  split
  · rename_i hmn
    rw [hmn, Memory.readHalf_writeHalf _ _ h.mem_wf]
  · have hm' := d.cellAddr_eq b.sc.ci b.row b.col m
    have hn' := d.cellAddr_eq b.sc.ci b.row b.col n
    rw [Memory.readHalf_writeHalf_other h.mem_wf (by omega)]

/-- A byte outside the block reads as before when a cell of the block is written. -/
theorem Dec.HasBlock.read_withCell (r : Rd) {n a : Nat} (x : Half) (hn : n < 64)
    (ha : a < d.cellAddr b.sc.ci b.row b.col 0 ∨ d.cellAddr b.sc.ci b.row b.col 0 + 128 ≤ a) :
    (d.withCell r b.sc.ci b.row b.col n x).planes.mem.read a = d.planes.mem.read a := by
  have hn' := d.cellAddr_eq b.sc.ci b.row b.col n
  rw [Dec.withCell_mem, Memory.read_writeHalf _ _ _ h.mem_wf, if_neg (by omega), if_neg (by omega)]

end

/-! ## Bands -/

theorem zz_injective {j k : Nat} (hj : j < 64) (hk : k < 64) (h : zz j = zz k) : j = k := by
  rw [← izz_zz hj, h, izz_zz hk]

theorem Dec.mem_band {d : Dec} {b : BlockRef} {zero : Bool} {k n j : Nat} :
    j ∈ d.band b zero k n ↔ k ≤ j ∧ j < k + n ∧ (d.cell b.sc.ci b.row b.col (zz j) == 0) = zero := by
  simp only [Dec.band, List.mem_filter, List.mem_map, List.mem_range, beq_iff_eq]
  constructor
  · rintro ⟨⟨i, hi, rfl⟩, hz⟩
    exact ⟨by omega, by omega, hz⟩
  · rintro ⟨h1, h2, hz⟩
    exact ⟨⟨j - k, by omega, by omega⟩, hz⟩

/-- The first index of a band, if its cell is as asked, then the rest. -/
theorem Dec.band_succ (d : Dec) (b : BlockRef) (zero : Bool) (k n : Nat) :
    d.band b zero k (n + 1) =
      if (d.cell b.sc.ci b.row b.col (zz k) == 0) == zero then k :: d.band b zero (k + 1) n
      else d.band b zero (k + 1) n := by
  have hsucc : ((fun j => k + j) ∘ Nat.succ) = (k + 1 + ·) := by
    funext j
    simp only [Function.comp, Nat.succ_eq_add_one]
    omega
  simp only [Dec.band, List.range_succ_eq_map, List.map_cons, List.map_map, Nat.add_zero, List.filter_cons, hsucc]

section
variable {d : Dec} {b : BlockRef} (zero : Bool) {k : Nat} (n : Nat)

theorem Dec.band_of_zero (hc : d.cell b.sc.ci b.row b.col (zz k) = 0) :
    d.band b zero k (n + 1) = if zero then k :: d.band b zero (k + 1) n else d.band b zero (k + 1) n := by
  rw [Dec.band_succ, hc]
  cases zero <;> rfl

theorem Dec.band_of_ne_zero (hc : d.cell b.sc.ci b.row b.col (zz k) ≠ 0) :
    d.band b zero k (n + 1) = if zero then d.band b zero (k + 1) n else k :: d.band b zero (k + 1) n := by
  rw [Dec.band_succ, beq_eq_false_iff_ne.2 hc]
  cases zero <;> rfl

end

/-- Writing a cell before a band leaves the band as it is. -/
theorem Dec.HasBlock.band_withCell {d : Dec} {b : BlockRef} (h : d.HasBlock b) (r : Rd) (x : Half) (zero : Bool)
    {k n : Nat} (hk : k + (n + 1) ≤ 64) :
    (d.withCell r b.sc.ci b.row b.col (zz k) x).band b zero (k + 1) n = d.band b zero (k + 1) n := by
  refine List.filter_congr fun j hj => ?_
  obtain ⟨i, hi, rfl⟩ := List.mem_map.1 hj
  have hi := List.mem_range.1 hi
  have hne : zz (k + 1 + i) ≠ zz k := fun he => by
    have := zz_injective (by omega) (by omega) he
    omega
  rw [h.cell_withCell r x (zz_lt _), if_neg hne]

/-! ## Bits -/

theorem except_bind_error {ε α β : Type} {x : Except ε α} {f : α → Except ε β} {e : ε} :
    (x >>= f) = .error e ↔ x = .error e ∨ ∃ a, x = .ok a ∧ f a = .error e := by
  cases x <;> simp [bind, Except.bind]

theorem readBits_succ (v : List Byte) (more : Bool) (n : Nat) (r : Rd) :
    readBits v more (n + 1) r =
      nextBit v more r >>= fun p => readBits v more n p.2 >>= fun q => .ok (p.1 :: q.1, q.2) := by
  rw [readBits]
  cases nextBit v more r with
  | error e => rfl
  | ok p =>
    simp only [except_ok_bind]
    cases readBits v more n p.2 <;> rfl

theorem readBits_length {v : List Byte} {more : Bool} {n : Nat} {r r' : Rd} {bs : List Bool}
    (h : readBits v more n r = .ok (bs, r')) : bs.length = n := by
  induction n generalizing r bs with
  | zero =>
    cases h
    rfl
  | succ n ih =>
    rw [readBits_succ] at h
    obtain ⟨p, -, h⟩ := except_bind_ok.1 h
    obtain ⟨q, hq, h⟩ := except_bind_ok.1 h
    cases h
    rw [List.length_cons, ih hq]

/-! ## CORRECT (R205) -/

/-- The registers after the correction bit `bit` of index `k`, the bit reader then at `r`. -/
def Dec.correctedAt (d : Dec) (b : BlockRef) (k : Nat) (bit : Bool) (r : Rd) : Dec :=
  d.withCell r b.sc.ci b.row b.col (zz k) (correctedCell d.scan.al bit (d.cell b.sc.ci b.row b.col (zz k)))

theorem Dec.HasBlock.correct_eq {d : Dec} {b : BlockRef} (h : d.HasBlock b) (v : List Byte) (k : Nat) :
    d.correct v b (zz k) (d.cell b.sc.ci b.row b.col (zz k)) =
      nextBit v d.more d.rd >>= fun p => .ok (d.correctedAt b k p.1 p.2) := by
  rw [Dec.correct]
  cases nextBit v d.more d.rd with
  | error e => rfl
  | ok p =>
    obtain ⟨bit, r⟩ := p
    rw [except_ok_bind, except_ok_bind, Dec.correctedAt, correctedCell]
    by_cases hmove : (bit && d.cell b.sc.ci b.row b.col (zz k) &&& wrap16 (2 ^ d.scan.al) == 0) = true
    · rw [if_pos hmove]
      exact (if_pos hmove).trans (Dec.writeBlk_block (h.withRd r).inPlane (zz_lt k) _)
    · rw [if_neg hmove, h.cell_eq (zz_lt k), Dec.withCell, Memory.writeHalf_readHalf _ h.mem_wf, ← h.cell_eq (zz_lt k)]
      exact if_neg hmove

section
variable {d : Dec} {b : BlockRef} (h : d.HasBlock b) (v : List Byte) (n k : Nat)
include h

theorem Dec.HasBlock.refineRest_zero (hc : d.cell b.sc.ci b.row b.col (zz k) = 0) :
    Dec.refineRest v b (n + 1) k d = Dec.refineRest v b n (k + 1) d := by
  rw [Dec.refineRest, h.readBlk_eq (zz_lt k), except_ok_bind, hc]
  rfl

theorem Dec.HasBlock.refineRest_nonzero (hc : d.cell b.sc.ci b.row b.col (zz k) ≠ 0) :
    Dec.refineRest v b (n + 1) k d =
      nextBit v d.more d.rd >>= fun p => Dec.refineRest v b n (k + 1) (d.correctedAt b k p.1 p.2) := by
  rw [Dec.refineRest, h.readBlk_eq (zz_lt k), except_ok_bind, if_pos (bne_iff_ne.2 hc), h.correct_eq]
  cases nextBit v d.more d.rd <;> rfl

theorem Dec.HasBlock.refineSkip_target (hc : d.cell b.sc.ci b.row b.col (zz k) = 0) :
    Dec.refineSkip v b (n + 1) k 0 d = .ok (k, d) := by
  rw [Dec.refineSkip, h.readBlk_eq (zz_lt k), except_ok_bind, hc]
  rfl

theorem Dec.HasBlock.refineSkip_zero (run : Nat) (hc : d.cell b.sc.ci b.row b.col (zz k) = 0) :
    Dec.refineSkip v b (n + 1) k (run + 1) d = Dec.refineSkip v b n (k + 1) run d := by
  rw [Dec.refineSkip, h.readBlk_eq (zz_lt k), except_ok_bind, hc]
  rfl

theorem Dec.HasBlock.refineSkip_nonzero (run : Nat) (hc : d.cell b.sc.ci b.row b.col (zz k) ≠ 0) :
    Dec.refineSkip v b (n + 1) k run d =
      nextBit v d.more d.rd >>= fun p => Dec.refineSkip v b n (k + 1) run (d.correctedAt b k p.1 p.2) := by
  rw [Dec.refineSkip, h.readBlk_eq (zz_lt k), except_ok_bind, if_pos (bne_iff_ne.2 hc), h.correct_eq]
  cases nextBit v d.more d.rd <;> rfl

end

/-! ## A pass over a band (R205) -/

/-- A correction leaves the band after its index as it is. -/
theorem Dec.HasBlock.band_correctedAt {d : Dec} {b : BlockRef} (h : d.HasBlock b) (bit : Bool) (r : Rd) (zero : Bool)
    {k n : Nat} (hk : k + (n + 1) ≤ 64) :
    (d.correctedAt b k bit r).band b zero (k + 1) n = d.band b zero (k + 1) n := h.band_withCell r _ zero hk

theorem Dec.HasBlock.correctedAt {d : Dec} {b : BlockRef} (h : d.HasBlock b) (k : Nat) (bit : Bool) (r : Rd) :
    (d.correctedAt b k bit r).HasBlock b := h.withCell r _ _

theorem Dec.Corrected.nil (d : Dec) (b : BlockRef) (bs : List Bool) : d.Corrected b [] bs d.rd d :=
  ⟨rfl, by simp, fun _ _ _ => rfl, fun _ _ => rfl⟩

/-- The first correction bit of a band, then those of the indices after it. -/
theorem Dec.HasBlock.corrected_cons {d d' : Dec} {b : BlockRef} (h : d.HasBlock b) {k : Nat} {ks : List Nat}
    {bit : Bool} {bs : List Bool} {r r' : Rd} (hk : k < 64) (hks : ∀ j ∈ ks, k < j ∧ j < 64)
    (hd : (d.correctedAt b k bit r).Corrected b ks bs r' d') : d.Corrected b (k :: ks) (bit :: bs) r' d' := by
  obtain ⟨hsame, hcells, hothers, hbytes⟩ := hd
  have hne : ∀ j ∈ ks, zz j ≠ zz k := fun j hj he => by
    have := hks j hj
    have := zz_injective this.2 hk he
    omega
  have hcell : ∀ m, m < 64 → m ≠ zz k →
      (d.correctedAt b k bit r).cell b.sc.ci b.row b.col m = d.cell b.sc.ci b.row b.col m := fun m hm hmk => by
    rw [Dec.correctedAt, h.cell_withCell r _ hm, if_neg hmk]
  refine ⟨hsame, ?_, ?_, fun a ha => ?_⟩
  · intro j j' bit' hj hbit
    cases j with
    | zero =>
      cases hj
      cases hbit
      rw [hothers (zz k) (zz_lt k) hne, Dec.correctedAt, h.cell_withCell r _ (zz_lt k), if_pos rfl]
    | succ j =>
      have hmem : j' ∈ ks := List.mem_of_getElem? hj
      rw [hcells j j' bit' hj hbit, hcell _ (zz_lt j') (hne j' hmem)]
      rfl
  · intro m hm hmk
    rw [hothers m hm fun j hj => hmk j (List.mem_cons_of_mem _ hj), hcell m hm (hmk k List.mem_cons_self).symm]
  · exact (hbytes a ha).trans (h.read_withCell r _ (zz_lt k) ha)

/-- With the bits of its non-zero cells in the view, the rest of a band is corrected by them. -/
theorem Dec.HasBlock.refineRest_ok {d : Dec} {b : BlockRef} {v : List Byte} {n k : Nat} {bs : List Bool} {r : Rd}
    (h : d.HasBlock b) (hk : k + n ≤ 64)
    (hbits : readBits v d.more (d.band b false k n).length d.rd = .ok (bs, r)) :
    ∃ d', Dec.refineRest v b n k d = .ok d' ∧ d.Corrected b (d.band b false k n) bs r d' := by
  induction n generalizing k d bs with
  | zero =>
    cases hbits
    exact ⟨d, rfl, .nil d b []⟩
  | succ n ih =>
    by_cases hc : d.cell b.sc.ci b.row b.col (zz k) = 0
    · have hband : d.band b false k (n + 1) = d.band b false (k + 1) n := Dec.band_of_zero false n hc
      rw [hband] at hbits ⊢
      rw [h.refineRest_zero v n k hc]
      exact ih h (by omega) hbits
    · have hband : d.band b false k (n + 1) = k :: d.band b false (k + 1) n := Dec.band_of_ne_zero false n hc
      rw [hband, List.length_cons, readBits_succ] at hbits
      obtain ⟨⟨bit, r1⟩, hbit, hbits⟩ := except_bind_ok.1 hbits
      obtain ⟨⟨bs, r2⟩, hrest, hbits⟩ := except_bind_ok.1 hbits
      cases hbits
      rw [← h.band_correctedAt bit r1 false hk] at hrest
      obtain ⟨d', hd', hcorr⟩ := ih (h.correctedAt k bit r1) (by omega) hrest
      rw [h.band_correctedAt bit r1 false hk] at hcorr
      rw [h.refineRest_nonzero v n k hc, hbit, hband]
      exact ⟨d', hd', h.corrected_cons (by omega) (fun j hj => by have := Dec.mem_band.1 hj; omega) hcorr⟩

/-- Where the bits run out, the pass ends as the bit reader does. -/
theorem Dec.HasBlock.refineRest_error {d : Dec} {b : BlockRef} {v : List Byte} {n k : Nat} {e : UnitStop}
    (h : d.HasBlock b) (hk : k + n ≤ 64) (hbits : readBits v d.more (d.band b false k n).length d.rd = .error e) :
    Dec.refineRest v b n k d = .error e := by
  induction n generalizing k d with
  | zero => cases hbits
  | succ n ih =>
    by_cases hc : d.cell b.sc.ci b.row b.col (zz k) = 0
    · have hband : d.band b false k (n + 1) = d.band b false (k + 1) n := Dec.band_of_zero false n hc
      rw [hband] at hbits
      rw [h.refineRest_zero v n k hc]
      exact ih h (by omega) hbits
    · have hband : d.band b false k (n + 1) = k :: d.band b false (k + 1) n := Dec.band_of_ne_zero false n hc
      rw [hband, List.length_cons, readBits_succ] at hbits
      rw [h.refineRest_nonzero v n k hc]
      rcases except_bind_error.1 hbits with hbit | ⟨⟨bit, r1⟩, hbit, hbits⟩
      · rw [hbit, except_error_bind]
      · rw [hbit, except_ok_bind]
        rcases except_bind_error.1 hbits with hrest | ⟨_, -, hrest⟩
        · rw [← h.band_correctedAt bit r1 false hk] at hrest
          exact ih (h.correctedAt k bit r1) (by omega) hrest
        · cases hrest

/-! ## What a run finds (R205) -/

/-- A run that passes all zero cells before its target corrects the cells before it and stops there. -/
theorem Dec.HasBlock.refineSkip_found {d : Dec} {b : BlockRef} (h : d.HasBlock b) (v : List Byte) {n k t : Nat}
    (hk : k + n ≤ 64) (hkt : k ≤ t) (htn : t < k + n) (ht : d.cell b.sc.ci b.row b.col (zz t) = 0) :
    Dec.refineSkip v b n k (d.band b true k (t - k)).length d =
      Dec.refineRest v b (t - k) k d >>= fun d' => .ok (t, d') := by
  induction n generalizing k d with
  | zero => omega
  | succ n ih =>
    by_cases hkt' : k = t
    · subst hkt'
      rw [Nat.sub_self]
      exact h.refineSkip_target v n k ht
    · obtain ⟨m, hm⟩ : ∃ m, t - k = m + 1 := ⟨t - k - 1, by omega⟩
      have hm' : t - (k + 1) = m := by omega
      rw [hm]
      by_cases hc : d.cell b.sc.ci b.row b.col (zz k) = 0
      · have hband : d.band b true k (m + 1) = k :: d.band b true (k + 1) m := Dec.band_of_zero true m hc
        rw [hband, List.length_cons, h.refineSkip_zero v n k _ hc, h.refineRest_zero v m k hc, ← hm']
        exact ih h (by omega) (by omega) (by omega) ht
      · have hband : d.band b true k (m + 1) = d.band b true (k + 1) m := Dec.band_of_ne_zero true m hc
        rw [hband, h.refineSkip_nonzero v n k _ hc, h.refineRest_nonzero v m k hc]
        cases nextBit v d.more d.rd with
        | error e => rfl
        | ok p =>
          obtain ⟨bit, r1⟩ := p
          have hne : zz t ≠ zz k := fun he => hkt' (zz_injective (by omega) (by omega) he.symm)
          rw [except_ok_bind, except_ok_bind, ← h.band_correctedAt bit r1 true (by omega : k + (m + 1) ≤ 64), ← hm']
          refine ih (h.correctedAt k bit r1) (by omega) (by omega) (by omega) ?_
          rw [Dec.correctedAt, h.cell_withCell r1 _ (zz_lt t), if_neg hne, ht]

/-- A run longer than the zero cells left corrects the rest of the band and raises HUFF_AC_INDEX. -/
theorem Dec.HasBlock.refineSkip_past {d : Dec} {b : BlockRef} (h : d.HasBlock b) (v : List Byte) {n k run : Nat}
    (hk : k + n ≤ 64) (hrun : (d.band b true k n).length ≤ run) :
    Dec.refineSkip v b n k run d = Dec.refineRest v b n k d >>= fun _ => raise .huffAcIndex := by
  induction n generalizing k run d with
  | zero => rfl
  | succ n ih =>
    by_cases hc : d.cell b.sc.ci b.row b.col (zz k) = 0
    · have hband : d.band b true k (n + 1) = k :: d.band b true (k + 1) n := Dec.band_of_zero true n hc
      rw [hband, List.length_cons] at hrun
      obtain ⟨run, rfl⟩ : ∃ m, run = m + 1 := ⟨run - 1, by omega⟩
      rw [h.refineSkip_zero v n k run hc, h.refineRest_zero v n k hc]
      exact ih h (by omega) (by omega)
    · have hband : d.band b true k (n + 1) = d.band b true (k + 1) n := Dec.band_of_ne_zero true n hc
      rw [hband] at hrun
      rw [h.refineSkip_nonzero v n k run hc, h.refineRest_nonzero v n k hc]
      cases nextBit v d.more d.rd with
      | error e => rfl
      | ok p =>
        obtain ⟨bit, r1⟩ := p
        rw [← h.band_correctedAt bit r1 true hk] at hrun
        exact ih (h.correctedAt k bit r1) (by omega) hrun

/-! ## The statement -/

/-- A pass that ends has found its block in the planes, unless the band is empty. -/
theorem Dec.HasBlock.of_refineRest {d d' : Dec} {b : BlockRef} {v : List Byte} {n k : Nat}
    (hw : d.planes.mem.wf = true) (h : Dec.refineRest v b (n + 1) k d = .ok d') : d.HasBlock b := by
  obtain ⟨c, hc, -⟩ := except_bind_ok.1 h
  exact ⟨hw, Dec.inPlane_of_block (Dec.readCell_ok_iff.1 hc).1 (by decide)⟩

/-- What one correction bit can do to a cell. -/
theorem correctedCell_cases (al : Nat) (bit : Bool) (c : Half) :
    correctedCell al bit c = c ∨
      c &&& wrap16 (2 ^ al) = 0 ∧
        correctedCell al bit c = wrap16 (c.toInt + if 0 ≤ c.toInt then 2 ^ al else -2 ^ al) := by
  unfold correctedCell
  split
  · rename_i hmove
    exact .inr ⟨beq_iff_eq.1 (Bool.and_eq_true_iff.1 hmove).2, rfl⟩
  · exact .inl rfl

/-- Corrected cells are non-zero ones, and each is moved by 2^Al away from zero or left. -/
theorem Dec.Corrected.cell_cases {d d' : Dec} {b : BlockRef} {k n : Nat} {bs : List Bool} {r : Rd}
    (h : d.Corrected b (d.band b false k n) bs r d') (hbs : bs.length = (d.band b false k n).length) {m : Nat}
    (hm : m < 64) :
    d'.cell b.sc.ci b.row b.col m = d.cell b.sc.ci b.row b.col m ∨
      (d.cell b.sc.ci b.row b.col m ≠ 0 ∧ d.cell b.sc.ci b.row b.col m &&& wrap16 (2 ^ d.scan.al) = 0 ∧
        d'.cell b.sc.ci b.row b.col m =
          wrap16 ((d.cell b.sc.ci b.row b.col m).toInt +
            if 0 ≤ (d.cell b.sc.ci b.row b.col m).toInt then 2 ^ d.scan.al else -2 ^ d.scan.al)) := by
  obtain ⟨-, hcells, hothers, -⟩ := h
  by_cases hk : ∃ j ∈ d.band b false k n, zz j = m
  · obtain ⟨j, hj, rfl⟩ := hk
    obtain ⟨i, hi, hij⟩ := List.getElem_of_mem hj
    have hbit : i < bs.length := hbs ▸ hi
    rw [hcells i j bs[i] (List.getElem?_eq_some_iff.2 ⟨hi, hij⟩) (List.getElem?_eq_getElem hbit)]
    obtain ⟨-, -, hne⟩ := Dec.mem_band.1 hj
    rw [beq_eq_false_iff_ne] at hne
    exact (correctedCell_cases _ _ _).imp_right fun hmove => ⟨hne, hmove⟩
  · exact .inl (hothers m hm fun j hj hjm => hk ⟨j, hj, hjm⟩)

/-- Settles O39: a pass reads one bit for each non-zero cell, and a run is such a pass up to its target or to the band's
end. -/
theorem correctionBits : Obligations.CorrectionBits := by
  refine ⟨fun v b n k d hw hk hp => ?_, fun v b n k d d' hw hk hd => ?_⟩
  · have h : d.HasBlock b := ⟨hw, hp⟩
    refine ⟨fun bs r hbits => h.refineRest_ok hk hbits, fun e hbits => h.refineRest_error hk hbits, ?_, ?_⟩
    · rintro run t bs r hkt htn ht rfl hbits
      obtain ⟨d', hd', hcorr⟩ := h.refineRest_ok (by omega) hbits
      rw [h.refineSkip_found v hk hkt htn ht, hd']
      exact ⟨d', rfl, hcorr⟩
    · intro run bs r hrun hbits
      obtain ⟨d', hd', -⟩ := h.refineRest_ok hk hbits
      rw [h.refineSkip_past v hk hrun, hd']
      rfl
  · cases n with
    | zero =>
      cases hd
      exact ⟨fun _ _ => rfl, fun _ _ => .inl rfl⟩
    | succ n =>
      have h : d.HasBlock b := .of_refineRest hw hd
      cases hbits : readBits v d.more (d.band b false k (n + 1)).length d.rd with
      | error e => exact absurd (hd.symm.trans (h.refineRest_error hk hbits)) (by simp)
      | ok p =>
        obtain ⟨d1, hd1, hcorr⟩ := h.refineRest_ok (bs := p.1) (r := p.2) hk hbits
        obtain rfl : d1 = d' := Except.ok.inj (hd1.symm.trans hd)
        have hcells := fun m => hcorr.cell_cases (readBits_length hbits) (m := m)
        obtain ⟨-, -, -, hbytes⟩ := hcorr
        exact ⟨hbytes, hcells⟩

end Sys2Proof.Machine
end

section
/-! PROOFS. The symbols of a refinement scan (R205). -/

namespace Sys2Proof.Machine

/-! ## What a pass over a band changes -/

/-- From `d` to `d'` only the bit reader moves and cells of the block `b` are written. -/
structure Dec.Passed (b : BlockRef) (d d' : Dec) : Prop where
  same : d' = (d.withRd d'.rd).withMem d'.planes.mem
  mem_wf : d.planes.mem.wf = true → d'.planes.mem.wf = true
  outside : d.planes.mem.wf = true →
    ∀ a, a < d.cellAddr b.sc.ci b.row b.col 0 ∨ d.cellAddr b.sc.ci b.row b.col 0 + 128 ≤ a →
      d'.planes.mem.read a = d.planes.mem.read a

theorem Dec.Passed.withRd (b : BlockRef) (d : Dec) (r : Rd) : Dec.Passed b d (d.withRd r) :=
  ⟨rfl, id, fun _ _ _ => rfl⟩

theorem Dec.Passed.trans {b : BlockRef} {d d' d'' : Dec} (h : Dec.Passed b d d') (h' : Dec.Passed b d' d'') :
    Dec.Passed b d d'' := by
  have haddr : d'.cellAddr b.sc.ci b.row b.col 0 = d.cellAddr b.sc.ci b.row b.col 0 := by rw [h.same]; rfl
  refine ⟨?_, fun hw => h'.mem_wf (h.mem_wf hw), fun hw a ha => ?_⟩
  · have hsame := h'.same
    rw [h.same] at hsame
    exact hsame
  · exact (h'.outside (h.mem_wf hw) a (haddr ▸ ha)).trans (h.outside hw a ha)

theorem Dec.Passed.writeBlk {b : BlockRef} {d d' : Dec} {n : Nat} {x : Half} (hn : n < 64)
    (h : d.writeBlk b n x = .ok d') : Dec.Passed b d d' := by
  obtain ⟨-, rfl⟩ := Dec.writeCell_ok_iff.1 h
  have hcell := d.cellAddr_eq b.sc.ci b.row b.col n
  refine ⟨rfl, fun hw => Memory.writeHalf_wf hw, fun hw a ha => ?_⟩
  exact (Memory.read_writeHalf _ _ _ hw).trans (by rw [if_neg (by omega), if_neg (by omega)])

theorem Dec.Passed.correct {v : List Byte} {b : BlockRef} {d d' : Dec} {n : Nat} {c : Half} (hn : n < 64)
    (h : d.correct v b n c = .ok d') : Dec.Passed b d d' := by
  obtain ⟨⟨bit, r⟩, -, h⟩ := except_bind_ok.1 h
  dsimp only at h
  split at h
  · exact (Dec.Passed.withRd b d r).trans (.writeBlk hn h)
  · cases h
    exact .withRd b d r

theorem Dec.Passed.refineRest {v : List Byte} {b : BlockRef} {n k : Nat} {d d' : Dec}
    (h : Dec.refineRest v b n k d = .ok d') : Dec.Passed b d d' := by
  induction n generalizing k d with
  | zero =>
    cases h
    exact .withRd b d' d'.rd
  | succ n ih =>
    obtain ⟨c, -, h⟩ := except_bind_ok.1 h
    split at h
    · obtain ⟨d1, h1, h⟩ := except_bind_ok.1 h
      exact (Dec.Passed.correct (zz_lt k) h1).trans (ih h)
    · exact ih h

theorem Dec.Passed.refineSkip {v : List Byte} {b : BlockRef} {n k run t : Nat} {d d' : Dec}
    (h : Dec.refineSkip v b n k run d = .ok (t, d')) : Dec.Passed b d d' := by
  induction n generalizing k run d with
  | zero => cases h
  | succ n ih =>
    obtain ⟨c, -, h⟩ := except_bind_ok.1 h
    split at h
    · obtain ⟨d1, h1, h⟩ := except_bind_ok.1 h
      exact (Dec.Passed.correct (zz_lt k) h1).trans (ih h)
    · split at h
      · cases h
        exact .withRd b d' d'.rd
      · exact ih h

theorem Dec.Passed.scan_eq {b : BlockRef} {d d' : Dec} (h : Dec.Passed b d d') : d'.scan = d.scan := by rw [h.same]; rfl

/-- The target of a run is a cell that was read. -/
theorem Dec.refineSkip_inPlane {v : List Byte} {b : BlockRef} {n k run t : Nat} {d d' : Dec}
    (h : Dec.refineSkip v b n k run d = .ok (t, d')) : d'.inPlane b.sc.ci b.row b.col (zz t) = true := by
  induction n generalizing k run d with
  | zero => cases h
  | succ n ih =>
    obtain ⟨c, hc, h⟩ := except_bind_ok.1 h
    split at h
    · obtain ⟨d1, -, h⟩ := except_bind_ok.1 h
      exact ih h
    · split at h
      · cases h
        exact (Dec.readCell_ok_iff.1 hc).1
      · exact ih h

theorem Dec.writeBlk_target {v : List Byte} {b : BlockRef} {n k run t : Nat} {d d' : Dec} {x : Half}
    (h : Dec.refineSkip v b n k run d = .ok (t, d')) :
    d'.writeBlk b (zz t) x = .ok (d'.withCell d'.rd b.sc.ci b.row b.col (zz t) x) :=
  Dec.writeCell_ok_iff.2 ⟨Dec.refineSkip_inPlane h, rfl⟩

/-! ## A pass does not look at EOBRUN -/

section
variable {v : List Byte} {b : BlockRef} {d d' : Dec} (x : Half)

theorem Dec.writeBlk_withEobrun {n : Nat} {c : Half} (h : d.writeBlk b n c = .ok d') :
    (d.withEobrun x).writeBlk b n c = .ok (d'.withEobrun x) := by
  obtain ⟨hp, rfl⟩ := Dec.writeCell_ok_iff.1 h
  exact Dec.writeCell_ok_iff.2 ⟨hp, rfl⟩

theorem Dec.correct_withEobrun {n : Nat} {c : Half} (h : d.correct v b n c = .ok d') :
    (d.withEobrun x).correct v b n c = .ok (d'.withEobrun x) := by
  obtain ⟨⟨bit, r⟩, hbit, h⟩ := except_bind_ok.1 h
  refine except_bind_ok.2 ⟨(bit, r), hbit, ?_⟩
  dsimp only at h ⊢
  split at h
  · rename_i hmove
    exact (if_pos hmove).trans (Dec.writeBlk_withEobrun x h)
  · rename_i hmove
    cases h
    exact if_neg hmove

theorem Dec.refineRest_withEobrun {n k : Nat} (h : Dec.refineRest v b n k d = .ok d') :
    Dec.refineRest v b n k (d.withEobrun x) = .ok (d'.withEobrun x) := by
  induction n generalizing k d with
  | zero =>
    cases h
    rfl
  | succ n ih =>
    obtain ⟨c, hc, h⟩ := except_bind_ok.1 h
    refine except_bind_ok.2 ⟨c, hc, ?_⟩
    split at h
    · rename_i hnz
      obtain ⟨d1, h1, h⟩ := except_bind_ok.1 h
      exact (if_pos hnz).trans (except_bind_ok.2 ⟨d1.withEobrun x, Dec.correct_withEobrun x h1, ih h⟩)
    · rename_i hnz
      exact (if_neg hnz).trans (ih h)

end

/-! ## Runs (R205) -/

/-- A ZRL: sixteen zero cells are passed, the last being the target, and nothing is written there. -/
theorem Dec.refineRun_zrl (d : Dec) (cfg : Config) (v : List Byte) (b : BlockRef) (run : Nat) :
    d.refineRun cfg v b run false =
      Dec.refineSkip v b (d.scan.se + 1 - d.prog.k) d.prog.k run d >>= fun p => p.2.nextK cfg (p.1 + 1) := rfl

/-- A run and a coefficient of category 1, whose sign bit is read first. -/
theorem Dec.refineRun_coef {d : Dec} {v : List Byte} {bit : Bool} {rd : Rd} (cfg : Config) (b : BlockRef) (run : Nat)
    (hbit : nextBit v d.more d.rd = .ok (bit, rd)) :
    d.refineRun cfg v b run true =
      Dec.refineSkip v b (d.scan.se + 1 - d.prog.k) d.prog.k run (d.withRd rd) >>= fun p =>
        p.2.writeBlk b (zz p.1) (wrap16 (if bit then 2 ^ p.2.scan.al else -2 ^ p.2.scan.al)) >>= fun d' =>
          d'.nextK cfg (p.1 + 1) := by
  rw [Dec.refineRun, if_pos rfl, hbit]
  rfl

/-- With too few zero cells left for the run and the correction bits in the view, HUFF_AC_INDEX is raised. -/
theorem Dec.HasBlock.refineSkip_raises {d : Dec} {b : BlockRef} (h : d.HasBlock b) {v : List Byte} {k run left : Nat}
    {bs : List Bool} {r : Rd} (hse : d.scan.se < 64) (hleft : left = d.scan.se + 1 - k)
    (hrun : (d.band b true k left).length ≤ run)
    (hbits : readBits v d.more (d.band b false k left).length d.rd = .ok (bs, r)) :
    Dec.refineSkip v b left k run d = raise .huffAcIndex := by
  cases left with
  | zero => rfl
  | succ n =>
    obtain ⟨d', hd', -⟩ := h.refineRest_ok (by omega) hbits
    rw [h.refineSkip_past v (by omega) hrun, hd']
    rfl

/-- R142, R143: what is left when a unit at whose start the bits run out has suspended. -/
theorem State.returnDecode_starved {s : State} {v : List Byte} (hv : s.view = some v) (hs : s.snap = none)
    (hf : s.dec.fsm ≠ .done) : s.returnDecode s.unitStart = s.starved v := by
  rw [State.unitStart_of_none hs, State.returnDecode, State.starved, hv]
  cases s.dec.more with
  | false => simp [hf]
  | true => rfl

/-! ## The instructions in a refinement scan -/

section
variable {s : State} {v : List Byte} {b : BlockRef} (hb : s.currentBlock = some (v, b))
  (hm : s.dec.scan.mode = .acRefine)
include hb hm

theorem exec_acZrl_refine : exec .acZrl s = s.endUnit (s.dec.refineRun s.cfg v b 15 false) :=
  (State.atSymbol_some hb).trans (by rw [hm])

theorem exec_acRunSize_refine (run : BitVec 4) :
    exec (.acRunSize run 1) s = s.endUnit (s.dec.refineRun s.cfg v b run.toNat true) :=
  (State.atSymbol_some hb).trans (by rw [hm]; rfl)

theorem exec_acRunSize_category {sz : BitVec 4} (run : BitVec 4) (hsz : sz ≠ 1) :
    exec (.acRunSize run sz) s = .next (s.takeError (.corrupt .huffAcSymbol)) :=
  (State.atSymbol_some hb).trans (by rw [hm]; simp only [if_neg hsz]; rfl)

theorem exec_eob_refine (r : BitVec 4) :
    (if r = 0 then exec .acEob s else exec (.acEobRun r) s) = s.endUnit (s.dec.refineEob s.cfg v b r.toNat) := by
  split
  · rename_i hr
    subst hr
    exact (State.atSymbol_some hb).trans (by rw [hm]; rfl)
  · exact (State.atSymbol_some hb).trans (by rw [hm])

theorem step_runBlock_refine (hk : s.dec.prog.k = 0) (hrun : 0 < s.dec.scan.eobrun.toNat) :
    step s = settle s (s.endUnit (s.dec.refineEobBlock s.cfg v b s.dec.scan.ss)) := by
  rw [step_of_fetch_ends (State.currentBlock_some hb).1 (State.fetch_runBlock hb (.inr hm) hk hrun), Dec.runBlock,
    if_pos hm]

end

/-- Settles O38, symbol by symbol. -/
theorem refinementSymbols : Obligations.RefinementSymbols := by
  refine ⟨?eob, ?runs, ?index, ?run⟩
  case eob =>
    intro r s v b x rd d hb hm hr hrest
    have hscan : d.scan = s.dec.scan := (Dec.Passed.refineRest hrest).scan_eq
    have hprogressive : d.scan.mode ≠ .seq := by simp [hscan, hm]
    rw [exec_eob_refine hb hm, Dec.refineEob, hr, except_ok_bind]
    simp only [Dec.refineEobBlock, Dec.withEobrun_scan, Dec.withRd_scan]
    rw [Dec.refineRest_withEobrun _ hrest, except_ok_bind, ← hscan]
    exact s.endUnit_blockDone_progressive rfl hprogressive
  case runs =>
    intro s v b hb hm
    refine ⟨fun r sz hsz => exec_acRunSize_category hb hm r hsz, fun k d hskip => ?_,
      fun r bit rd k d hbit hskip => ?_⟩
    · have hprogressive : d.scan.mode ≠ .seq := by simp [(Dec.Passed.refineSkip hskip).scan_eq, hm]
      rw [exec_acZrl_refine hb hm, Dec.refineRun_zrl, hskip]
      exact s.endUnit_nextK (k + 1) fun hseq => absurd hseq hprogressive
    · have hscan : d.scan = s.dec.scan := (Dec.Passed.refineSkip hskip).scan_eq
      have hprogressive : d.scan.mode ≠ .seq := by simp [hscan, hm]
      rw [exec_acRunSize_refine hb hm, Dec.refineRun_coef _ _ _ hbit, hskip, except_ok_bind,
        Dec.writeBlk_target hskip, except_ok_bind, hscan]
      exact s.endUnit_nextK (k + 1) fun hseq => absurd hseq hprogressive
  case index =>
    intro s v b left hb hm hw hse hp hleft
    have h : s.dec.HasBlock b := ⟨hw, hp⟩
    refine ⟨fun bs r hrun hbits => ?_, fun run bit rd bs r hrun hbit hbits => ?_⟩
    · rw [exec_acZrl_refine hb hm, Dec.refineRun_zrl, ← hleft, h.refineSkip_raises hse hleft hrun hbits]
      rfl
    · rw [exec_acRunSize_refine hb hm, Dec.refineRun_coef _ _ _ hbit, ← hleft,
        (h.withRd rd).refineSkip_raises hse hleft hrun hbits]
      rfl
  case run =>
    intro s v b hb hm hk hrun
    rw [step_runBlock_refine hb hm hk hrun, Dec.refineEobBlock]
    refine ⟨fun d hrest => ?_, fun hs hrest => ?_, fun e hrest => ?_⟩
    · have hscan : d.scan = s.dec.scan := (Dec.Passed.refineRest hrest).scan_eq
      rw [hrest, except_ok_bind, ← hscan]
      exact s.settle_blockDone (by simp [hscan, hm])
    · obtain ⟨hv, hf, -⟩ := State.currentBlock_some hb
      rw [hrest, except_error_bind, State.endUnit_suspend, settle_quiet (State.returnDecode_events _ _),
        State.returnDecode_starved hv hs (by simp [hf])]
    · rw [hrest, except_error_bind, State.endUnit_raise]
      exact settle_quiet rfl

end Sys2Proof.Machine
end

section
/-! PROOFS. What no entropy symbol changes (R200 to R210). -/

namespace Sys2Proof.Machine

/-- What a symbol of the block `b` leaves of the registers `d` in `d'`: it writes cells of its block only, of the
components at most the predictor of its own, and that only where it is a DC symbol (`dc`). -/
structure Dec.Within (b : BlockRef) (dc : Bool) (d d' : Dec) : Prop where
  same : d' = { d with
    fsm := d'.fsm, cur := d'.cur, bb := d'.bb, comp := d'.comp, planes := { d.planes with mem := d'.planes.mem }
    scan := { d.scan with mcu := d'.scan.mcu, rstLeft := d'.scan.rstLeft, eobrun := d'.scan.eobrun }
    out := d'.out, flush := d'.flush, prog := d'.prog } := by rfl
  comp : ∀ j, d'.comp.get j = { d.comp.get j with pred := (d'.comp.get j).pred } := by exact fun _ => rfl
  pred : ∀ j, j ≠ b.sc.ci ∨ dc = false → (d'.comp.get j).pred = (d.comp.get j).pred := by exact fun _ _ => rfl
  cellAddr : d'.cellAddr b.sc.ci b.row b.col 0 = d.cellAddr b.sc.ci b.row b.col 0 := by rfl
  mem_wf : d.planes.mem.wf = true → d'.planes.mem.wf = true := by exact id
  outside : d.planes.mem.wf = true →
    ∀ a, a < d.cellAddr b.sc.ci b.row b.col 0 ∨ d.cellAddr b.sc.ci b.row b.col 0 + 128 ≤ a →
      d'.planes.mem.read a = d.planes.mem.read a := by exact fun _ _ _ => rfl

section
variable {b : BlockRef} {dc : Bool} {d d' : Dec}

theorem Dec.Within.trans {d'' : Dec} (h : Dec.Within b dc d d') (h' : Dec.Within b dc d' d'') :
    Dec.Within b dc d d'' where
  same := by
    have hsame := h'.same
    rw [h.same] at hsame
    exact hsame
  comp j := by rw [h'.comp j, h.comp j]
  pred j hj := (h'.pred j hj).trans (h.pred j hj)
  cellAddr := h'.cellAddr.trans h.cellAddr
  mem_wf hw := h'.mem_wf (h.mem_wf hw)
  outside hw a ha := (h'.outside (h.mem_wf hw) a (h.cellAddr ▸ ha)).trans (h.outside hw a ha)

theorem Dec.Within.passed (h : Dec.Passed b d d') : Dec.Within b dc d d' where
  same := by rw [h.same]; rfl
  comp j := by rw [h.same]; rfl
  pred j _ := by rw [h.same]; rfl
  cellAddr := by rw [h.same]; rfl
  mem_wf := h.mem_wf
  outside := h.outside

theorem Dec.Within.withPred (d : Dec) (x : Half) : Dec.Within b true d (d.withPred b.sc.ci x) where
  comp j := by
    rw [Dec.withPred_comp]
    by_cases hj : j = b.sc.ci
    · subst hj
      rw [Quad.get_set_same]
    · rw [Quad.get_set_other _ _ hj]
  pred j hj := by
    rw [Dec.withPred_comp, Quad.get_set_other _ _ (hj.resolve_right (by decide))]
  cellAddr := Dec.withPred_cellAddr d _ _ x _ _ _

theorem Dec.Within.clearBlock (h : d.clearBlock b.sc.ci b.row b.col = .ok d') : Dec.Within b dc d d' := by
  obtain ⟨-, rfl⟩ := Dec.clearBlock_ok_iff.1 h
  exact {
    mem_wf := fun hw => Memory.clear_wf _ _ hw
    outside := fun hw a ha => (Memory.read_clear _ _ _ hw).trans (if_neg (by omega)) }

/-- AFTER_MCU changes STATE only (R210). -/
theorem Dec.Within.afterMcu (b : BlockRef) (dc : Bool) (d : Dec) : Dec.Within b dc d d.afterMcu := by
  rcases Dec.afterMcu_cases d with h | h <;> rw [h] <;> exact {}

end

/-- Where the part `r` of an MCU unit answers, it leaves what a symbol of the block `b` leaves. -/
def Dec.WithinEnd (b : BlockRef) (dc : Bool) (d : Dec) (r : Except UnitStop UnitDone) : Prop :=
  ∀ u, r = .ok u → u.Leaves (Dec.Within b dc d)

section
variable {b : BlockRef} {dc : Bool} {d d' : Dec} {cfg : Config} {v : List Byte}

theorem Dec.WithinEnd.raise (c : Cause) : Dec.WithinEnd b dc d (raise c) := by
  rintro u ⟨⟩

theorem Dec.WithinEnd.bind {α : Type} {x : Except UnitStop α} {f : α → Except UnitStop UnitDone}
    (h : ∀ a, x = .ok a → Dec.WithinEnd b dc d (f a)) : Dec.WithinEnd b dc d (x >>= f) := by
  intro u hu
  obtain ⟨a, ha, hu⟩ := except_bind_ok.1 hu
  exact h a ha u hu

/-- What follows a change that stays within the block. -/
theorem Dec.WithinEnd.after {r : Except UnitStop UnitDone} (h : Dec.Within b dc d d') (hr : Dec.WithinEnd b dc d' r) :
    Dec.WithinEnd b dc d r := by
  intro u hu
  have := hr u hu
  cases u with
  | commit => exact h.trans this
  | cont => exact h.trans this
  | stop => trivial

theorem Dec.WithinEnd.blockDone : Dec.WithinEnd b dc d (d.blockDone cfg) := by
  intro u hu
  rcases Dec.blockDone_ok hu with rfl | ⟨o, fl, evs, -, rfl⟩
  · exact {}
  · exact Dec.Within.trans {} (.afterMcu b dc { d.countMcu with out := o, flush := fl })

theorem Dec.WithinEnd.nextK (k : Nat) : Dec.WithinEnd b dc d (d.nextK cfg k) := by
  unfold Dec.nextK
  split
  · rintro u ⟨⟩
    exact {}
  · exact .blockDone

/-! ## The symbols -/

theorem Dec.WithinEnd.seqDc (t : Nat) : Dec.WithinEnd b true d (d.seqDc v b t) :=
  .bind fun (_, r) _ => .after (.passed (.withRd b d r)) <| .after (.withPred (d.withRd r) _) <|
    .bind fun _ h1 => .after (.clearBlock h1) <| .bind fun _ h2 => .after (.passed (.writeBlk (by decide) h2)) <| by
      rintro u ⟨⟩
      exact {}

theorem Dec.WithinEnd.firstDc (t : Nat) : Dec.WithinEnd b true d (d.firstDc cfg v b t) :=
  .bind fun (x, r) _ => .after (.passed (.withRd b d r)) <| .after (.withPred (d.withRd r) _) <|
    .bind fun d1 h1 => .after (.passed (.writeBlk (by decide) h1)) .blockDone

theorem Dec.WithinEnd.refineDc (bit : Bool) : Dec.WithinEnd b dc d (d.refineDc cfg b bit) := by
  refine .bind fun c _ => ?_
  split
  · exact .bind fun d1 h1 => .after (.passed (.writeBlk (by decide) h1)) .blockDone
  · exact .blockDone

theorem Dec.WithinEnd.acCoef (r sz : Nat) : Dec.WithinEnd b dc d (d.acCoef cfg v b r sz) :=
  .bind fun _ _ => .bind fun (_, rd) _ => .after (.passed (.withRd b d rd)) <|
    .bind fun _ h1 => .after (.passed (.writeBlk (zz_lt _) h1)) (.nextK _)

theorem Dec.WithinEnd.acZrl : Dec.WithinEnd b dc d (d.acZrl cfg) := .bind fun _ _ => .nextK _

theorem Dec.WithinEnd.firstEob (r : Nat) : Dec.WithinEnd b dc d (d.firstEob cfg v r) :=
  .bind fun (x, rd) _ => .after (.passed (.withRd b d rd)) <|
    .after (d' := (d.withRd rd).withEobrun (BitVec.ofNat 16 (2 ^ r + x - 1))) {} .blockDone

theorem Dec.WithinEnd.refineRun (r : Nat) (coef : Bool) : Dec.WithinEnd b dc d (d.refineRun cfg v b r coef) := by
  cases coef with
  | false =>
    rw [Dec.refineRun_zrl]
    exact .bind fun (k, d1) h1 => .after (.passed (.refineSkip h1)) (.nextK _)
  | true =>
    exact .bind fun (bit, rd) _ => .bind fun (k, d1) h1 =>
      .after (.passed ((Dec.Passed.withRd b d rd).trans (.refineSkip h1))) <|
        .bind fun d2 h2 => .after (.passed (.writeBlk (zz_lt k) h2)) (.nextK _)

theorem Dec.WithinEnd.refineEob (r : Nat) : Dec.WithinEnd b dc d (d.refineEob cfg v b r) :=
  .bind fun (x, rd) _ => .after (.passed (.withRd b d rd)) <|
    .after (d' := (d.withRd rd).withEobrun (BitVec.ofNat 16 (2 ^ r + x))) {} <|
      .bind fun d1 h1 => .after (.passed (.refineRest h1)) <|
        .after (d' := d1.withEobrun (d1.scan.eobrun - 1)) {} .blockDone

end

/-- An entropy symbol that answers a next state is a part of the MCU unit that stays within its block. -/
theorem exec_symbol_within {i : Instr} {s t : State} {v : List Byte} {b : BlockRef} (hi : isSymbol i = true)
    (hb : s.currentBlock = some (v, b)) (h : exec i s = .next t) :
    ∃ r, s.endUnit r = .next t ∧ Dec.WithinEnd b (ctxOf i == .dcSymbol) s.dec r := by
  cases i
  case dcDiff x =>
    have h := (State.atSymbol_some hb).symm.trans h
    cases hm : s.dec.scan.mode <;> simp only [hm] at h
    · exact ⟨_, h, .seqDc _⟩
    · exact ⟨_, h, .firstDc _⟩
    all_goals cases h
  case dcRefineBit x =>
    have h := (State.atSymbol_some hb).symm.trans h
    cases hm : s.dec.scan.mode <;> simp only [hm] at h
    case dcRefine => exact ⟨_, h, .refineDc _⟩
    all_goals cases h
  case acEob =>
    have h := (State.atSymbol_some hb).symm.trans h
    cases hm : s.dec.scan.mode <;> simp only [hm] at h
    case seq => exact ⟨_, h, .blockDone⟩
    case acFirst => exact ⟨_, h, .firstEob _⟩
    case acRefine => exact ⟨_, h, .refineEob _⟩
    all_goals cases h
  case acZrl =>
    have h := (State.atSymbol_some hb).symm.trans h
    cases hm : s.dec.scan.mode <;> simp only [hm] at h
    case seq | acFirst => exact ⟨_, h, .acZrl⟩
    case acRefine => exact ⟨_, h, .refineRun _ _⟩
    all_goals cases h
  case acEobRun r =>
    have h := (State.atSymbol_some hb).symm.trans h
    cases hm : s.dec.scan.mode <;> simp only [hm] at h
    case seq => exact ⟨_, h, .raise _⟩
    case acFirst => exact ⟨_, h, .firstEob _⟩
    case acRefine => exact ⟨_, h, .refineEob _⟩
    all_goals cases h
  case acRunSize r sz =>
    have h := (State.atSymbol_some hb).symm.trans h
    cases hm : s.dec.scan.mode <;> simp only [hm] at h
    case seq | acFirst => exact ⟨_, h, .acCoef _ _⟩
    case acRefine =>
      refine ⟨_, h, ?_⟩
      split
      · exact .refineRun _ _
      · exact .raise _
    all_goals cases h
  all_goals cases hi

/-- Settles O40: every symbol's part of the MCU unit stays within its block, and the MCU's end only counts. -/
theorem symbolFrame : Obligations.SymbolFrame := by
  intro i s t v b hi hw hb h hv
  obtain ⟨r, hend, hr⟩ := exec_symbol_within hi hb h
  have hframe := State.endUnit_frame hend
  have hgoes : Dec.Within b (ctxOf i == .dcSymbol) s.dec t.dec ∧ t.view = s.view ∧ t.results = s.results := by
    rcases State.endUnit_next hend with ⟨d, evs, rfl, rfl⟩ | ⟨d, rfl, rfl⟩ | ⟨-, rfl⟩ | ⟨-, rfl⟩ | ⟨e, -, rfl⟩
    · exact ⟨hr _ rfl, rfl, rfl⟩
    · exact ⟨hr _ rfl, rfl, rfl⟩
    · exact absurd (State.returnDecode_view _ _) hv
    · exact absurd (State.returnDecode_view _ _) hv
    · exact absurd rfl hv
  obtain ⟨hd, hview, hresults⟩ := hgoes
  have hsame := hd.same
  refine ⟨hd.outside hw, ?_, hd.comp, fun j hj => hd.pred j (hj.imp_right fun hc => by simpa using hc), ?_, ?_, ?_, ?_,
    ?_, ?_, ?_, ?_, ?_, ?_, ?_, ?cfg, hview, ?mq, ?enc, ?pk, hresults, ?hostq, ?answers, ?reenters⟩
  case cfg | mq | enc | pk | hostq | answers | reenters => rw [hframe]
  all_goals rw [hsame]

end Sys2Proof.Machine
end

section
/-! PROOFS. Bits that begin with no code of a canonical table, and DC symbols above 15, are rejected (R180, R181, R200,
R202). -/

namespace Sys2Proof.Machine

/-! ## The arrays of a canonical table (R171) -/

section
variable {e : HEntry} (he : e.Canonical) {l : Nat} (hl : l < 16)
include he hl

theorem HEntry.Canonical.mincode_getD :
    e.mincode.getD l 0 = ((List.range l).map fun i => (e.bits.getD i 0).toNat * 2 ^ (l - i)).sum := by
  rw [he.mincodes]
  simp [List.getD_eq_getElem?_getD, hl]

theorem HEntry.Canonical.maxcode_getD :
    e.maxcode.getD l (-1) =
      if e.bits.getD l 0 = 0 then -1 else (e.mincode.getD l 0 : Int) + (e.bits.getD l 0).toNat - 1 := by
  rw [he.maxcodes]
  simp [List.getD_eq_getElem?_getD, hl]

/-- The codes of a length begin where those of the length before it end, a bit 0 appended. -/
theorem HEntry.Canonical.mincode_succ :
    e.mincode.getD (l + 1) 0 ≤ 2 * (e.mincode.getD l 0 + (e.bits.getD l 0).toNat) := by
  rcases Nat.lt_or_ge (l + 1) 16 with h | h
  · rw [he.mincode_getD h, he.mincode_getD hl, List.range_succ, List.map_append, List.sum_append]
    have hdouble : ((List.range l).map fun i => (e.bits.getD i 0).toNat * 2 ^ (l + 1 - i)).sum =
        2 * ((List.range l).map fun i => (e.bits.getD i 0).toNat * 2 ^ (l - i)).sum := by
      rw [← List.sum_map_mul_left]
      congr 1
      refine List.map_congr_left fun i hi => ?_
      rw [Nat.succ_sub (List.mem_range.1 hi).le, Nat.pow_succ]
      ring
    rw [hdouble]
    simp
    omega
  · rw [List.getD_eq_default _ _ (by simpa [he.mincodes] using h)]
    exact Nat.zero_le _

/-- A code that is none of its length's lies past them, if it does not lie before them. -/
theorem HEntry.Canonical.past_of_not_matched {code : Nat} (hmin : e.mincode.getD l 0 ≤ code)
    (h : ¬(e.maxcode.getD l (-1) ≥ 0 ∧ (code : Int) ≤ e.maxcode.getD l (-1))) :
    e.mincode.getD l 0 + (e.bits.getD l 0).toNat ≤ code := by
  rw [he.maxcode_getD hl] at h
  by_cases h0 : e.bits.getD l 0 = 0
  · rw [h0]
    exact hmin
  · rw [if_neg h0] at h
    omega

end

/-- The code lengths: those below `l + 1`, then those of `l + 1`, then the others. -/
theorem flatMap_lengths_split (f : Nat → List Nat) {l : Nat} (hl : l < 16) :
    ∃ rest, (List.range 16).flatMap f = (List.range l).flatMap f ++ (f l ++ rest) := by
  obtain ⟨m, hm⟩ : ∃ m, 16 = l + (m + 1) := ⟨15 - l, by omega⟩
  refine ⟨(((List.range m).map Nat.succ).map (l + ·)).flatMap f, ?_⟩
  rw [hm, List.range_add, List.flatMap_append, List.range_succ_eq_map, List.map_cons, List.flatMap_cons]
  rfl

theorem sum_map_flatMap_replicate (n g : Nat → Nat) (l : Nat) :
    (((List.range l).flatMap fun i => List.replicate (n i) (i + 1)).map g).sum =
      ((List.range l).map fun i => n i * g (i + 1)).sum := by
  induction l with
  | zero => rfl
  | succ l ih => simp [List.range_succ, ih]

/-- A code between the first and the last of its length is the code of some symbol. -/
theorem HEntry.Canonical.matched {e : HEntry} (he : e.Canonical) {l code : Nat} (hl : l < 16)
    (hmin : e.mincode.getD l 0 ≤ code)
    (hmax : e.maxcode.getD l (-1) ≥ 0 ∧ (code : Int) ≤ e.maxcode.getD l (-1)) :
    ∃ j : Nat, e.huffcode[j]? = some code ∧ e.huffsize[j]? = some (l + 1) := by
  obtain ⟨i, rfl⟩ : ∃ i, code = e.mincode.getD l 0 + i := ⟨code - e.mincode.getD l 0, by omega⟩
  have hi : i < (e.bits.getD l 0).toNat := by
    rw [he.maxcode_getD hl] at hmax
    split at hmax <;> omega
  obtain ⟨rest, hsplit⟩ := flatMap_lengths_split (fun l => List.replicate (e.bits.getD l 0).toNat (l + 1)) hl
  rw [← he.sizes] at hsplit
  have hbefore := sum_map_flatMap_replicate (fun l => (e.bits.getD l 0).toNat) (fun l => 2 ^ (16 - l)) l
  generalize (List.range l).flatMap (fun l => List.replicate (e.bits.getD l 0).toNat (l + 1)) = before at hsplit hbefore
  have hsize : e.huffsize[before.length + i]? = some (l + 1) := by
    rw [hsplit, List.getElem?_append_right (Nat.le_add_right _ _), Nat.add_sub_cancel_left,
      List.getElem?_append_left (by simpa using hi), List.getElem?_replicate, if_pos hi]
  obtain ⟨hj, -⟩ := List.getElem?_eq_some_iff.1 hsize
  have hplaces : ((e.huffsize.take (before.length + i)).map fun l => 2 ^ (16 - l)).sum =
      (e.mincode.getD l 0 + i) * 2 ^ (15 - l) := by
    have hfirst : e.mincode.getD l 0 * 2 ^ (15 - l) =
        ((List.range l).map fun i => (e.bits.getD i 0).toNat * 2 ^ (16 - (i + 1))).sum := by
      rw [he.mincode_getD hl, ← List.sum_map_mul_right]
      congr 1
      refine List.map_congr_left fun j hj => ?_
      have hjl := List.mem_range.1 hj
      rw [Nat.mul_assoc, ← Nat.pow_add]
      congr 2
      omega
    rw [hsplit, List.take_length_add_append, List.take_append_of_le_length (by simpa using hi.le), List.take_replicate,
      Nat.min_eq_left hi.le, List.map_append, List.sum_append, hbefore, ← hfirst]
    simp [Nat.add_mul]
  have hcode := (he.codes _ hj).trans hplaces
  rw [List.getD_eq_getElem?_getD (l := e.huffsize), hsize] at hcode
  have hcode : e.huffcode.getD (before.length + i) 0 = e.mincode.getD l 0 + i :=
    Nat.eq_of_mul_eq_mul_right (Nat.two_pow_pos (15 - l)) (by simpa using hcode)
  refine ⟨before.length + i, ?_, hsize⟩
  rw [List.getD_eq_getElem _ _ (he.oneEach ▸ hj)] at hcode
  rw [← hcode]
  exact List.getElem?_eq_getElem (he.oneEach ▸ hj)

/-! ## No code matches (R180, R181) -/

theorem bitsValue_append (bs : List Bool) (b : Bool) : bitsValue (bs ++ [b]) = bitsValue bs * 2 + b.toNat := by
  rw [bitsValue, List.foldl_append, Nat.mul_comm]
  rfl

/-- No code begins the bits `bs`. -/
def HEntry.Unmatched (e : HEntry) (bs : List Bool) : Prop :=
  ∀ j code size : Nat, e.huffcode[j]? = some code → e.huffsize[j]? = some size → bitsValue (bs.take size) ≠ code

/-- The search after the bits `pre`, which lie past every shorter code. -/
theorem HEntry.Canonical.decodeSymFrom_unmatched {e : HEntry} (he : e.Canonical) {v : List Byte} {more : Bool}
    {fuel : Nat} {pre bs : List Bool} {r r' : Rd} (hlen : pre.length + fuel = 16)
    (hmin : e.mincode.getD pre.length 0 ≤ 2 * bitsValue pre) (hbits : readBits v more fuel r = .ok (bs, r'))
    (hno : e.Unmatched (pre ++ bs)) :
    decodeSymFrom v more e fuel (bitsValue pre) (pre.length + 1) r = raise .huffBadCode := by
  induction fuel generalizing pre bs r with
  | zero => rfl
  | succ fuel ih =>
    rw [readBits_succ] at hbits
    obtain ⟨⟨b, r1⟩, hb, hbits⟩ := except_bind_ok.1 hbits
    obtain ⟨⟨bs, r2⟩, hrest, hbits⟩ := except_bind_ok.1 hbits
    cases hbits
    have hl : pre.length < 16 := by omega
    have hlen' : (pre ++ [b]).length = pre.length + 1 := by simp
    have hsnoc : pre ++ b :: bs = (pre ++ [b]) ++ bs := by simp
    have hcode : e.mincode.getD pre.length 0 ≤ bitsValue (pre ++ [b]) := by
      rw [bitsValue_append]
      omega
    have hnot : ¬(e.maxcode.getD pre.length (-1) ≥ 0 ∧
        ((bitsValue (pre ++ [b]) : Nat) : Int) ≤ e.maxcode.getD pre.length (-1)) := fun hmax => by
      obtain ⟨j, hj, hsize⟩ := he.matched hl hcode hmax
      refine hno j _ _ hj hsize ?_
      rw [hsnoc, ← hlen', List.take_left]
    rw [decodeSymFrom, hb, except_ok_bind]
    dsimp only
    rw [← bitsValue_append, Nat.add_sub_cancel, if_neg hnot, ← hlen']
    refine ih (by omega) ?_ hrest (hsnoc ▸ hno)
    rw [hlen']
    exact (he.mincode_succ hl).trans (Nat.mul_le_mul_left 2 (he.past_of_not_matched hl hcode hnot))

/-! ## The steps that raise (R181, R200, R202) -/

theorem State.fetchDc_error {s : State} {v : List Byte} {b : BlockRef} {e : UnitStop}
    (h : decodeSym v s.dec.more (s.dec.htDc.get b.sc.td) s.dec.rd = .error e) : s.fetchDc v b = .ends (.error e) := by
  simp only [State.fetchDc, h]

theorem State.fetchDc_above {s : State} {v : List Byte} {b : BlockRef} {sym : Byte} {r : Rd}
    (h : decodeSym v s.dec.more (s.dec.htDc.get b.sc.td) s.dec.rd = .ok (sym, r)) (hs : 16 ≤ sym.toNat) :
    s.fetchDc v b = .ends (raise .huffDcSize) := by
  simp only [State.fetchDc, h, decode_dcSymbol_above [] hs]

theorem State.fetchAc_error {s : State} {v : List Byte} {b : BlockRef} {k : Nat} {e : UnitStop} (hk : k ≤ s.dec.lastK)
    (h : decodeSym v s.dec.more (s.dec.htAc.get b.sc.ta) s.dec.rd = .error e) : s.fetchAc v b k = .ends (.error e) := by
  simp only [State.fetchAc, if_neg (Nat.not_lt.2 hk), h]

/-- Settles O43: the search passes every length without a match, and a step ends as its fetch does. -/
theorem symbolsRejected : Obligations.SymbolsRejected := by
  refine ⟨?code, ?dc, ?ac⟩
  case code =>
    intro bs e v more r r' he hbits hno
    have hmin : e.mincode.getD 0 0 ≤ 0 := (he.mincode_getD (by decide)).le
    exact he.decodeSymFrom_unmatched (pre := []) rfl hmin hbits hno
  case dc =>
    intro s v b hb hm
    have hv := (State.currentBlock_some hb).1
    refine ⟨fun sym r h hs => ?_, fun h => ?_⟩
    · exact step_of_fetch_raise hv ((State.fetch_dc hb hm).trans (State.fetchDc_above h hs))
    · exact step_of_fetch_raise hv ((State.fetch_dc hb hm).trans (State.fetchDc_error h))
  case ac =>
    intro s v b hb hm hk h
    have hv := (State.currentBlock_some hb).1
    obtain ⟨k, hk', hfetch⟩ : ∃ k, k ≤ s.dec.lastK ∧ s.fetch v = s.fetchAc v b k := by
      rcases hm with ⟨hm, h0⟩ | ⟨hm, ⟨h0, he, hs⟩ | h0⟩
      · exact ⟨_, hk, State.fetch_ac hb (.inl ⟨hm, rfl, h0⟩)⟩
      · exact ⟨_, hs, State.fetch_ac hb (.inr ⟨hm, .inl ⟨h0, he, rfl⟩⟩)⟩
      · exact ⟨_, hk, State.fetch_ac hb (.inr ⟨hm, .inr ⟨rfl, h0⟩⟩)⟩
    exact step_of_fetch_raise hv (hfetch.trans (State.fetchAc_error hk' h))

end Sys2Proof.Machine
end

section
/-! PROOFS. The arithmetic engine: what MQ_INITDEC, MQ_RESETCTX and MQ_DECODE answer (R230 to R239). -/

namespace Sys2Proof.Machine

/-! ## Contexts (R231, R236, R238) -/

@[simp] theorem initContexts_length (cfg : Config) : (initContexts cfg).length = cfg.nCx := by simp [initContexts]

/-- A context's initial value is MQ_INIT's, or row 0 where MQ_INIT gives none (R238). -/
theorem initContexts_i_le {cfg : Config} (h : ∀ c ∈ cfg.mqInit, c.i ≤ 46) : ∀ c ∈ initContexts cfg, c.i ≤ 46 := by
  intro c hc
  obtain ⟨n, -, rfl⟩ := List.mem_map.1 hc
  rw [List.getD_eq_getElem?_getD]
  cases hn : cfg.mqInit[n]? with
  | none => simp
  | some c => exact h c (List.mem_of_getElem? hn)

theorem ctxLps_eq (c : Ctx) (q : QeRow) : ctxLps c q = { i := q.nlps, mps := c.mps ^^ q.sw } := by
  cases hs : q.sw <;> simp [ctxLps, hs]

/-! ## MQ_INITDEC (R233) -/

/-- A sum in place 2^n of a word, as a number. -/
theorem add_shiftLeft (c x : Word) (n : Nat) : (c + x) <<< n = BitVec.ofNat 32 ((c.toNat + x.toNat) * 2 ^ n) := by
  apply BitVec.eq_of_toNat_eq
  simp [Nat.shiftLeft_eq, Nat.add_mul]

/-- MQ_INITDEC by the cases of its BYTEIN: bits 1 at a marker, 7 bits after an FF, 8 bits otherwise (R233, R234). -/
theorem Mq.initDec_eq (m : Mq) (seg : List Byte) {b0 b1 : Byte} (h0 : b0 = seg.getD 0 0xFF) (h1 : b1 = seg.getD 1 0xFF) :
    m.initDec seg =
      { seg := seg, a := 0x8000, cx := m.cx
        bp := if b0 = 0xFF ∧ 0x8F < b1.toNat then 0 else 1
        ct := if b0 = 0xFF ∧ b1.toNat ≤ 0x8F then 0 else 1
        c := BitVec.ofNat 32
          ((b0.toNat * 2 ^ 16 +
            (if b0 = 0xFF then (if 0x8F < b1.toNat then 0xFF00 else b1.toNat * 2 ^ 9) else b1.toNat * 2 ^ 8)) *
            2 ^ 7) } := by
  unfold Mq.initDec Mq.byteIn Mq.byte
  simp only [Nat.zero_add, ← h0, ← h1, ← Nat.not_lt (a := 0x8F)]
  have h16 : ∀ b : Byte, (b.setWidth 32 <<< 16).toNat = b.toNat * 2 ^ 16 := fun b => byteAt_toNat b (by decide)
  by_cases hff : b0 = 0xFF
  · by_cases hmark : 0x8F < b1.toNat
    · simp only [hff, hmark, add_shiftLeft, h16, if_true, not_true, and_false, and_true, if_false]
      rfl
    · simp only [hff, hmark, add_shiftLeft, h16, byteAt_toNat b1 (show 9 ≤ 24 by decide), if_true, if_false, not_false_iff,
        and_true, and_false, Nat.sub_self]
  · simp only [hff, add_shiftLeft, h16, byteAt_toNat b1 (show 8 ≤ 24 by decide), if_false, false_and]

/-- Settles O47: MQ_INITDEC is its register writes after one BYTEIN, and MQ_RESETCTX writes the contexts only. -/
theorem mqInitAndReset : Obligations.MqInitAndReset := by
  intro s seg b0 b1 hv hp h0 h1
  refine ⟨(State.atMq_present hv hp).trans ?_, State.atMq_present hv hp⟩
  rw [Mq.initDec_eq s.mq seg h0 h1]

/-! ## MQ_DECODE (R235 to R237) -/

section
variable {m : Mq} {cx : Nat} {c : Ctx} {q : QeRow}

/-- An LPS_EXCHANGE with A below Qe decodes the MPS (R236). -/
theorem Mq.lpsExchange_below (h : m.a.toNat < q.qe) :
    m.lpsExchange cx c q =
      (c.mps, { m with a := BitVec.ofNat 16 q.qe, cx := m.cx.set cx { c with i := q.nmps } }) := if_pos h

theorem Mq.lpsExchange_above (h : ¬m.a.toNat < q.qe) :
    m.lpsExchange cx c q =
      (!c.mps, { m with a := BitVec.ofNat 16 q.qe, cx := m.cx.set cx { i := q.nlps, mps := c.mps ^^ q.sw } }) := by
  rw [← ctxLps_eq]
  exact if_neg h

/-- An MPS_EXCHANGE with A below Qe decodes the LPS (R236). -/
theorem Mq.mpsExchange_below (h : m.a.toNat < q.qe) :
    m.mpsExchange cx c q = (!c.mps, { m with cx := m.cx.set cx { i := q.nlps, mps := c.mps ^^ q.sw } }) := by
  rw [← ctxLps_eq]
  exact if_pos h

theorem Mq.mpsExchange_above (h : ¬m.a.toNat < q.qe) :
    m.mpsExchange cx c q = (c.mps, { m with cx := m.cx.set cx { c with i := q.nmps } }) := if_neg h

@[simp] theorem Mq.lpsExchange_a (m : Mq) (cx : Nat) (c : Ctx) (q : QeRow) :
    (m.lpsExchange cx c q).2.a = BitVec.ofNat 16 q.qe := by
  unfold Mq.lpsExchange
  split <;> rfl

@[simp] theorem Mq.mpsExchange_a (m : Mq) (cx : Nat) (c : Ctx) (q : QeRow) : (m.mpsExchange cx c q).2.a = m.a := by
  unfold Mq.mpsExchange
  split <;> rfl

/-- Qe in place 2^16 of the code register. -/
theorem qe_shiftLeft (n : Nat) : BitVec.ofNat 32 n <<< 16 = BitVec.ofNat 32 (n * 2 ^ 16) := by
  apply BitVec.eq_of_toNat_eq
  simp [Nat.shiftLeft_eq]

/-- C below Qe: LPS_EXCHANGE, then RENORMD (R235). -/
theorem Mq.decision_lps (h : m.c.toNat / 2 ^ 16 < q.qe) :
    m.decision cx c q = renormed (({ m with a := m.a - BitVec.ofNat 16 q.qe } : Mq).lpsExchange cx c q) := if_pos h

/-- C at or above Qe and bit 15 of A still set: no exchange (R235). -/
theorem Mq.decision_quiet (h : ¬m.c.toNat / 2 ^ 16 < q.qe) (ha : 0x8000 ≤ (m.a - BitVec.ofNat 16 q.qe).toNat) :
    m.decision cx c q =
      some (c.mps, { m with a := m.a - BitVec.ofNat 16 q.qe, c := m.c - BitVec.ofNat 32 (q.qe * 2 ^ 16) }) := by
  rw [← qe_shiftLeft]
  exact (if_neg h).trans (if_pos (by rwa [topBit, decide_eq_true_eq]))

/-- C at or above Qe and bit 15 of A clear: MPS_EXCHANGE, then RENORMD (R235). -/
theorem Mq.decision_mps (h : ¬m.c.toNat / 2 ^ 16 < q.qe) (ha : ¬0x8000 ≤ (m.a - BitVec.ofNat 16 q.qe).toNat) :
    m.decision cx c q = renormed (({ m with
      a := m.a - BitVec.ofNat 16 q.qe, c := m.c - BitVec.ofNat 32 (q.qe * 2 ^ 16) } : Mq).mpsExchange cx c q) := by
  rw [← qe_shiftLeft]
  exact (if_neg h).trans (if_neg (by rwa [topBit, decide_eq_true_eq]))

end

/-- RENORMD of a non-zero interval below 8000 ends, by its turns (R237). -/
theorem renormed_some {r : Bool × Mq} (h : r.2.a.toNat ≠ 0) (h0 : r.2.a.toNat < 0x8000) :
    ∃ m', renormed r = some (r.1, m') ∧ MqRenormed r.2 m' := by
  obtain ⟨m', hm⟩ := Mq.renorm_some h h0
  exact ⟨m', by simp [renormed, hm], Mq.renormFrom_renormed hm⟩

/-- MQ_DECODE of a context whose decision ends answers the decision, in the ranges of R239(b). -/
theorem exec_mqDecode {s : State} {cx : Nat} {c : Ctx} {q : QeRow} {d : Bool} {m : Mq} (hv : s.view = none)
    (hp : s.cfg.arithPresent = true) (hs : s.MqInv) (hc : s.mq.cx[cx]? = some c) (hq : qeRom[c.i]? = some q)
    (hd : s.mq.decision cx c q = some (d, m)) :
    exec (.mqDecode cx) s = .next { s with mq := m, results := s.results ++ [(.mqDecode, .okBit d)] } ∧
      m.seg = s.mq.seg ∧ 0x8000 ≤ m.a.toNat ∧ m.ct ≤ 8 := by
  obtain ⟨-, hct, hbp, hlen, -⟩ := hs
  obtain ⟨hseg, ha, hct', -, -⟩ := Mq.decision_ok hd hct hbp
  have hlt : cx < s.cfg.nCx := hlen ▸ (List.getElem?_eq_some_iff.1 hc).1
  refine ⟨(State.atMq_present hv hp).trans ?_, hseg, ha, hct'⟩
  simp only [if_pos hlt, hc, hq, hd]

/-- Settles O48, by the branches of MQ_DECODE: Qe is at most 5601, so A - Qe stays above 0, and RENORMD ends. -/
theorem mqDecodes : Obligations.MqDecodes := by
  rintro s cx c q a1 c1 asMps asLps hv hp hs hc hq rfl rfl rfl rfl
  obtain ⟨hqe, hqe', -⟩ := qeRom_ok hq
  have hsub : (s.mq.a - BitVec.ofNat 16 q.qe).toNat ≠ 0 := by
    have := hs.1
    bv_omega
  by_cases hlps : s.mq.c.toNat / 2 ^ 16 < q.qe
  · obtain ⟨m, hm, hr⟩ := renormed_some
      (r := ({ s.mq with a := s.mq.a - BitVec.ofNat 16 q.qe } : Mq).lpsExchange cx c q)
      (by rw [Mq.lpsExchange_a]; bv_omega) (by rw [Mq.lpsExchange_a]; bv_omega)
    obtain ⟨hx, hseg, ha, hct⟩ := exec_mqDecode hv hp hs hc hq ((Mq.decision_lps hlps).trans hm)
    refine ⟨_, m, hx, hseg, ha, hct, ?_⟩
    rw [if_pos hlps]
    by_cases hlt : (s.mq.a - BitVec.ofNat 16 q.qe).toNat < q.qe
    · rw [Mq.lpsExchange_below hlt] at hr ⊢
      rw [if_pos hlt]
      exact ⟨rfl, hr⟩
    · rw [Mq.lpsExchange_above hlt] at hr ⊢
      rw [if_neg hlt]
      exact ⟨rfl, hr⟩
  by_cases hquiet : 0x8000 ≤ (s.mq.a - BitVec.ofNat 16 q.qe).toNat
  · obtain ⟨hx, hseg, ha, hct⟩ := exec_mqDecode hv hp hs hc hq (Mq.decision_quiet hlps hquiet)
    refine ⟨_, _, hx, hseg, ha, hct, ?_⟩
    rw [if_neg hlps, if_pos hquiet]
    exact ⟨rfl, rfl⟩
  · obtain ⟨m, hm, hr⟩ := renormed_some
      (r := ({ s.mq with
        a := s.mq.a - BitVec.ofNat 16 q.qe, c := s.mq.c - BitVec.ofNat 32 (q.qe * 2 ^ 16) } : Mq).mpsExchange cx c q)
      (by rwa [Mq.mpsExchange_a]) (by rw [Mq.mpsExchange_a]; exact Nat.not_le.1 hquiet)
    obtain ⟨hx, hseg, ha, hct⟩ := exec_mqDecode hv hp hs hc hq ((Mq.decision_mps hlps hquiet).trans hm)
    refine ⟨_, m, hx, hseg, ha, hct, ?_⟩
    rw [if_neg hlps, if_neg hquiet]
    by_cases hlt : (s.mq.a - BitVec.ofNat 16 q.qe).toNat < q.qe
    · rw [Mq.mpsExchange_below hlt] at hr ⊢
      rw [if_pos hlt]
      exact ⟨rfl, hr⟩
    · rw [Mq.mpsExchange_above hlt] at hr ⊢
      rw [if_neg hlt]
      exact ⟨rfl, hr⟩

end Sys2Proof.Machine
end

section
/-! PROOFS. The decoder, the arithmetic engine and the encoder share no state (R230, R390, R444, R482), and their refusals
change nothing (R230, R235, R416, R449). -/

namespace Sys2Proof.Machine

/-- A unit of DECODE touches neither the parameters nor the other units. -/
theorem State.endUnit_other_units {s t : State} {r : Except UnitStop UnitDone} (h : s.endUnit r = .next t) :
    t.cfg = s.cfg ∧ t.mq = s.mq ∧ t.enc = s.enc ∧ t.pk = s.pk := by
  rw [State.endUnit_frame h]
  exact ⟨rfl, rfl, rfl, rfl⟩

/-- An instruction of the decoder other than RESET touches neither the parameters nor the other units. -/
theorem exec_other_units {i : Instr} {s t : State} (hm : isMq i = false) (he : isEnc i = false) (hr : i ≠ .reset)
    (h : exec i s = .next t) : t.cfg = s.cfg ∧ t.mq = s.mq ∧ t.enc = s.enc ∧ t.pk = s.pk := by
  cases hctx : ctxOf i with
  | marker =>
    obtain ⟨v, r, -, hend, -⟩ := exec_marker_next hctx h
    exact State.endUnit_other_units hend
  | dcSymbol | acSymbol | rawBit =>
    obtain ⟨v, r, -, -, hend, -⟩ := exec_symbol_next (by simp [hctx]) h
    exact State.endUnit_other_units hend
  | call =>
    cases i
    case decode v more =>
      obtain ⟨-, ⟨e, -, -, rfl⟩ | ⟨-, rfl⟩⟩ := execDecode_next h <;> exact ⟨rfl, rfl, rfl, rfl⟩
    case flushProgressive =>
      obtain ⟨-, fl, evs, ans, r, -, -, -, rfl⟩ := execFlush_next h
      exact ⟨rfl, rfl, rfl, rfl⟩
    case reset => exact absurd rfl hr
    case mqInitDec | mqDecode | mqResetCtx => cases hm
    case encInit | encScanline | encFinish => cases he
    all_goals cases hctx

theorem isEnc_of_isMq {i : Instr} (h : isMq i = true) : isEnc i = false := by
  cases i
  case mqInitDec | mqDecode | mqResetCtx => rfl
  all_goals cases h

/-- Settles O60, by the frame of each kind of instruction; RESET keeps the parameters only. -/
theorem unitsShareNoState : Obligations.UnitsShareNoState := by
  intro i s t h
  by_cases hm : isMq i = true
  · have he := isEnc_of_isMq hm
    obtain ⟨-, m, r, rfl⟩ := exec_mq_frame hm h
    simp [hm, he]
  by_cases he : isEnc i = true
  · obtain ⟨-, e, p, r, rfl⟩ := exec_enc_frame he h
    simp [hm, he]
  by_cases hr : i = .reset
  · subst hr
    obtain ⟨-, rfl⟩ := execReset_next h
    simp [hm, he, State.fresh]
  · obtain ⟨hcfg, hother⟩ := exec_other_units (by simpa using hm) (by simpa using he) hr h
    exact ⟨hcfg, fun h => absurd h hm, fun h => absurd h he, fun _ _ _ => hother⟩

/-- Settles O51: each refusal is the branch of its command that R230's and R416's tables name, in their order. -/
theorem refusalsChangeNothing : Obligations.RefusalsChangeNothing := by
  intro s hv
  refine ⟨fun hp => ?_, fun hp n hn => ?_, fun ho => ?_, fun hc => ?_⟩
  · exact ⟨fun v => State.atMq_absent hv hp, fun n => State.atMq_absent hv hp, State.atMq_absent hv hp⟩
  · exact (State.atMq_present hv hp).trans (if_neg (Nat.not_lt.2 hn))
  · have hopen : ¬(!s.enc.isOpen) = true := by simp [ho]
    refine ⟨fun q w h => ?_, fun row hl => ?_, fun row hl hrows => ?_⟩
    · exact (State.atCall_none hv).trans (if_pos ho)
    · exact (State.atCall_none hv).trans ((if_neg hopen).trans (if_pos hl))
    · exact (State.atCall_none hv).trans ((if_neg hopen).trans ((if_neg (not_not.2 hl)).trans (if_pos hrows)))
  · have hopen : ¬s.enc.isOpen = true := by simp [hc]
    have hclosed : (!s.enc.isOpen) = true := by simp [hc]
    refine ⟨fun q w h hsize => ?_, fun row => ?_, ?_⟩
    · exact (State.atCall_none hv).trans ((if_neg hopen).trans (if_pos hsize))
    · exact (State.atCall_none hv).trans (if_pos hclosed)
    · exact (State.atCall_none hv).trans (if_pos hclosed)

end Sys2Proof.Machine
end

section
/-! PROOFS. Every step keeps the arithmetic engine's ranges (R231, R239). -/

namespace Sys2Proof.Machine

/-- The invariant looks at the engine and the parameters only. -/
theorem State.MqInv.of_eq {s t : State} (h : s.MqInv) (hm : t.mq = s.mq) (hc : t.cfg = s.cfg) : t.MqInv := by
  unfold State.MqInv
  rw [hm, hc]
  exact h

/-- A command of the engine is refused with nothing changed, or does its work (R230). -/
theorem State.atMq_next {s t : State} {c : Command} {o : Outcome} (h : s.atMq c o = .next t) :
    t = s.answer c .unsupported ∨ o = .next t := by
  obtain ⟨-, h⟩ := State.atCall_next h
  split at h
  · exact .inr h
  · cases h
    exact .inl rfl

/-- What MQ_DECODE can answer: a refusal, or the decision of the context's ROM row (R235). -/
theorem execMqDecode_next {s t : State} {cx : Nat} (h : execMqDecode cx s = .next t) :
    (∃ r, t = s.answer .mqDecode r) ∨
      ∃ c q d m, qeRom[c.i]? = some q ∧ s.mq.decision cx c q = some (d, m) ∧
        t = { s with mq := m, results := s.results ++ [(.mqDecode, .okBit d)] } := by
  rcases State.atMq_next h with rfl | h
  · exact .inl ⟨_, rfl⟩
  split at h
  · split at h
    · cases h
    split at h
    · cases h
    split at h
    · cases h
    · cases h
      exact .inr ⟨_, _, _, _, ‹_›, ‹_›, rfl⟩
  · cases h
    exact .inl ⟨_, rfl⟩

/-- MQ_INITDEC puts the registers in their ranges: BP moves over a byte of the segment only (R233, R239). -/
theorem Mq.initDec_ok (m : Mq) (seg : List Byte) :
    (m.initDec seg).a = 0x8000 ∧ (m.initDec seg).ct ≤ 8 ∧ (m.initDec seg).bp ≤ (m.initDec seg).seg.length ∧
      (m.initDec seg).cx = m.cx := by
  obtain ⟨hseg, -, hcx, -, hct, hbp⟩ :=
    Mq.byteIn_ok { m with seg := seg, bp := 0, c := (seg.getD 0 0xFF).setWidth 32 <<< 16 }
  exact ⟨rfl, (Nat.sub_le _ _).trans hct, (congrArg List.length hseg).symm ▸ hbp (Nat.zero_le _), hcx⟩

/-- A decision keeps the ranges: the context it changes goes to a state of the context's ROM row (R232, R239). -/
theorem State.MqInv.decision {s : State} {cx : Nat} {c : Ctx} {q : QeRow} {d : Bool} {m : Mq} (h : s.MqInv)
    (hq : qeRom[c.i]? = some q) (hd : s.mq.decision cx c q = some (d, m)) : ({ s with mq := m } : State).MqInv := by
  obtain ⟨-, hct, hbp, hlen, hi, hinit⟩ := h
  obtain ⟨hseg, ha, hct', hbp', hcx⟩ := Mq.decision_ok hd hct hbp
  obtain ⟨-, -, hmps, hlps⟩ := qeRom_ok hq
  have hset : ∀ c', c'.i ≤ 46 → (s.mq.cx.set cx c').length = s.cfg.nCx ∧ ∀ x ∈ s.mq.cx.set cx c', x.i ≤ 46 := by
    refine fun c' hc' => ⟨List.length_set.trans hlen, fun x hx => ?_⟩
    rcases List.mem_or_eq_of_mem_set hx with hx | rfl
    · exact hi x hx
    · exact hc'
  have hcxs : m.cx.length = s.cfg.nCx ∧ ∀ x ∈ m.cx, x.i ≤ 46 := by
    rcases hcx with hcx | hcx | hcx <;> rw [hcx]
    · exact ⟨hlen, hi⟩
    · exact hset _ hlps
    · exact hset _ hmps
  exact ⟨ha, hct', hseg ▸ hbp', hcxs.1, hcxs.2, hinit⟩

/-- A command of the engine keeps the ranges. -/
theorem State.MqInv.mqCommand {i : Instr} {s t : State} (hi : isMq i = true) (hs : s.MqInv) (h : exec i s = .next t) :
    t.MqInv := by
  cases i
  case mqInitDec seg =>
    rcases State.atMq_next h with rfl | h
    · exact hs.of_eq rfl rfl
    · cases h
      obtain ⟨-, -, -, hlen, hcx, hinit⟩ := hs
      obtain ⟨ha, hct, hbp, hcx'⟩ := Mq.initDec_ok s.mq seg
      exact ⟨ha ▸ by decide, hct, hbp, hcx' ▸ hlen, hcx' ▸ hcx, hinit⟩
  case mqResetCtx =>
    rcases State.atMq_next h with rfl | h
    · exact hs.of_eq rfl rfl
    · cases h
      obtain ⟨ha, hct, hbp, -, -, hinit⟩ := hs
      exact ⟨ha, hct, hbp, initContexts_length s.cfg, initContexts_i_le hinit, hinit⟩
  case mqDecode cx =>
    rcases execMqDecode_next h with ⟨r, rfl⟩ | ⟨c, q, d, m, hq, hd, rfl⟩
    · exact hs.of_eq rfl rfl
    · exact (hs.decision hq hd).of_eq rfl rfl
  all_goals cases hi

/-- The engine's reset values meet the ranges (R231). -/
theorem State.MqInv.fresh {cfg : Config} (h : ∀ c ∈ cfg.mqInit, c.i ≤ 46) : (State.fresh cfg).MqInv :=
  ⟨Nat.le_refl 0x8000, by simp [State.fresh, Mq.reset], Nat.zero_le _, initContexts_length cfg, initContexts_i_le h, h⟩

/-- RESET puts the engine at its reset values (R480). -/
theorem State.MqInv.resetCommand {s t : State} (hs : s.MqInv) (h : exec .reset s = .next t) : t.MqInv := by
  obtain ⟨-, rfl⟩ := execReset_next h
  obtain ⟨-, -, -, -, -, hinit⟩ := hs
  exact (State.MqInv.fresh hinit).of_eq rfl rfl

/-- Every instruction keeps the ranges: only the engine's commands and RESET touch the engine. -/
theorem State.MqInv.exec {i : Instr} {s t : State} (hs : s.MqInv) (h : exec i s = .next t) : t.MqInv := by
  obtain ⟨hcfg, -, henc, hother⟩ := unitsShareNoState i s t h
  by_cases hm : isMq i = true
  · exact hs.mqCommand hm h
  by_cases he : isEnc i = true
  · exact hs.of_eq (henc he).2.1 hcfg
  by_cases hr : i = .reset
  · subst hr
    exact hs.resetCommand h
  · exact hs.of_eq (hother (by simpa using hm) (by simpa using he) hr).1 hcfg

/-- No unit of a DECODE touches the engine or the parameters. -/
theorem State.MqInv.unitStep {s t : State} {v : List Byte} (hs : s.MqInv) (h : s.UnitStep t v) : t.MqInv := by
  obtain ⟨s0, r, hb, hend, -⟩ := h
  have h0 : s0.MqInv := by
    rcases hb with rfl | ⟨-, r, k, rfl, -⟩
    · exact hs
    · exact hs.of_eq rfl rfl
  obtain ⟨hcfg, hmq, -⟩ := State.endUnit_other_units hend
  exact h0.of_eq hmq hcfg

/-- Settles O57: a unit of a DECODE does not touch the engine, and every command keeps its ranges. -/
theorem mqRangesAreKept : Obligations.MqRangesAreKept := by
  intro s t hs h
  obtain ⟨-, ⟨v, -, hu⟩ | ⟨-, -, rfl⟩ | ⟨c, q, -, -, hx⟩⟩ := step_next h
  · exact hs.unitStep hu
  · exact hs
  · exact State.MqInv.exec (s := { s with hostq := q }) hs hx

end Sys2Proof.Machine
end

section
/-! PROOFS. Quantization is to nearest, ties away from zero (R260). -/

namespace Sys2Proof.Machine

theorem quantize_getElem? (f8 : List Int) (q : List Byte) {n : Nat} (h : n < 64) :
    (quantize f8 q)[n]? = some (quantOne (f8.getD n 0) (q.getD n 0).toNat) := by
  simp [quantize, h]

/-- From 0 on, adding half the divisor and rounding down is rounding to nearest. -/
theorem quantOne_of_nonneg {f : Int} (q : Nat) (h : 0 ≤ f) : quantOne f q = (f + 4 * q) / (8 * q) := by
  obtain ⟨a, rfl⟩ := Int.eq_ofNat_of_zero_le h
  simp [quantOne]

/-- QUANTIZE is odd: it rounds the size and puts the sign back. -/
theorem quantOne_neg (f : Int) {q : Nat} (hq : 1 ≤ q) : quantOne (-f) q = -quantOne f q := by
  have h0 : 4 * q / (8 * q) = 0 := Nat.div_eq_of_lt (by omega)
  rcases lt_trichotomy f 0 with h | rfl | h
  · simp [quantOne, h.le, h.not_ge]
  · simp [quantOne, h0]
  · simp [quantOne, h.le, h.not_ge]

/-- Settles O46: the size is rounded by a division whose remainder stays below the divisor, and the sign is put back. -/
theorem quantizeNearest : Obligations.QuantizeNearest := by
  refine ⟨fun f8 q n h => quantize_getElem? f8 q h, fun f q hq => ⟨fun hf => ?_, quantOne_neg f hq⟩⟩
  have hd : (0 : Int) < 8 * q := by omega
  rw [quantOne_of_nonneg q hf]
  refine ⟨Int.mul_ediv_self_le hd.ne', ?_⟩
  rw [mul_add, mul_one]
  exact Int.lt_mul_ediv_self_add hd

end Sys2Proof.Machine
end

section
/-! PROOFS. The transforms are the DCT up to rounding (R252, R254, R258, R259, R262). -/

namespace Sys2Proof.Machine

section
open Finset

/-! ## Blocks, row by row -/

theorem sum_map_listRange {M : Type} [AddCommMonoid M] (n : Nat) (f : Nat → M) :
    ((List.range n).map f).sum = ∑ i ∈ range n, f i := rfl

/-- A sum over the 64 entries of a block, row by row. -/
theorem sum_map_block {M : Type} [AddCommMonoid M] (f : Nat → Nat → Nat → M) :
    ((List.range 64).map fun n => f n (n / 8) (n % 8)).sum = ∑ i ∈ range 8, ∑ j ∈ range 8, f (8 * i + j) i j := by
  have rows : ∀ m, ∑ n ∈ range (8 * m), f n (n / 8) (n % 8) = ∑ i ∈ range m, ∑ j ∈ range 8, f (8 * i + j) i j := by
    intro m
    induction m with
    | zero => simp
    | succ m ih =>
      rw [Nat.mul_succ, sum_range_add, ih, sum_range_succ _ m]
      refine congrArg _ (sum_congr rfl fun j hj => ?_)
      have := mem_range.1 hj
      rw [show (8 * m + j) / 8 = m by omega, show (8 * m + j) % 8 = j by omega]
  exact rows 8

theorem getD_map_listRange {α : Type} (f : Nat → α) (d : α) {n i : Nat} (h : i < n) :
    ((List.range n).map f).getD i d = f i := by
  simp [List.getD_eq_getElem?_getD, h]

/-- Entry `k * i + j` of lists of `k` entries each, one after the other. -/
theorem getElem?_flatMap_range {α : Type} {f : Nat → List α} {k : Nat} (hf : ∀ i, (f i).length = k) {n i j : Nat}
    (hi : i < n) (hj : j < k) : ((List.range n).flatMap f)[k * i + j]? = (f i)[j]? := by
  have hlen : ∀ n, ((List.range n).flatMap f).length = k * n := fun n => by simp [hf, mul_comm]
  induction n with
  | zero => omega
  | succ n ih =>
    rw [List.range_succ, List.flatMap_append, List.flatMap_singleton]
    by_cases h : i < n
    · rw [List.getElem?_append_left (by rw [hlen]; nlinarith), ih h]
    · obtain rfl : i = n := by omega
      rw [List.getElem?_append_right (by rw [hlen]; omega), hlen, Nat.add_sub_cancel_left]

/-! ## Two passes (R254, R259) -/

/-- A pass with the factors `b` over each row of `p`, descaled by 11 bits, and one with the factors `a` over the results,
descaled by `s` bits: what either reference transform does for one of its 64 results. -/
def twoPasses (a b : Nat → Int) (s : Nat) (p : Nat → Nat → Int) : Int :=
  descale (∑ i ∈ range 8, a i * descale (∑ j ∈ range 8, b j * p i j) 11) s

/-- DEQUANT's product n (R251). -/
def dequantAt (blk q : List Half) (n : Nat) : Int := (blk.getD n 0).toInt * (q.getD n 0).toNat

theorem dequant_getD (blk q : List Half) {n : Nat} (h : n < 64) : (dequant blk q).getD n 0 = dequantAt blk q n :=
  getD_map_listRange _ _ h

theorem dequantAt_eq_zero {blk : List Half} {n : Nat} (q : List Half) (h : blk.getD n 0 = 0) : dequantAt blk q n = 0 := by
  rw [dequantAt, h]
  exact zero_mul _

/-- IDCT_REF's sample (y, x) of the products `p` before the level shift: columns are passed first (R254). -/
def idctAt (p : Nat → Int) (y x : Nat) : Int := twoPasses (passAt · x) (passAt · y) 18 fun u v => p (8 * v + u)

theorem idctPass_getElem? (f : Nat → Int) (s : Nat) {x : Nat} (hx : x < 8) :
    (idctPass f s)[x]? = some (descale (∑ u ∈ range 8, passAt u x * f u) s) := by
  have hlen : x < (idctPass f s).length := hx
  have h := idctPass_getD f s x hx
  rw [List.getD_eq_getElem?_getD, List.getElem?_eq_getElem hlen, Option.getD_some] at h
  rw [List.getElem?_eq_getElem hlen, h, sum_map_listRange]

theorem idctRef_getElem? (blk q : List Half) {y x : Nat} (hy : y < 8) (hx : x < 8) :
    (idctRef blk q)[8 * y + x]? = some (clamp8 (idctAt (dequantAt blk q) y x + 128)) := by
  have hcol : ∀ u ∈ range 8, passAt u x * (((List.range 8).map fun u =>
      idctPass (fun v => (dequant blk q).getD (8 * v + u) 0) 11).getD u []).getD y 0 =
        passAt u x * descale (∑ v ∈ range 8, passAt v y * dequantAt blk q (8 * v + u)) 11 := fun u hu => by
    have := mem_range.1 hu
    rw [getD_map_listRange _ _ this, List.getD_eq_getElem?_getD, idctPass_getElem? _ _ hy, Option.getD_some]
    congr 2
    refine sum_congr rfl fun v hv => ?_
    have := mem_range.1 hv
    rw [dequant_getD blk q (by omega)]
  rw [idctRef, getElem?_flatMap_range (k := 8) (fun _ => List.length_map _) hy hx, List.getElem?_map,
    idctPass_getElem? _ _ hx, sum_congr rfl hcol]
  rfl

/-- FDCT_REF's coefficient (v, u): rows are passed first (R259). -/
def fdctAt (smp : List Byte) (v u : Nat) : Int :=
  twoPasses (passAt v) (passAt u) 15 fun y x => ((smp.getD (8 * y + x) 0).toNat : Int) - 128

theorem fdctRef_getElem? (smp : List Byte) {v u : Nat} (hv : v < 8) (hu : u < 8) :
    (fdctRef smp)[8 * v + u]? = some (fdctAt smp v u) := by
  have hrow : ∀ y ∈ range 8, passAt v y * (((List.range 8).map fun y =>
      fdctPass (fun x => ((smp.getD (8 * y + x) 0).toNat : Int) - 128) true).getD y []).getD u 0 =
        passAt v y * descale (∑ x ∈ range 8, passAt u x * (((smp.getD (8 * y + x) 0).toNat : Int) - 128)) 11 :=
    fun y hy => by
      rw [getD_map_listRange _ _ (mem_range.1 hy), fdctPass_getD _ _ _ hu, sum_map_listRange, if_pos rfl]
  rw [fdctRef, List.getElem?_map, List.getElem?_range (by omega), Option.map_some, Nat.mul_add_mod,
    Nat.mod_eq_of_lt hu, Nat.mul_add_div (by decide), Nat.div_eq_of_lt hu, Nat.add_zero, getD_map_listRange _ _ hu,
    fdctPass_getD _ _ _ hv, sum_map_listRange, sum_congr rfl hrow]
  rfl

/-! ## Rounding -/

theorem abs_descale_sub (x : Int) {s : Nat} (h : 1 ≤ s) : |2 ^ s * descale x s - x| ≤ 2 ^ (s - 1) := by
  rw [Int.abs_eq_natAbs]
  exact_mod_cast descale_near x s h

/-- Two descaled passes are the exact double sum but for half a unit of each descaling, the first one's times the second
pass's factors. -/
theorem abs_twoPasses_sub (a b : Nat → Int) (p : Nat → Nat → Int) {s : Nat} (hs : 1 ≤ s)
    (ha : ∑ i ∈ range 8, |a i| ≤ 2 ^ 16) :
    |2 ^ 11 * 2 ^ s * twoPasses a b s p - ∑ i ∈ range 8, ∑ j ∈ range 8, a i * b j * p i j| ≤
      2 ^ 11 * 2 ^ (s - 1) + 2 ^ 26 := by
  have hsecond := abs_descale_sub (∑ i ∈ range 8, a i * descale (∑ j ∈ range 8, b j * p i j) 11) hs
  have hfirst :
      |∑ i ∈ range 8, a i * (2 ^ 11 * descale (∑ j ∈ range 8, b j * p i j) 11 - ∑ j ∈ range 8, b j * p i j)| ≤ 2 ^ 26 := calc
    _ ≤ ∑ i ∈ range 8, |a i| * 2 ^ 10 := (abs_sum_le_sum_abs _ _).trans <| sum_le_sum fun i _ => by
        rw [abs_mul]
        exact mul_le_mul_of_nonneg_left (abs_descale_sub _ (by decide)) (abs_nonneg _)
    _ ≤ 2 ^ 16 * 2 ^ 10 := by
        rw [← sum_mul]
        exact mul_le_mul_of_nonneg_right ha (by decide)
  calc _ = |2 ^ 11 * (2 ^ s * twoPasses a b s p -
          ∑ i ∈ range 8, a i * descale (∑ j ∈ range 8, b j * p i j) 11) +
        ∑ i ∈ range 8, a i * (2 ^ 11 * descale (∑ j ∈ range 8, b j * p i j) 11 - ∑ j ∈ range 8, b j * p i j)| := by
        simp only [mul_sub, sum_sub_distrib, mul_sum, ← mul_assoc, mul_comm _ ((2 : Int) ^ 11)]
        congr 1
        ring
    _ ≤ 2 ^ 11 * 2 ^ (s - 1) + 2 ^ 26 := (abs_add_le _ _).trans <| add_le_add (by
        rw [abs_mul]
        exact mul_le_mul_of_nonneg_left hsecond (by decide)) hfirst

/-- Two passes against the double sum with other factors, `2^11` times as large: the factors' own errors come in too. -/
theorem abs_twoPasses_sub_factors (a b a' b' : Nat → Int) (p : Nat → Nat → Int) {s : Nat} (hs : 1 ≤ s)
    (ha : ∑ i ∈ range 8, |a i| ≤ 2 ^ 16) :
    |2 ^ 33 * 2 ^ s * twoPasses a b s p - ∑ i ∈ range 8, ∑ j ∈ range 8, a' i * b' j * p i j| ≤
      2 ^ 22 * (2 ^ 11 * 2 ^ (s - 1) + 2 ^ 26) +
        ∑ i ∈ range 8, ∑ j ∈ range 8, |2 ^ 22 * (a i * b j) - a' i * b' j| * |p i j| := by
  have hfactors : |∑ i ∈ range 8, ∑ j ∈ range 8, (2 ^ 22 * (a i * b j) - a' i * b' j) * p i j| ≤
      ∑ i ∈ range 8, ∑ j ∈ range 8, |2 ^ 22 * (a i * b j) - a' i * b' j| * |p i j| :=
    (abs_sum_le_sum_abs _ _).trans <| sum_le_sum fun i _ => (abs_sum_le_sum_abs _ _).trans_eq <|
      sum_congr rfl fun j _ => abs_mul _ _
  calc _ = |2 ^ 22 * (2 ^ 11 * 2 ^ s * twoPasses a b s p - ∑ i ∈ range 8, ∑ j ∈ range 8, a i * b j * p i j) +
        ∑ i ∈ range 8, ∑ j ∈ range 8, (2 ^ 22 * (a i * b j) - a' i * b' j) * p i j| := by
        simp only [sub_mul, sum_sub_distrib, mul_assoc, ← mul_sum]
        congr 1
        ring
    _ ≤ _ := (abs_add_le _ _).trans <| add_le_add (by
        rw [abs_mul]
        exact mul_le_mul_of_nonneg_left (abs_twoPasses_sub a b p hs ha) (by decide)) hfactors

/-! ## The factors (R254, R258) -/

theorem sum_abs_passAt_frequency : ∀ u < 8, ∑ x ∈ range 8, |passAt u x| ≤ 2 ^ 16 := by decide

theorem sum_abs_passAt_sample : ∀ x < 8, ∑ u ∈ range 8, |passAt u x| ≤ 2 ^ 16 := by decide

theorem sum_abs_dctAt : ∀ u < 8, ∑ x ∈ range 8, |dctAt u x| ≤ 2 ^ 27 := by decide

theorem sum_abs_passAt_sub_dctAt : ∀ u < 8, ∑ x ∈ range 8, |2 ^ 11 * passAt u x - dctAt u x| ≤ 10000 := by decide

/-- A factor is off by little, or is small itself: only the least cosine's is off by more than 1303. -/
theorem passAt_bounds : ∀ u < 8, ∀ x < 8,
    |2 ^ 11 * passAt u x - dctAt u x| ≤ 1303 ∧ |2 ^ 11 * passAt u x| ≤ 23271424 ∧ |dctAt u x| ≤ 23270667 ∨
      |2 ^ 11 * passAt u x - dctAt u x| ≤ 2391 ∧ |2 ^ 11 * passAt u x| ≤ 4631214 ∧ |dctAt u x| ≤ 4628823 := by decide

/-- The error of a product of two factors is the first factor times the second's error, and the first's error times the
second cosine. -/
theorem abs_mul_sub_mul_le {a b a' b' m e e' d' : Int} (hm : |2 ^ 11 * a| ≤ m) (he : |2 ^ 11 * a - a'| ≤ e)
    (he' : |2 ^ 11 * b - b'| ≤ e') (hd' : |b'| ≤ d') : |2 ^ 22 * (a * b) - a' * b'| ≤ m * e' + e * d' := by
  calc _ = |2 ^ 11 * a * (2 ^ 11 * b - b') + (2 ^ 11 * a - a') * b'| := congrArg _ (by ring)
    _ ≤ m * e' + e * d' := (abs_add_le _ _).trans <| add_le_add
        ((abs_mul _ _).trans_le (mul_le_mul hm he' (abs_nonneg _) ((abs_nonneg _).trans hm)))
        ((abs_mul _ _).trans_le (mul_le_mul he hd' (abs_nonneg _) ((abs_nonneg _).trans he)))

theorem abs_passAt_mul_sub {u x v y : Nat} (hu : u < 8) (hx : x < 8) (hv : v < 8) (hy : y < 8) :
    |2 ^ 22 * (passAt u x * passAt v y) - dctAt u x * dctAt v y| ≤ 2 ^ 36 := by
  rcases passAt_bounds u hu x hx with ⟨he, hm, -⟩ | ⟨he, hm, -⟩ <;>
    rcases passAt_bounds v hv y hy with ⟨he', -, hd'⟩ | ⟨he', -, hd'⟩ <;>
    exact (abs_mul_sub_mul_le hm he he' hd').trans (by decide)

theorem sum_abs_passAt_mul_sub {v u : Nat} (hv : v < 8) (hu : u < 8) :
    ∑ y ∈ range 8, ∑ x ∈ range 8, |2 ^ 22 * (passAt v y * passAt u x) - dctAt v y * dctAt u x| ≤ 20000 * 2 ^ 27 := by
  have hpass : ∑ y ∈ range 8, |2 ^ 11 * passAt v y| ≤ 2 ^ 11 * 2 ^ 16 := by
    simp only [abs_mul, ← mul_sum]
    exact mul_le_mul_of_nonneg_left (sum_abs_passAt_frequency v hv) (by decide)
  have hnonneg : ∀ f : Nat → Int, 0 ≤ ∑ x ∈ range 8, |f x| := fun f => sum_nonneg fun _ _ => abs_nonneg _
  calc _ ≤ ∑ y ∈ range 8, ∑ x ∈ range 8, (|2 ^ 11 * passAt v y| * |2 ^ 11 * passAt u x - dctAt u x| +
          |2 ^ 11 * passAt v y - dctAt v y| * |dctAt u x|) :=
        sum_le_sum fun y _ => sum_le_sum fun x _ => abs_mul_sub_mul_le le_rfl le_rfl le_rfl le_rfl
    _ = (∑ y ∈ range 8, |2 ^ 11 * passAt v y|) * (∑ x ∈ range 8, |2 ^ 11 * passAt u x - dctAt u x|) +
          (∑ y ∈ range 8, |2 ^ 11 * passAt v y - dctAt v y|) * ∑ x ∈ range 8, |dctAt u x| := by
        simp only [sum_add_distrib, sum_mul_sum]
    _ ≤ 2 ^ 11 * 2 ^ 16 * 10000 + 10000 * 2 ^ 27 := add_le_add
        (mul_le_mul hpass (sum_abs_passAt_sub_dctAt u hu) (hnonneg _) (by decide))
        (mul_le_mul (sum_abs_passAt_sub_dctAt v hv) (sum_abs_dctAt u hu) (hnonneg _) (by decide))
    _ = 20000 * 2 ^ 27 := by decide

/-! ## The transforms against the DCT -/

/-- IDCT_REF's sample before the level shift is within its rounding of the inverse DCT of the products. -/
theorem abs_idctAt_sub (p : Nat → Int) {y x : Nat} (hy : y < 8) (hx : x < 8) :
    |2 ^ 51 * idctAt p y x - ((List.range 64).map fun n => p n * dctAt (n / 8) y * dctAt (n % 8) x).sum| ≤
      2 ^ 51 + 2 ^ 36 * ((List.range 64).map fun n => |p n|).sum := by
  have hsum : ((List.range 64).map fun n => p n * dctAt (n / 8) y * dctAt (n % 8) x).sum =
      ∑ u ∈ range 8, ∑ v ∈ range 8, dctAt u x * dctAt v y * p (8 * v + u) := by
    rw [sum_map_block fun n v u => p n * dctAt v y * dctAt u x, sum_comm]
    exact sum_congr rfl fun u _ => sum_congr rfl fun v _ => by ring
  have hsize : ((List.range 64).map fun n => |p n|).sum = ∑ u ∈ range 8, ∑ v ∈ range 8, |p (8 * v + u)| := by
    rw [sum_map_block fun n _ _ => |p n|, sum_comm]
  simp only [hsum, hsize, mul_sum]
  refine (abs_twoPasses_sub_factors (passAt · x) (passAt · y) (dctAt · x) (dctAt · y) (fun u v => p (8 * v + u))
    (s := 18) (by decide) (sum_abs_passAt_sample x hx)).trans ?_
  refine add_le_add (by decide) (sum_le_sum fun u hu => sum_le_sum fun v hv => ?_)
  exact mul_le_mul_of_nonneg_right (abs_passAt_mul_sub (mem_range.1 hu) hx (mem_range.1 hv) hy) (abs_nonneg _)

theorem gain8_eq (smp : List Byte) {v u : Nat} (hv : v < 8) (hu : u < 8) :
    gain8 smp v u =
      ((List.range 64).map fun n => (((smp.getD n 0).toNat : Int) - 128) * dctAt v (n / 8) * dctAt u (n % 8)).sum := by
  refine congrArg List.sum (List.map_congr_left fun n hn => ?_)
  have := List.mem_range.1 hn
  rw [dctBasis_eq hv (by omega), dctBasis_eq hu (by omega)]

/-- FDCT_REF's coefficient is within 3 of `8·F` (both times `2^48`). -/
theorem abs_fdctAt_sub (smp : List Byte) {v u : Nat} (hv : v < 8) (hu : u < 8) :
    |2 ^ 48 * fdctAt smp v u - gain8 smp v u| ≤ 3 * 2 ^ 48 := by
  have hshift : ∀ n, |((smp.getD n 0).toNat : Int) - 128| ≤ 128 := fun n => by
    have := (smp.getD n 0).isLt
    rw [abs_le]
    omega
  have hsum : gain8 smp v u =
      ∑ y ∈ range 8, ∑ x ∈ range 8, dctAt v y * dctAt u x * (((smp.getD (8 * y + x) 0).toNat : Int) - 128) := by
    rw [gain8_eq smp hv hu, sum_map_block fun n y x => (((smp.getD n 0).toNat : Int) - 128) * dctAt v y * dctAt u x]
    exact sum_congr rfl fun y _ => sum_congr rfl fun x _ => by ring
  rw [hsum]
  refine (abs_twoPasses_sub_factors (passAt v) (passAt u) (dctAt v) (dctAt u)
    (fun y x => ((smp.getD (8 * y + x) 0).toNat : Int) - 128) (s := 15) (by decide) (sum_abs_passAt_frequency v hv)).trans ?_
  calc _ ≤ 2 ^ 22 * (2 ^ 11 * 2 ^ (15 - 1) + 2 ^ 26) + ∑ y ∈ range 8, ∑ x ∈ range 8,
        |2 ^ 22 * (passAt v y * passAt u x) - dctAt v y * dctAt u x| * 128 :=
        add_le_add_right (sum_le_sum fun y _ => sum_le_sum fun x _ =>
          mul_le_mul_of_nonneg_left (hshift _) (abs_nonneg _)) _
    _ ≤ 2 ^ 22 * (2 ^ 11 * 2 ^ (15 - 1) + 2 ^ 26) + 20000 * 2 ^ 27 * 128 := by
        simp only [← sum_mul]
        exact add_le_add_right (mul_le_mul_of_nonneg_right (sum_abs_passAt_mul_sub hv hu) (by decide)) _
    _ ≤ 3 * 2 ^ 48 := by decide

end

theorem fdct_length (c : Choice) (smp : List Byte) : (fdct c smp).length = 64 := by
  cases c <;> simp [fdct, fdctRef]

/-- A coefficient of FDCT_FN, whoever supplies it, is within 4 of `8·F`, and of FDCT_REF within 3 (both times `2^48`). -/
theorem fdct_gain (c : Choice) (smp : List Byte) {v u : Nat} (hv : v < 8) (hu : u < 8) :
    ∃ g, (fdct c smp)[8 * v + u]? = some g ∧ (2 ^ 48 * g - gain8 smp v u).natAbs ≤ 4 * 2 ^ 48 ∧
      (c = .ref → (2 ^ 48 * g - gain8 smp v u).natAbs ≤ 3 * 2 ^ 48) := by
  cases c with
  | ref =>
    have h := abs_fdctAt_sub smp hv hu
    rw [Int.abs_eq_natAbs] at h
    exact ⟨_, fdctRef_getElem? smp hv hu, by omega, fun _ => by omega⟩
  | impl n =>
    have hlt : 8 * v + u < (fdct (.impl n) smp).length := by rw [fdct_length]; omega
    have h := fdct_impl_gain n smp (8 * v + u) (by omega)
    rw [show (8 * v + u) / 8 = v by omega, show (8 * v + u) % 8 = u by omega, List.getD_eq_getElem?_getD,
      List.getElem?_eq_getElem hlt, Option.getD_some] at h
    exact ⟨_, List.getElem?_eq_getElem hlt, h, nofun⟩

/-- FDCT_ZZ_Q quantizes each coefficient and sends them in zig-zag order (R262). -/
theorem fdctZzQ_getElem? (c : Choice) (smp q : List Byte) {k : Nat} (hk : k < 64) :
    (fdctZzQ c smp q)[k]? = some (quantOne ((fdct c smp).getD (zz k) 0) (q.getD (zz k) 0).toNat) := by
  rw [fdctZzQ, zigzagOut, List.getElem?_map, List.getElem?_range hk, Option.map_some, List.getD_eq_getElem?_getD,
    quantize_getElem? _ _ (zz_lt k), Option.getD_some]

/-! ## Flat, equal rows and equal columns (R252, R254) -/

section
open Finset

/-- A pass over values of which only the first is not 0 repeats it, with the factor 1. -/
theorem sum_passAt_first {x : Nat} (hx : x < 8) {p : Nat → Int} (hp : ∀ u, 0 < u → u < 8 → p u = 0) :
    ∑ u ∈ range 8, passAt u x * p u = 8192 * p 0 := by
  have hone : ∀ x < 8, passAt 0 x = 8192 := by decide
  rw [sum_eq_single 0 (fun u hu h => by rw [hp u (Nat.pos_of_ne_zero h) (mem_range.1 hu), mul_zero]) (by simp),
    hone x hx]

/-- With no vertical frequency in the block, IDCT_REF's rows are equal. -/
theorem idctAt_rows_eq {p : Nat → Int} {y : Nat} (x : Nat) (hy : y < 8) (h : ∀ n, 8 ≤ n → n < 64 → p n = 0) :
    idctAt p y x = idctAt p 0 x := by
  have hcol : ∀ y < 8, ∀ u ∈ range 8, passAt u x * descale (∑ v ∈ range 8, passAt v y * p (8 * v + u)) 11 =
      passAt u x * descale (8192 * p u) 11 := fun y hy u hu => by
    have := mem_range.1 hu
    rw [sum_passAt_first hy (p := fun v => p (8 * v + u)) fun v h0 h8 => h _ (by omega) (by omega), mul_zero, zero_add]
  rw [idctAt, idctAt, twoPasses, twoPasses, sum_congr rfl (hcol y hy), sum_congr rfl (hcol 0 (by decide))]

/-- With no horizontal frequency in the block, IDCT_REF's columns are equal: each repeats the first pass over column 0. -/
theorem idctAt_of_columns {p : Nat → Int} (y : Nat) {x : Nat} (hx : x < 8) (h : ∀ n, n < 64 → n % 8 ≠ 0 → p n = 0) :
    idctAt p y x = descale (8192 * descale (∑ v ∈ range 8, passAt v y * p (8 * v)) 11) 18 := by
  have hcol : ∀ u, 0 < u → u < 8 → descale (∑ v ∈ range 8, passAt v y * p (8 * v + u)) 11 = 0 := fun u h0 h8 => by
    rw [sum_eq_zero fun v hv => by
      have := mem_range.1 hv
      rw [h (8 * v + u) (by omega) (by omega), mul_zero]]
    rfl
  rw [idctAt, twoPasses, sum_passAt_first hx (p := fun u => descale (∑ v ∈ range 8, passAt v y * p (8 * v + u)) 11) hcol]
  rfl

/-- R252(a) for IDCT_REF: the column pass multiplies by 4, and the row pass divides by 32 to nearest. -/
theorem idctAt_flat {p : Nat → Int} {y x : Nat} (hy : y < 8) (hx : x < 8) (h : ∀ n, 0 < n → n < 64 → p n = 0) :
    idctAt p y x = (p 0 + 4) / 8 := by
  rw [idctAt_of_columns y hx fun n h64 hn => h n (by omega) h64,
    sum_passAt_first hy (p := fun v => p (8 * v)) fun v h0 h8 => h _ (by omega) (by omega)]
  simp only [descale, shr, Nat.mul_zero]
  omega

end

theorem idctRef_length (blk q : List Half) : (idctRef blk q).length = 64 := rfl

theorem flatBlock_of_forall {blk : List Half} (h : ∀ n, 0 < n → n < 64 → blk.getD n 0 = 0) : flatBlock blk = true := by
  refine List.all_eq_true.2 fun n hn => ?_
  have := List.mem_range.1 hn
  rw [h (n + 1) (by omega) (by omega), beq_self_eq_true]

/-- R252(a): IDCT_FN, whoever supplies it, makes a flat block of a block with no AC coefficient. -/
theorem idct_flat (c : Choice) {blk : List Half} (q : List Half) (h : ∀ n, 0 < n → n < 64 → blk.getD n 0 = 0) :
    idct c blk q = List.replicate 64 (flatSample blk q) := by
  cases c with
  | ref =>
    refine List.ext_getElem (by rw [idct, idctRef_length, List.length_replicate]) fun i hi _ => ?_
    have hi64 : i < 64 := hi
    have hget := idctRef_getElem? blk q (y := i / 8) (x := i % 8) (by omega) (by omega)
    rw [Nat.div_add_mod, idctAt_flat (by omega) (by omega) fun n h0 h64 => dequantAt_eq_zero q (h n h0 h64)] at hget
    rw [List.getElem_replicate, ← Option.some_inj, ← List.getElem?_eq_getElem]
    exact hget
  | impl n => simp [idct, flatBlock_of_forall h]

theorem clamp8_eq (x : Int) : clamp8 x = BitVec.ofInt 8 (max 0 (min x 255)) := by
  unfold clamp8 clampInt
  congr 1
  omega

theorem cast_sum_natAbs (p : Nat → Int) (n : Nat) :
    ((((List.range n).map fun n => (p n).natAbs).sum : Nat) : Int) = ((List.range n).map fun n => |p n|).sum := by
  simp [Nat.cast_list_sum, Function.comp_def]

/-- Settles O44: each transform is two passes, each a weighted sum and a DESCALE; what a zero coefficient leaves out of the
sums gives the flat, the equal rows and the equal columns, and the roundings of the passes and of their factors add up to
the bounds. -/
theorem transformsFollowTheDct : Obligations.TransformsFollowTheDct := by
  refine ⟨fun c blk q h => idct_flat c q h, fun blk q y x hy hx => ⟨fun h => ?rows, fun h => ?columns⟩,
    fun blk q y x p hy hx hp => ?inverse, fun c smp v u f hv hu hf => ?forward,
    fun c smp q k hk => fdctZzQ_getElem? c smp q hk⟩
  case rows =>
    have h0 := idctRef_getElem? blk q (show 0 < 8 by decide) hx
    rw [Nat.mul_zero, Nat.zero_add] at h0
    rw [idct, idctRef_getElem? blk q hy hx, h0, idctAt_rows_eq x hy fun n h8 h64 => dequantAt_eq_zero q (h n h8 h64)]
  case columns =>
    have hz : ∀ n, n < 64 → n % 8 ≠ 0 → dequantAt blk q n = 0 := fun n h64 hn => dequantAt_eq_zero q (h n h64 hn)
    have h0 := idctRef_getElem? blk q hy (show 0 < 8 by decide)
    rw [Nat.add_zero, idctAt_of_columns y (by decide) hz] at h0
    rw [idct, idctRef_getElem? blk q hy hx, h0, idctAt_of_columns y hx hz]
  case inverse =>
    obtain rfl : p = dequantAt blk q := funext hp
    refine ⟨idctAt (dequantAt blk q) y x, by rw [idct, idctRef_getElem? blk q hy hx, clamp8_eq], ?_⟩
    have hnear := abs_idctAt_sub (dequantAt blk q) hy hx
    rw [← cast_sum_natAbs, Int.abs_eq_natAbs] at hnear
    omega
  case forward =>
    subst hf
    rw [← gain8_eq smp hv hu]
    exact fdct_gain c smp hv hu

end Sys2Proof.Machine
end

section
/-! PROOFS. The encoder's commands always answer, and keep the encoder sound (R390, R396, R410, R412). -/

namespace Sys2Proof.Machine

/-! ## The encoder's tables have a code for every category (R400, R401) -/

theorem codesOfLen_length {l count code : Nat} {cs : List Nat} (h : codesOfLen l count code = some cs) :
    cs.length = count := by
  induction count generalizing code cs with
  | zero => cases h; rfl
  | succ count ih =>
    simp only [codesOfLen] at h
    split at h
    · cases h
    · obtain ⟨cs', hcs, rfl⟩ := Option.map_eq_some_iff.1 h
      rw [List.length_cons, ih hcs]

/-- BUILD gives each symbol a code and a length (R171). -/
theorem buildFrom_lengths {counts : List Nat} {l code j : Nat} {r : BuildArrays}
    (h : buildFrom counts l code j = some r) : r.size.length = counts.sum ∧ r.code.length = counts.sum := by
  induction counts generalizing l code j r with
  | nil => cases h; exact ⟨rfl, rfl⟩
  | cons n counts ih =>
    simp only [buildFrom] at h
    split at h
    · cases h
    next cs hcs =>
      split at h
      · cases h
      next r' hr' =>
        cases h
        obtain ⟨hsize, hcode⟩ := ih hr'
        simp [hsize, hcode, codesOfLen_length hcs]

/-- The table has a code for the symbol. -/
def HasCode (t : Option HEntry) (sym : Nat) : Prop := ∃ c, codeOf t (BitVec.ofNat 8 sym) = some c

/-- A table that BUILD accepts has a code for each of its symbols. -/
theorem hasCode_build {bits vals : List Byte} {sym : Nat} (hb : (buildFrom (bits.map BitVec.toNat) 1 0 0).isSome)
    (hl : vals.length = (bits.map BitVec.toNat).sum) (hs : BitVec.ofNat 8 sym ∈ vals) : HasCode (build bits vals) sym := by
  obtain ⟨r, hr⟩ := Option.isSome_iff_exists.1 hb
  obtain ⟨hsize, hcode⟩ := buildFrom_lengths hr
  obtain ⟨j, hj⟩ : ∃ j, vals.findIdx? (· == BitVec.ofNat 8 sym) = some j :=
    Option.isSome_iff_exists.1 (by rw [List.findIdx?_isSome, List.any_eq_true]; exact ⟨_, hs, beq_self_eq_true _⟩)
  obtain ⟨hlt, -⟩ := List.findIdx?_eq_some_iff_getElem.1 hj
  have hc : r.code[j]? = some r.code[j] := List.getElem?_eq_getElem (by omega)
  have hz : r.size[j]? = some r.size[j] := List.getElem?_eq_getElem (by omega)
  exact ⟨(r.code[j], r.size[j]), by simp [codeOf, build, hr, hj, hc, hz]⟩

/-- The codes a DC table must have: categories up to 11 (R412). -/
def DcTable (t : Option HEntry) : Prop := ∀ s < 12, HasCode t s

/-- The codes an AC table must have: EOB, ZRL, and every run below 16 with a category from 1 to 10 (R410, R412). -/
def AcTable (t : Option HEntry) : Prop :=
  HasCode t 0x00 ∧ HasCode t 0xF0 ∧ ∀ r < 16, ∀ s < 11, s ≠ 0 → HasCode t (r * 16 + s)

section
variable {bits vals : List Byte} (hb : (buildFrom (bits.map BitVec.toNat) 1 0 0).isSome)
  (hl : vals.length = (bits.map BitVec.toNat).sum)

include hb hl

theorem dcTable_build (h : ∀ s < 12, BitVec.ofNat 8 s ∈ vals) : DcTable (build bits vals) :=
  fun s hs => hasCode_build hb hl (h s hs)

theorem acTable_build (heob : 0x00 ∈ vals) (hzrl : 0xF0 ∈ vals)
    (h : ∀ r < 16, ∀ s < 11, s ≠ 0 → BitVec.ofNat 8 (r * 16 + s) ∈ vals) : AcTable (build bits vals) :=
  ⟨hasCode_build hb hl heob, hasCode_build hb hl hzrl, fun r hr s hs h0 => hasCode_build hb hl (h r hr s hs h0)⟩

end

theorem dcL_codes : DcTable dcL := dcTable_build (by decide) (by decide) (by decide)

theorem dcC_codes : DcTable dcC := dcTable_build (by decide) (by decide) (by decide)

theorem acL_codes : AcTable acL :=
  acTable_build (by decide +kernel) (by decide +kernel) (by decide) (by decide) (by decide +kernel)

theorem acC_codes : AcTable acC :=
  acTable_build (by decide +kernel) (by decide +kernel) (by decide) (by decide) (by decide +kernel)

/-! ## The packer (R413, R414) -/

/-- Between commands less than a byte is partial, and OUTQ has kept its first `n` bytes' places (R390; log 27). -/
def Packer.SoundFrom (n : Nat) (p : Packer) : Prop := p.cnt < 8 ∧ n ≤ p.outq.length

section
variable {n : Nat} {p : Packer}

theorem Packer.SoundFrom.putBit (h : p.SoundFrom n) (b : Bool) : (p.putBit b).SoundFrom n := by
  obtain ⟨hcnt, hlen⟩ := h
  by_cases hfull : p.cnt + 1 = 8
  · simp only [Packer.SoundFrom, Packer.putBit, hfull, if_true, List.length_append]
    omega
  · simp only [Packer.SoundFrom, Packer.putBit, hfull, if_false]
    omega

theorem Packer.SoundFrom.put (h : p.SoundFrom n) (v m : Nat) : (p.put v m).SoundFrom n := by
  induction m generalizing p with
  | zero => exact h
  | succ m ih => exact ih (h.putBit _)

theorem Packer.SoundFrom.pad (h : p.SoundFrom n) : p.pad.SoundFrom n := by
  unfold Packer.pad
  split
  · exact h.put _ _
  · exact h

theorem Packer.SoundFrom.append (h : p.SoundFrom n) (bs : List Byte) : (p.append bs).SoundFrom n := by
  obtain ⟨hcnt, hlen⟩ := h
  refine ⟨hcnt, ?_⟩
  rw [Packer.append, List.length_append]
  omega

end

/-- The coding answers, and leaves a sound packer. -/
def Puts (n : Nat) (r : Except Fault Packer) : Prop := ∃ p, r = .ok p ∧ p.SoundFrom n

theorem Puts.bind {n : Nat} {r : Except Fault Packer} {f : Packer → Except Fault Packer} (h : Puts n r)
    (hf : ∀ p : Packer, p.SoundFrom n → Puts n (f p)) : Puts n (r >>= f) := by
  obtain ⟨p, rfl, hp⟩ := h
  exact hf p hp

/-! ## Symbols (R410, R411) -/

theorem nbits_le {v : Int} {s : Nat} (h : v.natAbs < 2 ^ s) : nbits v ≤ s := by
  unfold nbits
  split
  · exact Nat.zero_le s
  · next h0 => exact (Nat.log2_lt (by omega)).2 h

theorem nbits_ne_zero {v : Int} (h : v ≠ 0) : nbits v ≠ 0 := by simp [nbits, h]

section
variable {n : Nat} {p : Packer} {t : Option HEntry}

theorem putCode_puts {sym : Nat} (h : HasCode t sym) (hp : p.SoundFrom n) : Puts n (putCode t sym p) := by
  obtain ⟨c, hc⟩ := h
  exact ⟨p.put c.1 c.2, by rw [putCode, hc], hp.put _ _⟩

theorem putCoef_puts {r : Nat} {v : Int} (h : HasCode t (r * 16 + nbits v)) (hp : p.SoundFrom n) :
    Puts n (putCoef t r v p) :=
  (putCode_puts h hp).bind fun _ hp => ⟨_, rfl, hp.put _ _⟩

theorem putZrls_puts (h : HasCode t 0xF0) (m : Nat) (hp : p.SoundFrom n) : Puts n (putZrls t m p) := by
  induction m generalizing p with
  | zero => exact ⟨p, rfl, hp⟩
  | succ m ih => exact (putCode_puts h hp).bind fun _ hp => ih hp

/-- The AC coefficients always have codes: the clamp keeps their categories at most 10 (R412). -/
theorem putAcs_puts (ht : AcTable t) (zs : List Int) (r : Nat) (hp : p.SoundFrom n) : Puts n (putAcs t zs r p) := by
  obtain ⟨heob, hzrl, hcoef⟩ := ht
  induction zs generalizing r p with
  | nil =>
    unfold putAcs
    split
    · exact putCode_puts heob hp
    · exact ⟨p, rfl, hp⟩
  | cons z zs ih =>
    have hz := clampInt_between (v := z) (show (-1023 : Int) ≤ 1023 by decide)
    have hcat : nbits (clampInt z (-1023) 1023) < 11 := Nat.lt_succ_of_le (nbits_le (by omega))
    simp only [putAcs]
    split
    · exact ih _ hp
    · next h0 =>
      refine (putZrls_puts hzrl _ hp).bind fun p hp => Puts.bind ?_ fun p hp => ih _ hp
      exact putCoef_puts (hcoef _ (Nat.mod_lt _ (by decide)) _ hcat (nbits_ne_zero h0)) hp

end

/-! ## Quantized DC coefficients (R258, R260, R412) -/

theorem quantOne_between {f : Int} {q m : Nat} (hq : 1 ≤ q) (h0 : 0 ≤ f) (hf : f + 4 < 8 * (m + 1)) :
    0 ≤ quantOne f q ∧ quantOne f q ≤ m := by
  rw [quantOne_of_nonneg q h0]
  refine ⟨by positivity, Int.lt_add_one_iff.1 (Int.ediv_lt_of_lt_mul (by omega) ?_)⟩
  nlinarith

/-- The sum of the level-shifted samples, which is 8 F for coefficient 0, both times `2^48`. -/
theorem gain8_dc_between (smp : List Byte) : -8192 * 2 ^ 48 ≤ gain8 smp 0 0 ∧ gain8 smp 0 0 ≤ 8128 * 2 ^ 48 := by
  have hterm : ∀ x ∈ (List.range 64).map fun n => (((smp.getD n 0).toNat : Int) - 128) * dctAt 0 (n / 8) * dctAt 0 (n % 8),
      -128 * 2 ^ 48 ≤ x ∧ x ≤ 127 * 2 ^ 48 := by
    intro x hx
    obtain ⟨n, -, rfl⟩ := List.mem_map.1 hx
    have := (smp.getD n 0).isLt
    simp only [dctAt, if_true]
    omega
  rw [gain8_eq smp (by decide) (by decide)]
  have hlow := List.card_nsmul_le_sum _ _ fun x hx => (hterm x hx).1
  have hhigh := List.sum_le_card_nsmul _ _ fun x hx => (hterm x hx).2
  rw [List.length_map, List.length_range] at hlow hhigh
  exact ⟨hlow, hhigh⟩

/-- R412, log 20: the range of a quantized DC coefficient, whoever supplies FDCT_FN. -/
theorem fdctZzQ_dc_between (c : Choice) (smp q : List Byte) (hq : q.getD 0 0 ≠ 0) :
    -1025 ≤ (fdctZzQ c smp q).getD 0 0 ∧ (fdctZzQ c smp q).getD 0 0 ≤ 1017 := by
  obtain ⟨g, hg, hnear, -⟩ := fdct_gain c smp (v := 0) (u := 0) (by decide) (by decide)
  have hrange := gain8_dc_between smp
  have hpos : 1 ≤ (q.getD 0 0).toNat := Nat.one_le_iff_ne_zero.2 fun h => hq (BitVec.eq_of_toNat_eq h)
  have hdc : (fdctZzQ c smp q).getD 0 0 = quantOne g (q.getD 0 0).toNat := by
    rw [List.getD_eq_getElem?_getD, fdctZzQ_getElem? c smp q (by decide), Option.getD_some,
      List.getD_eq_getElem?_getD (i := zz 0)]
    exact congrArg (fun g => quantOne (Option.getD g 0) _) hg
  rw [hdc]
  rcases le_total 0 g with h0 | h0
  · have := quantOne_between (m := 1017) hpos h0 (by omega)
    omega
  · have := quantOne_between (m := 1025) hpos (f := -g) (by omega) (by omega)
    rw [quantOne_neg g hpos] at this
    omega

theorem predOk_ofInt {z : Int} (h : -1025 ≤ z ∧ z ≤ 1017) : predOk (BitVec.ofInt 32 z) := by
  rw [predOk, BitVec.toInt_ofInt_eq_self (by decide) (by omega) (by omega)]
  exact h

/-! ## Blocks and bands (R406, R410) -/

/-- The predictors are quantized DC coefficients. -/
def Enc.PredsOk (e : Enc) : Prop := predOk e.pred0 ∧ predOk e.pred1 ∧ predOk e.pred2

theorem Enc.PredsOk.pred {e : Enc} (h : e.PredsOk) (c : Fin 3) : predOk (e.pred c) := by
  obtain ⟨h0, h1, h2⟩ := h
  fin_cases c
  · exact h0
  · exact h1
  · exact h2

/-- The encoder with other predictors. -/
def Enc.withPreds (e : Enc) (a b c : Word) : Enc := { e with pred0 := a, pred1 := b, pred2 := c }

/-- The coding of blocks answers: a sound packer, and the encoder with other predictors, quantized DC coefficients too. -/
def Codes (n : Nat) (e : Enc) (r : Except Fault (Enc × Packer)) : Prop :=
  ∃ a b c p, r = .ok (e.withPreds a b c, p) ∧ (e.withPreds a b c).PredsOk ∧ p.SoundFrom n

theorem Codes.setPred {n : Nat} {e : Enc} {p : Packer} {z : Int} (he : e.PredsOk) (hz : -1025 ≤ z ∧ z ≤ 1017)
    (hp : p.SoundFrom n) (c : Fin 3) : Codes n e (.ok (e.setPred c (BitVec.ofInt 32 z), p)) := by
  obtain ⟨h0, h1, h2⟩ := he
  fin_cases c
  · exact ⟨_, _, _, p, rfl, ⟨predOk_ofInt hz, h1, h2⟩, hp⟩
  · exact ⟨_, _, _, p, rfl, ⟨h0, predOk_ofInt hz, h2⟩, hp⟩
  · exact ⟨_, _, _, p, rfl, ⟨h0, h1, predOk_ofInt hz⟩, hp⟩

/-- What follows coded blocks codes too. -/
theorem Codes.bind {n : Nat} {e : Enc} {r : Except Fault (Enc × Packer)} {f : Enc × Packer → Except Fault (Enc × Packer)}
    (h : Codes n e r)
    (hf : ∀ a b c p, (e.withPreds a b c).PredsOk → p.SoundFrom n →
      Codes n (e.withPreds a b c) (f (e.withPreds a b c, p))) :
    Codes n e (r >>= f) := by
  obtain ⟨a, b, c, p, rfl, he, hp⟩ := h
  exact hf a b c p he hp

/-- The difference of two quantized DC coefficients is below `2^11` in size, so its category is at most 11 (R412). -/
theorem encodeBlock_codes {n : Nat} {e : Enc} {p : Packer} {zs : List Int} (c : Fin 3) (he : e.PredsOk) (hp : p.SoundFrom n)
    (hz : -1025 ≤ zs.getD 0 0 ∧ zs.getD 0 0 ≤ 1017) : Codes n e (encodeBlock c zs e p) := by
  have hpred := he.pred c
  unfold predOk at hpred
  have hcat : nbits (zs.getD 0 0 - (e.pred c).toInt) ≤ 11 := nbits_le (by omega)
  have hdc : DcTable (if c = 0 then dcL else dcC) := by
    split
    · exact dcL_codes
    · exact dcC_codes
  have hac : AcTable (if c = 0 then acL else acC) := by
    split
    · exact acL_codes
    · exact acC_codes
  obtain ⟨p1, h1, hp1⟩ := putCoef_puts (t := if c = 0 then dcL else dcC) (r := 0)
    (v := zs.getD 0 0 - (e.pred c).toInt) (by simpa using hdc _ (Nat.lt_succ_of_le hcat)) hp
  obtain ⟨p2, h2, hp2⟩ := putAcs_puts hac (zs.drop 1) 0 hp1
  have hr : encodeBlock c zs e p = .ok (e.setPred c (BitVec.ofInt 32 (zs.getD 0 0)), p2) := by
    simp only [encodeBlock, h1, h2, bind, Except.bind]
  exact hr ▸ Codes.setPred he hz hp2 c

/-- A quantization table has 64 entries, none 0 (R396). -/
def TableOk (q : List Byte) : Prop := q.length = 64 ∧ ∀ x ∈ q, x ≠ 0

theorem TableOk.getD_ne_zero {q : List Byte} (h : TableOk q) {n : Nat} (hn : n < 64) : q.getD n 0 ≠ 0 := by
  obtain ⟨hl, h0⟩ := h
  rw [List.getD_eq_getElem?_getD, List.getElem?_eq_getElem (by omega)]
  exact h0 _ (List.getElem_mem _)

theorem encodeSamples_codes {n : Nat} {e : Enc} {p : Packer} (cfg : Config) (c : Fin 3) (smp : List Byte)
    (hl : TableOk e.ql) (hc : TableOk e.qc) (he : e.PredsOk) (hp : p.SoundFrom n) :
    Codes n e (encodeSamples cfg c smp e p) := by
  have hq : TableOk (if c = 0 then e.ql else e.qc) := by
    split
    · exact hl
    · exact hc
  have hany : ((List.range 64).any fun n => (if c = 0 then e.ql else e.qc).getD n 0 == 0) = false := by
    refine List.any_eq_false.2 fun n hn => ?_
    rw [beq_iff_eq]
    exact hq.getD_ne_zero (List.mem_range.1 hn)
  simp only [encodeSamples, hany, Bool.false_eq_true, if_false]
  exact encodeBlock_codes c he hp (fdctZzQ_dc_between cfg.fdct smp _ (hq.getD_ne_zero (by decide)))

theorem encodeAll_codes {n : Nat} {e : Enc} {p : Packer} (cfg : Config) (bs : List (Fin 3 × List Byte))
    (hl : TableOk e.ql) (hc : TableOk e.qc) (he : e.PredsOk) (hp : p.SoundFrom n) : Codes n e (encodeAll cfg bs e p) := by
  induction bs generalizing e p with
  | nil => exact ⟨e.pred0, e.pred1, e.pred2, p, rfl, he, hp⟩
  | cons b bs ih =>
    exact (encodeSamples_codes cfg b.1 b.2 hl hc he hp).bind fun _ _ _ _ he hp => ih hl hc he hp

/-! ## Rows (R405, R415) -/

/-- An open encoder between commands (R390, R396). -/
structure Enc.Open (e : Enc) : Prop where
  w : 1 ≤ e.w
  h : 1 ≤ e.h
  ql : TableOk e.ql
  qc : TableOk e.qc
  rows : e.rows ≤ e.h
  band : e.band.length < 16

theorem State.encInv_iff {s : State} :
    s.EncInv ↔ (s.enc.isOpen = true → s.enc.Open) ∧ s.enc.PredsOk ∧ s.pk.SoundFrom s.enc.start := by
  constructor
  · rintro ⟨hopen, h0, h1, h2, hcnt, hstart⟩
    refine ⟨fun h => ?_, ⟨h0, h1, h2⟩, hcnt, hstart⟩
    obtain ⟨hw, hh, hl, hc, hl0, hc0, hrows, hband⟩ := hopen h
    exact ⟨hw, hh, ⟨hl, hl0⟩, ⟨hc, hc0⟩, hrows, hband⟩
  · rintro ⟨hopen, ⟨h0, h1, h2⟩, hcnt, hstart⟩
    refine ⟨fun h => ?_, h0, h1, h2, hcnt, hstart⟩
    obtain ⟨hw, hh, ⟨hl, hl0⟩, ⟨hc, hc0⟩, hrows, hband⟩ := hopen h
    exact ⟨hw, hh, hl, hc, hl0, hc0, hrows, hband⟩

/-- Rows have been added to `e`: the answer is a sound encoder with `k` rows more, of the same run. -/
def Adds (k : Nat) (e : Enc) (r : Except Fault (Enc × Packer)) : Prop :=
  ∃ e' p', r = .ok (e', p') ∧ e'.Open ∧ e'.PredsOk ∧ p'.SoundFrom e.start ∧
    e'.rows = e.rows + k ∧ e'.h = e.h ∧ e'.start = e.start

/-- The encoder with a row buffered (R405). -/
def Enc.withRow (e : Enc) (row : List Word) : Enc :=
  { e with band := e.band ++ [row], last := some row, rows := e.rows + 1 }

theorem Enc.withRow_band_length (e : Enc) (row : List Word) : (e.withRow row).band.length = e.band.length + 1 :=
  List.length_append

theorem addRow_adds {e : Enc} {p : Packer} (cfg : Config) (row : List Word) (ho : e.Open) (hr : e.rows < e.h)
    (he : e.PredsOk) (hp : p.SoundFrom e.start) : Adds 1 e (addRow cfg row e p) := by
  obtain ⟨hw, hh, hl, hc, -, hband⟩ := ho
  rw [addRow, ← Enc.withRow]
  split
  · obtain ⟨a, b, c, p', hcode, he', hp'⟩ :=
      encodeAll_codes cfg ((List.range (ceilDiv e.w 16)).flatMap (e.withRow row).mcuBlocks) (e := e.withRow row) hl hc he hp
    have hbandcode : encodeBand cfg (e.withRow row) p = .ok ((e.withRow row).withPreds a b c, p') := hcode
    refine ⟨{ (e.withRow row).withPreds a b c with band := [] }, p', by rw [hbandcode]; rfl, ?_, he', hp', rfl, rfl, rfl⟩
    exact ⟨hw, hh, hl, hc, hr, Nat.zero_lt_succ 15⟩
  · next hfull =>
    rw [Enc.withRow_band_length] at hfull
    exact ⟨e.withRow row, p, rfl, ⟨hw, hh, hl, hc, hr, by rw [Enc.withRow_band_length]; omega⟩, he, hp, rfl, rfl, rfl⟩

theorem addMissing_adds {k : Nat} {e : Enc} {p : Packer} (cfg : Config) (ho : e.Open) (hk : e.rows + k ≤ e.h)
    (he : e.PredsOk) (hp : p.SoundFrom e.start) : Adds k e (addMissing cfg k e p) := by
  induction k generalizing e p with
  | zero => exact ⟨e, p, rfl, ho, he, hp, rfl, rfl, rfl⟩
  | succ k ih =>
    obtain ⟨e1, p1, h1, ho1, he1, hp1, hrows1, hh1, hs1⟩ := addRow_adds cfg e.fill ho (by omega) he hp
    obtain ⟨e2, p2, h2, ho2, he2, hp2, hrows2, hh2, hs2⟩ := ih ho1 (by omega) he1 (hs1 ▸ hp1)
    refine ⟨e2, p2, ?_, ho2, he2, hs1 ▸ hp2, by omega, hh2.trans hh1, hs2.trans hs1⟩
    simp only [addMissing, h1, bind, Except.bind, h2]

/-! ## Commands (R393, R405, R415, R416) -/

/-- A table scaled by the quality has no entry 0: each is at least 1 (R394, R396). -/
theorem scaleTable_ok {base : List Nat} (h : base.length = 64) (scale : Nat) : TableOk (scaleTable base scale) := by
  refine ⟨(List.length_map _).trans h, fun x hx => ?_⟩
  obtain ⟨b, -, rfl⟩ := List.mem_map.1 hx
  have hpos : 0 < (BitVec.ofNat 8 (min (max ((b * scale + 50) / 100) 1) 255)).toNat := by
    rw [toNat_ofNat_of_lt (by omega)]
    omega
  intro h0
  rw [h0] at hpos
  exact absurd hpos (by decide)

/-- The command answers a sound next state. -/
def Answers (o : Outcome) : Prop := ∃ t, o = .next t ∧ t.EncInv

theorem State.encRefuse_answers {s : State} (h : s.EncInv) (c : Command) (e : EncErr) : Answers (s.encRefuse c e) :=
  ⟨_, rfl, h⟩

theorem execEncInit_answers {s : State} (hv : s.view = none) (h : s.EncInv) (q : Int) (w n : Nat) :
    Answers (execEncInit q w n s) := by
  rw [execEncInit, State.atCall_none hv]
  split
  · exact State.encRefuse_answers h _ _
  · split
    · exact State.encRefuse_answers h _ _
    · next hsize =>
      have hw : 1 ≤ w := by omega
      have hn : 1 ≤ n := by omega
      have hzero : predOk 0 := ⟨by decide, by decide⟩
      have hlen : s.pk.outq.length ≤
          (s.pk.outq ++ headerBytes (scaleTable baseL (qualityScale q)) (scaleTable baseC (qualityScale q)) w n).length := by
        rw [List.length_append]
        exact Nat.le_add_right _ _
      exact ⟨_, rfl, State.encInv_iff.2 ⟨fun _ => ⟨hw, hn, scaleTable_ok rfl _, scaleTable_ok rfl _, Nat.zero_le n,
        Nat.zero_lt_succ 15⟩, ⟨hzero, hzero, hzero⟩, Nat.zero_lt_succ 7, hlen⟩⟩

theorem execEncScanline_answers {s : State} (hv : s.view = none) (h : s.EncInv) (row : List Word) :
    Answers (execEncScanline row s) := by
  obtain ⟨hopen, he, hp⟩ := State.encInv_iff.1 h
  rw [execEncScanline, State.atCall_none hv]
  split
  · exact State.encRefuse_answers h _ _
  next ho =>
    split
    · exact State.encRefuse_answers h _ _
    · split
      · exact State.encRefuse_answers h _ _
      · next hrows =>
        have hopen := hopen (by simpa using ho)
        obtain ⟨e, p, hr, ho', he', hp', -, -, hstart⟩ :=
          addRow_adds s.cfg row hopen (Nat.lt_of_le_of_ne hopen.rows hrows) he hp
        rw [hr]
        exact ⟨_, rfl, State.encInv_iff.2 ⟨fun _ => ho', he', hstart ▸ hp'⟩⟩

theorem execEncFinish_answers {s : State} (hv : s.view = none) (h : s.EncInv) : Answers (execEncFinish s) := by
  obtain ⟨hopen, he, hp⟩ := State.encInv_iff.1 h
  rw [execEncFinish, State.atCall_none hv]
  split
  · exact State.encRefuse_answers h _ _
  next ho =>
    have hopen := hopen (by simpa using ho)
    obtain ⟨e, p, hr, -, he', hp', -, -, hstart⟩ :=
      addMissing_adds (k := s.enc.h - s.enc.rows) s.cfg hopen (by have := hopen.rows; omega) he hp
    rw [hr]
    exact ⟨_, rfl, State.encInv_iff.2 ⟨nofun, he', hstart ▸ hp'.pad.append _⟩⟩

/-- Settles O58, command by command: the rows left are added one by one, each band's DC differences have a category of at most
11 and its AC coefficients one of at most 10, for which the tables have codes, and no table entry is 0. -/
theorem encoderNeverStops : Obligations.EncoderNeverStops := by
  intro i s hi hv h
  cases i
  case encInit q w n => exact execEncInit_answers hv h q w n
  case encScanline row => exact execEncScanline_answers hv h row
  case encFinish => exact execEncFinish_answers hv h
  all_goals cases hi

end Sys2Proof.Machine
end

section
/-! PROOFS. The rules for a handler's checks: bytes that are missing, a check that fails, the preamble of a segment
(R12, R13, R142, R143, R286), and which unit each marker runs where STATE selects it (R282, R284, R318). -/

namespace Sys2Proof.Machine

/-! ## Checks (R12, R13) -/

theorem raise_bind {α β : Type} (c : Cause) (f : α → Except UnitStop β) : (raise c >>= f) = raise c := rfl

/-- A check is a branch. -/
theorem failIf_bind {β : Type} (bad : Bool) (c : Cause) (f : Unit → Except UnitStop β) :
    (failIf bad c >>= f) = if bad then raise c else f () := by
  cases bad <;> rfl

theorem needFails_bind {α β : Type} (more : Bool) (f : α → Except UnitStop β) :
    (needFails more >>= f) = needFails more := by
  cases more <;> rfl

theorem Dec.need_lacks {d : Dec} {v : List Byte} {n : Nat} (h : d.avail v < n) : d.need v n = needFails d.more :=
  if_pos h

theorem State.endUnit_raises (s : State) (c : Cause) : s.endUnit (raise c) = .next (s.takeError (.corrupt c)) := rfl

/-- R142, R143: a unit that lacks bytes. -/
theorem State.endUnit_lacks {s : State} {v : List Byte} (hv : s.view = some v) (hs : s.snap = none)
    (hf : s.dec.fsm ≠ .done) : s.endUnit (needFails s.dec.more) = .next (s.starved v) := by
  cases hm : s.dec.more with
  | true => exact congrArg Host.Outcome.next (State.returnDecode_starved hv hs hf)
  | false => simp [needFails, State.endUnit_raises, State.starved, hm]

theorem State.starved_events (s : State) (v : List Byte) : (s.starved v).events = s.events := by
  unfold State.starved
  split <;> rfl

/-! ## SEGMENT_PREAMBLE (R286) -/

section
variable {d : Dec} {v : List Byte} {least : Nat} {c : Cause}

theorem Dec.preamble_eq (h : 4 ≤ d.avail v) :
    d.preamble v least c =
      if (d.be16 v 2).toNat < 2 then raise .segmentLength
      else if (d.be16 v 2).toNat < least then raise c
      else d.need v (2 + (d.be16 v 2).toNat) >>= fun _ => .ok (d.be16 v 2).toNat := by
  simp only [Dec.preamble, Dec.need_ok h, except_ok_bind, failIf_bind, decide_eq_true_eq]

theorem Dec.preamble_lacks_length (h : d.avail v < 4) : d.preamble v least c = needFails d.more := by
  rw [Dec.preamble, Dec.need_lacks h, needFails_bind]

theorem Dec.preamble_below_two (h : 4 ≤ d.avail v) (hx : (d.be16 v 2).toNat < 2) :
    d.preamble v least c = raise .segmentLength := by
  rw [Dec.preamble_eq h, if_pos hx]

theorem Dec.preamble_below_least (h : 4 ≤ d.avail v) (h2 : 2 ≤ (d.be16 v 2).toNat) (hx : (d.be16 v 2).toNat < least) :
    d.preamble v least c = raise c := by
  rw [Dec.preamble_eq h, if_neg (by omega), if_pos hx]

theorem Dec.preamble_lacks_segment (h : 4 ≤ d.avail v) (h2 : 2 ≤ (d.be16 v 2).toNat) (hx : least ≤ (d.be16 v 2).toNat)
    (ha : d.avail v < 2 + (d.be16 v 2).toNat) : d.preamble v least c = needFails d.more := by
  rw [Dec.preamble_eq h, if_neg (by omega), if_neg (by omega), Dec.need_lacks ha, needFails_bind]

/-- The preamble of a whole segment gives its length field. -/
theorem Dec.segment.preamble_bind {β : Type} {lx : Nat} (h : d.segment v lx) (hx : least ≤ lx)
    (f : Nat → Except UnitStop β) : (d.preamble v least c >>= f) = f lx := by
  obtain ⟨he, h2, ha⟩ := h
  rw [Dec.preamble_ok he h2 hx ha, except_ok_bind]

theorem Dec.segment.two_le_avail {lx : Nat} (h : d.segment v lx) : 2 ≤ d.avail v :=
  Nat.le_trans (Nat.le_add_right 2 lx) h.2.2

end

/-! ## The unit of each marker -/

/-- A marker met by the scanner (R284). -/
theorem State.scanning.atScan {s : State} {v : List Byte} (h : s.scanning v) (ha : 2 ≤ s.dec.avail v)
    (g : List Byte → Except UnitStop UnitDone) : s.atScan g = s.endUnit (g v) :=
  State.atScan_scan h.1 h.2 ha

theorem State.scanning.not_done {s : State} {v : List Byte} (h : s.scanning v) : s.dec.fsm ≠ .done := by
  rcases h.2 with hf | hf <;> rw [hf] <;> decide

theorem State.inState.scanning {s : State} {v : List Byte} (h : s.inState v .frame) : s.scanning v := ⟨h.1, .inr h.2⟩

/-- The markers of SKIP_SEGMENT (R330). -/
theorem exec_skip {i : Instr} (hi : i ∈ skipMarkers) (s : State) : exec i s = s.atScan fun v => s.dec.skipSegment v := by
  fin_cases hi <;> rfl

theorem exec_rst {i : Instr} (hi : i ∈ rstMarkers) (s : State) : exec i s = s.atRst := by
  fin_cases hi <;> rfl

theorem exec_unsupported {i : Instr} (hi : i ∈ unsupportedMarkers) (s : State) :
    exec i s = s.atScan fun _ => raise .sofUnsupported := by
  fin_cases hi <;> rfl

theorem exec_frameMarker {i : Instr} {k : Fin 3} (hi : (i, k) ∈ frameMarkers) (s : State) :
    exec i s = s.atScan fun v => s.dec.sofHeader k v := by
  simp only [frameMarkers, List.mem_cons, Prod.mk.injEq, List.not_mem_nil, or_false] at hi
  obtain ⟨rfl, rfl⟩ | ⟨rfl, rfl⟩ | ⟨rfl, rfl⟩ := hi <;> rfl

end Sys2Proof.Machine
end

section
/-! PROOFS. Segments that are skipped and markers that have no segment: what each step or marker answers (R282 to R286,
R292, R318, R330, R331). -/

namespace Sys2Proof.Machine

/-! ## Segments (R286, R330) -/

/-- A segment marker's handler begins with its preamble. -/
theorem exec_segment {i : Instr} {least : Nat} {c : Cause} {s : State} {v : List Byte}
    (hi : (i, least, c) ∈ segmentMarkers) (hs : s.scanning v) (hf : i = .sos → s.dec.fsm = .frame)
    (ha : 2 ≤ s.dec.avail v) : ∃ f, exec i s = s.endUnit (s.dec.preamble v least c >>= f) := by
  simp only [segmentMarkers, List.mem_append, List.mem_map, List.mem_cons, Prod.mk.injEq, List.not_mem_nil,
    or_false] at hi
  rcases hi with ⟨i, hi | rfl | rfl | rfl | rfl | rfl, rfl, rfl, rfl⟩ | ⟨rfl, rfl, rfl⟩ | ⟨rfl, rfl, rfl⟩ |
    ⟨rfl, rfl, rfl⟩
  · exact ⟨_, (exec_skip hi s).trans (hs.atScan ha _)⟩
  case inr.inr.inr => exact ⟨_, (hs.atScan ha _).trans (congrArg s.endUnit (if_pos (hf rfl)))⟩
  all_goals exact ⟨_, hs.atScan ha _⟩

/-- Settles O14, by the branches of SEGMENT_PREAMBLE. -/
theorem segmentPreamble : Obligations.SegmentPreamble := by
  rintro i least c s v lx hi hs hf hn ha rfl
  obtain ⟨f, hx⟩ := exec_segment hi hs hf ha
  refine ⟨fun h => ?_, fun h h2 => ?_, fun h h2 hl => ?_, fun h h2 hl hw => ?_⟩
  · rw [hx, Dec.preamble_lacks_length h, needFails_bind, State.endUnit_lacks hs.1 hn hs.not_done]
  · rw [hx, Dec.preamble_below_two h h2, raise_bind, State.endUnit_raises]
  · rw [hx, Dec.preamble_below_least h h2 hl, raise_bind, State.endUnit_raises]
  · rw [hx, Dec.preamble_lacks_segment h h2 hl hw, needFails_bind, State.endUnit_lacks hs.1 hn hs.not_done]

/-- Settles O15: the skip of a whole segment, and else the preamble of O14. -/
theorem segmentSkipped : Obligations.SegmentSkipped := by
  intro i s v lx hi hs
  have hseg : (i, 2, Cause.segmentLength) ∈ segmentMarkers :=
    List.mem_append_left _ (List.mem_map_of_mem (List.mem_append_left _ hi))
  have hsos : i ≠ .sos := fun h => absurd (h ▸ hi) (by decide)
  have hpre := fun hn ha => segmentPreamble i 2 _ s v _ hseg hs (fun h => absurd h hsos) hn ha rfl
  refine ⟨fun h => ?_, fun hn ha hx h2 => ?_, fun hn ha hl => ?_⟩
  · rw [exec_skip hi, hs.atScan h.two_le_avail, Dec.skipSegment, h.preamble_bind h.2.1, State.endUnit_quiet]
    rfl
  · subst hx
    exact (hpre hn (by omega)).2.1 ha h2
  · obtain ⟨hshort, -, -, hwhole⟩ := hpre hn ha
    rcases Nat.lt_or_ge (s.dec.avail v) 4 with h4 | h4
    · exact hshort h4
    · obtain h | ⟨h2, rfl, hw⟩ := hl
      · omega
      · exact hwhole h4 h2 h2 hw

/-! ## Markers without a segment (R292, R331) -/

/-- Settles O16: the scanner's arm of TEM and of RSTn. -/
theorem standaloneIgnored : Obligations.StandaloneIgnored := by
  intro i s v hi hs ha
  have hx : exec i s = s.endUnit s.dec.ignoreStandalone := by
    rcases List.mem_cons.1 hi with rfl | hi
    · exact hs.atScan ha _
    · exact (exec_rst hi s).trans (State.atMarker_scan hs.1 hs.2 ha)
  exact hx.trans (State.endUnit_quiet s _)

/-- Settles O17: the scanner's arm of the ten markers. -/
theorem unsupportedFrameRaises : Obligations.UnsupportedFrameRaises := fun _ s _ hi hs ha =>
  (exec_unsupported hi s).trans (hs.atScan ha _)

/-! ## Skipping one byte (R284, R318) -/

/-- What is no marker is no instruction to run: the scanner and RST_STEP skip its first byte. -/
theorem State.fetch_skipByte {s : State} {v rest : List Byte} {b : Byte}
    (hf : s.dec.fsm = .started ∨ s.dec.fsm = .frame ∨ s.dec.fsm = .findMarker)
    (h : v.drop s.dec.cur = b :: rest ∧ b ≠ 0xFF ∨ v.drop s.dec.cur = 0xFF :: 0xFF :: rest) :
    s.fetch v = .ends s.dec.skipByte := by
  have hmarker : s.fetchMarker v = .ends s.dec.skipByte := by
    rcases h with ⟨h, hb⟩ | h
    · simp only [State.fetchMarker, Dec.rest, h, decode_marker_garbage rest hb]
    · rw [State.fetchMarker, Dec.rest, h]
      rfl
  rcases hf with hf | hf | hf <;> simp only [State.fetch, hf, hmarker]

/-- Settles O5: such a byte is not fetched, and RES is skipped by its two arms. -/
theorem oneByteSkipped : Obligations.OneByteSkipped := by
  refine ⟨fun s v rest b hv hf h => ?_, fun s v m hv hf ha => ?_⟩
  · rw [step_of_fetch_ends hv (State.fetch_skipByte hf h), Dec.skipByte, State.endUnit_quiet]
    exact settle_quiet rfl
  · have hx : exec (.res m) s = s.endUnit s.dec.skipByte := by
      rcases hf with hf | hf | hf
      · exact State.atMarker_scan hv (.inl hf) ha
      · exact State.atMarker_scan hv (.inr hf) ha
      · exact State.atMarker_find hv hf ha
    exact hx.trans (State.endUnit_quiet s _)

/-! ## The SOI unit (R282) and misplaced markers -/

/-- In NONE every marker but SOI is the wrong one. -/
theorem exec_marker_none {i : Instr} {s : State} {v : List Byte} (hi : ctxOf i = .marker) (hne : i ≠ .soi)
    (hv : s.view = some v) (hf : s.dec.fsm = .none) (ha : 2 ≤ s.dec.avail v) :
    exec i s = .next (s.takeError (.corrupt .soiMissing)) := by
  have harm : ∃ g h k, exec i s = s.atMarker (fun _ => raise .soiMissing) g h k := by
    cases i
    case soi => exact absurd rfl hne
    case dcDiff | dcRefineBit | acEob | acZrl | acEobRun | acRunSize | decode | flushProgressive | reset | encInit |
        encScanline | encFinish | mqInitDec | mqDecode | mqResetCtx => cases hi
    all_goals exact ⟨_, _, _, rfl⟩
  obtain ⟨g, h, k, hx⟩ := harm
  rw [hx, State.atMarker_none hv hf ha, State.endUnit_raises]

/-- In FINDMARKER every marker but RSTn is the wrong one (R318). -/
theorem exec_marker_find {i : Instr} {s : State} {v : List Byte} (hi : isRecognized i = true) (hne : i ∉ rstMarkers)
    (hv : s.view = some v) (hf : s.dec.fsm = .findMarker) (ha : 2 ≤ s.dec.avail v) :
    exec i s = .next (s.takeError (.corrupt .rstExpected)) := by
  have harm : ∃ f g k, exec i s = s.atMarker f g (fun _ => raise .rstExpected) k := by
    cases i
    case rst0 | rst1 | rst2 | rst3 | rst4 | rst5 | rst6 | rst7 => exact absurd (by decide) hne
    case res | dcDiff | dcRefineBit | acEob | acZrl | acEobRun | acRunSize | decode | flushProgressive | reset |
        encInit | encScanline | encFinish | mqInitDec | mqDecode | mqResetCtx => cases hi
    all_goals exact ⟨_, _, _, rfl⟩
  obtain ⟨f, g, k, hx⟩ := harm
  rw [hx, State.atMarker_find hv hf ha, State.endUnit_raises]

theorem exec_soi_none {s : State} {v : List Byte} (h : s.inState v .none) (ha : 2 ≤ s.dec.avail v) :
    exec .soi s = .next { s with dec := { s.dec with cur := s.dec.cur + 2, fsm := .started }, snap := none } :=
  (State.atMarker_none h.1 h.2 ha).trans (State.endUnit_quiet s _)

theorem State.fetch_none {s : State} (v : List Byte) (hf : s.dec.fsm = .none) : s.fetch v = s.fetchSoi v := by
  simp only [State.fetch, hf]

/-- Only FF D8 is SOI. -/
theorem decodeMarker_soi {bs rest : List Byte} (h : decodeMarker bs = .ok (.soi, rest)) : bs = 0xFF :: 0xD8 :: rest := by
  obtain ⟨m, rfl, hm⟩ := decodeMarker_ok h
  obtain ⟨-, -, hc⟩ := markerOf_some hm
  obtain rfl : 0xD8 = m := by simpa [encode] using hc
  rfl

/-- Settles O18: FF D8 decodes to SOI, other two bytes to another marker or to none. -/
theorem startOfImage : Obligations.StartOfImage := by
  intro s v h hn
  obtain ⟨hv, hf⟩ := h
  refine ⟨fun rest hd => ?_, fun a b rest hd hab => ?_, fun ha => ?_⟩
  · have hdec : decode .marker (v.drop s.dec.cur) = .ok (.soi, rest) := by
      rw [hd]
      rfl
    have hx := exec_soi_none ⟨hv, hf⟩ (Dec.two_le_avail_of_decode hdec)
    refine ⟨?_, hx⟩
    rw [step_of_fetch_run hv (State.fetch_marker (.inl hf) hdec), hx]
    exact settle_quiet rfl
  · have ha : 2 ≤ s.dec.avail v := by
      have hl := congrArg List.length hd
      simp only [List.length_drop, List.length_cons] at hl
      unfold Dec.avail
      omega
    cases hdec : decode .marker (v.drop s.dec.cur) with
    | ok p =>
      obtain ⟨i, rest'⟩ := p
      obtain ⟨m, hm, hi⟩ := decodeMarker_ok hdec
      have hsoi : i ≠ .soi := by
        rintro rfl
        have := hd.symm.trans (decodeMarker_soi hdec)
        simp only [List.cons.injEq] at this
        exact hab ⟨this.1, this.2.1⟩
      rw [step_of_fetch_run hv (State.fetch_marker (.inl hf) hdec),
        exec_marker_none (markerOf_some hi).2.1 hsoi hv hf ha]
      exact settle_quiet rfl
    | error e =>
      refine step_of_fetch_raise hv ((State.fetch_none v hf).trans ?_)
      simp only [State.fetchSoi, Dec.need_ok ha, Dec.rest, hdec, raise]
  · have hfetch : s.fetch v = .ends (needFails s.dec.more) := by
      rw [State.fetch_none v hf, State.fetchSoi, Dec.need_lacks ha]
      cases s.dec.more <;> rfl
    rw [step_of_fetch_ends hv hfetch, State.endUnit_lacks hv hn (by simp [hf])]
    exact settle_quiet (State.starved_events s v)

/-- Settles O19, marker by marker: the arm of STATE. -/
theorem misplacedMarkersRaise : Obligations.MisplacedMarkersRaise := by
  intro s v hv ha
  refine ⟨fun hf i hi hne => exec_marker_none hi hne hv hf ha, fun hf => State.atMarker_scan hv hf ha,
    fun hf => ?_, fun hf => ?_, fun hf hsc => ?_⟩
  · exact (State.atScan_scan hv (.inl hf) ha).trans (congrArg s.endUnit (if_neg (by simp [hf])))
  · exact (State.atScan_scan hv (.inl hf) ha).trans (congrArg s.endUnit (if_neg (by simp [hf])))
  · refine (State.atScan_scan hv (.inr hf) ha).trans ?_
    rw [if_pos hf, Dec.eoi, decide_eq_true hsc]
    rfl

/-! ## RST_STEP (R318) -/

/-- INIT_ENTROPY's predictors (R208). -/
theorem Dec.initEntropy_comp (d : Dec) (i : Fin 4) :
    d.initEntropy.comp.get i = if i.val < d.frame.nf then { d.comp.get i with pred := 0 } else d.comp.get i := by
  match i with
  | 0 | 1 | 2 | 3 => rfl

/-- Settles O27: INIT_ENTROPY for RSTn, the raise for any other recognized marker. -/
theorem restartStep : Obligations.RestartStep := by
  refine ⟨fun i s v hi h ha => ⟨s.dec.initEntropy.comp, s.dec.initEntropy_comp, ?_⟩, fun i s v hi hne h ha => ?_⟩
  · rw [exec_rst hi, State.atRst, State.atMarker_find h.1 h.2 ha, Dec.restart_ok, State.endUnit_commit, List.append_nil]
  · exact exec_marker_find hi hne h.1 h.2 ha

end Sys2Proof.Machine
end

section
/-! PROOFS. The segments that set an interval or record metadata, whole in the view (R305, R320 to R323, R381, R383). -/

namespace Sys2Proof.Machine

/-- Settles O24, by the check of the length. -/
theorem restartIntervalSet : Obligations.RestartIntervalSet := by
  intro s v lx hs h
  refine (hs.atScan h.two_le_avail _).trans ?_
  rw [Dec.dri, h.preamble_bind h.2.1, failIf_bind]
  by_cases h4 : lx = 4
  · subst h4
    exact State.endUnit_quiet s _
  · rw [if_neg h4, if_pos (by simpa using h4), State.endUnit_raises]

/-- Settles O28: each handler records or leaves its register, and then advances. -/
theorem jfifAndAdobeRecorded : Obligations.JfifAndAdobeRecorded := by
  refine fun s v lx hs h => ⟨(hs.atScan h.two_le_avail _).trans ?_, (hs.atScan h.two_le_avail _).trans ?_⟩
  · rw [Dec.app0, h.preamble_bind h.2.1, State.endUnit_quiet]
    split <;> rfl
  · rw [Dec.app14, h.preamble_bind h.2.1, State.endUnit_quiet]
    split <;> rfl

/-- Settles O29, by the identifier and the extractor's answer. -/
theorem exifDelivered : Obligations.ExifDelivered := by
  refine fun s v lx hs h => ⟨(hs.atScan h.two_le_avail _).trans ?_, fun p hi hm => ?_⟩
  · rw [Dec.app1, h.preamble_bind h.2.1]
    split
    · cases exifExtract s.cfg.exif (s.dec.slice v 10 (lx - 8)) with
      | none => rfl
      | some tags => rfl
    · exact State.endUnit_quiet s _
  · exact exifExtract_unmarked (Bool.or_eq_false_iff.2 ⟨decide_eq_false hi, decide_eq_false hm⟩)

/-! ## ICC_CHUNK (R383) -/

section
variable {c : Icc} {seq cnt : Nat} (data : List Byte)

/-- A chunk that is inconsistent with its own count or with the accumulator. -/
theorem Icc.chunk_inconsistent
    (h : seq = 0 ∨ cnt = 0 ∨ cnt < seq ∨ seq ≠ 1 ∧ ¬(c.count ≠ 0 ∧ cnt = c.count ∧ seq = c.next)) :
    c.chunk seq cnt data = (Icc.clear, []) := by
  have hadd : c.add seq cnt data = none := by
    by_cases hr : seq = 0 ∨ cnt = 0 ∨ cnt < seq
    · exact if_pos hr
    · obtain ⟨h1, hc⟩ : seq ≠ 1 ∧ ¬(c.count ≠ 0 ∧ cnt = c.count ∧ seq = c.next) := by tauto
      rw [Icc.add, if_neg hr, if_neg h1, if_neg hc]
  simp only [Icc.chunk, hadd]

/-- The first chunk begins the accumulator, and is the whole profile when it is the only one. -/
theorem Icc.chunk_first (h : 1 ≤ cnt) :
    c.chunk 1 cnt data =
      if cnt = 1 then (Icc.clear, [.iccProfile data]) else ({ count := cnt, next := 2, buf := data }, []) := by
  have hadd : c.add 1 cnt data = some { count := cnt, next := 2, buf := data } := by
    rw [Icc.add, if_neg (by omega), if_pos rfl]
  simp only [Icc.chunk, hadd]
  exact if_congr (by omega) rfl rfl

/-- A later chunk extends the accumulator, and completes the profile when it is the last. -/
theorem Icc.chunk_next (h1 : 1 < seq) (hle : seq ≤ cnt) (hc : cnt = c.count) (hn : seq = c.next) :
    c.chunk seq cnt data =
      if seq = cnt then (Icc.clear, [.iccProfile (c.buf ++ data)])
      else ({ count := cnt, next := seq + 1, buf := c.buf ++ data }, []) := by
  have hadd : c.add seq cnt data = some { count := cnt, next := seq + 1, buf := c.buf ++ data } := by
    rw [Icc.add, if_neg (by omega), if_neg (by omega), if_pos ⟨by omega, hc, hn⟩, hc, hn]
  simp only [Icc.chunk, hadd]
  exact if_congr (by omega) rfl rfl

end

/-- An ICC APP2 writes the accumulator and delivers what the chunk gives (R322). -/
theorem exec_app2_icc {s : State} {v : List Byte} {lx : Nat} (hs : s.scanning v) (h : s.dec.segment v lx)
    (hid : 16 ≤ lx ∧ s.dec.slice v 4 12 = idIcc) {c : Icc} {evs : List Event}
    (hc : s.dec.icc.chunk (s.dec.inp v 16).toNat (s.dec.inp v 17).toNat (s.dec.slice v 18 (lx - 16)) = (c, evs)) :
    exec .app2 s =
      .next { s with
        snap := none
        events := s.events ++ evs
        dec := { s.dec with cur := s.dec.cur + (2 + lx), icc := c } } := by
  refine (hs.atScan h.two_le_avail _).trans ?_
  rw [Dec.app2, h.preamble_bind h.2.1, if_pos hid, hc]
  rfl

/-- Settles O30, by the cases of ICC_CHUNK. -/
theorem iccChunkAdded : Obligations.IccChunkAdded := by
  refine fun s v lx hs h => ⟨fun hid => (hs.atScan h.two_le_avail _).trans ?_, ?_⟩
  · rw [Dec.app2, h.preamble_bind h.2.1, if_neg hid, State.endUnit_quiet]
    rfl
  · rintro seq cnt data h16 hid rfl rfl rfl
    have hquiet := fun c hc => (exec_app2_icc hs h ⟨h16, hid⟩ (c := c) (evs := []) hc).trans (by rw [List.append_nil])
    refine ⟨fun hbad => ?_, fun h1 hcnt => ?_, fun h1 hcnt => ?_, fun h1 hlt hc hn => ?_, fun h1 hlt hc hn => ?_⟩
    · exact hquiet _ (Icc.chunk_inconsistent _ hbad)
    · exact hquiet _ (by rw [h1, Icc.chunk_first _ (by omega), if_neg (by omega)])
    · exact exec_app2_icc hs h ⟨h16, hid⟩ (by rw [h1, Icc.chunk_first _ (by omega), if_pos hcnt]; rfl)
    · exact hquiet _ (by rw [Icc.chunk_next _ h1 (by omega) hc hn, if_neg (by omega)])
    · exact exec_app2_icc hs h ⟨h16, hid⟩ (by rw [Icc.chunk_next _ h1 (by omega) hc hn, if_pos hlt]; rfl)

end Sys2Proof.Machine
end

section
/-! PROOFS. The end of a scan and of the image, with the rows they emit (R316, R325, R370, R373). -/

namespace Sys2Proof.Machine

/-! ## Rows -/

/-- Rows emitted in two runs. -/
theorem Dec.lines_append (d : Dec) (cfg : Config) {lo mid hi : Nat} (h1 : lo ≤ mid) (h2 : mid ≤ hi) :
    d.lines cfg lo mid ++ d.lines cfg mid hi = d.lines cfg lo hi := by
  obtain ⟨m, rfl⟩ := Nat.exists_eq_add_of_le h1
  obtain ⟨n, rfl⟩ := Nat.exists_eq_add_of_le h2
  have hn : lo + m + n - lo = m + n := by omega
  rw [Dec.lines, Dec.lines, Dec.lines, hn, Nat.add_sub_cancel_left, Nat.add_sub_cancel_left, List.range_add,
    List.map_append, List.map_map]
  simp only [Nat.add_assoc, Function.comp_def]

/-- The lines of the first `n` MCU rows are the rows they hold, in increasing order (R372). -/
theorem Dec.flatMap_mcuRowLines (d : Dec) (cfg : Config) (n : Nat) :
    (List.range n).flatMap (d.mcuRowLines cfg) = d.lines cfg 0 (min (n * (8 * d.vmax)) d.frame.y.toNat) := by
  induction n with
  | zero => simp [Dec.lines]
  | succ n ih =>
    rw [List.range_succ, List.flatMap_append, ih, List.flatMap_singleton, Dec.mcuRowLines]
    have hstep : n * (8 * d.vmax) ≤ (n + 1) * (8 * d.vmax) := Nat.mul_le_mul_right _ n.le_succ
    rcases Nat.le_total (n * (8 * d.vmax)) d.frame.y.toNat with hy | hy
    · rw [Nat.min_eq_left hy, Dec.lines_append d cfg (Nat.zero_le _) (by omega)]
    · rw [Nat.min_eq_right hy, Nat.min_eq_right (by omega)]
      simp [Dec.lines, Nat.sub_eq_zero_of_le hy]

/-- The MCU rows hold every row (R36). -/
theorem Dec.y_le_mcuy (d : Dec) (h : 0 < d.vmax) : d.frame.y.toNat ≤ d.mcuy * (8 * d.vmax) := by
  have := Nat.lt_div_mul_add (a := d.frame.y.toNat + 8 * d.vmax - 1) (show 0 < 8 * d.vmax by omega)
  unfold Dec.mcuy ceilDiv
  omega

/-- A flush that asks nothing emits every row (R372, R373). -/
theorem Dec.flushFrom_unasked (d : Dec) (cfg : Config) (n m : Nat) (ans : List Bool) :
    d.flushFrom cfg false n m false ans =
      { flush := { row := 0, pending := false }
        events := (List.range n).flatMap fun j => d.mcuRowLines cfg (m + j)
        answers := ans } := by
  induction n generalizing m with
  | zero => rfl
  | succ n ih =>
    rw [Dec.flatMap_mcuRowLines_succ]
    simp [Dec.flushFrom, ih (m + 1)]

theorem Dec.progressiveFlush_unasked (d : Dec) (cfg : Config) (ans : List Bool) (h : 0 < d.vmax) :
    d.progressiveFlush cfg 0 false ans =
      { flush := { row := 0, pending := false }, events := d.lines cfg 0 d.frame.y.toNat, answers := ans } := by
  rw [Dec.progressiveFlush, Dec.flushFrom_unasked]
  simp only [Nat.zero_add, Nat.sub_zero, Dec.flatMap_mcuRowLines, Nat.min_eq_right (d.y_le_mcuy h)]

/-! ## EOI (R325) -/

theorem Dec.eoiFlush_eq {d : Dec} (cfg : Config) (h : d.frame.progressive = true → d.canRender ∧ 0 < d.vmax) :
    d.eoiFlush cfg =
      .ok (if d.frame.progressive then { row := 0, pending := false } else d.flush,
        if d.frame.progressive then d.lines cfg 0 d.frame.y.toNat else []) := by
  unfold Dec.eoiFlush
  cases hp : d.frame.progressive with
  | false => rfl
  | true =>
    obtain ⟨hr, hv⟩ := h hp
    simp [Dec.renderable_ok hr.1 hr.2, Dec.progressiveFlush_unasked d cfg [] hv]

/-- Settles O31: the final flush, and the commit of EOI. -/
theorem endOfImage : Obligations.EndOfImage := by
  intro s v h ha hsc hr
  refine (h.scanning.atScan ha _).trans ?_
  rw [if_pos h.2, Dec.eoi, decide_eq_false hsc, failIf_false, except_ok_bind, Dec.eoiFlush_eq s.cfg hr,
    except_ok_bind, State.endUnit_commit, List.append_assoc]
  rfl

/-! ## SCAN_END (R316) -/

theorem State.fetch_scanEnd {s : State} (v : List Byte) (hf : s.dec.fsm = .restart)
    (h : s.dec.scan.mcu = s.dec.scan.total) : s.fetch v = .ends (s.dec.scanEnd s.cfg) := by
  simp only [State.fetch, hf, h, Nat.lt_irrefl, if_false]

/-- Settles O26, by the mode of the scan. -/
theorem scanEnds : Obligations.ScanEnds := by
  intro s v ⟨hv, hf⟩ hm hre hr
  rw [step_of_fetch_ends hv (State.fetch_scanEnd v hf hm), Dec.scanEnd]
  by_cases hseq : s.dec.scan.mode = .seq
  · obtain ⟨hal, hcs⟩ := hr hseq
    simp only [if_pos hseq, Dec.seqFinish, Dec.renderable_ok hal hcs, except_ok_bind, State.endUnit_commit, settle, hre]
    rfl
  · simp only [if_neg hseq, except_ok_bind, State.endUnit_commit, settle, hre]
    rfl

end Sys2Proof.Machine
end

section
/-! PROOFS. A frame header is accepted, or raises the cause of the first check it fails (R293, R295, R296). -/

namespace Sys2Proof.Machine

section
variable {d : Dec} {v : List Byte}

theorem Dec.readSof_lacks_length (h : d.avail v < 4) : d.readSof v = needFails d.more := by
  rw [Dec.readSof, Dec.need_lacks h, needFails_bind]

theorem Dec.readSof_short (h : 4 ≤ d.avail v) (hl : (d.be16 v 2).toNat < 8) : d.readSof v = raise .sofLength := by
  rw [Dec.readSof, Dec.need_ok h, except_ok_bind, failIf_bind, if_pos (decide_eq_true hl)]

theorem Dec.readSof_lacks_header (h : 4 ≤ d.avail v) (hl : 8 ≤ (d.be16 v 2).toNat) (ha : d.avail v < 10) :
    d.readSof v = needFails d.more := by
  rw [Dec.readSof, Dec.need_ok h, except_ok_bind, failIf_bind, if_neg (by simpa using hl), Dec.need_lacks ha,
    needFails_bind]

/-- R293's checks of a header that is in the view, in their order. -/
theorem Dec.readSof_eq (ha : 10 ≤ d.avail v) (hl : 8 ≤ (d.be16 v 2).toNat) :
    d.readSof v =
      if d.inp v 4 ≠ 8 then raise .sofPrecision
      else if d.be16 v 5 = 0 ∨ d.be16 v 7 = 0 then raise .sofDimension
      else if ¬((d.inp v 9).toNat = 1 ∨ (d.inp v 9).toNat = 3 ∨ (d.inp v 9).toNat = 4) then raise .sofNcomp
      else if (d.be16 v 2).toNat ≠ 8 + 3 * (d.inp v 9).toNat then raise .sofLength
      else .ok { y := d.be16 v 5, x := d.be16 v 7, nf := (d.inp v 9).toNat } := by
  rw [Dec.readSof, Dec.need_ok (by omega), except_ok_bind, failIf_bind, if_neg (by simpa using hl), Dec.need_ok ha]
  simp only [except_ok_bind, failIf_bind, bne_iff_ne, Bool.or_eq_true, beq_iff_eq, Bool.not_eq_true',
    Bool.or_eq_false_iff, beq_eq_false_iff_ne, not_or, and_assoc, ne_eq]

end

/-- COLOUR_TAG of a count that R293 lets pass (R296). -/
theorem colourTag_eq {nf : Nat} (a : Adobe) (h : nf = 1 ∨ nf = 3 ∨ nf = 4) :
    colourTag nf a =
      if nf = 1 then .gray
      else if nf = 3 then (if a.present = true ∧ a.transform = 0 then .rgb else .ycbcr)
      else if a.present = true ∧ a.transform = 2 then .ycck else .cmyk := by
  rcases h with rfl | rfl | rfl <;> simp [colourTag]

/-- SOF_HEADER reads the same fields whether or not a frame is aborted first (R295). -/
theorem Dec.sofHeader_eq (d : Dec) (k : Fin 3) (v : List Byte) :
    d.sofHeader k v = d.readSof v >>= fun f =>
      .ok (.commit ((if d.fsm = .frame then d.abortFrame else d).withHeader k f) (sofEvents k f)) := by
  unfold Dec.sofHeader
  split <;> rfl

/-- Settles O20: the commit where every check passes, and else the first branch that is taken. -/
theorem frameHeaderAcceptedOrRaises : Obligations.FrameHeaderAcceptedOrRaises := by
  have hexec {i k} {s : State} {v} (hi : (i, k) ∈ frameMarkers) (hs : s.scanning v) (ha : 2 ≤ s.dec.avail v) :
      exec i s = s.endUnit (s.dec.readSof v >>= fun f =>
        .ok (.commit ((if s.dec.fsm = .frame then s.dec.abortFrame else s.dec).withHeader k f) (sofEvents k f))) := by
    rw [exec_frameMarker hi, hs.atScan ha, Dec.sofHeader_eq]
  refine ⟨fun i k s v hi hs ha hp hy hx hn hl => ?_, ?_⟩
  · rw [hexec hi hs (by omega), Dec.readSof_eq ha (by omega), if_neg (not_not.2 hp), if_neg (not_or.2 ⟨hy, hx⟩),
      if_neg (not_not.2 hn), if_neg (not_not.2 hl), except_ok_bind, State.endUnit_commit]
    simp only [Dec.withHeader, colourTag_eq _ hn, sofEvents]
    split <;> rfl
  · rintro i k s v lf nf hi hs rfl rfl
    refine ⟨fun hn h2 h4 => ?_, fun h4 hl => ?_, fun hn h4 hl h10 => ?_, fun h10 hl => ⟨fun hp => ?_, fun hp h0 => ?_,
      fun hp hy hx => ⟨fun h1 h3 h4 => ?_, fun hn hne => ?_⟩⟩⟩
    · rw [hexec hi hs h2, Dec.readSof_lacks_length h4, needFails_bind, State.endUnit_lacks hs.1 hn hs.not_done]
    · rw [hexec hi hs (by omega), Dec.readSof_short h4 hl, raise_bind, State.endUnit_raises]
    · rw [hexec hi hs (by omega), Dec.readSof_lacks_header h4 hl h10, needFails_bind,
        State.endUnit_lacks hs.1 hn hs.not_done]
    all_goals rw [hexec hi hs (by omega), Dec.readSof_eq h10 hl]
    · rw [if_pos hp, raise_bind, State.endUnit_raises]
    · rw [if_neg (not_not.2 hp), if_pos h0, raise_bind, State.endUnit_raises]
    · rw [if_neg (not_not.2 hp), if_neg (not_or.2 ⟨hy, hx⟩), if_pos (not_or.2 ⟨h1, not_or.2 ⟨h3, h4⟩⟩), raise_bind,
        State.endUnit_raises]
    · rw [if_neg (not_not.2 hp), if_neg (not_or.2 ⟨hy, hx⟩), if_neg (not_not.2 hn), if_pos hne, raise_bind,
        State.endUnit_raises]

end Sys2Proof.Machine
end

section
/-! PROOFS. A component list is stored and the planes are allocated, or the first entry that fails a check raises its cause
(R294, R47, R443). -/

namespace Sys2Proof.Machine

/-! ## Table numbers (R118) -/

theorem loNibble_toNat (b : Byte) : (loNibble b).toNat = b.toNat % 16 := by
  simp only [loNibble, BitVec.extractLsb'_toNat, Nat.shiftRight_zero]

theorem selector_of_le {n : BitVec 4} (h : n.toNat ≤ 3) : selector n = some (Fin.ofNat 4 n.toNat) := by
  rw [selector, dif_pos (by omega)]
  exact congrArg some (Fin.ext (Nat.mod_eq_of_lt (by omega)).symm)

theorem selector_of_gt {n : BitVec 4} (h : 3 < n.toNat) : selector n = none := dif_neg (by omega)

theorem selector_of_eq {n : BitVec 4} {t : Fin 4} (h : n.toNat = t.val) : selector n = some t := by
  rw [selector, dif_pos (by omega)]
  exact congrArg some (Fin.ext h)

/-! ## One entry -/

section
variable (d : Dec) (v : List Byte)

/-- What entry `i` of the list says of its component (R105). -/
def Dec.compAt (i : Nat) : Comp :=
  { id := d.inp v (3 * i), h := (hiNibble (d.inp v (3 * i + 1))).toNat, v := (loNibble (d.inp v (3 * i + 1))).toNat
    tq := Fin.ofNat 4 (d.inp v (3 * i + 2)).toNat, pred := 0 }

/-- Both sampling factors of entry `i` are in 1..4. -/
def Dec.factorsOk (i : Nat) : Prop :=
  (1 ≤ (d.compAt v i).h ∧ (d.compAt v i).h ≤ 4) ∧ (1 ≤ (d.compAt v i).v ∧ (d.compAt v i).v ≤ 4)

/-- Entry `i` repeats the id of an entry before it. -/
def Dec.dupAt (i : Nat) : Prop := ∃ n < i, d.inp v (3 * n) = d.inp v (3 * i)

/-- Entry `i` passes its checks. -/
structure Dec.EntryOk (i : Nat) : Prop where
  new : ¬d.dupAt v i
  factors : d.factorsOk v i
  table : (d.inp v (3 * i + 2)).toNat ≤ 3

end

section
variable {d : Dec} {v : List Byte} {i : Nat}

/-- The id check looks at the ids of the entries before. -/
theorem Dec.any_compAt_id :
    ((List.range i).map (d.compAt v)).any (fun b => b.id == d.inp v (3 * i)) = true ↔ d.dupAt v i := by
  simp [Dec.compAt, Dec.dupAt]

theorem Dec.readComp_dup (h : d.dupAt v i) :
    d.readComp v i ((List.range i).map (d.compAt v)) = raise .sofDupid := by
  rw [Dec.readComp, failIf_bind, if_pos (Dec.any_compAt_id.2 h)]

theorem Dec.readComp_new (h : ¬d.dupAt v i) :
    d.readComp v i ((List.range i).map (d.compAt v)) =
      failIf (!(decide (1 ≤ (d.compAt v i).h ∧ (d.compAt v i).h ≤ 4) &&
        decide (1 ≤ (d.compAt v i).v ∧ (d.compAt v i).v ≤ 4))) .sofSampling >>= fun _ =>
      match selector (loNibble (d.inp v (3 * i + 2))), hiNibble (d.inp v (3 * i + 2)) == 0 with
      | some tq, true => .ok { d.compAt v i with tq := tq }
      | _, _ => raise .sofQtsel := by
  rw [Dec.readComp, failIf_bind, if_neg (mt Dec.any_compAt_id.1 h)]
  rfl

theorem Dec.factors_check :
    (!(decide (1 ≤ (d.compAt v i).h ∧ (d.compAt v i).h ≤ 4) &&
      decide (1 ≤ (d.compAt v i).v ∧ (d.compAt v i).v ≤ 4))) = true ↔ ¬d.factorsOk v i := by
  rw [Bool.not_eq_true', ← Bool.not_eq_true, Bool.and_eq_true, decide_eq_true_eq, decide_eq_true_eq]
  rfl

theorem Dec.readComp_sampling (h : ¬d.dupAt v i) (hf : ¬d.factorsOk v i) :
    d.readComp v i ((List.range i).map (d.compAt v)) = raise .sofSampling := by
  rw [Dec.readComp_new h, failIf_bind, if_pos (Dec.factors_check.2 hf)]

theorem Dec.readComp_table (h : ¬d.dupAt v i) (hf : d.factorsOk v i) :
    d.readComp v i ((List.range i).map (d.compAt v)) =
      if (d.inp v (3 * i + 2)).toNat ≤ 3 then .ok (d.compAt v i) else raise .sofQtsel := by
  rw [Dec.readComp_new h, failIf_bind, if_neg (mt Dec.factors_check.1 (not_not.2 hf))]
  have hlo := loNibble_toNat (d.inp v (3 * i + 2))
  have hhi := hiNibble_toNat (d.inp v (3 * i + 2))
  by_cases h3 : (d.inp v (3 * i + 2)).toNat ≤ 3
  · have hz : hiNibble (d.inp v (3 * i + 2)) = 0#4 := by bv_omega
    rw [if_pos h3, selector_of_le (by omega), hz, hlo, Nat.mod_eq_of_lt (by omega)]
    rfl
  · rw [if_neg h3]
    split
    · rename_i tq hs hz
      have hz : hiNibble (d.inp v (3 * i + 2)) = 0#4 := beq_iff_eq.1 hz
      rw [selector_of_gt (by rw [hz] at hhi; simp only [BitVec.toNat_ofNat] at hhi; omega)] at hs
      cases hs
    · rfl

theorem Dec.EntryOk.readComp (h : d.EntryOk v i) :
    d.readComp v i ((List.range i).map (d.compAt v)) = .ok (d.compAt v i) := by
  rw [Dec.readComp_table h.new h.factors, if_pos h.table]

/-! ## The list -/

/-- Entries that pass their checks are read, and reading goes on behind them. -/
theorem Dec.readComps_prefix (n : Nat) {j : Nat} (h : ∀ i < j, d.EntryOk v i) :
    d.readComps v (j + n) 0 [] = d.readComps v n j ((List.range j).map (d.compAt v)) := by
  induction j generalizing n with
  | zero => rw [Nat.zero_add]; rfl
  | succ j ih =>
    rw [Nat.add_assoc, ih (1 + n) fun i hi => h i (by omega), Nat.add_comm 1 n, Dec.readComps,
      (h j j.lt_succ_self).readComp, except_ok_bind, List.range_succ, List.map_append]
    rfl

/-- The first entry that fails a check raises its cause. -/
theorem Dec.readComps_raises {n j : Nat} {c : Cause} (hj : j < n) (h : ∀ i < j, d.EntryOk v i)
    (hc : d.readComp v j ((List.range j).map (d.compAt v)) = raise c) : d.readComps v n 0 [] = raise c := by
  obtain ⟨m, rfl⟩ := Nat.exists_eq_add_of_lt hj
  rw [Nat.add_assoc, Dec.readComps_prefix _ h, Dec.readComps, hc, raise_bind]

end

/-! ## The registers -/

theorem compsFrom_get (old : Quad Comp) (cs : List Comp) (i : Fin 4) :
    (compsFrom old cs).get i = cs.getD i.val (old.get i) := by
  match i with
  | 0 | 1 | 2 | 3 => rfl

theorem compsFrom_take (old : Quad Comp) {cs : List Comp} (h : cs.length ≤ 4) :
    (compsFrom old cs).toList.take cs.length = cs := by
  match cs, h with
  | [], _ | [_], _ | [_, _], _ | [_, _, _], _ | [_, _, _, _], _ => rfl

/-- The planes need the bytes of the listed components' planes. -/
theorem Dec.planesNeed_compsFrom {d : Dec} {cs : List Comp} (hn : cs.length = d.frame.nf) (h4 : d.frame.nf ≤ 4) :
    ({ d with comp := compsFrom d.comp cs } : Dec).planesNeed =
      (cs.map ({ d with comp := compsFrom d.comp cs } : Dec).planeBytes).sum := by
  rw [Dec.planesNeed, Dec.comps, ← hn, compsFrom_take d.comp (by omega)]

/-- SOF_BODY once its list is read: the allocation (R294). -/
theorem Dec.sofBody_read {d : Dec} {cfg : Config} {v : List Byte} {cs : List Comp} (ha : 3 * d.frame.nf ≤ d.avail v)
    (hread : d.readComps v d.frame.nf 0 [] = .ok cs) (hn : cs.length = d.frame.nf) (h4 : d.frame.nf ≤ 4) :
    d.sofBody cfg v =
      if cfg.allocLimit < (cs.map ({ d with comp := compsFrom d.comp cs } : Dec).planeBytes).sum then
        .error (.raise .outOfMemory)
      else
        commit { d with
          comp := compsFrom d.comp cs
          planes := Planes.zero
          cur := d.cur + 3 * d.frame.nf
          frame := { d.frame with valid := true }
          fsm := .frame } := by
  rw [Dec.sofBody, Dec.need_ok ha, except_ok_bind, hread, except_ok_bind, ← Dec.planesNeed_compsFrom hn h4]

/-! ## The unit -/

theorem step_frameHeader {s : State} {v : List Byte} (h : s.inState v .frameHeader) :
    step s = settle s (s.endUnit (s.dec.sofBody s.cfg v)) :=
  step_of_fetch_ends h.1 (by simp only [State.fetch, h.2])

theorem step_frameHeader_raises {s : State} {v : List Byte} {c : Cause} (h : s.inState v .frameHeader)
    (ha : 3 * s.dec.frame.nf ≤ s.dec.avail v) (hc : s.dec.readComps v s.dec.frame.nf 0 [] = raise c) :
    step s = .next (s.takeError (.corrupt c)) := by
  rw [step_frameHeader h, Dec.sofBody, Dec.need_ok ha, except_ok_bind, hc, raise_bind, State.endUnit_raises]
  exact settle_quiet rfl

/-- Settles O21: the entries of the list pass, or the first that does not raises. -/
theorem componentListAcceptedOrRaises : Obligations.ComponentListAcceptedOrRaises := by
  refine ⟨fun s v cs h h4 hlen ha hcs hid => ?accept, fun s v h hn ha => ?lacks,
    fun s v j id hh w tq h ha hj hbytes hok => ?raises⟩
  case accept =>
    have hat : ∀ j c, cs[j]? = some c → c = s.dec.compAt v j ∧ s.dec.factorsOk v j ∧ (s.dec.inp v (3 * j + 2)).toNat ≤ 3 := by
      intro j c hc
      obtain ⟨h1, h2, h3, hf, hg, h6, h7⟩ := hcs j c hc
      have ht : Fin.ofNat 4 (s.dec.inp v (3 * j + 2)).toNat = c.tq := Fin.ext (by simp [h6])
      have hc : c = s.dec.compAt v j := by
        obtain ⟨_, _, _, _, _⟩ := c
        simp only [Dec.compAt, Comp.mk.injEq]
        exact ⟨h1, h2, h3, ht.symm, h7⟩
      exact ⟨hc, ⟨hc ▸ hf, hc ▸ hg⟩, by omega⟩
    have hlist : cs = (List.range s.dec.frame.nf).map (s.dec.compAt v) := by
      refine List.ext_getElem (by simp [hlen]) fun j h1 _ => ?_
      simpa using (hat j _ (List.getElem?_eq_getElem h1)).1
    have hok : ∀ j < s.dec.frame.nf, s.dec.EntryOk v j := by
      intro j hj
      have hj' := List.getElem?_eq_getElem (hlen ▸ hj)
      refine ⟨?_, (hat j _ hj').2.1, (hat j _ hj').2.2⟩
      rintro ⟨n, hn, he⟩
      rw [hlist, List.map_map] at hid
      exact hn.ne (List.inj_on_of_nodup_map hid (List.mem_range.2 (hn.trans hj)) (List.mem_range.2 hj) he)
    have hread : s.dec.readComps v s.dec.frame.nf 0 [] = .ok cs := by
      have := Dec.readComps_prefix 0 hok
      rw [Nat.add_zero] at this
      rw [this, hlist]
      rfl
    refine ⟨compsFrom s.dec.comp cs, compsFrom_get _ _, ?_⟩
    rintro d rfl
    rw [step_frameHeader h, Dec.sofBody_read ha hread hlen h4]
    by_cases hmem : s.cfg.allocLimit < (cs.map ({ s.dec with comp := compsFrom s.dec.comp cs } : Dec).planeBytes).sum
    · rw [if_pos hmem]
      exact Eq.trans (settle_quiet (t := s.takeError _) (by rfl)) (if_pos hmem).symm
    · rw [if_neg hmem, State.endUnit_quiet]
      exact Eq.trans (settle_quiet (by rfl)) (if_neg hmem).symm
  case lacks =>
    rw [step_frameHeader h, Dec.sofBody, Dec.need_lacks ha, needFails_bind, State.endUnit_lacks h.1 hn (by simp [h.2])]
    exact settle_quiet (State.starved_events s v)
  case raises =>
    have hdup : ∀ i, s.dec.dupAt v i ↔ ∃ n, n < i ∧ id n = id i := fun i => by
      simp only [Dec.dupAt, (hbytes _).1, BitVec.toNat_inj]
    have hfac : ∀ i, s.dec.factorsOk v i ↔ (1 ≤ hh i ∧ hh i ≤ 4) ∧ 1 ≤ w i ∧ w i ≤ 4 := fun i => by
      simp only [Dec.factorsOk, Dec.compAt, (hbytes i).2.1, (hbytes i).2.2.1]
    have hok' : ∀ i < j, s.dec.EntryOk v i := fun i hi => by
      obtain ⟨h1, h2, h3, h4⟩ := hok i hi
      refine ⟨?_, (hfac i).2 ⟨h2, h3⟩, by rw [← (hbytes i).2.2.2]; exact h4⟩
      rw [hdup]
      rintro ⟨n, hn, he⟩
      exact h1 n hn he
    have hraise := fun c hc => step_frameHeader_raises (c := c) h ha (Dec.readComps_raises hj hok' hc)
    refine ⟨fun hd => ?_, fun hd => ⟨fun hf => ?_, fun h1 h2 h3 => ?_⟩⟩
    · exact hraise _ (Dec.readComp_dup ((hdup j).2 hd))
    all_goals
      have hnew : ¬s.dec.dupAt v j := by
        rw [hdup]
        rintro ⟨n, hn, he⟩
        exact hd n hn he
    · exact hraise _ (Dec.readComp_sampling hnew (by rw [hfac]; omega))
    · refine hraise _ ?_
      rw [Dec.readComp_table hnew ((hfac j).2 ⟨h1, h2⟩), if_neg (by rw [← (hbytes j).2.2.2]; omega)]

end Sys2Proof.Machine
end

section
/-! PROOFS. A DQT segment stores its definitions in order, or raises the cause of the first that fails a check (R300, R107,
R119). -/

namespace Sys2Proof.Machine

/-! ## A segment whose bytes are given -/

theorem Dec.inp_drop (d : Dec) (v : List Byte) (i : Nat) : d.inp v i = (v.drop d.cur).getD i 0 := by
  simp [Dec.inp, List.getD_eq_getElem?_getD]

/-- The bytes of a whole segment: its length field and its payload. -/
theorem Dec.segment_of_bytes {d : Dec} {v payload rest : List Byte} {a b : Byte} {n : Nat} (hn : n = payload.length)
    (hb : n + 2 < 2 ^ 16) (h : v.drop d.cur = [a, b] ++ bytesOf16 (BitVec.ofNat 16 (n + 2)) ++ payload ++ rest) :
    d.segment v (n + 2) ∧ d.slice v 4 n = payload := by
  have hbe : d.be16 v 2 = BitVec.ofNat 16 (n + 2) := by
    simp only [Dec.be16, Dec.inp_drop, h, bytesOf16, List.cons_append, List.nil_append, List.getD_cons_succ,
      List.getD_cons_zero, be16_bytes]
  have hlen := congrArg List.length h
  simp only [bytesOf16, List.length_drop, List.length_append, List.length_cons, List.length_nil] at hlen
  refine ⟨⟨by rw [hbe, toNat_ofNat_of_lt hb], by omega, by unfold Dec.avail; omega⟩, ?_⟩
  rw [Dec.slice, ← List.drop_drop, h, hn]
  simp [bytesOf16]

/-! ## One definition (R107) -/

/-- The bytes of an entry: two, or one (R107). -/
def dqtEntryBytes (wide : Bool) (e : Half) : List Byte := if wide then bytesOf16 e else [e.extractLsb' 0 8]

theorem dqtEntryBytes_length (wide : Bool) (e : Half) : (dqtEntryBytes wide e).length = if wide then 2 else 1 := by
  cases wide <;> rfl

/-- The entries of a definition as its bytes hold them, in zig-zag order. -/
def QDef.data (q : QDef) : List Byte := (List.range 64).flatMap fun k => dqtEntryBytes q.pq (q.q.getD (zz k) 0)

theorem QDef.bytes_eq (q : QDef) :
    q.bytes = ((if q.pq then (1 : BitVec 4) else 0) ++ BitVec.ofNat 4 q.tq.val) :: q.data := rfl

theorem QDef.data_length (q : QDef) : q.data.length = if q.pq then 128 else 64 := by
  cases hp : q.pq <;> simp [QDef.data, hp, dqtEntryBytes_length]

/-- Byte `j` of entry `k`. -/
theorem QDef.data_getD (q : QDef) (rest : List Byte) {k j : Nat} (hk : k < 64) (hj : j < if q.pq then 2 else 1) :
    (q.data ++ rest).getD ((if q.pq then 2 else 1) * k + j) 0 = (dqtEntryBytes q.pq (q.q.getD (zz k) 0)).getD j 0 := by
  have hget := getElem?_flatMap_range (f := fun k => dqtEntryBytes q.pq (q.q.getD (zz k) 0))
    (fun _ => dqtEntryBytes_length _ _) hk hj
  have hin : (if q.pq then 2 else 1) * k + j < q.data.length := by
    rw [q.data_length]
    split at hj <;> simp [*] <;> omega
  rw [List.getD_append _ _ _ _ hin, List.getD_eq_getElem?_getD, QDef.data, hget, ← List.getD_eq_getElem?_getD]

/-- An entry read back (R107). -/
theorem QDef.dqtEntries_data {q : QDef} (hq : q.wf) (rest : List Byte) {k : Nat} (hk : k < 64) :
    (dqtEntries q.pq (q.data ++ rest)).getD k 0 = q.q.getD (zz k) 0 := by
  have hbyte := fun j => q.data_getD rest (j := j) hk
  rw [dqtEntries, getD_map_listRange _ _ hk]
  cases hp : q.pq with
  | true =>
    simp only [hp, if_true] at hbyte
    have h0 := hbyte 0 (by omega)
    rw [Nat.add_zero] at h0
    rw [if_pos rfl, h0, hbyte 1 (by omega)]
    exact be16_bytes _
  | false =>
    have hz : zz k < q.q.length := hq.1 ▸ zz_lt k
    have hsmall := hq.2 hp _ (List.getElem_mem hz)
    simp only [hp, Bool.false_eq_true, if_false, Nat.one_mul] at hbyte
    have h0 := hbyte 0 (by omega)
    rw [Nat.add_zero] at h0
    rw [if_neg Bool.false_ne_true, h0, List.getD_eq_getElem _ _ hz]
    apply BitVec.eq_of_toNat_eq
    simp only [dqtEntryBytes, Bool.false_eq_true, if_false, List.getD_cons_zero, BitVec.toNat_setWidth,
      BitVec.extractLsb'_toNat, Nat.shiftRight_zero]
    omega

/-- R119: the entries laid out in natural order are the table's. -/
theorem QDef.toNatural_data {q : QDef} (hq : q.wf) (rest : List Byte) :
    toNatural (dqtEntries q.pq (q.data ++ rest)) = q.q := by
  refine List.ext_getElem (by simp [toNatural, hq.1]) fun n h1 h2 => ?_
  have hn : n < 64 := hq.1 ▸ h2
  have hget := q.dqtEntries_data hq rest (izz_lt hn)
  rw [zz_izz hn, List.getD_eq_getElem _ _ h2] at hget
  simpa [toNatural] using hget

/-! ## The definitions of a segment (R300) -/

/-- A well-formed definition is read, and reading goes on behind it. -/
theorem parseDqt_cons {q : QDef} (hq : q.wf) (fuel : Nat) (rest : List Byte) :
    parseDqt (fuel + 1) (q.bytes ++ rest) = parseDqt fuel rest >>= fun qs => .ok (q :: qs) := by
  have hsel : selector (BitVec.ofNat 4 q.tq.val) = some q.tq := selector_of_eq (toNat_ofNat_of_lt (by omega))
  have hpq : ((if q.pq then (1 : BitVec 4) else 0) == 1) = q.pq := by cases q.pq <;> rfl
  have hle : decide ((if q.pq then (1 : BitVec 4) else 0).toNat ≤ 1) = true := by cases q.pq <;> rfl
  have hlong : ¬(q.data ++ rest).length < q.data.length := by simp
  rw [QDef.bytes_eq, List.cons_append, parseDqt, hiNibble_append, loNibble_append, hpq, hsel, hle, ← QDef.data_length]
  simp only [failIf_bind, decide_eq_true_eq, if_neg hlong, List.drop_left, q.toNatural_data hq]

/-- The well-formed definitions before the rest of a segment. -/
theorem parseDqt_append {qs : List QDef} (hq : ∀ q ∈ qs, q.wf) (fuel : Nat) (rest : List Byte) :
    parseDqt (fuel + qs.length) (qs.flatMap QDef.bytes ++ rest) =
      parseDqt fuel rest >>= fun qs' => .ok (qs ++ qs') := by
  induction qs with
  | nil => cases h : parseDqt fuel rest <;> simp [h]
  | cons q qs ih =>
    rw [List.flatMap_cons, List.append_assoc, List.length_cons, ← Nat.add_assoc,
      parseDqt_cons (hq q List.mem_cons_self), ih fun p hp => hq p (List.mem_cons_of_mem _ hp)]
    cases parseDqt fuel rest <;> rfl

theorem parseDqt_param {fuel : Nat} {b : Byte} (rest : List Byte) (h : 1 < (hiNibble b).toNat ∨ 3 < (loNibble b).toNat) :
    parseDqt (fuel + 1) (b :: rest) = raise .dqtParam := by
  rw [parseDqt]
  split
  · rename_i tq hs hp
    have hp : (hiNibble b).toNat ≤ 1 := of_decide_eq_true hp
    rw [selector_of_gt (by omega)] at hs
    cases hs
  · rfl

theorem parseDqt_short {fuel : Nat} {b : Byte} {rest : List Byte} (hp : (hiNibble b).toNat ≤ 1)
    (ht : (loNibble b).toNat ≤ 3) (h : rest.length < 64 * ((hiNibble b).toNat + 1)) :
    parseDqt (fuel + 1) (b :: rest) = raise .dqtLength := by
  have hsize : rest.length < if hiNibble b == 1 then 128 else 64 := by
    split <;> rename_i h1 <;> rw [beq_iff_eq] at h1
    · rw [h1] at h
      exact h
    · bv_omega
  rw [parseDqt, selector_of_le ht, decide_eq_true hp]
  simp only [failIf_bind, decide_eq_true_eq, if_pos hsize]

/-! ## The segment -/

/-- A definition takes at least one byte, so the fuel of R300's loop lasts. -/
theorem length_le_flatMap {α : Type} {f : α → List Byte} (hf : ∀ a, 1 ≤ (f a).length) (l : List α) :
    l.length ≤ (l.flatMap f).length := by
  induction l with
  | nil => exact Nat.le_refl _
  | cons a l ih =>
    rw [List.flatMap_cons, List.length_append, List.length_cons]
    have := hf a
    omega

theorem QDef.one_le_bytes (q : QDef) : 1 ≤ q.bytes.length := Nat.le_add_left 1 _

theorem exec_dqt {s : State} {v payload rest : List Byte} {n : Nat} (hs : s.scanning v) (hn : n = payload.length)
    (h1 : 1 ≤ n) (hb : n + 2 < 2 ^ 16)
    (h : v.drop s.dec.cur = [0xFF, 0xDB] ++ bytesOf16 (BitVec.ofNat 16 (n + 2)) ++ payload ++ rest) :
    exec .dqt s = s.endUnit (parseDqt n payload >>= fun defs =>
      commit ((defs.foldl Dec.storeQt s.dec).advance (2 + (n + 2)))) := by
  obtain ⟨hseg, hslice⟩ := Dec.segment_of_bytes hn hb h
  refine (hs.atScan hseg.two_le_avail _).trans ?_
  rw [Dec.dqt, hseg.preamble_bind (by omega), Nat.add_sub_cancel, hslice]

/-- Settles O22: the definitions are read one by one, and none is stored before all are. -/
theorem quantizationTablesStoredOrRaise : Obligations.QuantizationTablesStoredOrRaise := by
  refine ⟨?stored, ?raises⟩
  case stored =>
    intro s v rest qs n hs hne hq hn hb hbytes
    have hlen : qs.length ≤ n := hn ▸ length_le_flatMap QDef.one_le_bytes qs
    have hpos := List.length_pos_iff.2 hne
    obtain ⟨fuel, hfuel⟩ : ∃ fuel, n = fuel + qs.length := ⟨n - qs.length, by omega⟩
    have hparse : parseDqt n (qs.flatMap QDef.bytes) = .ok qs := by
      have := parseDqt_append hq fuel []
      rw [List.append_nil, ← hfuel] at this
      rw [this]
      simp [parseDqt]
    rw [exec_dqt hs hn (by omega) hb hbytes, hparse, except_ok_bind, State.endUnit_quiet, Dec.foldl_storeQt,
      show 2 + (n + 2) = n + 4 by omega]
    rfl
  case raises =>
    rintro s v tail rest qs b pq tq n hs hq rfl rfl hn hb hbytes
    have hlen := length_le_flatMap QDef.one_le_bytes qs
    obtain ⟨fuel, hfuel⟩ : ∃ fuel, n = fuel + 1 + qs.length := ⟨n - 1 - qs.length, by omega⟩
    have hexec {c : Cause} (hc : parseDqt (fuel + 1) (b :: tail) = raise c) :
        exec .dqt s = .next (s.takeError (.corrupt c)) := by
      rw [exec_dqt hs (payload := qs.flatMap QDef.bytes ++ b :: tail) (rest := rest)
        (by simp [hn, Nat.add_comm 1 tail.length]) (by omega) hb
        (by rw [hbytes]; simp only [List.append_assoc]), hfuel, parseDqt_append hq, hc]
      rfl
    exact ⟨fun hp => hexec (parseDqt_param tail hp), fun hp ht hl => hexec (parseDqt_short hp ht hl)⟩

end Sys2Proof.Machine
end

section
/-! PROOFS. BUILD accepts the counts whose codes fit 16 bits, and gives their canonical codes (R170, R171, R172). -/

namespace Sys2Proof.Machine

/-! ## The loop over the lengths -/

theorem codesOfLen_of_fits {l n code : Nat} (h : code + n ≤ 2 ^ l) : codesOfLen l n code = some (List.range' code n) := by
  induction n generalizing code with
  | zero => rfl
  | succ n ih => rw [codesOfLen, if_neg (by omega), ih (by omega), List.range'_succ, Option.map_some]

/-- What BUILD's loop fills from length `l` on, where `code` is the first code of that length and `j` symbols have shorter
codes. Places are those of 17 bits, so that the end of the last length has one too. -/
structure BuildArrays.FilledFrom (counts : List Nat) (l code j : Nat) (r : BuildArrays) : Prop where
  sizes : r.size = (List.range counts.length).flatMap fun i => List.replicate (counts.getD i 0) (l + i)
  oneEach : r.code.length = r.size.length
  codes : ∀ k < r.size.length, r.code.getD k 0 * 2 ^ (17 - r.size.getD k 0) =
    code * 2 ^ (17 - l) + ((r.size.take k).map fun m => 2 ^ (17 - m)).sum
  mincodes : r.mincode = (List.range counts.length).map fun i =>
    code * 2 ^ i + ((List.range i).map fun m => counts.getD m 0 * 2 ^ (i - m)).sum
  maxcodes : r.maxcode = (List.range counts.length).map fun i =>
    if counts.getD i 0 = 0 then -1 else (r.mincode.getD i 0 : Int) + counts.getD i 0 - 1
  valptrs : r.valptr = (List.range counts.length).map fun i => j + (counts.take i).sum

/-- A length's codes before those of the lengths after it. -/
def BuildArrays.cons (l n code j : Nat) (r : BuildArrays) : BuildArrays :=
  { size := List.replicate n l ++ r.size
    code := List.range' code n ++ r.code
    mincode := code :: r.mincode
    maxcode := (if n > 0 then (code : Int) + n - 1 else -1) :: r.maxcode
    valptr := j :: r.valptr }

/-- The places of a length are each two of the next one's. -/
theorem places_succ {l : Nat} (hl : l ≤ 16) : 2 ^ (17 - l) = 2 * 2 ^ (17 - (l + 1)) := by
  rw [show 17 - l = 17 - (l + 1) + 1 by omega, Nat.pow_succ, Nat.mul_comm]

theorem BuildArrays.FilledFrom.cons {counts : List Nat} {l n code j : Nat} {r : BuildArrays} (hl : l ≤ 16)
    (h : FilledFrom counts (l + 1) ((code + n) * 2) (j + n) r) :
    FilledFrom (n :: counts) l code j (BuildArrays.cons l n code j r) where
  sizes := by
    simp only [BuildArrays.cons, h.sizes, List.length_cons, List.range_succ_eq_map, List.flatMap_cons, List.flatMap_map,
      List.getD_cons_zero, List.getD_cons_succ, Nat.add_zero, Nat.succ_eq_add_one, Nat.add_right_comm l 1, Nat.add_assoc]
  oneEach := by simp [BuildArrays.cons, h.oneEach]
  codes := by
    intro k hk
    simp only [BuildArrays.cons, List.length_append, List.length_replicate] at hk ⊢
    rcases Nat.lt_or_ge k n with hkn | hkn
    · rw [List.getD_append _ _ _ _ (by simpa using hkn), List.getD_append _ _ _ _ (by simpa using hkn),
        List.take_append_of_le_length (by simpa using hkn.le), List.take_replicate, Nat.min_eq_left hkn.le]
      simp [hkn, List.getD_eq_getElem?_getD, Nat.add_mul]
    · obtain ⟨k, rfl⟩ := Nat.exists_eq_add_of_le hkn
      have htake : (List.replicate n l ++ r.size).take (n + k) = List.replicate n l ++ r.size.take k := by
        simpa using List.take_length_add_append (l₁ := List.replicate n l) (l₂ := r.size) k
      rw [List.getD_append_right _ _ _ _ (by simp), List.getD_append_right _ _ _ _ (by simp), List.length_range',
        List.length_replicate, Nat.add_sub_cancel_left, h.codes k (by omega), htake, places_succ hl]
      simp only [List.map_append, List.map_replicate, List.sum_append, List.sum_replicate, smul_eq_mul, places_succ hl]
      ring
  mincodes := by
    simp only [BuildArrays.cons, h.mincodes, List.length_cons, List.range_succ_eq_map, List.map_cons, List.map_map]
    congr 1
    · simp
    · refine List.map_congr_left fun i _ => ?_
      simp only [Function.comp_apply, Nat.succ_eq_add_one, List.range_succ_eq_map, List.map_cons, List.map_map,
        List.sum_cons, List.getD_cons_zero, Nat.sub_zero, Nat.pow_succ]
      simp only [Function.comp_def, Nat.succ_eq_add_one, List.getD_cons_succ, Nat.add_sub_add_right]
      ring
  maxcodes := by
    simp only [BuildArrays.cons, h.maxcodes, List.length_cons, List.range_succ_eq_map, List.map_cons, List.map_map]
    congr 1
    simp only [List.getD_cons_zero]
    split <;> split <;> omega
  valptrs := by
    simp only [BuildArrays.cons, h.valptrs, List.length_cons, List.range_succ_eq_map, List.map_cons, List.map_map]
    congr 1
    refine List.map_congr_left fun i _ => ?_
    simp [Nat.add_assoc]

/-- BUILD accepts counts whose codes fit (R171). -/
theorem buildFrom_of_fits {counts : List Nat} {l code j : Nat} (hl : l + counts.length = 17)
    (hfit : code * 2 ^ (17 - l) + ((List.range counts.length).map fun i => counts.getD i 0 * 2 ^ (17 - l - i)).sum ≤
      2 ^ 17) :
    ∃ r, buildFrom counts l code j = some r ∧ r.FilledFrom counts l code j := by
  induction counts generalizing l code j with
  | nil => exact ⟨_, rfl, rfl, rfl, nofun, rfl, rfl, rfl⟩
  | cons n counts ih =>
    rw [List.length_cons] at hl
    have hl16 : l ≤ 16 := by omega
    have hrest : ∀ i, 17 - l - (i + 1) = 17 - (l + 1) - i := fun i => by omega
    simp only [List.length_cons, List.range_succ_eq_map, List.map_cons, List.map_map, Function.comp_def, List.sum_cons,
      List.getD_cons_zero, List.getD_cons_succ, Nat.succ_eq_add_one, Nat.sub_zero, hrest] at hfit
    have hcodes : code + n ≤ 2 ^ l := by
      refine Nat.le_of_mul_le_mul_right ?_ (Nat.two_pow_pos (17 - l))
      rw [← Nat.pow_add, show l + (17 - l) = 17 by omega, Nat.add_mul]
      omega
    obtain ⟨r, hr, hfill⟩ := ih (l := l + 1) (code := (code + n) * 2) (j := j + n) (by omega)
      (by rw [Nat.mul_assoc, ← places_succ hl16, Nat.add_mul]; omega)
    refine ⟨_, ?_, hfill.cons hl16⟩
    rw [buildFrom, codesOfLen_of_fits hcodes, hr]
    rfl

/-! ## The lookahead (R171) -/

/-- Among codes of which at most one meets `p`, the last that does is the first. -/
theorem foldl_if_eq_find? {α β : Type} (p : α → Bool) (f : α → β) {l : List α}
    (h : l.Pairwise fun x y => ¬(p x = true ∧ p y = true)) (a : β) :
    l.foldl (fun acc c => if p c then f c else acc) a = ((l.find? p).map f).getD a := by
  induction l generalizing a with
  | nil => rfl
  | cons x l ih =>
    obtain ⟨hx, hl⟩ := List.pairwise_cons.1 h
    rw [List.foldl_cons, ih hl]
    cases hp : p x with
    | false => simp [hp]
    | true =>
      have hnone : l.find? p = none := List.find?_eq_none.2 fun y hy hpy => hx y hy ⟨hp, hpy⟩
      simp [hp, hnone]

/-- A table's lookahead, from its three lists. -/
theorem lookEntry_eq (size code : List Nat) (val : List Byte) (hc : code.length = size.length)
    (hv : val.length = size.length) (b : Nat)
    (h : ∀ j k, j < k → k < size.length → ¬((size.getD j 0 ≤ 8 ∧ b / 2 ^ (8 - size.getD j 0) = code.getD j 0) ∧
      size.getD k 0 ≤ 8 ∧ b / 2 ^ (8 - size.getD k 0) = code.getD k 0)) :
    lookEntry (size.zip (code.zip val)) b =
      match (List.range size.length).find? fun j =>
        decide (size.getD j 0 ≤ 8) && b / 2 ^ (8 - size.getD j 0) == code.getD j 0 with
      | some j => (size.getD j 0, val.getD j 0)
      | none => (0, 0) := by
  have hzip : size.zip (code.zip val) =
      (List.range size.length).map fun j => (size.getD j 0, code.getD j 0, val.getD j 0) := by
    refine List.ext_getElem (by simp [hc, hv]) fun j h1 h2 => ?_
    simp only [List.length_map, List.length_range] at h2
    simp [List.getD_eq_getElem?_getD, h2, hc, hv]
  have hfold := foldl_if_eq_find?
    (fun j => decide (size.getD j 0 ≤ 8) && b / 2 ^ (8 - size.getD j 0) == code.getD j 0)
    (fun j => (size.getD j 0, val.getD j 0)) (l := List.range size.length)
    (List.pairwise_iff_getElem.2 fun j k hj hk hjk => by
      simp only [List.length_range] at hj hk
      simpa using h j k hjk hk) (0, 0)
  simp only [Bool.and_eq_true, decide_eq_true_eq, beq_iff_eq] at hfold
  rw [lookEntry, hzip, List.foldl_map, hfold]
  cases (List.range size.length).find? _ <;> rfl

/-- Where the code of `size` bits begins the byte, the byte's place lies in the code's. -/
theorem place_of_begins {b size code : Nat} (h8 : size ≤ 8) (h : b / 2 ^ (8 - size) = code) :
    code * 2 ^ (16 - size) ≤ b * 2 ^ 8 ∧ b * 2 ^ 8 < (code + 1) * 2 ^ (16 - size) := by
  have hp : 2 ^ (16 - size) = 2 ^ (8 - size) * 2 ^ 8 := by rw [← Nat.pow_add]; congr 1; omega
  have hpos := Nat.two_pow_pos (8 - size)
  obtain ⟨h1, h2⟩ := (Nat.div_eq_iff hpos).1 h
  rw [hp, ← Nat.mul_assoc, ← Nat.mul_assoc]
  refine ⟨Nat.mul_le_mul_right _ h1, Nat.mul_lt_mul_of_pos_right ?_ (by decide)⟩
  rw [Nat.succ_mul]
  omega

end Sys2Proof.Machine
end

section
/-! PROOFS. BUILD gives the canonical entry of a table, and no other entry is canonical (R171, R172). -/

namespace Sys2Proof.Machine

/-! ## Places of 16 bits -/

/-- The places before the code of an earlier symbol and that code's own lie before those of a later one. -/
theorem places_take_lt {size : List Nat} {j k : Nat} (hjk : j < k) (hk : k < size.length) :
    ((size.take j).map fun l => 2 ^ (16 - l)).sum + 2 ^ (16 - size.getD j 0) ≤
      ((size.take k).map fun l => 2 ^ (16 - l)).sum := by
  obtain ⟨n, rfl⟩ := Nat.exists_eq_add_of_le (Nat.succ_le_of_lt hjk)
  rw [List.take_add, ← List.take_append_getElem (by omega : j < size.length), List.getD_eq_getElem _ _ (by omega)]
  simp only [List.map_append, List.sum_append, List.map_cons, List.map_nil, List.sum_singleton]
  omega

/-- At most one code begins a byte. -/
theorem begins_unique {size code : List Nat} {b j k : Nat}
    (hcodes : ∀ j < size.length,
      code.getD j 0 * 2 ^ (16 - size.getD j 0) = ((size.take j).map fun l => 2 ^ (16 - l)).sum)
    (hjk : j < k) (hk : k < size.length) :
    ¬((size.getD j 0 ≤ 8 ∧ b / 2 ^ (8 - size.getD j 0) = code.getD j 0) ∧
      size.getD k 0 ≤ 8 ∧ b / 2 ^ (8 - size.getD k 0) = code.getD k 0) := by
  rintro ⟨⟨h8, hj⟩, h8', hk'⟩
  have hend := (place_of_begins h8 hj).2
  have hbegin := (place_of_begins h8' hk').1
  have hplaces := places_take_lt hjk hk
  rw [← hcodes k hk, ← hcodes j (hjk.trans hk), ← Nat.add_one_mul] at hplaces
  omega

theorem sum_map_places {l : List Nat} (h : ∀ m ∈ l, m ≤ 16) :
    (l.map fun m => 2 ^ (17 - m)).sum = 2 * (l.map fun m => 2 ^ (16 - m)).sum := by
  rw [← List.sum_map_mul_left]
  refine congrArg _ (List.map_congr_left fun m hm => ?_)
  have := h m hm
  rw [show 17 - m = 16 - m + 1 by omega, Nat.pow_succ, Nat.mul_comm]

/-! ## The entry BUILD makes -/

/-- The entry of a table from the arrays of BUILD's loop (R171). -/
def BuildArrays.entry (r : BuildArrays) (bits huffval : List Byte) : HEntry :=
  { isDefined := true, bits := bits, huffval := huffval, huffsize := r.size, huffcode := r.code, mincode := r.mincode
    maxcode := r.maxcode, valptr := r.valptr
    look := (List.range 256).map (lookEntry (r.size.zip (r.code.zip huffval))) }

theorem build_of_buildFrom {bits : List Byte} {r : BuildArrays} (huffval : List Byte)
    (h : buildFrom (bits.map BitVec.toNat) 1 0 0 = some r) : build bits huffval = some (r.entry bits huffval) := by
  rw [build, h]
  rfl

theorem getD_map_toNat (bits : List Byte) (i : Nat) : (bits.map BitVec.toNat).getD i 0 = (bits.getD i 0).toNat :=
  List.getD_map bits (0 : Byte) BitVec.toNat

section
variable {bits : List Byte} {r : BuildArrays} (hl : bits.length = 16)
  (h : r.FilledFrom (bits.map BitVec.toNat) 1 0 0)
include hl h

theorem BuildArrays.FilledFrom.size_eq :
    r.size = (List.range 16).flatMap fun i => List.replicate (bits.getD i 0).toNat (i + 1) := by
  simpa only [List.length_map, hl, getD_map_toNat, Nat.add_comm 1] using h.sizes

theorem BuildArrays.FilledFrom.size_le : ∀ m ∈ r.size, m ≤ 16 := by
  intro m hm
  rw [h.size_eq hl, List.mem_flatMap] at hm
  obtain ⟨i, hi, hm⟩ := hm
  obtain rfl := List.eq_of_mem_replicate hm
  exact List.mem_range.1 hi

theorem BuildArrays.FilledFrom.size_length : r.size.length = (bits.map BitVec.toNat).sum := by
  have hbits : bits.map BitVec.toNat = (List.range 16).map fun i => (bits.getD i 0).toNat := by
    refine List.ext_getElem (by simp [hl]) fun i h1 h2 => ?_
    rw [List.length_map] at h1
    simp [h1]
  rw [h.size_eq hl, hbits, List.length_flatMap]
  simp

/-- The first place of a code, of the 2^16. -/
theorem BuildArrays.FilledFrom.places {k : Nat} (hk : k < r.size.length) :
    r.code.getD k 0 * 2 ^ (16 - r.size.getD k 0) = ((r.size.take k).map fun l => 2 ^ (16 - l)).sum := by
  have hle := h.size_le hl
  have hcode := h.codes k hk
  have hk16 : r.size.getD k 0 ≤ 16 := by
    rw [List.getD_eq_getElem _ _ hk]
    exact hle _ (List.getElem_mem hk)
  rw [sum_map_places fun m hm => hle m (List.mem_of_mem_take hm),
    show 17 - r.size.getD k 0 = 16 - r.size.getD k 0 + 1 by omega, Nat.pow_succ, ← Nat.mul_assoc] at hcode
  omega

/-- The entry BUILD makes is canonical. -/
theorem BuildArrays.FilledFrom.canonical {huffval : List Byte} (hv : huffval.length = (bits.map BitVec.toNat).sum)
    (hf : codesFit bits) : (r.entry bits huffval).Canonical where
  isDefined := rfl
  counts := hl
  values := hv
  fit := hf
  sizes := h.size_eq hl
  oneEach := h.oneEach
  codes := fun _ hj => h.places hl hj
  mincodes := h.mincodes.trans (by simp only [List.length_map, hl, getD_map_toNat, Nat.zero_mul, Nat.zero_add]; rfl)
  maxcodes := by
    refine h.maxcodes.trans ?_
    simp only [List.length_map, hl, getD_map_toNat]
    refine List.map_congr_left fun l _ => if_congr ?_ rfl rfl
    exact BitVec.toNat_inj (y := 0#8)
  valptrs := h.valptrs.trans (by simp only [List.length_map, hl, Nat.zero_add, List.map_take]; rfl)
  lookahead := List.map_congr_left fun b _ =>
    lookEntry_eq _ _ _ h.oneEach (hv.trans (h.size_length hl).symm) b fun _ _ => begins_unique fun _ => h.places hl

end

/-- BUILD accepts counts whose codes fit, and its entry is canonical (R171, R172). -/
theorem build_canonical {bits huffval : List Byte} (hl : bits.length = 16)
    (hv : huffval.length = (bits.map BitVec.toNat).sum) (hf : codesFit bits) :
    ∃ e, build bits huffval = some e ∧ e.Canonical ∧ e.bits = bits ∧ e.huffval = huffval := by
  have hfit : 0 * 2 ^ (17 - 1) + ((List.range (bits.map BitVec.toNat).length).map fun i =>
      (bits.map BitVec.toNat).getD i 0 * 2 ^ (17 - 1 - i)).sum ≤ 2 ^ 17 := by
    have hdouble : ∀ i ∈ List.range 16, (bits.map BitVec.toNat).getD i 0 * 2 ^ (17 - 1 - i) =
        2 * ((bits.getD i 0).toNat * 2 ^ (15 - i)) := fun i hi => by
      have := List.mem_range.1 hi
      rw [getD_map_toNat, show 17 - 1 - i = 15 - i + 1 by omega, Nat.pow_succ]
      ring
    rw [List.length_map, hl, List.map_congr_left hdouble, List.sum_map_mul_left]
    unfold codesFit at hf
    omega
  obtain ⟨r, hr, hfill⟩ := buildFrom_of_fits (j := 0) (by simp [hl]) hfit
  exact ⟨_, build_of_buildFrom huffval hr, hfill.canonical hl hv hf, rfl, rfl⟩

/-! ## The canonical entry -/

/-- The counts and the values determine the canonical entry. -/
theorem HEntry.Canonical.eq_of_counts {e e' : HEntry} (he : e.Canonical) (he' : e'.Canonical) (hb : e.bits = e'.bits)
    (hv : e.huffval = e'.huffval) : e = e' := by
  have hsize : e.huffsize = e'.huffsize := by rw [he.sizes, he'.sizes, hb]
  have hcode : e.huffcode = e'.huffcode := by
    refine List.ext_getElem (by rw [he.oneEach, he'.oneEach, hsize]) fun j h1 h2 => ?_
    have hj : j < e.huffsize.length := he.oneEach ▸ h1
    have hplaces := (he.codes j hj).trans (hsize ▸ (he'.codes j (hsize ▸ hj)).symm)
    rw [List.getD_eq_getElem _ _ h1, List.getD_eq_getElem _ _ h2] at hplaces
    exact Nat.eq_of_mul_eq_mul_right (Nat.two_pow_pos _) hplaces
  have hmin : e.mincode = e'.mincode := by rw [he.mincodes, he'.mincodes, hb]
  have hmax : e.maxcode = e'.maxcode := by rw [he.maxcodes, he'.maxcodes, hb, hmin]
  have hptr : e.valptr = e'.valptr := by rw [he.valptrs, he'.valptrs, hb]
  have hlook : e.look = e'.look := by rw [he.lookahead, he'.lookahead, hsize, hcode, hv]
  have hdef : e.isDefined = e'.isDefined := by rw [he.isDefined, he'.isDefined]
  cases e
  cases e'
  simp only [HEntry.mk.injEq]
  exact ⟨hdef, hb, hv, hsize, hcode, hmin, hmax, hptr, hlook⟩

/-- BUILD of a canonical entry's counts and values is the entry. -/
theorem HEntry.Canonical.build_eq {e : HEntry} (he : e.Canonical) : build e.bits e.huffval = some e := by
  obtain ⟨e', hbuild, he', hb, hv⟩ := build_canonical he.counts he.values he.fit
  rw [hbuild, he'.eq_of_counts he hb hv]

end Sys2Proof.Machine
end

section
/-! PROOFS. A DHT segment stores its definitions in order, or raises the cause of the first that fails a check (R302, R106,
R171). -/

namespace Sys2Proof.Machine

/-! ## The definitions of a segment (R302) -/

/-- A well-formed definition is read, and reading goes on behind it. -/
theorem parseDht_cons {h : HDef} (hw : h.wf) (fuel : Nat) (rest : List Byte) :
    parseDht (fuel + 1) (h.bytes ++ rest) = parseDht fuel rest >>= fun hs => .ok (h :: hs) := by
  obtain ⟨hsum, he⟩ := hw
  have hsel : selector (BitVec.ofNat 4 h.th.val) = some h.th := selector_of_eq (toNat_ofNat_of_lt (by omega))
  have hac : ((if h.isAc then (1 : BitVec 4) else 0) == 1) = h.isAc := by cases h.isAc <;> rfl
  have hle : decide ((if h.isAc then (1 : BitVec 4) else 0).toNat ≤ 1) = true := by cases h.isAc <;> rfl
  have hcount : countSum h.entry.bits = h.entry.huffval.length := he.values.symm
  have hlen : (h.entry.bits ++ (h.entry.huffval ++ rest)).length = 16 + h.entry.huffval.length + rest.length := by
    simp only [List.length_append, he.counts]
    omega
  have htake : (h.entry.bits ++ (h.entry.huffval ++ rest)).take 16 = h.entry.bits := List.take_left' he.counts
  have hdrop : (h.entry.bits ++ (h.entry.huffval ++ rest)).drop 16 = h.entry.huffval ++ rest := List.drop_left' he.counts
  have hshort : ¬(h.entry.bits ++ (h.entry.huffval ++ rest)).length < 16 := by omega
  have hmany : ¬256 < h.entry.huffval.length := by have := he.values; omega
  have hlong : ¬(h.entry.bits ++ (h.entry.huffval ++ rest)).length < 16 + h.entry.huffval.length := by omega
  rw [HDef.bytes, List.cons_append, List.cons_append, List.append_assoc, parseDht, hiNibble_append, loNibble_append,
    hac, hsel, hle]
  simp only [failIf_bind, decide_eq_true_eq, htake, hcount, if_neg hshort, if_neg hmany, if_neg hlong, hdrop,
    List.take_left, he.build_eq, ← List.drop_drop, List.drop_left]

/-- The well-formed definitions before the rest of a segment. -/
theorem parseDht_append {hs : List HDef} (hw : ∀ h ∈ hs, h.wf) (fuel : Nat) (rest : List Byte) :
    parseDht (fuel + hs.length) (hs.flatMap HDef.bytes ++ rest) =
      parseDht fuel rest >>= fun hs' => .ok (hs ++ hs') := by
  induction hs with
  | nil => cases h : parseDht fuel rest <;> simp [h]
  | cons h hs ih =>
    rw [List.flatMap_cons, List.append_assoc, List.length_cons, ← Nat.add_assoc,
      parseDht_cons (hw h List.mem_cons_self), ih fun g hg => hw g (List.mem_cons_of_mem _ hg)]
    cases parseDht fuel rest <;> rfl

theorem parseDht_param {fuel : Nat} {b : Byte} (rest : List Byte) (h : 1 < (hiNibble b).toNat ∨ 3 < (loNibble b).toNat) :
    parseDht (fuel + 1) (b :: rest) = raise .dhtParam := by
  rw [parseDht]
  split
  · rename_i th hs hc
    have hc : (hiNibble b).toNat ≤ 1 := of_decide_eq_true hc
    rw [selector_of_gt (by omega)] at hs
    cases hs
  · rfl

section
variable {fuel : Nat} {b : Byte} {rest : List Byte} (hc : (hiNibble b).toNat ≤ 1) (ht : (loNibble b).toNat ≤ 3)
include hc ht

theorem parseDht_short_counts (h : rest.length < 16) : parseDht (fuel + 1) (b :: rest) = raise .dhtLength := by
  rw [parseDht, selector_of_le ht, decide_eq_true hc]
  simp only [failIf_bind, decide_eq_true_eq, if_pos h]

theorem parseDht_counts (h16 : 16 ≤ rest.length) (h : 256 < countSum (rest.take 16)) :
    parseDht (fuel + 1) (b :: rest) = raise .dhtCounts := by
  rw [parseDht, selector_of_le ht, decide_eq_true hc]
  simp only [failIf_bind, decide_eq_true_eq, if_neg (Nat.not_lt.2 h16), if_pos h]

theorem parseDht_short_values (h16 : 16 ≤ rest.length) (hsum : countSum (rest.take 16) ≤ 256)
    (h : rest.length < 16 + countSum (rest.take 16)) : parseDht (fuel + 1) (b :: rest) = raise .dhtLength := by
  rw [parseDht, selector_of_le ht, decide_eq_true hc]
  simp only [failIf_bind, decide_eq_true_eq, if_neg (Nat.not_lt.2 h16), if_neg (Nat.not_lt.2 hsum), if_pos h]

theorem parseDht_overflow (hsum : countSum (rest.take 16) ≤ 256) (hlen : 16 + countSum (rest.take 16) ≤ rest.length)
    (h : 2 ^ 16 < ((List.range 16).map fun l => (rest.getD l 0).toNat * 2 ^ (15 - l)).sum) :
    parseDht (fuel + 1) (b :: rest) = raise .dhtCodeOverflow := by
  have h16 : 16 ≤ rest.length := by omega
  have hcounts : ∀ l ∈ List.range 16, (rest.getD l 0).toNat * 2 ^ (15 - l) =
      ((rest.take 16).getD l 0).toNat * 2 ^ (15 - l) := fun l hl => by
    rw [List.getD_eq_getElem?_getD, List.getD_eq_getElem?_getD, List.getElem?_take_of_lt (List.mem_range.1 hl)]
  rw [List.map_congr_left hcounts] at h
  rw [parseDht, selector_of_le ht, decide_eq_true hc]
  simp only [failIf_bind, decide_eq_true_eq, if_neg (Nat.not_lt.2 h16), if_neg (Nat.not_lt.2 hsum),
    if_neg (Nat.not_lt.2 hlen), build_none (List.length_take_of_le h16) h]

end

/-! ## The segment -/

theorem HDef.one_le_bytes (h : HDef) : 1 ≤ h.bytes.length := by simp [HDef.bytes]

theorem exec_dht {s : State} {v payload rest : List Byte} {n : Nat} (hs : s.scanning v) (hn : n = payload.length)
    (h1 : 1 ≤ n) (hb : n + 2 < 2 ^ 16)
    (h : v.drop s.dec.cur = [0xFF, 0xC4] ++ bytesOf16 (BitVec.ofNat 16 (n + 2)) ++ payload ++ rest) :
    exec .dht s = s.endUnit (parseDht n payload >>= fun defs =>
      commit ((defs.foldl Dec.storeHt s.dec).advance (2 + (n + 2)))) := by
  obtain ⟨hseg, hslice⟩ := Dec.segment_of_bytes hn hb h
  refine (hs.atScan hseg.two_le_avail _).trans ?_
  rw [Dec.dht, hseg.preamble_bind (by omega), Nat.add_sub_cancel, hslice]

/-- Settles O23: the definitions are read one by one, each built as its canonical entry, and none is stored before all
are. -/
theorem huffmanTablesStoredOrRaise : Obligations.HuffmanTablesStoredOrRaise := by
  refine ⟨?stored, ?raises⟩
  case stored =>
    intro s v rest ds n hs hne hw hn hb hbytes
    have hlen : ds.length ≤ n := hn ▸ length_le_flatMap HDef.one_le_bytes ds
    have hpos := List.length_pos_iff.2 hne
    obtain ⟨fuel, hfuel⟩ : ∃ fuel, n = fuel + ds.length := ⟨n - ds.length, by omega⟩
    have hparse : parseDht n (ds.flatMap HDef.bytes) = .ok ds := by
      have := parseDht_append hw fuel []
      rw [List.append_nil, ← hfuel] at this
      rw [this]
      simp [parseDht]
    rw [exec_dht hs hn (by omega) hb hbytes, hparse, except_ok_bind, State.endUnit_quiet, Dec.foldl_storeHt,
      show 2 + (n + 2) = n + 4 by omega]
    rfl
  case raises =>
    rintro s v tail rest ds b tc th n sum hs hw rfl rfl hn hb hbytes rfl
    have hlen := length_le_flatMap HDef.one_le_bytes ds
    obtain ⟨fuel, hfuel⟩ : ∃ fuel, n = fuel + 1 + ds.length := ⟨n - 1 - ds.length, by omega⟩
    have hexec {c : Cause} (hc : parseDht (fuel + 1) (b :: tail) = raise c) :
        exec .dht s = .next (s.takeError (.corrupt c)) := by
      rw [exec_dht hs (payload := ds.flatMap HDef.bytes ++ b :: tail) (rest := rest)
        (by simp [hn, Nat.add_comm 1 tail.length]) (by omega) hb
        (by rw [hbytes]; simp only [List.append_assoc]), hfuel, parseDht_append hw, hc]
      rfl
    exact ⟨fun hp => hexec (parseDht_param tail hp), fun hc ht => ⟨fun h => hexec (parseDht_short_counts hc ht h),
      fun h16 h => hexec (parseDht_counts hc ht h16 h),
      fun h16 hsum h => hexec (parseDht_short_values hc ht h16 hsum h),
      fun hsum hl h => hexec (parseDht_overflow hc ht hsum hl h)⟩⟩

end Sys2Proof.Machine
end

section
/-! PROOFS. An SOS starts the scan, or raises the cause of the first check it fails (R310 to R314, R208). -/

namespace Sys2Proof.Machine

/-! ## The component of a selector (R310) -/

section
variable {d : Dec} {cs : Byte}

/-- Component `i` of the frame is the first whose id is the selector's. -/
theorem Dec.findComp_of_first {i : Fin 4} (hi : i.val < d.frame.nf) (hid : (d.comp.get i).id = cs)
    (hmin : ∀ k : Fin 4, k < i → (d.comp.get k).id ≠ cs) : d.findComp cs = some i := by
  have hget : ∀ k : Fin 4, [(0 : Fin 4), 1, 2, 3][k.val] = k := by decide
  refine List.find?_eq_some_iff_getElem.2 ⟨by simp [hi, hid], i.val, i.isLt, hget i, fun k hk => ?_⟩
  have hne : (d.comp.get ⟨k, hk.trans i.isLt⟩).id ≠ cs := hmin _ hk
  rw [hget ⟨k, hk.trans i.isLt⟩, beq_eq_false_iff_ne.2 hne, Bool.and_false]
  rfl

theorem Dec.findComp_id {i : Fin 4} (h : d.findComp cs = some i) : (d.comp.get i).id = cs := by
  have hp := List.find?_some h
  simp only [Bool.and_eq_true, beq_iff_eq] at hp
  exact hp.2

theorem Dec.findComp_of_not_named (h : ∀ c : Fin 4, c.val < d.frame.nf → (d.comp.get c).id ≠ cs) :
    d.findComp cs = none :=
  List.find?_eq_none.2 fun c _ => by simpa using h c

theorem Dec.findComp_of_named (h : ∃ c : Fin 4, c.val < d.frame.nf ∧ (d.comp.get c).id = cs) :
    ∃ i, d.findComp cs = some i := by
  obtain ⟨c, hc, hid⟩ := h
  refine Option.isSome_iff_exists.1 (List.find?_isSome.2 ⟨c, ?_, by simp [hc, hid]⟩)
  fin_cases c <;> decide

end

/-! ## The selectors (R310) -/

/-- Selector `j` names the slot `c`. -/
structure Dec.Slot (d : Dec) (v : List Byte) (j : Nat) (c : ScanComp) : Prop where
  comp : d.findComp (d.inp v (5 + 2 * j)) = some c.ci
  td : (hiNibble (d.inp v (6 + 2 * j))).toNat = c.td.val
  ta : (loNibble (d.inp v (6 + 2 * j))).toNat = c.ta.val

/-- The first selectors name the slots `sc`. -/
def Dec.Slots (d : Dec) (v : List Byte) (sc : List ScanComp) : Prop := ∀ j c, sc[j]? = some c → d.Slot v j c

section
variable {d : Dec} {v : List Byte} {sc : List ScanComp} {n j : Nat}

theorem any_ci_eq_true {ci : Fin 4} : (sc.any fun b => b.ci == ci) = true ↔ ci ∈ sc.map ScanComp.ci := by simp

theorem Dec.readSelectors_slot {c : ScanComp} (h : d.Slot v j c) (hnew : c.ci ∉ sc.map ScanComp.ci) :
    d.readSelectors v (n + 1) j sc = d.readSelectors v n (j + 1) (sc ++ [c]) := by
  rw [Dec.readSelectors, h.comp]
  simp only [failIf_bind, if_neg (mt any_ci_eq_true.1 hnew), selector_of_eq h.td, selector_of_eq h.ta]

theorem Dec.readSelectors_unknown (h : d.findComp (d.inp v (5 + 2 * j)) = none) :
    d.readSelectors v (n + 1) j sc = raise .sosCompsel := by
  rw [Dec.readSelectors, h]

theorem Dec.readSelectors_repeated {ci : Fin 4} (h : d.findComp (d.inp v (5 + 2 * j)) = some ci)
    (hdup : ci ∈ sc.map ScanComp.ci) : d.readSelectors v (n + 1) j sc = raise .sosCompsel := by
  rw [Dec.readSelectors, h]
  simp only [failIf_bind, if_pos (any_ci_eq_true.2 hdup)]

theorem Dec.readSelectors_table {ci : Fin 4} (h : d.findComp (d.inp v (5 + 2 * j)) = some ci)
    (hnew : ci ∉ sc.map ScanComp.ci)
    (ht : 3 < (hiNibble (d.inp v (6 + 2 * j))).toNat ∨ 3 < (loNibble (d.inp v (6 + 2 * j))).toNat) :
    d.readSelectors v (n + 1) j sc = raise .sosTableUndefined := by
  rw [Dec.readSelectors, h]
  simp only [failIf_bind, if_neg (mt any_ci_eq_true.1 hnew)]
  rcases ht with ht | ht
  · rw [selector_of_gt ht]
  · rw [selector_of_gt ht]
    split
    · rename_i h0
      cases h0
    · rfl

/-- Selectors that name slots are read, and reading goes on behind them. -/
theorem Dec.Slots.readSelectors (h : d.Slots v sc) (hnd : (sc.map ScanComp.ci).Nodup) (n : Nat) :
    d.readSelectors v (sc.length + n) 0 [] = d.readSelectors v n sc.length sc := by
  induction sc using List.reverseRecOn generalizing n with
  | nil => rw [List.length_nil, Nat.zero_add]
  | append_singleton sc c ih =>
    have hslot : d.Slot v sc.length c := h _ c (by simp)
    have hinit : d.Slots v sc := fun j b hb => by
      obtain ⟨hj, -⟩ := List.getElem?_eq_some_iff.1 hb
      exact h j b ((List.getElem?_append_left hj).trans hb)
    rw [List.map_append, List.map_singleton, List.nodup_append'] at hnd
    obtain ⟨hnd, -, hdisj⟩ := hnd
    rw [List.length_append, List.length_singleton, Nat.add_assoc, ih hinit hnd, Nat.add_comm 1 n,
      Dec.readSelectors_slot hslot fun hm => hdisj hm (List.mem_singleton_self _)]

/-- A component named before is that of an equal selector. -/
theorem Dec.Slots.mem_ci_iff (h : d.Slots v sc) {cs : Byte} {ci : Fin 4} (hc : d.findComp cs = some ci) :
    ci ∈ sc.map ScanComp.ci ↔ ∃ n < sc.length, d.inp v (5 + 2 * n) = cs := by
  constructor
  · intro hm
    obtain ⟨c, hc', rfl⟩ := List.mem_map.1 hm
    obtain ⟨n, hn, rfl⟩ := List.getElem_of_mem hc'
    have hs := h n _ (List.getElem?_eq_getElem hn)
    exact ⟨n, hn, (Dec.findComp_id hs.comp).symm.trans (Dec.findComp_id hc)⟩
  · rintro ⟨n, hn, rfl⟩
    have hs := h n _ (List.getElem?_eq_getElem hn)
    exact List.mem_map.2 ⟨sc[n], List.getElem_mem hn, Option.some.inj (hs.comp.symm.trans hc)⟩

/-- A selector that names no component of the frame, or one named before (R310). -/
theorem Dec.Slots.readSelectors_compsel (h : d.Slots v sc)
    (hbad : (∀ c : Fin 4, c.val < d.frame.nf → (d.comp.get c).id ≠ d.inp v (5 + 2 * sc.length)) ∨
      ∃ n < sc.length, d.inp v (5 + 2 * n) = d.inp v (5 + 2 * sc.length)) :
    d.readSelectors v (n + 1) sc.length sc = raise .sosCompsel := by
  rcases hbad with hno | hdup
  · exact Dec.readSelectors_unknown (Dec.findComp_of_not_named hno)
  · cases hci : d.findComp (d.inp v (5 + 2 * sc.length)) with
    | none => exact Dec.readSelectors_unknown hci
    | some ci => exact Dec.readSelectors_repeated hci ((h.mem_ci_iff hci).2 hdup)

/-- A selector of a component not named before, with a table number above 3 (R310). -/
theorem Dec.Slots.readSelectors_table (h : d.Slots v sc)
    (hnamed : ∃ c : Fin 4, c.val < d.frame.nf ∧ (d.comp.get c).id = d.inp v (5 + 2 * sc.length))
    (hnew : ∀ n < sc.length, d.inp v (5 + 2 * n) ≠ d.inp v (5 + 2 * sc.length))
    (ht : 3 < (hiNibble (d.inp v (6 + 2 * sc.length))).toNat ∨ 3 < (loNibble (d.inp v (6 + 2 * sc.length))).toNat) :
    d.readSelectors v (n + 1) sc.length sc = raise .sosTableUndefined := by
  obtain ⟨ci, hci⟩ := Dec.findComp_of_named hnamed
  refine Dec.readSelectors_table hci (mt (h.mem_ci_iff hci).1 ?_) ht
  rintro ⟨n, hn, he⟩
  exact hnew n hn he

/-- Selector `j` names a component of the frame that no selector before it names, with table numbers 0..3. -/
structure Dec.SelectorOk (d : Dec) (v : List Byte) (j : Nat) : Prop where
  named : ∃ c : Fin 4, c.val < d.frame.nf ∧ (d.comp.get c).id = d.inp v (5 + 2 * j)
  new : ∀ n < j, d.inp v (5 + 2 * n) ≠ d.inp v (5 + 2 * j)
  td : (hiNibble (d.inp v (6 + 2 * j))).toNat ≤ 3
  ta : (loNibble (d.inp v (6 + 2 * j))).toNat ≤ 3

/-- Selectors that pass their checks name slots. -/
theorem Dec.exists_slots (h : ∀ i < j, d.SelectorOk v i) :
    ∃ sc : List ScanComp, sc.length = j ∧ d.Slots v sc ∧ (sc.map ScanComp.ci).Nodup := by
  induction j with
  | zero => exact ⟨[], rfl, nofun, List.nodup_nil⟩
  | succ j ih =>
    obtain ⟨sc, hlen, hslots, hnd⟩ := ih fun i hi => h i (by omega)
    have hj := h j j.lt_succ_self
    obtain ⟨ci, hci⟩ := Dec.findComp_of_named hj.named
    have hnew : ci ∉ sc.map ScanComp.ci := by
      rw [hslots.mem_ci_iff hci]
      rintro ⟨n, hn, he⟩
      exact hj.new n (hlen ▸ hn) he
    refine ⟨sc ++ [{ ci := ci, td := ⟨_, Nat.lt_succ_of_le hj.td⟩, ta := ⟨_, Nat.lt_succ_of_le hj.ta⟩ }],
      by simp [hlen], fun i c hc => ?_, ?_⟩
    · rcases Nat.lt_or_ge i sc.length with hi | hi
      · exact hslots i c (by rwa [List.getElem?_append_left hi] at hc)
      · rw [List.getElem?_append_right hi, List.getElem?_singleton] at hc
        split at hc
        · obtain rfl : i = j := by omega
          cases hc
          exact ⟨hci, rfl, rfl⟩
        · cases hc
    · rw [List.map_append, List.map_singleton, List.nodup_append']
      exact ⟨hnd, List.nodup_singleton _, by simpa using hnew⟩

end

/-- What `Dec.selects` says of an SOS is that its selectors name the slots. -/
theorem Dec.selects.slots {d : Dec} {v : List Byte} {sc : List ScanComp} (h : d.selects v sc) : d.Slots v sc := by
  obtain ⟨-, -, -, -, hsc, -⟩ := h
  intro j c hc
  obtain ⟨hnf, hid, hmin, htd, hta⟩ := hsc j c hc
  exact ⟨Dec.findComp_of_first hnf hid hmin, htd, hta⟩

/-! ## The tables of the slots (R310) -/

theorem ScanMode.usesDc_iff (mode : ScanMode) : mode.usesDc = true ↔ mode = .seq ∨ mode = .dcFirst := by
  cases mode <;> simp [ScanMode.usesDc]

theorem ScanMode.usesAc_iff (mode : ScanMode) :
    mode.usesAc = true ↔ mode = .seq ∨ mode = .acFirst ∨ mode = .acRefine := by
  cases mode <;> simp [ScanMode.usesAc]

section
variable {d : Dec} {mode : ScanMode} {c : ScanComp} {rest : List ScanComp}

theorem Dec.codesDefined_iff :
    d.codesDefined mode c ↔
      ¬(mode.usesDc && !(d.htDc.get c.td).isDefined) = true ∧ ¬(mode.usesAc && !(d.htAc.get c.ta).isDefined) = true := by
  simp only [Dec.codesDefined, ← ScanMode.usesDc_iff, ← ScanMode.usesAc_iff, Bool.and_eq_true, Bool.not_eq_true',
    not_and, Bool.not_eq_false]

theorem Dec.checkTables_codes (h : ¬d.codesDefined mode c) :
    d.checkTables mode (c :: rest) = raise .sosTableUndefined := by
  rw [Dec.checkTables, failIf_bind, failIf_bind]
  by_cases hdc : (mode.usesDc && !(d.htDc.get c.td).isDefined) = true
  · rw [if_pos hdc]
  · rw [if_neg hdc, if_pos]
    by_contra hac
    exact h (Dec.codesDefined_iff.2 ⟨hdc, hac⟩)

theorem Dec.checkTables_defined (h : d.codesDefined mode c) :
    d.checkTables mode (c :: rest) = failIf (!(d.qt.get (d.comp.get c.ci).tq).isDefined) .qtUndefined >>= fun _ =>
      d.checkTables mode rest := by
  obtain ⟨hdc, hac⟩ := Dec.codesDefined_iff.1 h
  rw [Dec.checkTables, failIf_bind, failIf_bind, if_neg hdc, if_neg hac]

theorem Dec.checkTables_steps (h : d.codesDefined mode c) (hq : ¬d.stepsDefined c) :
    d.checkTables mode (c :: rest) = raise .qtUndefined := by
  rw [Dec.checkTables_defined h, failIf_bind, if_pos (by simpa [Dec.stepsDefined] using hq)]

/-- Slots whose tables are defined pass. -/
theorem Dec.checkTables_append {before : List ScanComp}
    (h : ∀ c ∈ before, d.codesDefined mode c ∧ d.stepsDefined c) :
    d.checkTables mode (before ++ rest) = d.checkTables mode rest := by
  induction before with
  | nil => rfl
  | cons c before ih =>
    obtain ⟨hcode, hstep⟩ := h c List.mem_cons_self
    rw [List.cons_append, Dec.checkTables_defined hcode, failIf_bind, if_neg (by simpa [Dec.stepsDefined] using hstep),
      ih fun b hb => h b (List.mem_cons_of_mem _ hb)]

end

/-! ## The handler -/

/-- SOS behind its component list: R310's checks of the parameters and the tables, and the commit. -/
def Dec.sosChecked (d : Dec) (v : List Byte) (lx : Nat) (sc : List ScanComp) : Except UnitStop UnitDone := do
  let ns := (d.inp v 4).toNat
  let ss := (d.inp v (5 + 2 * ns)).toNat
  let se := (d.inp v (6 + 2 * ns)).toNat
  let ah := (hiNibble (d.inp v (7 + 2 * ns))).toNat
  let al := (loNibble (d.inp v (7 + 2 * ns))).toNat
  failIf (!legalScan d.frame.progressive ns ss se ah al) .sosProgression
  failIf (!d.frame.progressive && (decide (0 < d.frame.scans) || ns != d.frame.nf)) .sosSequence
  failIf (decide (1 < ns) && decide (10 < d.mcuSize sc)) .sosMcuSize
  d.checkTables (scanMode d.frame.progressive ss ah) sc
  commit ((d.startScan sc ss se ah al).advance (2 + lx))

section
variable {d : Dec} {v : List Byte} {lx : Nat}

theorem Dec.sos_eq (h : d.segment v lx) (h8 : 8 ≤ lx) :
    d.sos v =
      if (d.inp v 4).toNat < 1 ∨ 4 < (d.inp v 4).toNat ∨ d.frame.nf < (d.inp v 4).toNat then raise .sosNcomp
      else if lx ≠ 6 + 2 * (d.inp v 4).toNat then raise .sosLength
      else d.readSelectors v (d.inp v 4).toNat 0 [] >>= d.sosChecked v lx := by
  have hfirst : d.sos v =
      failIf (decide ((d.inp v 4).toNat < 1) || decide (4 < (d.inp v 4).toNat) || decide (d.frame.nf < (d.inp v 4).toNat))
        .sosNcomp >>= fun _ =>
      failIf (lx != 6 + 2 * (d.inp v 4).toNat) .sosLength >>= fun _ =>
      d.readSelectors v (d.inp v 4).toNat 0 [] >>= d.sosChecked v lx := by
    rw [Dec.sos, h.preamble_bind h8]
    rfl
  rw [hfirst, failIf_bind, failIf_bind]
  simp only [Bool.or_eq_true, decide_eq_true_eq, bne_iff_ne, or_assoc]

/-- The checks behind the component list, in their order (R311, R312, R313). -/
theorem Dec.sosChecked_eq {sc : List ScanComp} {ss se ah al : Nat} (hns : (d.inp v 4).toNat = sc.length)
    (hp : d.scanParams v sc.length ss se ah al) :
    d.sosChecked v lx sc =
      if ¬legalScan d.frame.progressive sc.length ss se ah al = true then raise .sosProgression
      else if d.frame.progressive = false ∧ (0 < d.frame.scans ∨ sc.length ≠ d.frame.nf) then raise .sosSequence
      else if 1 < sc.length ∧ 10 < d.mcuSize sc then raise .sosMcuSize
      else d.checkTables (modeOf d.frame.progressive ss ah) sc >>= fun _ =>
        commit ((d.startScan sc ss se ah al).advance (2 + lx)) := by
  obtain ⟨rfl, rfl, rfl, rfl⟩ := hp
  simp only [Dec.sosChecked, failIf_bind, hns, ← scanMode_eq, Bool.and_eq_true, Bool.or_eq_true, Bool.not_eq_true',
    decide_eq_true_eq, bne_iff_ne, Bool.not_eq_true]

end

theorem exec_sos {s : State} {v : List Byte} {lx : Nat} (h : s.inState v .frame) (hseg : s.dec.segment v lx) :
    exec .sos s = s.endUnit (s.dec.sos v) :=
  (h.scanning.atScan hseg.two_le_avail _).trans (congrArg s.endUnit (if_pos h.2))

/-- An SOS whose component list passes. -/
theorem exec_sos_selected {s : State} {v : List Byte} {sc : List ScanComp} (h : s.inState v .frame)
    (hseg : s.dec.segment v (6 + 2 * sc.length)) (hsel : s.dec.selects v sc) :
    exec .sos s = s.endUnit (s.dec.sosChecked v (6 + 2 * sc.length) sc) := by
  have hslots := hsel.slots
  obtain ⟨hns, h1, h4, hnf, -, hnd⟩ := hsel
  have hread := hslots.readSelectors hnd 0
  rw [Nat.add_zero] at hread
  rw [exec_sos h hseg, Dec.sos_eq hseg (by omega), hns, if_neg (by omega), if_neg (not_not.2 rfl), hread]
  rfl

/-- An SOS whose selector `j` is the first that fails a check. -/
theorem exec_sos_selector_raises {s : State} {v : List Byte} {lx : Nat} {sc : List ScanComp} {c : Cause}
    (h : s.inState v .frame) (hseg : s.dec.segment v lx) (hns : (s.dec.inp v 4).toNat ≤ 4)
    (hnf : (s.dec.inp v 4).toNat ≤ s.dec.frame.nf) (hlx : lx = 6 + 2 * (s.dec.inp v 4).toNat)
    (hj : sc.length < (s.dec.inp v 4).toNat) (hslots : s.dec.Slots v sc) (hnd : (sc.map ScanComp.ci).Nodup)
    (hc : ∀ n, s.dec.readSelectors v (n + 1) sc.length sc = raise c) :
    exec .sos s = .next (s.takeError (.corrupt c)) := by
  obtain ⟨n, hn⟩ := Nat.exists_eq_add_of_lt hj
  rw [exec_sos h hseg, Dec.sos_eq hseg (by omega), if_neg (by omega), if_neg (not_not.2 hlx), hn, Nat.add_assoc,
    hslots.readSelectors hnd, hc, raise_bind, State.endUnit_raises]

section
variable {s : State} {v : List Byte} {sc : List ScanComp} {ss se ah al : Nat}
variable (h : s.inState v .frame) (hseg : s.dec.segment v (6 + 2 * sc.length)) (hsel : s.dec.selects v sc)
  (hp : s.dec.scanParams v sc.length ss se ah al)
include h hseg hsel hp

theorem exec_sos_progression (hl : ¬lawfulScan s.dec.frame.progressive sc.length ss se ah al) :
    exec .sos s = .next (s.takeError (.corrupt .sosProgression)) := by
  rw [exec_sos_selected h hseg hsel, Dec.sosChecked_eq hsel.1 hp, if_pos (mt (legalScan_iff ..).1 hl),
    State.endUnit_raises]

section
variable (hl : lawfulScan s.dec.frame.progressive sc.length ss se ah al)
include hl

theorem exec_sos_sequence (hq : s.dec.frame.progressive = false)
    (hs : 0 < s.dec.frame.scans ∨ sc.length ≠ s.dec.frame.nf) :
    exec .sos s = .next (s.takeError (.corrupt .sosSequence)) := by
  rw [exec_sos_selected h hseg hsel, Dec.sosChecked_eq hsel.1 hp, if_neg (not_not.2 ((legalScan_iff ..).2 hl)),
    if_pos ⟨hq, hs⟩, State.endUnit_raises]

section
variable (hseq : s.dec.frame.progressive = false → s.dec.frame.scans = 0 ∧ sc.length = s.dec.frame.nf)
include hseq

/-- An SOS whose sequence is right goes on with the size of the MCU. -/
theorem exec_sos_sequenced :
    exec .sos s = s.endUnit (if 1 < sc.length ∧ 10 < s.dec.mcuSize sc then raise .sosMcuSize
      else s.dec.checkTables (modeOf s.dec.frame.progressive ss ah) sc >>= fun _ =>
        commit ((s.dec.startScan sc ss se ah al).advance (2 + (6 + 2 * sc.length)))) := by
  have hfine : ¬(s.dec.frame.progressive = false ∧ (0 < s.dec.frame.scans ∨ sc.length ≠ s.dec.frame.nf)) := by
    rintro ⟨hq, hs⟩
    have := hseq hq
    omega
  rw [exec_sos_selected h hseg hsel, Dec.sosChecked_eq hsel.1 hp, if_neg (not_not.2 ((legalScan_iff ..).2 hl)),
    if_neg hfine]

theorem exec_sos_mcuSize (hn : 1 < sc.length) (hm : 10 < s.dec.mcuSize sc) :
    exec .sos s = .next (s.takeError (.corrupt .sosMcuSize)) := by
  rw [exec_sos_sequenced h hseg hsel hp hl hseq, if_pos ⟨hn, hm⟩, State.endUnit_raises]

section
variable (hmcu : 1 < sc.length → s.dec.mcuSize sc ≤ 10)
include hmcu

theorem exec_sos_sized :
    exec .sos s = s.endUnit (s.dec.checkTables (modeOf s.dec.frame.progressive ss ah) sc >>= fun _ =>
      commit ((s.dec.startScan sc ss se ah al).advance (2 + (6 + 2 * sc.length)))) := by
  rw [exec_sos_sequenced h hseg hsel hp hl hseq, if_neg fun hbad => Nat.not_le.2 hbad.2 (hmcu hbad.1)]

theorem exec_sos_starts
    (htab : ∀ c ∈ sc, s.dec.codesDefined (modeOf s.dec.frame.progressive ss ah) c ∧ s.dec.stepsDefined c) :
    exec .sos s = .next { s with
      dec := (s.dec.startScan sc ss se ah al).advance (2 + (6 + 2 * sc.length)), snap := none } := by
  have hpass := Dec.checkTables_append (rest := []) htab
  rw [List.append_nil] at hpass
  rw [exec_sos_sized h hseg hsel hp hl hseq hmcu, hpass]
  exact State.endUnit_quiet s _

/-- Slot `j` is the first whose tables fail a check. -/
theorem exec_sos_slot_raises {j : Nat} {c : ScanComp} {cause : Cause} (hj : sc[j]? = some c)
    (htab : ∀ c' ∈ sc.take j, s.dec.codesDefined (modeOf s.dec.frame.progressive ss ah) c' ∧ s.dec.stepsDefined c')
    (hc : ∀ rest, s.dec.checkTables (modeOf s.dec.frame.progressive ss ah) (c :: rest) = raise cause) :
    exec .sos s = .next (s.takeError (.corrupt cause)) := by
  obtain ⟨hlt, rfl⟩ := List.getElem?_eq_some_iff.1 hj
  have hsplit : sc.take j ++ sc[j] :: sc.drop (j + 1) = sc := by
    rw [List.getElem_cons_drop, List.take_append_drop]
  have hcheck := Dec.checkTables_append (rest := sc[j] :: sc.drop (j + 1)) htab
  rw [hsplit, hc] at hcheck
  rw [exec_sos_sized h hseg hsel hp hl hseq hmcu, hcheck, raise_bind, State.endUnit_raises]

end
end
end
end

/-- Settles O25: the selectors by induction on how many pass, the slots' tables by the split at the first that fails. -/
theorem scanStartsOrRaises : Obligations.ScanStartsOrRaises := by
  refine ⟨fun s v sc ss se ah al mode h hseg hsel hp hmode => ?_, fun s v lx ns h hseg h8 hns => ?_⟩
  · subst hmode
    refine ⟨fun hl hseq hmcu htab => ⟨_, Dec.initEntropy_comp { s.dec with scan := s.dec.newScan sc ss se ah al }, ?_⟩,
      exec_sos_progression h hseg hsel hp, fun hl => ⟨exec_sos_sequence h hseg hsel hp hl, fun hseq =>
        ⟨exec_sos_mcuSize h hseg hsel hp hl hseq, fun hmcu j c hj htab => ⟨fun hcode => ?_, fun hcode hstep => ?_⟩⟩⟩⟩
    · have hlen : 2 + (6 + 2 * sc.length) = 8 + 2 * sc.length := by omega
      rw [exec_sos_starts h hseg hsel hp hl hseq hmcu htab, hlen, ← scanMode_eq]
      rfl
    · exact exec_sos_slot_raises h hseg hsel hp hl hseq hmcu hj htab fun _ => Dec.checkTables_codes hcode
    · exact exec_sos_slot_raises h hseg hsel hp hl hseq hmcu hj htab fun _ => Dec.checkTables_steps hcode hstep
  · subst hns
    refine ⟨fun hbad => ?_, fun h1 h4 hnf => ⟨fun hlx => ?_, fun hlx j cs td ta hj hval hok => ?_⟩⟩
    · rw [exec_sos h hseg, Dec.sos_eq hseg h8, if_pos hbad, State.endUnit_raises]
    · rw [exec_sos h hseg, Dec.sos_eq hseg h8, if_neg (by omega), if_pos hlx, State.endUnit_raises]
    · obtain rfl : cs = fun i => (s.dec.inp v (5 + 2 * i)).toNat := funext fun i => (hval i).1
      obtain rfl : td = fun i => (hiNibble (s.dec.inp v (6 + 2 * i))).toNat := funext fun i => (hval i).2.1
      obtain rfl : ta = fun i => (loNibble (s.dec.inp v (6 + 2 * i))).toNat := funext fun i => (hval i).2.2
      simp only [BitVec.toNat_inj, ne_eq] at hok ⊢
      obtain ⟨sc, rfl, hslots, hnd⟩ := Dec.exists_slots fun i hi =>
        let ⟨hnamed, hnew, htd, hta⟩ := hok i hi
        (⟨hnamed, hnew, htd, hta⟩ : s.dec.SelectorOk v i)
      have hraise := fun c => exec_sos_selector_raises (c := c) h hseg h4 hnf hlx hj hslots hnd
      exact ⟨fun hbad => hraise _ fun _ => hslots.readSelectors_compsel hbad,
        fun hnamed hnew ht => hraise _ fun _ => hslots.readSelectors_table hnamed hnew ht⟩

end Sys2Proof.Machine
end

section
/-! PROOFS. What a rendered line shows: its pixels, their colours and the samples behind them (R350 to R358, R361 to R367). -/

namespace Sys2Proof.Machine

/-! ## Colours (R361, R366) -/

/-- R366: CMYK_REF for both conventions. -/
theorem cmykToRgb_ref (c m y k : Byte) (inverted : Bool) :
    cmykToRgb .ref c m y k inverted =
      ⟨cmykRefOne c.toNat k.toNat inverted, cmykRefOne m.toNat k.toNat inverted,
        cmykRefOne y.toNat k.toNat inverted⟩ := rfl

/-- A right shift of a number with half a unit added is the nearest integer. -/
theorem natAbs_mul_shr_add_half_sub (v : Int) : (65536 * shr (v + 32768) 16 - v).natAbs ≤ 32768 := by
  simp only [shr]
  omega

/-- R361: each channel is clamped after its own sum is rounded to the nearest integer. -/
theorem ycbcrToRgb_nearest (y cb cr : Nat) : ∃ r g b : Int,
    ycbcrToRgb y cb cr = ⟨clamp8 r, clamp8 g, clamp8 b⟩ ∧
    (65536 * (r - y) - 91881 * ((cr : Int) - 128)).natAbs ≤ 32768 ∧
    (65536 * (g - y) + 22554 * ((cb : Int) - 128) + 46802 * ((cr : Int) - 128)).natAbs ≤ 32768 ∧
    (65536 * (b - y) - 116130 * ((cb : Int) - 128)).natAbs ≤ 32768 := by
  have hr := natAbs_mul_shr_add_half_sub (91881 * ((cr : Int) - 128))
  have hg := natAbs_mul_shr_add_half_sub (-22554 * ((cb : Int) - 128) - 46802 * ((cr : Int) - 128))
  have hb := natAbs_mul_shr_add_half_sub (116130 * ((cb : Int) - 128))
  have hsum : cbG cb + crG cr = -22554 * ((cb : Int) - 128) - 46802 * ((cr : Int) - 128) + 32768 := by
    simp only [cbG, crG]
    omega
  refine ⟨_, _, _, rfl, ?_, ?_, ?_⟩
  · simp only [crR]
    omega
  · rw [hsum]
    omega
  · simp only [cbB]
    omega

/-! ## Pixels and lines (R364, R365, R367) -/

/-- The colour of the pixel (x, y) before it is packed (R365); black for the tag that has no rule. -/
def Dec.colour (d : Dec) (cfg : Config) (x y : Nat) : Rgb :=
  let u (i : Fin 4) : Nat := d.upsample cfg i x y
  match d.frame.cs with
  | .gray => ⟨byteOf (u 0), byteOf (u 0), byteOf (u 0)⟩
  | .ycbcr => ycbcrToRgb (u 0) (u 1) (u 2)
  | .rgb => ⟨byteOf (u 0), byteOf (u 1), byteOf (u 2)⟩
  | .cmyk => cmykToRgb cfg.cmyk (byteOf (u 0)) (byteOf (u 1)) (byteOf (u 2)) (byteOf (u 3)) d.adobe.present
  | .ycck =>
    let c := ycbcrToRgb (u 0) (u 1) (u 2)
    cmykToRgb cfg.cmyk c.r c.g c.b (byteOf (u 3)) true
  | .unknown => ⟨0, 0, 0⟩

theorem Dec.pixel_eq_pack {d : Dec} (cfg : Config) (x y : Nat) (h : d.frame.cs ≠ .unknown) :
    d.pixel cfg x y = pack (d.colour cfg x y) := by
  unfold Dec.pixel Dec.colour
  cases hcs : d.frame.cs with
  | unknown => exact absurd hcs h
  | gray | ycbcr | rgb | cmyk | ycck => rfl

theorem Dec.line_length (d : Dec) (cfg : Config) (y : Nat) : (d.line cfg y).length = d.frame.x.toNat := by
  simp [Dec.line]

theorem Dec.line_getElem? {d : Dec} (cfg : Config) {x : Nat} (y : Nat) (h : x < d.frame.x.toNat) :
    (d.line cfg y)[x]? = some (d.pixel cfg x y) := by
  simp [Dec.line, h]

theorem Dec.lines_getElem? (d : Dec) (cfg : Config) {lo hi y : Nat} (hlo : lo ≤ y) (hhi : y < hi) :
    (d.lines cfg lo hi)[y - lo]? = some (.scanline y (d.line cfg y)) := by
  have hy : lo + (y - lo) = y := by omega
  have hn : y - lo < hi - lo := by omega
  simp [Dec.lines, hn, hy]

/-! ## Samples (R351, R352) -/

theorem Dec.sample_le (d : Dec) (cfg : Config) (i : Fin 4) (px py : Nat) : d.sample cfg i px py ≤ 255 :=
  Nat.le_of_lt_succ (BitVec.isLt _)

theorem Dec.edge_le (d : Dec) (cfg : Config) (i : Fin 4) (px py : Int) : d.edge cfg i px py ≤ 255 :=
  d.sample_le cfg i _ _

/-- R352: a function that has a component's samples inside its true size, and repeats its own edges, is `E_i`. -/
theorem Dec.eq_edge {d : Dec} {cfg : Config} {i : Fin 4} {e : Int → Int → Nat}
    (hw : 1 ≤ d.wc (d.comp.get i)) (hh : 1 ≤ d.hc (d.comp.get i))
    (hin : ∀ px py : Nat, px < d.wc (d.comp.get i) → py < d.hc (d.comp.get i) → e px py = d.sample cfg i px py)
    (hrep : ∀ px py : Int,
      e px py = e (max 0 (min px (d.wc (d.comp.get i) - 1))) (max 0 (min py (d.hc (d.comp.get i) - 1)))) :
    e = d.edge cfg i := by
  have hclamp : ∀ (p : Int) (n : Nat), 1 ≤ n → max 0 (min p (n - 1)) = ((min (max p 0) ((n : Int) - 1)).toNat : Int) :=
    fun p n hn => by omega
  funext px py
  rw [hrep, hclamp px _ hw, hclamp py _ hh, hin _ _ (by omega) (by omega)]
  rfl

/-! ## FANCY_REF (R353 to R357) -/

section
variable {d : Dec} {i : Fin 4} (cfg : Config) (x y : Nat)

theorem Dec.fancy_full (hh : (d.comp.get i).h = d.hmax) (hv : (d.comp.get i).v = d.vmax) :
    d.fancy cfg i x y = d.edge cfg i x y :=
  if_pos ⟨hh, hv⟩

/-- R354: half the width. -/
theorem Dec.fancy_h2v1 (hh : d.hmax = 2 * (d.comp.get i).h) (hv : d.vmax = (d.comp.get i).v)
    (h1 : 1 ≤ (d.comp.get i).h) :
    d.fancy cfg i x y =
      if x % 2 = 0 then blend2 (d.edge cfg i (x / 2 : Nat) y) (d.edge cfg i ((x / 2 : Nat) - 1) y) 1
      else blend2 (d.edge cfg i (x / 2 : Nat) y) (d.edge cfg i ((x / 2 : Nat) + 1) y) 2 := by
  rw [Dec.fancy, if_neg (by omega), if_pos ⟨hh, hv⟩]

/-- R355: half the height. -/
theorem Dec.fancy_h1v2 (hh : d.hmax = (d.comp.get i).h) (hv : d.vmax = 2 * (d.comp.get i).v)
    (h1 : 1 ≤ (d.comp.get i).v) :
    d.fancy cfg i x y =
      if y % 2 = 0 then blend2 (d.edge cfg i x (y / 2 : Nat)) (d.edge cfg i x ((y / 2 : Nat) - 1)) 1
      else blend2 (d.edge cfg i x (y / 2 : Nat)) (d.edge cfg i x ((y / 2 : Nat) + 1)) 2 := by
  rw [Dec.fancy, if_neg (by omega), if_neg (by omega), if_pos ⟨hh, hv⟩]

/-- R356: half of both. The column sums, blended 3 to 1, weigh the four samples 9 to 3 to 3 to 1. -/
theorem Dec.fancy_h2v2 (hh : d.hmax = 2 * (d.comp.get i).h) (hv : d.vmax = 2 * (d.comp.get i).v)
    (hh1 : 1 ≤ (d.comp.get i).h) (hv1 : 1 ≤ (d.comp.get i).v) {j r near far : Int}
    (hj : j = (x / 2 : Nat)) (hr : r = (y / 2 : Nat))
    (hfar : far = if y % 2 = 0 then r - 1 else r + 1) (hnear : near = if x % 2 = 0 then j - 1 else j + 1) :
    d.fancy cfg i x y =
      (9 * d.edge cfg i j r + 3 * d.edge cfg i j far + 3 * d.edge cfg i near r + d.edge cfg i near far +
        if x % 2 = 0 then 8 else 7) / 16 := by
  rw [Dec.fancy, if_neg (by omega), if_neg (by omega), if_neg (by omega), if_pos ⟨hh, hv⟩, ← hj, ← hr, ← hfar, hnear]
  by_cases hx : x % 2 = 0
  · simp only [if_pos hx]
    congr 1
    ring
  · simp only [if_neg hx]
    congr 1
    ring

/-- R357: the nearest sample at every other ratio. -/
theorem Dec.fancy_nearest (h : ¬((d.hmax = (d.comp.get i).h ∨ d.hmax = 2 * (d.comp.get i).h) ∧
      (d.vmax = (d.comp.get i).v ∨ d.vmax = 2 * (d.comp.get i).v))) :
    d.fancy cfg i x y =
      d.edge cfg i ((x * (d.comp.get i).h / d.hmax : Nat) : Int) ((y * (d.comp.get i).v / d.vmax : Nat) : Int) := by
  rw [Dec.fancy, if_neg (by omega), if_neg (by omega), if_neg (by omega), if_neg (by omega)]

theorem blend2_same {k bias : Nat} (h : bias < 4) : blend2 k k bias = k := by
  unfold blend2
  omega

/-- R358(c) for FANCY_REF: the weights of each blend add up to its divisor, and the bias stays below it. -/
theorem Dec.fancy_const {k : Nat} (h : ∀ px py, d.edge cfg i px py = k) : d.fancy cfg i x y = k := by
  have hsum : ∀ bias, bias < 16 → (3 * (3 * k + k) + (3 * k + k) + bias) / 16 = k := fun bias hb => by omega
  simp only [Dec.fancy, h, blend2_same (show 1 < 4 by decide), blend2_same (show 2 < 4 by decide),
    hsum 8 (by decide), hsum 7 (by decide), ite_self]

end

/-! ## UPSAMPLE_MODE (R353, R358) -/

section
variable {d : Dec} {cfg : Config} {i : Fin 4}

theorem Dec.upsample_ref (h : cfg.upsample = .ref) (x y : Nat) : d.upsample cfg i x y = d.fancy cfg i x y := by
  simp only [Dec.upsample, h]

/-- R358(a): a full-resolution component is not filtered, whoever supplies UPSAMPLE_MODE. -/
theorem Dec.upsample_full (hh : (d.comp.get i).h = d.hmax) (hv : (d.comp.get i).v = d.vmax) (x y : Nat) :
    d.upsample cfg i x y = d.edge cfg i x y := by
  cases hu : cfg.upsample with
  | ref => rw [Dec.upsample_ref hu, Dec.fancy_full cfg x y hh hv]
  | impl n => simp only [Dec.upsample, hu, hh, hv, and_self, if_true]

/-- R358(c): a constant plane stays constant, whoever supplies UPSAMPLE_MODE. -/
theorem Dec.upsample_const {k : Nat} (h : ∀ px py, d.edge cfg i px py = k) (x y : Nat) : d.upsample cfg i x y = k := by
  cases hu : cfg.upsample with
  | ref => rw [Dec.upsample_ref hu, Dec.fancy_const cfg x y h]
  | impl n =>
    by_cases hf : (d.comp.get i).h = d.hmax ∧ (d.comp.get i).v = d.vmax
    · rw [Dec.upsample_full hf.1 hf.2, h]
    · have hk : k ≤ 255 := h 0 0 ▸ d.edge_le cfg i 0 0
      have hreads : ∀ s ∈ d.upsampleReads cfg n i x y, k ≤ s ∧ s ≤ k := fun s hs => by
        obtain ⟨p, -, rfl⟩ := List.mem_map.1 hs
        rw [h]
        exact ⟨le_rfl, le_rfl⟩
      have hbetween := upsample_impl_between hu hf hk hreads
      omega

end

/-- Settles O45: a line is its pixels, each its colour packed; the samples in view with their edges repeated are `E_i`; and
each ratio takes its own branch of FANCY_REF. -/
theorem pixelsRendered : Obligations.PixelsRendered := by
  refine ⟨fun d cfg lo hi x y hlo hhi hx => ?line, fun y cb cr _ _ _ => ycbcrToRgb_nearest y cb cr,
    fun c m y k => ⟨cmykToRgb_ref c m y k true, cmykToRgb_ref c m y k false⟩,
    fun d cfg i c q x y e hc hw hh hq hin hrep => ?samples⟩
  case line =>
    refine ⟨d.line cfg y, d.colour cfg x y, d.lines_getElem? cfg hlo hhi, d.line_length cfg y, fun hcs => ?_,
      fun u hu => ?_⟩
    · rw [Dec.line_getElem? cfg y hx, Dec.pixel_eq_pack cfg x y hcs]
      rfl
    · obtain rfl : u = fun i => byteOf (d.upsample cfg i x y) := funext hu
      unfold Dec.colour
      exact ⟨fun hcs => by rw [hcs], fun hcs => by rw [hcs], fun hcs => by rw [hcs], fun hcs => by rw [hcs],
        fun hcs => ⟨_, rfl, by rw [hcs]⟩⟩
  case samples =>
    subst hc hq
    obtain rfl : e = d.edge cfg i := Dec.eq_edge hw hh (fun px py hx hy => by
      rw [hin px py hx hy, Nat.mul_comm]
      rfl) hrep
    refine ⟨fun hh hv => Dec.upsample_full hh hv x y, fun hu hh hv h1 j hj => ?_, fun hu hh hv h1 r hr => ?_,
      fun hu hh hv hh1 hv1 j r near far hj hr hfar hnear => ?_, fun hu h => ?_, fun k hk => Dec.upsample_const hk x y⟩
    · subst hj
      exact (Dec.upsample_ref hu x y).trans (Dec.fancy_h2v1 cfg x y hh hv h1)
    · subst hr
      exact (Dec.upsample_ref hu x y).trans (Dec.fancy_h1v2 cfg x y hh hv h1)
    · rw [Dec.upsample_ref hu, Dec.fancy_h2v2 cfg x y hh hv hh1 hv1 hj hr hfar hnear]
    · rw [Dec.upsample_ref hu, Dec.fancy_nearest cfg x y h]

end Sys2Proof.Machine
end

section
/-! PROOFS. The encoder's colour conversion, and its packed bits (R117, R407, R411, R413). -/

namespace Sys2Proof.Machine

/-! ## Colour (R407) -/

theorem redOf_eq (w : Word) : redOf w = (w.toNat / 2 ^ 16 % 256 : Nat) := by
  rw [redOf, BitVec.extractLsb'_toNat, Nat.shiftRight_eq_div_pow]

theorem greenOf_eq (w : Word) : greenOf w = (w.toNat / 2 ^ 8 % 256 : Nat) := by
  rw [greenOf, BitVec.extractLsb'_toNat, Nat.shiftRight_eq_div_pow]

theorem blueOf_eq (w : Word) : blueOf w = (w.toNat % 256 : Nat) := by
  rw [blueOf, BitVec.extractLsb'_toNat, Nat.shiftRight_zero]

/-- Settles O53: the samples lie in 0..255, and the factors of each sum add up to 65536 for Y and to 0 for Cb and Cr. -/
theorem encoderColour : Obligations.EncoderColour := by
  intro w r g b hr hg hb
  have hshr (x : Int) : shr x 16 = x / 65536 := by norm_num [shr]
  simp only [lumaOf, cbOf, crOf, redOf_eq, greenOf_eq, blueOf_eq, ← hr, ← hg, ← hb, hshr, true_and]
  have hr8 : 0 ≤ r ∧ r ≤ 255 := by omega
  have hg8 : 0 ≤ g ∧ g ≤ 255 := by omega
  have hb8 : 0 ≤ b ∧ b ≤ 255 := by omega
  clear hr hg hb
  omega

/-! ## PUT_BITS (R413) -/

theorem lowBits_succ (x n : Nat) : lowBits x (n + 1) = x.testBit n :: lowBits x n := by
  rw [lowBits, List.range_succ_eq_map, List.map_cons, List.map_map, lowBits]
  congr 1
  refine List.map_congr_left fun j _ => ?_
  rw [Function.comp_apply, show n + 1 - 1 - (j + 1) = n - 1 - j by omega]

/-- PUT_BITS packs the low bits one after the other. -/
theorem Packer.put_eq_foldl (p : Packer) (v n : Nat) : p.put v n = (lowBits v n).foldl Packer.putBit p := by
  induction n generalizing p with
  | zero => rfl
  | succ n ih => rw [Packer.put, ih, lowBits_succ, List.foldl_cons]

/-- The partial byte with bits gathered below those it holds. -/
def Packer.gathered (p : Packer) (bs : List Bool) : Byte := BitVec.ofNat 8 (p.acc.toNat * 2 ^ bs.length + bitsValue bs)

theorem Packer.gathered_singleton (p : Packer) (b : Bool) : p.acc <<< 1 ||| (if b then 1 else 0) = p.gathered [b] := by
  cases b
  · refine BitVec.eq_of_toNat_eq ?_
    simp [gathered, bitsValue, Nat.shiftLeft_eq]
  · have hadd : p.acc <<< 1 ||| 1 = p.acc <<< 1 + 1 := by
      refine (BitVec.add_eq_or_of_and_eq_zero _ _ ?_).symm
      ext i hi
      rcases i with _ | i <;> simp
    refine hadd.trans (BitVec.eq_of_toNat_eq ?_)
    simp [gathered, bitsValue, Nat.shiftLeft_eq]

/-- Bits are gathered one after the other. -/
theorem Packer.gathered_append (p : Packer) (bs : List Bool) (b : Bool) (n : Nat) :
    Packer.gathered { p with acc := p.gathered bs, cnt := n } [b] = p.gathered (bs ++ [b]) := by
  refine BitVec.eq_of_toNat_eq ?_
  simp only [gathered, List.length_singleton, List.length_append, bitsValue_append, BitVec.toNat_ofNat]
  rw [Nat.add_mod, Nat.mod_mul_mod, ← Nat.add_mod]
  congr 1
  simp only [bitsValue, List.foldl_cons, List.foldl_nil]
  ring

/-- A bit that leaves the byte partial. -/
theorem Packer.putBit_partial {p : Packer} (h : p.cnt + 1 ≠ 8) (b : Bool) :
    p.putBit b = { p with acc := p.gathered [b], cnt := p.cnt + 1 } := by
  rw [Packer.putBit, Packer.gathered_singleton, if_neg h]

/-- The bit that fills the byte. -/
theorem Packer.putBit_full {p : Packer} (h : p.cnt + 1 = 8) (b : Bool) :
    p.putBit b =
      { acc := 0, cnt := 0, outq := p.outq ++ if p.gathered [b] = 0xFF then [0xFF, 0x00] else [p.gathered [b]] } := by
  rw [Packer.putBit, Packer.gathered_singleton, if_pos h]
  split
  next hF => rw [hF]
  next => rfl

/-- Bits that leave the byte partial. -/
theorem Packer.foldl_putBit_partial {p : Packer} {bs : List Bool} (h : p.cnt + bs.length < 8) :
    bs.foldl Packer.putBit p = { p with acc := p.gathered bs, cnt := p.cnt + bs.length } := by
  induction bs using List.reverseRecOn with
  | nil => simp [gathered, bitsValue]
  | append_singleton bs b ih =>
    rw [List.length_append, List.length_singleton] at h ⊢
    rw [List.foldl_append, ih (by omega), List.foldl_cons, List.foldl_nil, Packer.putBit_partial (by dsimp only; omega),
      Packer.gathered_append]
    rfl

/-- Bits of which the last fills the byte. -/
theorem Packer.foldl_putBit_full {p : Packer} {bs : List Bool} (hp : p.cnt < 8) (h : p.cnt + bs.length = 8) :
    bs.foldl Packer.putBit p =
      { acc := 0, cnt := 0, outq := p.outq ++ if p.gathered bs = 0xFF then [0xFF, 0x00] else [p.gathered bs] } := by
  rcases List.eq_nil_or_concat' bs with rfl | ⟨bs, b, rfl⟩
  · rw [List.length_nil] at h
    omega
  · rw [List.length_append, List.length_singleton] at h
    rw [List.foldl_append, Packer.foldl_putBit_partial (bs := bs) (by omega), List.foldl_cons, List.foldl_nil,
      Packer.putBit_full (by dsimp only; omega), Packer.gathered_append]

/-! ## Magnitude bits (R117, R411) -/

/-- A value of category `s` takes `s` bits: `|v|` lies from `2^(s-1)` to `2^s - 1`. -/
theorem natAbs_of_nbits {v : Int} {s : Nat} (h : nbits v = s + 1) : 2 ^ s ≤ v.natAbs ∧ v.natAbs < 2 ^ (s + 1) := by
  unfold nbits at h
  split at h
  · cases h
  next hv => exact (Nat.log2_eq_iff (by omega)).1 (Nat.succ.inj h)

theorem extend_mag {v : Int} {s : Nat} (h : nbits v = s) : mag v s < 2 ^ s ∧ extend (mag v s) s = v := by
  cases s with
  | zero =>
    obtain rfl : v = 0 := by by_contra hv; exact nbits_ne_zero hv h
    decide
  | succ s =>
    obtain ⟨hlow, hhigh⟩ := natAbs_of_nbits h
    have hpow : ((2 ^ s : Nat) : Int) = 2 ^ s := by push_cast; rfl
    rw [Nat.pow_succ] at hhigh
    simp only [extend, mag, Nat.succ_ne_zero, if_false, Nat.add_sub_cancel, Int.pow_succ, Nat.pow_succ, ← hpow]
    generalize 2 ^ s = q at *
    split_ifs <;> omega

/-- Settles O52: PUT_BITS bit by bit, a byte that stays partial and one that is filled, and the two ranges of MAG. -/
theorem encoderBits : Obligations.EncoderBits :=
  ⟨Packer.put_eq_foldl, fun _ _ h => Packer.foldl_putBit_partial h, fun _ _ _ hp h hx => hx ▸ Packer.foldl_putBit_full hp h,
    fun _ _ h => extend_mag h⟩

end Sys2Proof.Machine
end

section
/-! PROOFS. Every code of a canonical table decodes to its symbol (R171, R174, R180). -/

namespace Sys2Proof.Machine

/-! ## What the loop over the lengths has filled (R171) -/

theorem codesOfLen_eq_range' {l n code : Nat} {cs : List Nat} (h : codesOfLen l n code = some cs) :
    cs = List.range' code n := by
  rcases Nat.eq_zero_or_pos n with rfl | hn
  · cases h
    rfl
  · have hfit : code + n ≤ 2 ^ l := by
      by_contra hlt
      rw [codesOfLen_eq_none.2 ⟨hn, Nat.lt_of_not_le hlt⟩] at h
      cases h
    exact Option.some.inj (h.symm.trans (codesOfLen_of_fits hfit))

/-- One length, then the lengths after it. -/
theorem buildFrom_cons_some {n l code j : Nat} {counts : List Nat} {r : BuildArrays}
    (h : buildFrom (n :: counts) l code j = some r) :
    ∃ r', buildFrom counts (l + 1) ((code + n) * 2) (j + n) = some r' ∧ r = BuildArrays.cons l n code j r' := by
  rw [buildFrom] at h
  split at h
  · cases h
  next cs hcs =>
    obtain rfl := codesOfLen_eq_range' hcs
    split at h
    · cases h
    next r' hr' => exact ⟨r', hr', (Option.some.inj h).symm⟩

/-- Symbol `k` of the loop's arrays has the code `c` of `size` bits. -/
def BuildArrays.HasCode (r : BuildArrays) (k c size : Nat) : Prop := r.code[k]? = some c ∧ r.size[k]? = some size

/-- A code is one of the first length's, or a later length's. -/
theorem BuildArrays.hasCode_cons {l n code j k c size : Nat} {r : BuildArrays} :
    (BuildArrays.cons l n code j r).HasCode k c size ↔
      (k < n ∧ c = code + k ∧ size = l) ∨ (n ≤ k ∧ r.HasCode (k - n) c size) := by
  rcases Nat.lt_or_ge k n with hk | hk
  · simp [HasCode, cons, List.getElem?_append_left, hk, Nat.not_le.2 hk, eq_comm]
  · simp [HasCode, cons, List.getElem?_append_right, hk, Nat.not_lt.2 hk]

theorem mul_two_pow_of_lt {l size : Nat} (h : l < size) (m : Nat) : m * 2 * 2 ^ (size - (l + 1)) = m * 2 ^ (size - l) := by
  rw [show size - l = size - (l + 1) + 1 by omega, Nat.pow_succ', Nat.mul_assoc]

/-- The codes filled from length `l` on are no shorter, and none begins with less than the first code of that length. -/
theorem buildFrom_code_ge {counts : List Nat} {l code j k c size : Nat} {r : BuildArrays}
    (h : buildFrom counts l code j = some r) (hk : r.HasCode k c size) : l ≤ size ∧ code * 2 ^ (size - l) ≤ c := by
  induction counts generalizing l code j k r with
  | nil =>
    cases h
    cases hk.1
  | cons n counts ih =>
    obtain ⟨r', hr', rfl⟩ := buildFrom_cons_some h
    rcases BuildArrays.hasCode_cons.1 hk with ⟨-, rfl, rfl⟩ | ⟨-, hk⟩
    · simp
    · obtain ⟨hl, hc⟩ := ih hr' hk
      rw [mul_two_pow_of_lt hl] at hc
      exact ⟨Nat.le_of_succ_le hl, (Nat.mul_le_mul_right _ (Nat.le_add_right code n)).trans hc⟩

/-! ## The search finds the code (R180) -/

/-- The number RECEIVE ends with begins with the bits it had. -/
theorem receiveFrom_lt {v : List Byte} {more : Bool} {s acc c : Nat} {r r' : Rd}
    (h : receiveFrom v more s acc r = .ok (c, r')) : c < (acc + 1) * 2 ^ s := by
  induction s generalizing acc r with
  | zero =>
    cases h
    omega
  | succ s ih =>
    rw [receiveFrom] at h
    obtain ⟨⟨b, r1⟩, -, h⟩ := except_bind_ok.1 h
    refine (ih h).trans_le ?_
    rw [Nat.pow_succ', ← Nat.mul_assoc]
    refine Nat.mul_le_mul_right _ ?_
    have := b.toNat_le
    omega

theorem getD_of_drop {α : Type} {xs ys : List α} {x : α} {l : Nat} (h : xs.drop l = x :: ys) (d : α) :
    xs.getD l d = x ∧ xs.drop (l + 1) = ys := by
  refine ⟨?_, by rw [← List.tail_drop, h, List.tail_cons]⟩
  rw [List.getD_eq_getElem?_getD, ← Nat.add_zero l, ← List.getElem?_drop, h]
  rfl

/-- The search from length `l + 1` on, through the arrays the loop has filled from there. A code of a later length begins
past the codes of this one, so the search goes on. -/
theorem decodeSymFrom_of_buildFrom {counts : List Nat} {l code j k acc c size : Nat} {a : BuildArrays} {t : HEntry}
    {sym : Byte} {v : List Byte} {more : Bool} {r r' : Rd} (h : buildFrom counts (l + 1) code j = some a)
    (hmin : t.mincode.drop l = a.mincode) (hmax : t.maxcode.drop l = a.maxcode) (hptr : t.valptr.drop l = a.valptr)
    (hk : a.HasCode k c size) (hsym : t.huffval[j + k]? = some sym)
    (hread : receiveFrom v more (size - l) acc r = .ok (c, r')) :
    decodeSymFrom v more t counts.length acc (l + 1) r = .ok (sym, r') := by
  induction counts generalizing l code j k acc a r with
  | nil =>
    cases h
    cases hk.1
  | cons n counts ih =>
    obtain ⟨hl, -⟩ := buildFrom_code_ge h hk
    obtain ⟨a, ha, rfl⟩ := buildFrom_cons_some h
    obtain ⟨hmin, hmin'⟩ := getD_of_drop hmin 0
    obtain ⟨hmax, hmax'⟩ := getD_of_drop hmax (-1)
    obtain ⟨hptr, hptr'⟩ := getD_of_drop hptr 0
    rw [show size - l = size - (l + 1) + 1 by omega, receiveFrom] at hread
    obtain ⟨⟨b, r1⟩, hb, hread⟩ := except_bind_ok.1 hread
    rw [List.length_cons, decodeSymFrom, hb, except_ok_bind]
    dsimp only at hread ⊢
    rw [Nat.add_sub_cancel, hmin, hmax, hptr]
    rcases BuildArrays.hasCode_cons.1 hk with ⟨hkn, rfl, rfl⟩ | ⟨hkn, hk⟩
    · rw [Nat.sub_self] at hread
      obtain ⟨hacc, rfl⟩ := Prod.mk.inj (Except.ok.inj hread)
      rw [if_pos (by rw [if_pos (by omega)]; omega), show j + (acc * 2 + b.toNat) - code = j + k by omega, hsym]
    · obtain ⟨hl, hc⟩ := buildFrom_code_ge ha hk
      rw [mul_two_pow_of_lt hl] at hc
      have hpast := Nat.lt_of_mul_lt_mul_right (hc.trans_lt (receiveFrom_lt hread))
      rw [if_neg (by split <;> omega)]
      exact ih ha hmin' hmax' hptr' hk (by rwa [Nat.add_assoc, Nat.add_sub_cancel' hkn]) hread

/-- BUILD's table, from the first length on. -/
theorem decodeSym_of_build {bits vals : List Byte} {e : HEntry} (h : build bits vals = some e) (hl : bits.length = 16)
    {j code size : Nat} {sym : Byte} {v : List Byte} {more : Bool} {r r' : Rd} (hcode : e.huffcode[j]? = some code)
    (hsize : e.huffsize[j]? = some size) (hsym : e.huffval[j]? = some sym)
    (hread : receive v more size r = .ok (code, r')) : decodeSym v more e r = .ok (sym, r') := by
  rw [build] at h
  split at h
  · cases h
  next a ha =>
    cases h
    have := decodeSymFrom_of_buildFrom (l := 0) ha rfl rfl rfl ⟨hcode, hsize⟩ (by rwa [Nat.zero_add]) hread
    rwa [List.length_map, hl] at this

/-- Settles O41: BUILD makes the canonical entry where the codes fit, no other entry is canonical, and the search runs along
BUILD's loop over the lengths. -/
theorem codesDecodeToTheirSymbols : Obligations.CodesDecodeToTheirSymbols := by
  refine ⟨fun bits vals hl hv => ⟨fun hf => ?_, fun hf => build_none hl (Nat.lt_of_not_le hf)⟩, ?_⟩
  · obtain ⟨e, hbuild, he, hbits, hvals⟩ := build_canonical hl hv hf
    exact ⟨e, hbuild, hbits, hvals, he⟩
  · intro e j code size sym v more r r' he hcode hsize hsym hread
    exact decodeSym_of_build he.build_eq he.counts hcode hsize hsym hread

end Sys2Proof.Machine
end

section
/-! PROOFS. ENC_INIT opens the encoder and appends the header (R393, R394, R395, R489). -/

namespace Sys2Proof.Machine

/-! ## The header (R394, R395) -/

theorem qualityScale_eq {quality : Int} {q : Nat} (h : (q : Int) = max 1 (min quality 100)) :
    qualityScale quality = if q < 50 then 5000 / q else 200 - 2 * q := by
  have hq : (clampInt quality 1 100).toNat = q := by
    unfold clampInt
    omega
  rw [qualityScale, hq]

theorem zigzagBytes_length (q : List Byte) : (zigzagBytes q).length = 64 := by simp [zigzagBytes]

/-- The entries of a table in zig-zag order, whoever lists them. -/
theorem zigzagBytes_eq {q z : List Byte} (hq : q.length = 64) (hz : z.length = 64) (h : ∀ k < 64, z[k]? = q[zz k]?) :
    zigzagBytes q = z := by
  refine List.ext_getElem (by rw [zigzagBytes_length, hz]) fun k _ hk => ?_
  have hzz : zz k < q.length := hq ▸ zz_lt k
  have := h k (hz ▸ hk)
  rw [List.getElem?_eq_getElem hk, List.getElem?_eq_getElem hzz] at this
  rw [Option.some.inj this]
  simp [zigzagBytes, List.getD_eq_getElem?_getD, hzz]

theorem bytesOf16_ofNat (n : Nat) : bytesOf16 (BitVec.ofNat 16 n) = [BitVec.ofNat 8 (n / 256), BitVec.ofNat 8 n] := by
  have hhigh : (BitVec.ofNat 16 n).extractLsb' 8 8 = BitVec.ofNat 8 (n / 256) := by
    refine BitVec.eq_of_toNat_eq ?_
    simp only [BitVec.extractLsb'_toNat, BitVec.toNat_ofNat, Nat.shiftRight_eq_div_pow]
    omega
  have hlow : (BitVec.ofNat 16 n).extractLsb' 0 8 = BitVec.ofNat 8 n := by
    refine BitVec.eq_of_toNat_eq ?_
    simp only [BitVec.extractLsb'_toNat, BitVec.toNat_ofNat, Nat.shiftRight_zero]
    omega
  rw [bytesOf16, hhigh, hlow]

theorem dcTables_length :
    dcLBits.length = 16 ∧ dcLVals.length = 12 ∧ dcCBits.length = 16 ∧ dcCVals.length = 12 := ⟨rfl, rfl, rfl, rfl⟩

theorem acTables_length :
    acLBits.length = 16 ∧ acLVals.length = 162 ∧ acCBits.length = 16 ∧ acCVals.length = 162 := ⟨rfl, rfl, rfl, rfl⟩

theorem headerBytes_length (ql qc : List Byte) (w h : Nat) : (headerBytes ql qc w h).length = 623 := by
  unfold headerBytes
  simp only [List.length_append, zigzagBytes_length, bytesOf16_ofNat, dcTables_length, acTables_length, List.length_cons,
    List.length_nil]

/-! ## The command (R393) -/

theorem exec_encInit {s : State} (hv : s.view = none) (ho : s.enc.isOpen = false) {w h : Nat} (quality : Int) (hw1 : 1 ≤ w)
    (hw2 : w ≤ 65535) (hh1 : 1 ≤ h) (hh2 : h ≤ 65535) :
    exec (.encInit quality w h) s =
      let e := encOpened quality w h s.pk.outq.length
      .next { s with
        enc := e, pk := { acc := 0, cnt := 0, outq := s.pk.outq ++ headerBytes e.ql e.qc w h }
        results := s.results ++ [(.encInit, .ok)] } := by
  refine (State.atCall_none hv).trans ?_
  rw [if_neg (by rw [ho]; decide), if_neg (by omega)]
  rfl

/-- Settles O49: the tables in zig-zag order and the two bytes of each size are the header's, and the run's bytes and outcomes
begin with this command. -/
theorem encoderOpens : Obligations.EncoderOpens := by
  intro s quality w h q scale ql qc zl zc hdr hv ho hw1 hw2 hh1 hh2 hq hscale hql hqc hzl hzc hz hhdr
  rw [← qualityScale_eq hq] at hscale
  subst hscale
  have hl : zigzagBytes ql = zl := zigzagBytes_eq (by rw [hql, List.length_map]; rfl) hzl fun k hk => (hz k hk).1
  have hc : zigzagBytes qc = zc := zigzagBytes_eq (by rw [hqc, List.length_map]; rfl) hzc fun k hk => (hz k hk).2
  have hheader : headerBytes ql qc w h = hdr := by
    rw [hhdr]
    unfold headerBytes
    simp only [hl, hc, bytesOf16_ofNat, List.append_assoc, List.cons_append, List.nil_append]
  rw [← hheader, hql, hqc]
  exact ⟨_, exec_encInit hv ho quality hw1 hw2 hh1 hh2, rfl, headerBytes_length _ _ w h,
    Prod.ext List.drop_left (encOutcomes_opened rfl)⟩

end Sys2Proof.Machine
end

section
/-! PROOFS. The bits of an encoded band (R401, R406, R410, R411). -/

namespace Sys2Proof.Machine

/-! ## Symbols (R401, R410, R411) -/

section
variable {t : Option HEntry}

theorem putCode_eq {sym : Nat} (h : HasCode t sym) (p : Packer) :
    putCode t sym p = .ok ((codeBits t sym).foldl Packer.putBit p) := by
  obtain ⟨⟨code, size⟩, hc⟩ := h
  simp only [putCode, codeBits, hc, Packer.put_eq_foldl]

theorem putCoef_eq {r : Nat} {x : Int} (h : HasCode t (r * 16 + nbits x)) (p : Packer) :
    putCoef t r x p = .ok ((coefBits t r x).foldl Packer.putBit p) := by
  rw [putCoef, putCode_eq h, except_ok_bind, Packer.put_eq_foldl, coefBits, List.foldl_append]

theorem putZrls_eq (h : HasCode t 0xF0) (n : Nat) (p : Packer) :
    putZrls t n p = .ok ((List.replicate n (codeBits t 0xF0)).flatten.foldl Packer.putBit p) := by
  induction n generalizing p with
  | zero => rfl
  | succ n ih =>
    rw [putZrls, putCode_eq h, except_ok_bind, ih, List.replicate_succ, List.flatten_cons, List.foldl_append]

end

/-! ## The AC coefficients of a block (R410) -/

theorem clampInt_eq_zero_iff {z : Int} : clampInt z (-1023) 1023 = 0 ↔ z = 0 := by
  unfold clampInt
  omega

/-- The bits of coefficient `ks.1` after the non-zero coefficient, or the DC one, before it, which is `ks.2`. -/
def runBits (t : Option HEntry) (zs : List Int) (ks : Nat × Nat) : List Bool :=
  (List.replicate ((ks.1 - ks.2 - 1) / 16) (codeBits t 0xF0)).flatten ++
    coefBits t ((ks.1 - ks.2 - 1) % 16) (clampInt (zs.getD ks.1 0) (-1023) 1023)

/-- The non-zero ones of `n` coefficients from `k` on. -/
def nonzeros (zs : List Int) (k n : Nat) : List Nat := (List.range' k n).filter fun k => zs.getD k 0 != 0

/-- The bits of the coefficients from `k` on, where `prev` is the last non-zero one before them. -/
def acBitsFrom (t : Option HEntry) (zs : List Int) (prev k n : Nat) : List Bool :=
  ((nonzeros zs k n).zip (prev :: nonzeros zs k n)).flatMap (runBits t zs) ++
    if (nonzeros zs k n).getLastD prev = 63 then [] else codeBits t 0x00

theorem acBits_eq (t : Option HEntry) (zs : List Int) : acBits t zs = acBitsFrom t zs 0 1 63 := rfl

section
variable {zs : List Int} {k : Nat}

theorem nonzeros_of_zero (h : zs.getD k 0 = 0) (n : Nat) : nonzeros zs k (n + 1) = nonzeros zs (k + 1) n := by
  rw [nonzeros, List.range'_succ, List.filter_cons_of_neg (by simpa using h)]
  rfl

theorem nonzeros_of_ne_zero (h : zs.getD k 0 ≠ 0) (n : Nat) : nonzeros zs k (n + 1) = k :: nonzeros zs (k + 1) n := by
  rw [nonzeros, List.range'_succ, List.filter_cons_of_pos (by simpa using h)]
  rfl

theorem acBitsFrom_of_zero (t : Option HEntry) (h : zs.getD k 0 = 0) (prev n : Nat) :
    acBitsFrom t zs prev k (n + 1) = acBitsFrom t zs prev (k + 1) n := by
  rw [acBitsFrom, nonzeros_of_zero h, acBitsFrom]

theorem acBitsFrom_of_ne_zero (t : Option HEntry) (h : zs.getD k 0 ≠ 0) (prev n : Nat) :
    acBitsFrom t zs prev k (n + 1) = runBits t zs (k, prev) ++ acBitsFrom t zs k (k + 1) n := by
  rw [acBitsFrom, nonzeros_of_ne_zero h, List.zip_cons_cons, List.flatMap_cons, List.getLastD_cons, List.append_assoc,
    acBitsFrom]

end

/-- The AC loop, after a run of zeros from `prev` to `k`. -/
theorem putAcs_eq {t : Option HEntry} (ht : AcTable t) {zs : List Int} (hz : zs.length = 64) {prev k n : Nat}
    (hk : k + n = 64) (hprev : prev < k) (p : Packer) :
    putAcs t (zs.drop k) (k - prev - 1) p = .ok ((acBitsFrom t zs prev k n).foldl Packer.putBit p) := by
  obtain ⟨heob, hzrl, hcoef⟩ := ht
  induction n generalizing prev k p with
  | zero =>
    rw [List.drop_eq_nil_of_le (by omega), putAcs]
    by_cases hlast : prev = 63
    · rw [if_neg (by omega), acBitsFrom]
      simp [nonzeros, hlast]
    · rw [if_pos (by omega), putCode_eq heob, acBitsFrom]
      simp [nonzeros, hlast]
  | succ n ih =>
    have hlt : k < zs.length := by omega
    have hget : zs.getD k 0 = zs[k] := List.getD_eq_getElem _ _ hlt
    rw [List.drop_eq_getElem_cons hlt, putAcs, ← hget]
    by_cases h0 : zs.getD k 0 = 0
    · rw [if_pos (clampInt_eq_zero_iff.2 h0), acBitsFrom_of_zero t h0, ← ih (by omega) (by omega)]
      congr 1
      omega
    · have hclamp := clampInt_between (v := zs.getD k 0) (show (-1023 : Int) ≤ 1023 by decide)
      have hne := mt clampInt_eq_zero_iff.1 h0
      have hcode := hcoef ((k - prev - 1) % 16) (Nat.mod_lt _ (by decide)) _
        (Nat.lt_succ_of_le (nbits_le (s := 10) (by omega))) (nbits_ne_zero hne)
      have hnext := ih (prev := k) (k := k + 1) (by omega) (by omega)
      rw [Nat.add_sub_cancel_left, Nat.sub_self] at hnext
      rw [if_neg hne, acBitsFrom_of_ne_zero t h0, putZrls_eq hzrl, except_ok_bind, putCoef_eq hcode, except_ok_bind, hnext,
        List.foldl_append, runBits, List.foldl_append]

/-! ## A block (R410) -/

/-- The bits of a block, where `pred` is the DC coefficient it is predicted from. -/
def blockBits (c : Fin 3) (zs : List Int) (pred : Int) : List Bool :=
  coefBits (if c = 0 then dcL else dcC) 0 (zs.getD 0 0 - pred) ++ acBits (if c = 0 then acL else acC) zs

theorem dcTable_component (c : Fin 3) : DcTable (if c = 0 then dcL else dcC) := by
  split
  · exact dcL_codes
  · exact dcC_codes

theorem acTable_component (c : Fin 3) : AcTable (if c = 0 then acL else acC) := by
  split
  · exact acL_codes
  · exact acC_codes

theorem encodeBlock_eq {c : Fin 3} {zs : List Int} {e : Enc} (he : e.PredsOk) (hl : zs.length = 64)
    (hz : -1025 ≤ zs.getD 0 0 ∧ zs.getD 0 0 ≤ 1017) (p : Packer) :
    encodeBlock c zs e p = .ok (e.setPred c (BitVec.ofInt 32 (zs.getD 0 0)),
      (blockBits c zs (e.pred c).toInt).foldl Packer.putBit p) := by
  obtain ⟨hlow, hhigh⟩ := he.pred c
  have hcat : nbits (zs.getD 0 0 - (e.pred c).toInt) < 12 := Nat.lt_succ_of_le (nbits_le (by omega))
  have hdc : HasCode (if c = 0 then dcL else dcC) (0 * 16 + nbits (zs.getD 0 0 - (e.pred c).toInt)) := by
    rw [Nat.zero_mul, Nat.zero_add]
    exact dcTable_component c _ hcat
  have hac := putAcs_eq (acTable_component c) hl (prev := 0) (k := 1) (n := 63) rfl Nat.one_pos
  rw [encodeBlock, putCoef_eq hdc, except_ok_bind, hac, except_ok_bind, blockBits, List.foldl_append, acBits_eq]

end Sys2Proof.Machine
end

section
/-! PROOFS. A band is its blocks' bits, one after the other, and leaves the last DC coefficients (R406, R410). -/

namespace Sys2Proof.Machine

/-! ## Predictors (R410) -/

/-- A coded block's DC coefficient lies in the range of quantized ones, and it has 64 coefficients. -/
def CodedOk (b : Fin 3 × List Int) : Prop := b.2.length = 64 ∧ -1025 ≤ b.2.getD 0 0 ∧ b.2.getD 0 0 ≤ 1017

theorem CodedOk.toInt_ofInt {b : Fin 3 × List Int} (h : CodedOk b) :
    (BitVec.ofInt 32 (b.2.getD 0 0)).toInt = b.2.getD 0 0 := by
  obtain ⟨-, hlow, hhigh⟩ := h
  exact BitVec.toInt_ofInt_eq_self (by decide) (by omega) (by omega)

/-- The encoder after a coded block, whose DC coefficient is its component's predictor. -/
def Enc.afterBlock (e : Enc) (b : Fin 3 × List Int) : Enc := e.setPred b.1 (BitVec.ofInt 32 (b.2.getD 0 0))

/-- The encoder after coded blocks. -/
def Enc.afterBlocks (e : Enc) (bs : List (Fin 3 × List Int)) : Enc :=
  e.withPreds (BitVec.ofInt 32 (e.dcAfter bs 0)) (BitVec.ofInt 32 (e.dcAfter bs 1)) (BitVec.ofInt 32 (e.dcAfter bs 2))

/-- The bits of coded blocks. -/
def Enc.blocksBits (e : Enc) (bs : List (Fin 3 × List Int)) : List Bool :=
  (List.range bs.length).flatMap fun j =>
    blockBits (bs.getD j (0, [])).1 (bs.getD j (0, [])).2 (e.dcAfter (bs.take j) (bs.getD j (0, [])).1)

theorem Enc.bandBits_eq (e : Enc) (cfg : Config) : e.bandBits cfg = e.blocksBits (e.bandBlocks cfg) := rfl

theorem Enc.pred_setPred (e : Enc) (c d : Fin 3) (x : Word) : (e.setPred c x).pred d = if c = d then x else e.pred d := by
  fin_cases c <;> fin_cases d <;> rfl

theorem Enc.setPred_withPreds (e : Enc) (c : Fin 3) (x p q r : Word) : (e.setPred c x).withPreds p q r = e.withPreds p q r := by
  fin_cases c <;> rfl

theorem Enc.PredsOk.setPred {e : Enc} (h : e.PredsOk) (c : Fin 3) {x : Word} (hx : predOk x) : (e.setPred c x).PredsOk := by
  obtain ⟨h0, h1, h2⟩ := h
  fin_cases c
  · exact ⟨hx, h1, h2⟩
  · exact ⟨h0, hx, h2⟩
  · exact ⟨h0, h1, hx⟩

/-- A block's DC coefficient replaces the predictor it was predicted from. -/
theorem Enc.dcAfter_cons (e : Enc) {b : Fin 3 × List Int} (hb : CodedOk b) (bs : List (Fin 3 × List Int)) (c : Fin 3) :
    e.dcAfter (b :: bs) c = (e.afterBlock b).dcAfter bs c := by
  by_cases hc : b.1 = c
  · rw [dcAfter, List.filter_cons_of_pos (by simpa using hc), List.map_cons, List.getLastD_cons, dcAfter, afterBlock,
      Enc.pred_setPred, if_pos hc, hb.toInt_ofInt]
  · simp [dcAfter, afterBlock, Enc.pred_setPred, hc]

theorem Enc.afterBlocks_nil (e : Enc) : e.afterBlocks [] = e := by
  simp only [afterBlocks, dcAfter, List.filter_nil, List.map_nil, List.getLastD_nil, BitVec.ofInt_toInt]
  rfl

theorem Enc.afterBlocks_cons (e : Enc) {b : Fin 3 × List Int} (hb : CodedOk b) (bs : List (Fin 3 × List Int)) :
    e.afterBlocks (b :: bs) = (e.afterBlock b).afterBlocks bs := by
  simp only [afterBlocks, e.dcAfter_cons hb]
  exact (Enc.setPred_withPreds ..).symm

theorem Enc.blocksBits_cons (e : Enc) {b : Fin 3 × List Int} (hb : CodedOk b) (bs : List (Fin 3 × List Int)) :
    e.blocksBits (b :: bs) = blockBits b.1 b.2 (e.pred b.1).toInt ++ (e.afterBlock b).blocksBits bs := by
  rw [blocksBits, List.length_cons, List.range_succ_eq_map, List.flatMap_cons, List.flatMap_map]
  simp only [List.getD_cons_zero, List.take_zero, Nat.succ_eq_add_one, List.getD_cons_succ, List.take_succ_cons,
    e.dcAfter_cons hb]
  rfl

/-! ## Blocks of samples (R406) -/

/-- The quantized coefficients of a block of samples. -/
def Enc.coded (e : Enc) (cfg : Config) (b : Fin 3 × List Byte) : Fin 3 × List Int :=
  (b.1, fdctZzQ cfg.fdct b.2 (if b.1 = 0 then e.ql else e.qc))

theorem Enc.afterBlock_tables (e : Enc) (b : Fin 3 × List Int) :
    (e.afterBlock b).ql = e.ql ∧ (e.afterBlock b).qc = e.qc := by
  unfold Enc.afterBlock
  generalize b.1 = c
  fin_cases c <;> exact ⟨rfl, rfl⟩

theorem Enc.coded_afterBlock (e : Enc) (b : Fin 3 × List Int) (cfg : Config) : (e.afterBlock b).coded cfg = e.coded cfg := by
  obtain ⟨hl, hc⟩ := e.afterBlock_tables b
  funext x
  rw [Enc.coded, hl, hc, Enc.coded]

theorem fdctZzQ_length (c : Choice) (smp q : List Byte) : (fdctZzQ c smp q).length = 64 := by
  rw [fdctZzQ, zigzagOut, List.length_map, List.length_range]

section
variable {e : Enc} (hl : TableOk e.ql) (hc : TableOk e.qc)
include hl hc

theorem Enc.table_ok (c : Fin 3) : TableOk (if c = 0 then e.ql else e.qc) := by
  split
  · exact hl
  · exact hc

theorem Enc.coded_ok (cfg : Config) (b : Fin 3 × List Byte) : CodedOk (e.coded cfg b) :=
  ⟨fdctZzQ_length .., fdctZzQ_dc_between _ _ _ ((Enc.table_ok hl hc b.1).getD_ne_zero (by decide))⟩

theorem encodeSamples_eq (cfg : Config) (he : e.PredsOk) (b : Fin 3 × List Byte) (p : Packer) :
    encodeSamples cfg b.1 b.2 e p = .ok (e.afterBlock (e.coded cfg b),
      (blockBits b.1 (e.coded cfg b).2 (e.pred b.1).toInt).foldl Packer.putBit p) := by
  have hany : ((List.range 64).any fun n => (if b.1 = 0 then e.ql else e.qc).getD n 0 == 0) = false :=
    List.any_eq_false.2 fun n hn => by
      rw [beq_iff_eq]
      exact (Enc.table_ok hl hc b.1).getD_ne_zero (List.mem_range.1 hn)
  obtain ⟨hlen, hz⟩ := Enc.coded_ok hl hc cfg b
  rw [encodeSamples, hany]
  exact encodeBlock_eq he hlen hz p

theorem encodeAll_eq (cfg : Config) (he : e.PredsOk) (bs : List (Fin 3 × List Byte)) (p : Packer) :
    encodeAll cfg bs e p = .ok (e.afterBlocks (bs.map (e.coded cfg)),
      (e.blocksBits (bs.map (e.coded cfg))).foldl Packer.putBit p) := by
  induction bs generalizing e p with
  | nil => rw [List.map_nil, Enc.afterBlocks_nil]; rfl
  | cons b bs ih =>
    have hb := Enc.coded_ok hl hc cfg b
    obtain ⟨hl', hc'⟩ := e.afterBlock_tables (e.coded cfg b)
    have hrest := ih (e := e.afterBlock (e.coded cfg b)) (hl'.symm ▸ hl) (hc'.symm ▸ hc) (he.setPred _ (predOk_ofInt hb.2))
    rw [encodeAll, encodeSamples_eq hl hc cfg he, except_ok_bind]
    dsimp only
    rw [hrest, Enc.coded_afterBlock, List.map_cons, Enc.afterBlocks_cons e hb, Enc.blocksBits_cons e hb, List.foldl_append]
    rfl

end

end Sys2Proof.Machine
end

section
/-! PROOFS. ENC_SCANLINE buffers or encodes a band, and ENC_FINISH supplies the rows missing and ends the stream (R405, R406,
R408, R414, R415). -/

namespace Sys2Proof.Machine

/-! ## Rows (R405) -/

theorem addRow_eq (cfg : Config) (row : List Word) (e : Enc) (p : Packer) :
    addRow cfg row e p =
      if e.band.length + 1 = 16 ∨ e.rows + 1 = e.h then
        encodeBand cfg (e.withRow row) p >>= fun r => .ok ({ r.1 with band := [] }, r.2)
      else .ok (e.withRow row, p) := by
  rw [addRow, ← Enc.withRow, Enc.withRow_band_length]
  rfl

/-- Of the encoder a band's bits depend on its rows, and not on the marks of the last one. -/
theorem Enc.withRow_bandBits (e : Enc) (row : List Word) (cfg : Config) :
    (e.withRow row).bandBits cfg = { e with band := e.band ++ [row] }.bandBits cfg := rfl

theorem addRow_band {cfg : Config} {e b : Enc} (row : List Word) (p : Packer) (ho : e.Open) (he : e.PredsOk)
    (hfull : e.band.length + 1 = 16 ∨ e.rows + 1 = e.h) (hb : b = { e with band := e.band ++ [row] }) :
    addRow cfg row e p = .ok (
      { e with
        band := [], last := some row, rows := e.rows + 1
        pred0 := BitVec.ofInt 32 (b.dcAfter (b.bandBlocks cfg) 0)
        pred1 := BitVec.ofInt 32 (b.dcAfter (b.bandBlocks cfg) 1)
        pred2 := BitVec.ofInt 32 (b.dcAfter (b.bandBlocks cfg) 2) },
      (b.bandBits cfg).foldl Packer.putBit p) := by
  subst hb
  have hband := encodeAll_eq (e := e.withRow row) ho.ql ho.qc cfg he
    ((List.range (ceilDiv e.w 16)).flatMap (e.withRow row).mcuBlocks) p
  rw [addRow_eq, if_pos hfull]
  exact congrArg (· >>= fun r : Enc × Packer => (.ok ({ r.1 with band := [] }, r.2) : Except Fault _)) hband

theorem exec_encScanline {s : State} {row : List Word} (hv : s.view = none) (ho : s.enc.isOpen = true)
    (hw : row.length = s.enc.w) (hr : s.enc.rows ≠ s.enc.h) :
    exec (.encScanline row) s = s.encDone .encScanline (addRow s.cfg row s.enc s.pk) := by
  refine (State.atCall_none hv).trans ?_
  rw [if_neg (by simp [ho]), if_neg (not_not.2 hw), if_neg hr]

/-! ## The blocks of an MCU (R406, R408) -/

section
variable (e : Enc) (mx : Nat) {r c : Nat} (hr : r < 8) (hc : c < 8)
include hr hc

theorem Enc.lumaBlock_getElem? (by' bx : Nat) :
    (e.lumaBlock mx by' bx)[8 * r + c]? =
      some (BitVec.ofInt 8 (lumaOf (e.pixel (8 * by' + r) (16 * mx + 8 * bx + c)))) := by
  rw [lumaBlock, List.getElem?_map, List.getElem?_range (by omega), Option.map_some, show (8 * r + c) / 8 = r by omega,
    show (8 * r + c) % 8 = c by omega]

theorem Enc.chromaBlock_getElem? (f : Word → Int) {x : Nat} (hx : x = 16 * mx + 2 * c) :
    (e.chromaBlock f mx)[8 * r + c]? =
      some (BitVec.ofInt 8 ((f (e.pixel (2 * r) x) + f (e.pixel (2 * r) (x + 1)) + f (e.pixel (2 * r + 1) x) +
        f (e.pixel (2 * r + 1) (x + 1)) + 2) / 4)) := by
  rw [chromaBlock, List.getElem?_map, List.getElem?_range (by omega), Option.map_some, show (8 * r + c) / 8 = r by omega,
    show (8 * r + c) % 8 = c by omega, hx]
  rfl

end

/-! ## The rows ENC_FINISH supplies (R415) -/

/-- Coding a block changes of the encoder only its component's predictor. -/
theorem encodeBlock_ok {c : Fin 3} {zs : List Int} {e e' : Enc} {p p' : Packer}
    (h : encodeBlock c zs e p = .ok (e', p')) : ∃ w, e' = e.setPred c w := by
  rw [encodeBlock] at h
  obtain ⟨p1, -, h⟩ := except_bind_ok.1 h
  obtain ⟨p2, -, h⟩ := except_bind_ok.1 h
  cases h
  exact ⟨_, rfl⟩

theorem encodeSamples_ok {cfg : Config} {c : Fin 3} {smp : List Byte} {e e' : Enc} {p p' : Packer}
    (h : encodeSamples cfg c smp e p = .ok (e', p')) : ∃ w, e' = e.setPred c w := by
  simp only [encodeSamples] at h
  generalize (if c = 0 then e.ql else e.qc) = q at h
  split at h
  · cases h
  · exact encodeBlock_ok h

/-- Coding blocks changes of the encoder only its predictors. -/
theorem encodeAll_ok {cfg : Config} {bs : List (Fin 3 × List Byte)} {e e' : Enc} {p p' : Packer}
    (h : encodeAll cfg bs e p = .ok (e', p')) : ∃ x y z, e' = e.withPreds x y z := by
  induction bs generalizing e p with
  | nil =>
    cases h
    exact ⟨e'.pred0, e'.pred1, e'.pred2, rfl⟩
  | cons b bs ih =>
    rw [encodeAll] at h
    obtain ⟨⟨e1, p1⟩, h1, h⟩ := except_bind_ok.1 h
    obtain ⟨w, rfl⟩ := encodeSamples_ok h1
    obtain ⟨x, y, z, rfl⟩ := ih h
    exact ⟨x, y, z, Enc.setPred_withPreds ..⟩

/-- A row is added to an open encoder, which stays open. -/
theorem addRow_ok {cfg : Config} {row : List Word} {e e' : Enc} {p p' : Packer} (h : addRow cfg row e p = .ok (e', p')) :
    e'.isOpen = e.isOpen ∧ e'.h = e.h ∧ e'.rows = e.rows + 1 := by
  rw [addRow_eq] at h
  split at h
  · obtain ⟨⟨e1, p1⟩, hband, h⟩ := except_bind_ok.1 h
    obtain ⟨a, b, c, rfl⟩ := encodeAll_ok hband
    cases h
    exact ⟨rfl, rfl, rfl⟩
  · cases h
    exact ⟨rfl, rfl, rfl⟩

/-! ## The end of the stream (R414, R415) -/

/-- The rows missing are added, the partial byte is padded, EOI follows, and the encoder closes (R415). -/
def finishEnc (cfg : Config) (e : Enc) (p : Packer) : Except Fault (Enc × Packer) := do
  let (e, p) ← addMissing cfg (e.h - e.rows) e p
  .ok ({ e with isOpen := false, ended := true }, p.pad.append [0xFF, 0xD9])

theorem exec_encFinish {s : State} (hv : s.view = none) (ho : s.enc.isOpen = true) :
    exec .encFinish s = s.encDone .encFinish (finishEnc s.cfg s.enc s.pk) := by
  refine (State.atCall_none hv).trans ?_
  rw [if_neg (by simp [ho])]
  rfl

/-- With rows missing the first of them is added. -/
theorem finishEnc_of_lt {cfg : Config} {e e' : Enc} {p p' : Packer} (hr : e.rows < e.h)
    (h : addRow cfg e.fill e p = .ok (e', p')) : finishEnc cfg e p = finishEnc cfg e' p' := by
  obtain ⟨-, hh, hrows⟩ := addRow_ok h
  rw [finishEnc, show e.h - e.rows = e'.h - e'.rows + 1 by omega, addMissing, h, except_ok_bind]
  rfl

theorem finishEnc_of_eq {cfg : Config} {e : Enc} (hr : e.rows = e.h) (p : Packer) :
    finishEnc cfg e p = .ok ({ e with isOpen := false, ended := true }, p.pad.append [0xFF, 0xD9]) := by
  have hnone : e.h - e.rows = 0 := by omega
  simp only [finishEnc, hnone, addMissing, except_ok_bind]

theorem lowBits_ones (n : Nat) : lowBits (2 ^ n - 1) n = List.replicate n true := by
  refine List.ext_getElem (by simp [lowBits]) fun i hi _ => ?_
  simp only [lowBits, List.length_map, List.length_range] at hi
  have hlow : n - 1 - i < n := by omega
  simp [lowBits, Nat.testBit_two_pow_sub_one, hlow]

theorem bitsValue_ones (n : Nat) : bitsValue (List.replicate n true) = 2 ^ n - 1 := by
  induction n with
  | zero => rfl
  | succ n ih =>
    have := Nat.two_pow_pos n
    rw [List.replicate_succ', bitsValue_append, ih, Nat.pow_succ, Bool.toNat_true]
    omega

/-- The bits 1 fill the partial byte. -/
theorem Packer.pad_partial {p : Packer} (h0 : 0 < p.cnt) (h8 : p.cnt < 8) {last : Byte}
    (hlast : last = BitVec.ofNat 8 (p.acc.toNat * 2 ^ (8 - p.cnt) + (2 ^ (8 - p.cnt) - 1))) :
    p.pad = { acc := 0, cnt := 0, outq := p.outq ++ if last = 0xFF then [0xFF, 0x00] else [last] } := by
  have hgathered : p.gathered (List.replicate (8 - p.cnt) true) = last := by
    rw [Packer.gathered, bitsValue_ones, List.length_replicate, hlast]
  rw [Packer.pad, if_pos h0, Packer.put_eq_foldl, lowBits_ones,
    Packer.foldl_putBit_full h8 (by rw [List.length_replicate]; omega), hgathered]

/-- Settles O50: a band is coded block by block, the samples are the pixels of the padded band, ENC_FINISH adds the rows
missing one by one, and the pad is bits 1. -/
theorem encoderRowsAndFinish : Obligations.EncoderRowsAndFinish := by
  refine ⟨?buffered, ?band, ?blocks, ?missing, ?finish⟩
  case buffered =>
    intro s row hv ho hw hr hband hlast
    rw [exec_encScanline hv ho hw hr, addRow_eq, if_neg (not_or.2 ⟨hband, hlast⟩)]
    rfl
  case band =>
    intro s row e hv ho hw hr hfull hinv he
    obtain ⟨hopen, hpreds, -⟩ := State.encInv_iff.1 hinv
    rw [exec_encScanline hv ho hw hr, addRow_band row s.pk (hopen ho) hpreds hfull he]
    rfl
  case blocks =>
    intro e mx px hpx
    obtain rfl : px = e.pixel := funext₂ hpx
    refine ⟨_, _, _, _, _, _, rfl, fun r c hr hc => ⟨?_, ?_, ?_, ?_, fun x hx => ⟨?_, ?_⟩⟩⟩
    · simpa using e.lumaBlock_getElem? mx hr hc 0 0
    · simpa using e.lumaBlock_getElem? mx hr hc 0 1
    · simpa using e.lumaBlock_getElem? mx hr hc 1 0
    · simpa using e.lumaBlock_getElem? mx hr hc 1 1
    · exact e.chromaBlock_getElem? mx hr hc cbOf hx
    · exact e.chromaBlock_getElem? mx hr hc crOf hx
  case missing =>
    intro s u row hv ho hr hrow hw hu
    rw [exec_encScanline hv ho hw hr.ne] at hu
    obtain ⟨e, p, hadd, rfl⟩ := State.encDone_next hu
    obtain ⟨hopen, -, -⟩ := addRow_ok hadd
    subst hrow
    rw [exec_encFinish hv ho, exec_encFinish (by exact hv) (by exact hopen.trans ho), finishEnc_of_lt hr hadd]
    rfl
  case finish =>
    intro s hv ho hr
    refine ⟨s.pk.pad.append [0xFF, 0xD9], ?_, fun h0 => ?_, fun h0 h8 last hlast => ?_⟩
    · rw [exec_encFinish hv ho, finishEnc_of_eq hr]
      rfl
    · rw [Packer.pad, if_neg (by omega), Packer.append]
    · rw [Packer.pad_partial h0 h8 hlast, Packer.append]

end Sys2Proof.Machine
end

section
/-! PROOFS. A unit that raises: where its step goes (R141, R444), and what the run then shows (R21, R441; log 28). -/

namespace Sys2Proof.Machine

/-- R444: whatever the error, a corrupt stream or a refused allocation, a unit that raises it takes ENTER_ERROR. -/
theorem State.endUnit_error_raise (s : State) (e : Err) : s.endUnit (.error (.raise e)) = .next (s.takeError e) := rfl

/-- An error delivers no event and is the last outcome of its decode run, since DECODE begins none (R21, R441; log 28). -/
theorem State.takeError_observation (s : State) (e : Err) :
    (s.takeError e).observation = (s.observation.1, s.observation.2 ++ [.err e]) :=
  Prod.ext (s.takeError_events e) (decodeOutcomes_append (s.takeError_results e) (by decide))

/-- Settles O32: the next state is the one of `takeError`, whose registers are those of ENTER_ERROR at the unit's start. -/
theorem errorEntry : Obligations.ErrorEntry := by
  intro s e
  refine ⟨s.takeError e, s.endUnit_error_raise e, ?_⟩
  simp [s.takeError_observation e, Planes.free]

end Sys2Proof.Machine
end

section
/-! PROOFS. What RESET answers (R154, R480, R481), and the invariants of a freshly constructed core. -/

namespace Sys2Proof.Machine

/-! ## RESET -/

/-- RESET between commands constructs a fresh core with the same parameters, and keeps what belongs to the host (log 25). -/
theorem exec_reset {s : State} (hv : s.view = none) :
    exec .reset s = .next { State.fresh s.cfg with
      results := s.results ++ [(.reset, .ok)], hostq := s.hostq, answers := s.answers, reenters := s.reenters } :=
  State.atCall_none hv

/-- R231, R238: each context starts at MQ_INIT's value for it. -/
theorem initContexts_getElem? {cfg : Config} {n : Nat} (hn : n < cfg.nCx) :
    (initContexts cfg)[n]? = some (cfg.mqInit.getD n { i := 0, mps := false }) := by
  rw [initContexts, List.getElem?_map, List.getElem?_range hn, Option.map_some]

/-- No table is defined after reset (R480). -/
theorem Dec.reset_tables_undefined (j : Fin 4) :
    (Dec.reset.qt.get j).isDefined = false ∧ (Dec.reset.htDc.get j).isDefined = false ∧
      (Dec.reset.htAc.get j).isDefined = false := by
  have hq : Dec.reset.qt.get j = QEntry.reset := Quad.get_all _ j
  have hdc : Dec.reset.htDc.get j = HEntry.reset := Quad.get_all _ j
  have hac : Dec.reset.htAc.get j = HEntry.reset := Quad.get_all _ j
  rw [hq, hdc, hac]
  exact ⟨rfl, rfl, rfl⟩

/-- Settles O8: the next state is a fresh core, whose registers hold their reset values by definition; RESET's own outcome
begins both observations (log 28). -/
theorem resetState : Obligations.ResetState := by
  intro s hv
  refine ⟨_, exec_reset hv, rfl, ?decodeRun, ?encoderRun, rfl, rfl, rfl, rfl, rfl, ?tables, rfl, rfl, rfl, rfl, rfl, rfl,
    rfl, rfl, rfl, rfl, rfl, rfl, rfl, rfl, rfl, rfl, rfl, rfl, ?contextCount, ?contexts, rfl, rfl, rfl, rfl, rfl, rfl,
    rfl, rfl, rfl, rfl, rfl, rfl⟩
  case decodeRun => exact Prod.ext rfl (outcomes_reset rfl).1
  case encoderRun => exact Prod.ext rfl (outcomes_reset rfl).2
  case tables => exact Dec.reset_tables_undefined
  case contextCount => exact initContexts_length s.cfg
  case contexts => exact fun _ hn => initContexts_getElem? hn

/-! ## The invariants of a fresh core, whatever its parameters -/

theorem State.MemInv.fresh (cfg : Config) : (State.fresh cfg).MemInv := ⟨State.reset_mem_wf, State.reset_mem_wf⟩

/-- No unit is in progress in a fresh core, and no DECODE (R480). -/
theorem State.PhaseInv.fresh (cfg : Config) : (State.fresh cfg).PhaseInv :=
  ⟨Dec.PhaseInv.reset, Dec.PhaseInv.reset, fun hsnap => absurd rfl hsnap, fun _ => rfl⟩

theorem predOk_zero : predOk 0 := ⟨by decide, by decide⟩

theorem Enc.reset_predsOk : Enc.reset.PredsOk := ⟨predOk_zero, predOk_zero, predOk_zero⟩

theorem Packer.reset_soundFrom : Packer.reset.SoundFrom Enc.reset.start := ⟨by decide, Nat.le_refl 0⟩

/-- The encoder is closed, and its run begins with OUTQ (R390 to R392). -/
theorem State.EncInv.fresh (cfg : Config) : (State.fresh cfg).EncInv :=
  State.encInv_iff.2 ⟨nofun, Enc.reset_predsOk, Packer.reset_soundFrom⟩

/-- Settles O9: each invariant holds of a core fresh from its construction; only the MQ engine's asks something of the
parameters, that MQ_INIT names rows of the ROM, and those of log 6 list no row. -/
theorem invariantsAtReset : Obligations.InvariantsAtReset := by
  have hinit : ∀ c ∈ Config.default.mqInit, c.i ≤ 46 := List.forall_mem_nil _
  exact ⟨.fresh _, .of_view_none rfl, .fresh _, .fresh hinit, .fresh _, .of_not_mem List.not_mem_nil⟩

end Sys2Proof.Machine
end
